-- ==== Sys2Proof/Word.lean ====
section
/-! DEFINITION. Widths, register indices and the real numbers of VMDSP-CORE
(spec/00_scope.md R7, R9, R12; spec/10_state.md R20 to R29). -/

namespace Sys2Proof

/-! ## Sizes of the register layout (R7) -/

/-- The parameters of R7 that the types of the registers depend on. -/
structure Config.Layout where
  /-- `XLEN`: width of an integer scalar register and of a symbol-buffer element -/
  xlen : Nat
  /-- `NX`: number of integer scalar registers -/
  nx : Nat
  /-- `NR`: number of real scalar registers -/
  nr : Nat
  /-- `NB`: number of byte buffer registers -/
  nb : Nat
  /-- `NS`: number of symbol buffer registers -/
  ns : Nat
  /-- `NF`: number of real-sample buffer registers -/
  nf : Nat
  /-- `NZ`: number of complex-sample buffer registers -/
  nz : Nat
deriving DecidableEq, Repr

/-- The values taken in R7. This record is the one place where they stand: the register files, the words, the
field checks and the clamp of R15 read it. -/
abbrev Config.layout : Config.Layout where
  xlen := 32
  nx := 8
  nr := 8
  nb := 4
  ns := 4
  nf := 8
  nz := 4

abbrev Config.xlen : Nat := Config.layout.xlen
abbrev Config.nx : Nat := Config.layout.nx
abbrev Config.nr : Nat := Config.layout.nr
abbrev Config.nb : Nat := Config.layout.nb
abbrev Config.ns : Nat := Config.layout.ns
abbrev Config.nf : Nat := Config.layout.nf
abbrev Config.nz : Nat := Config.layout.nz

/-! ## Words and indices -/

/-- An `XLEN`-bit integer: an integer register, a symbol-buffer element, `ERRINFO` (R7, R21, R27, R31). Read as a
signed two's complement number with `BitVec.toInt`. -/
abbrev Word := BitVec Config.xlen

/-- A command word (R70): 32 bits, whatever `XLEN` is. -/
abbrev CmdWord := BitVec 32

/-- One byte of a byte buffer, `0..255` (R26). -/
abbrev Byte := BitVec 8

/-- One 4-bit operand field of a command word (R70). -/
abbrev Nibble := BitVec 4

/-- Index of an integer scalar register (R21). -/
abbrev XReg := Fin Config.nx
/-- Index of a real scalar register (R23). -/
abbrev RReg := Fin Config.nr
/-- Index of a byte buffer register (R26). -/
abbrev BReg := Fin Config.nb
/-- Index of a symbol buffer register (R27). -/
abbrev SReg := Fin Config.ns
/-- Index of a real-sample buffer register (R28). -/
abbrev FReg := Fin Config.nf
/-- Index of a complex-sample buffer register (R29). -/
abbrev ZReg := Fin Config.nz

/-- The arithmetic operations whose results `NUM = binary64` rounds (R12). -/
inductive Config.FpOp where
  | plus
  | minus
  | times
  | ratio
  | negate
  | cosine
  | sine
  | exponential
  | squareRoot
  /-- the constant `pi` -/
  | pi
  /-- the running sum after term `i` of a sum of `n` terms, from the running sum before it and the term: the
  source gives no order of summation, and every order is such a sequence of functions -/
  | runningSum (n i : Nat)
  /-- the tap `n` places from the centre of the low-pass design with `2*half + 1` taps (R147) -/
  | filterTap (half n : Nat)
deriving DecidableEq, Repr

/-- A real number, written out as plain data: a closed term over the rationals, `pi`, the arithmetic operations
and the functions the rules of the spec use. R12: "The reference semantics of every rule in this spec is over
the exact real numbers"; a result of `NUM = binary64` is a term `fp`. Which real a term stands for is
`XNum.toReal` (`Sys2Proof/Machine/Real.lean`); the machine builds terms with the operations of that file, so
that an exact computation on rationals stays a rational. -/
inductive XNum where
  /-- an exact rational -/
  | rat (q : ℚ)
  /-- a real without a closed form, put into a register by the host (R23, R28, R61: "one real
  number"): which real it is, is left free (`Config.givenReal`) -/
  | given (n : Nat)
  | pi
  | plus (a b : XNum)
  | minus (a b : XNum)
  | times (a b : XNum)
  | ratio (a b : XNum)
  | negOf (a : XNum)
  | cosOf (a : XNum)
  | sinOf (a : XNum)
  | expOf (a : XNum)
  | sqrtOf (a : XNum)
  /-- the tap `n` places from the centre of the least-squares low-pass filter with `2*half + 1` taps,
  sample rate `fs`, pass edge `lo` and stop edge `hi` (R147) -/
  | lsqTap (fs lo hi : XNum) (half n : Nat)
  /-- the result of an operation under `NUM = binary64`: a configuration function of its operands (R12,
  `Config.binary64`); an operand the operation does not have is 0 -/
  | fp (op : Config.FpOp) (a b c : XNum)
deriving DecidableEq, Repr

/-- A complex number as a pair of reals (R29). -/
structure Cplx where
  re : XNum
  im : XNum
deriving DecidableEq, Repr

end Sys2Proof
end

