-- ==== Sys2Proof/Syntax.lean ====
section
/-! DEFINITION. The 46 commands of spec/30_encoding.md R72, one constructor per row of
spec/opcode_table.json, operands in the assembler's order (R70), each operand the index of a register
of the one class the command fixes (R24, R71). -/

namespace Sys2Proof

/-- A command of `VMDSP-CMD v1` (R72). -/
inductive Instr where
  | rdbit (xd : XReg) (bs : BReg) (xp : XReg)
  | rdbits (sd : SReg) (bs : BReg)
  | wrbit (bd : BReg) (xp xv : XReg)
  | enc2 (sd : SReg) (bs : BReg)
  | enc4 (sd : SReg) (bs : BReg)
  | enc8 (sd : SReg) (bs : BReg)
  | enc16 (sd : SReg) (bs : BReg)
  | enc32 (sd : SReg) (bs : BReg)
  | enc64 (sd : SReg) (bs : BReg)
  | enc256 (sd : SReg) (bs : BReg)
  | dec2 (bd : BReg) (ss : SReg)
  | dec4 (bd : BReg) (ss : SReg)
  | dec8 (bd : BReg) (ss : SReg)
  | dec16 (bd : BReg) (ss : SReg)
  | dec32 (bd : BReg) (ss : SReg)
  | dec64 (bd : BReg) (ss : SReg)
  | dec256 (bd : BReg) (ss : SReg)
  | eccencNone (bd bs : BReg)
  | eccencRaw (bd bs : BReg)
  | hamenc (bd bs : BReg)
  | eccdecNone (bd bs : BReg)
  | eccdecRaw (bd bs : BReg)
  | hamdec (bd bs : BReg)
  | timearr (fd : FReg) (rfs : RReg) (xn : XReg)
  | sps (rd rfs rbaud : RReg)
  | shres (fd ft : FReg) (rbaud : RReg) (fv : FReg)
  | gausswin (fd : FReg) (rfs rsigma : RReg)
  | lpfir (fd : FReg) (rfs rlo rhi : RReg)
  | lpfira (fd : FReg) (rfs rlo rhi ratt : RReg)
  | goertz (zd : ZReg) (fd : FReg) (rfreq rfs : RReg)
  | avgint (rd : RReg) (fa : FReg) (rbegin rend : RReg)
  | conv (fd fa fk : FReg)
  | cfgask (rfs rcar rbaud : RReg) (famp : FReg)
  | cfgfsk (rfs ramp rbaud : RReg) (ffreq : FReg)
  | cfgpsk (rfs rcar ramp rbaud : RReg) (fph : FReg)
  | cfgqam (rfs rcar rbaud : RReg) (zcon : ZReg)
  | slice (sd : SReg) (fobs : FReg)
  | slicez (sd : SReg) (zobs : ZReg)
  | modask (fd : FReg) (ss : SReg)
  | modfsk (fd : FReg) (ss : SReg)
  | modpsk (fd : FReg) (ss : SReg)
  | modqam (fd : FReg) (ss : SReg)
  | demask (sd : SReg) (fx : FReg)
  | demfsk (sd : SReg) (fx : FReg)
  | dempsk (sd : SReg) (fx : FReg)
  | demqam (sd : SReg) (fx : FReg)
deriving DecidableEq, Repr

/-- The source's ECC mode names, as the assembler writes them (R73, R77). -/
inductive EccMode where
  | none
  | raw
  | hamming_7_4
deriving DecidableEq, Repr

/-- A command word cut into its fields, format `F6` (R70). -/
structure RawCommand where
  op : BitVec 8
  fa : Nibble
  fb : Nibble
  fc : Nibble
  fd : Nibble
  fe : Nibble
  ff : Nibble
deriving DecidableEq, Repr

/-- What a field of a row of R72 holds: a register of one class (R71), the fixed ECC mode (R73), or
nothing, in which case it must be 0 (R70). -/
inductive FieldKind where
  | x
  | r
  | b
  | s
  | f
  | z
  | unused
  | mode (m : Nibble)
deriving DecidableEq, Repr

/-- A row of the opcode map R72: opcode value and the kinds of the fields `A..F`. -/
structure Row where
  op : BitVec 8
  ka : FieldKind
  kb : FieldKind
  kc : FieldKind
  kd : FieldKind
  ke : FieldKind
  kf : FieldKind
deriving DecidableEq, Repr

/-- R78 (a), R117: the source's mapping from alphabet size to encoder, the assembler's `ENCN`. -/
def Instr.encN (sd : SReg) (bs : BReg) (n : Nat) : Option Instr :=
  match n with
  | 2 => some (.enc2 sd bs)
  | 4 => some (.enc4 sd bs)
  | 8 => some (.enc8 sd bs)
  | 16 => some (.enc16 sd bs)
  | 32 => some (.enc32 sd bs)
  | 64 => some (.enc64 sd bs)
  | 256 => some (.enc256 sd bs)
  | _ => none

/-- R78 (a), R117: the source's mapping from alphabet size to decoder, the assembler's `DECN`. -/
def Instr.decN (bd : BReg) (ss : SReg) (n : Nat) : Option Instr :=
  match n with
  | 2 => some (.dec2 bd ss)
  | 4 => some (.dec4 bd ss)
  | 8 => some (.dec8 bd ss)
  | 16 => some (.dec16 bd ss)
  | 32 => some (.dec32 bd ss)
  | 64 => some (.dec64 bd ss)
  | 256 => some (.dec256 bd ss)
  | _ => none

/-- R77, R78 (b): the generic spelling `ECCENC bd, bs, mode`. -/
def Instr.eccenc (bd bs : BReg) : EccMode → Instr
  | .none => .eccencNone bd bs
  | .raw => .eccencRaw bd bs
  | .hamming_7_4 => .hamenc bd bs

/-- R77, R78 (b): the generic spelling `ECCDEC bd, bs, mode`. -/
def Instr.eccdec (bd bs : BReg) : EccMode → Instr
  | .none => .eccdecNone bd bs
  | .raw => .eccdecRaw bd bs
  | .hamming_7_4 => .hamdec bd bs

end Sys2Proof
end

