-- ==== Sys2Proof/WellFormed.lean ====
section
/-! DEFINITION. Which command words are legal: the opcode map of spec/30_encoding.md R72 as a table, and
the four conditions of R74 that make a word illegal, each a check of its own. The operands of an `Instr`
are typed register indices (R24), so an ill-formed command exists only as a word. -/

namespace Sys2Proof

/-- A row with the opcode and the kinds of the used fields; the fields after them are unused (R70). -/
def Row.of (op : BitVec 8) : List FieldKind → Row
  | [ka, kb] => ⟨op, ka, kb, .unused, .unused, .unused, .unused⟩
  | [ka, kb, kc] => ⟨op, ka, kb, kc, .unused, .unused, .unused⟩
  | [ka, kb, kc, kd] => ⟨op, ka, kb, kc, kd, .unused, .unused⟩
  | [ka, kb, kc, kd, ke] => ⟨op, ka, kb, kc, kd, ke, .unused⟩
  | _ => ⟨op, .unused, .unused, .unused, .unused, .unused, .unused⟩

/-- A row of ECCENC or ECCDEC: two byte buffers and the fixed mode in field `F` (R73). -/
def Row.ecc (op : BitVec 8) (m : Nibble) : Row := ⟨op, .b, .b, .unused, .unused, .unused, .mode m⟩

/-- The opcode map R72, row by row. -/
def opcodeMap : List Row := [
  .of 0x10 [.x, .b, .x], .of 0x11 [.s, .b], .of 0x12 [.b, .x, .x],
  .of 0x21 [.s, .b], .of 0x22 [.s, .b], .of 0x23 [.s, .b], .of 0x24 [.s, .b], .of 0x25 [.s, .b],
  .of 0x26 [.s, .b], .of 0x28 [.s, .b],
  .of 0x31 [.b, .s], .of 0x32 [.b, .s], .of 0x33 [.b, .s], .of 0x34 [.b, .s], .of 0x35 [.b, .s],
  .of 0x36 [.b, .s], .of 0x38 [.b, .s],
  .ecc 0x40 0, .ecc 0x40 1, .ecc 0x40 2, .ecc 0x41 0, .ecc 0x41 1, .ecc 0x41 2,
  .of 0x50 [.f, .r, .x], .of 0x51 [.r, .r, .r], .of 0x52 [.f, .f, .r, .f], .of 0x53 [.f, .r, .r],
  .of 0x54 [.f, .r, .r, .r], .of 0x55 [.f, .r, .r, .r, .r], .of 0x56 [.z, .f, .r, .r],
  .of 0x57 [.r, .f, .r, .r], .of 0x58 [.f, .f, .f],
  .of 0x60 [.r, .r, .r, .f], .of 0x61 [.r, .r, .r, .f], .of 0x62 [.r, .r, .r, .r, .f],
  .of 0x63 [.r, .r, .r, .z],
  .of 0x68 [.s, .f], .of 0x69 [.s, .z],
  .of 0x70 [.f, .s], .of 0x71 [.f, .s], .of 0x72 [.f, .s], .of 0x73 [.f, .s],
  .of 0x78 [.s, .f], .of 0x79 [.s, .f], .of 0x7A [.s, .f], .of 0x7B [.s, .f]]

/-- R71, R70, R73: a field value fits what the row puts there. -/
def FieldKind.admits (k : FieldKind) (v : Nibble) : Bool :=
  match k with
  | .x => decide (v.toNat < Config.nx)
  | .r => decide (v.toNat < Config.nr)
  | .b => decide (v.toNat < Config.nb)
  | .s => decide (v.toNat < Config.ns)
  | .f => decide (v.toNat < Config.nf)
  | .z => decide (v.toNat < Config.nz)
  | .unused => decide (v = 0)
  | .mode m => decide (v = m)

/-- R74 (a): the opcode value is one of those of R72. -/
def RawCommand.opListed (c : RawCommand) : Bool := opcodeMap.any fun row => decide (row.op = c.op)

/-- R74 (d): for the ECC opcodes, field `F` is a mode of R73. -/
def RawCommand.modeListed (c : RawCommand) : Bool :=
  !(decide (c.op = 0x40) || decide (c.op = 0x41)) || decide (c.ff.toNat ≤ 2)

/-- The row's kind for a field is met, looking only at the fields of the kinds `pick` selects. -/
def RawCommand.fieldsMeet (pick : FieldKind → Bool) (c : RawCommand) (row : Row) : Bool :=
  [(row.ka, c.fa), (row.kb, c.fb), (row.kc, c.fc), (row.kd, c.fd), (row.ke, c.fe), (row.kf, c.ff)].all
    fun kv => !pick kv.1 || kv.1.admits kv.2

/-- R74 (b): every field the command does not use is 0. -/
def RawCommand.unusedZero (c : RawCommand) (row : Row) : Bool :=
  c.fieldsMeet (fun k => decide (k = .unused)) row

/-- R74 (c): every register field holds an index of its class. -/
def RawCommand.registersInRange (c : RawCommand) (row : Row) : Bool :=
  c.fieldsMeet (fun k => match k with | .unused | .mode _ => false | _ => true) row

/-- The mode field of an ECC row is the row's own mode (R73). -/
def RawCommand.modeIs (c : RawCommand) (row : Row) : Bool :=
  c.fieldsMeet (fun k => match k with | .mode _ => true | _ => false) row

/-- R74, R75: a word is legal when it matches some row of R72 in its opcode, its mode field, its unused
fields and its register fields. -/
def RawCommand.legal (c : RawCommand) : Bool :=
  opcodeMap.any fun row =>
    decide (row.op = c.op) && c.modeIs row && c.unusedZero row && c.registersInRange row

end Sys2Proof
end

