-- ==== Sys2Proof/Decode.lean ====
section
/-! DEFINITION. Decoding and encoding of command words (spec/30_encoding.md R70 to R77): a total decoder
on words, rejecting by the name of the condition of R74 that fails; after it the encoder, written from the
same table R72; and the assembler's spelling of a command (R77). -/

namespace Sys2Proof

/-- Which condition of R74 makes a word illegal. -/
inductive IllegalReason where
  /-- R74 (a): the opcode value is not one of R72 -/
  | opcode
  /-- R74 (b): a field the command does not use is not 0 -/
  | unusedField
  /-- R74 (c): a register field holds an index outside its class -/
  | register
  /-- R74 (d): an ECC opcode with a mode above 2 -/
  | mode
deriving DecidableEq, Repr

/-- The fields of a word (R70): `w[31:24]` is `op`, then six nibbles from `w[23:20]` down. -/
def splitWord (w : CmdWord) : RawCommand where
  op := w.extractLsb' 24 8
  fa := w.extractLsb' 20 4
  fb := w.extractLsb' 16 4
  fc := w.extractLsb' 12 4
  fd := w.extractLsb' 8 4
  fe := w.extractLsb' 4 4
  ff := w.extractLsb' 0 4

/-- The word with the given fields (R70). -/
def joinWord (c : RawCommand) : CmdWord :=
  c.op ++ c.fa ++ c.fb ++ c.fc ++ c.fd ++ c.fe ++ c.ff

/-- A field that names a register of a class of `n` (R71, R74 (c)). -/
def readReg (n : Nat) (v : Nibble) : Except IllegalReason (Fin n) :=
  if h : v.toNat < n then .ok ⟨v.toNat, h⟩ else .error .register

def regX : Nibble → Except IllegalReason XReg := readReg Config.nx
def regR : Nibble → Except IllegalReason RReg := readReg Config.nr
def regB : Nibble → Except IllegalReason BReg := readReg Config.nb
def regS : Nibble → Except IllegalReason SReg := readReg Config.ns
def regF : Nibble → Except IllegalReason FReg := readReg Config.nf
def regZ : Nibble → Except IllegalReason ZReg := readReg Config.nz

/-- R70: the fields a command does not use must be 0. -/
def unusedZero (vs : List Nibble) : Except IllegalReason Unit :=
  if vs.all (fun v => decide (v = 0)) then .ok () else .error .unusedField

/-- A command with operands in fields `A`, `B`. -/
def ops2 {α β : Type} (ra : Nibble → Except IllegalReason α) (rb : Nibble → Except IllegalReason β)
    (c : RawCommand) (k : α → β → Instr) : Except IllegalReason Instr := do
  unusedZero [c.fc, c.fd, c.fe, c.ff]
  let a ← ra c.fa
  let b ← rb c.fb
  return k a b

/-- A command with operands in fields `A` to `C`. -/
def ops3 {α β γ : Type} (ra : Nibble → Except IllegalReason α) (rb : Nibble → Except IllegalReason β)
    (rc : Nibble → Except IllegalReason γ) (c : RawCommand) (k : α → β → γ → Instr) :
    Except IllegalReason Instr := do
  unusedZero [c.fd, c.fe, c.ff]
  let a ← ra c.fa
  let b ← rb c.fb
  let d ← rc c.fc
  return k a b d

/-- A command with operands in fields `A` to `D`. -/
def ops4 {α β γ δ : Type} (ra : Nibble → Except IllegalReason α) (rb : Nibble → Except IllegalReason β)
    (rc : Nibble → Except IllegalReason γ) (rd : Nibble → Except IllegalReason δ) (c : RawCommand)
    (k : α → β → γ → δ → Instr) : Except IllegalReason Instr := do
  unusedZero [c.fe, c.ff]
  let a ← ra c.fa
  let b ← rb c.fb
  let d ← rc c.fc
  let e ← rd c.fd
  return k a b d e

/-- A command with operands in fields `A` to `E`. -/
def ops5 {α β γ δ ε : Type} (ra : Nibble → Except IllegalReason α) (rb : Nibble → Except IllegalReason β)
    (rc : Nibble → Except IllegalReason γ) (rd : Nibble → Except IllegalReason δ)
    (re : Nibble → Except IllegalReason ε) (c : RawCommand) (k : α → β → γ → δ → ε → Instr) :
    Except IllegalReason Instr := do
  unusedZero [c.ff]
  let a ← ra c.fa
  let b ← rb c.fb
  let d ← rc c.fc
  let e ← rd c.fd
  let g ← re c.fe
  return k a b d e g

/-- An ECC command: byte buffers in `A` and `B`, the mode in `F` already read (R73). -/
def opsEcc (c : RawCommand) (k : BReg → BReg → Instr) : Except IllegalReason Instr := do
  unusedZero [c.fc, c.fd, c.fe]
  let a ← regB c.fa
  let b ← regB c.fb
  return k a b

/-- R75: read `op` (and `F` for the ECC opcodes), look up the row, check the unused fields and the
register fields. -/
def decodeRaw (c : RawCommand) : Except IllegalReason Instr :=
  match c.op.toNat with
  | 0x10 => ops3 regX regB regX c .rdbit
  | 0x11 => ops2 regS regB c .rdbits
  | 0x12 => ops3 regB regX regX c .wrbit
  | 0x21 => ops2 regS regB c .enc2
  | 0x22 => ops2 regS regB c .enc4
  | 0x23 => ops2 regS regB c .enc8
  | 0x24 => ops2 regS regB c .enc16
  | 0x25 => ops2 regS regB c .enc32
  | 0x26 => ops2 regS regB c .enc64
  | 0x28 => ops2 regS regB c .enc256
  | 0x31 => ops2 regB regS c .dec2
  | 0x32 => ops2 regB regS c .dec4
  | 0x33 => ops2 regB regS c .dec8
  | 0x34 => ops2 regB regS c .dec16
  | 0x35 => ops2 regB regS c .dec32
  | 0x36 => ops2 regB regS c .dec64
  | 0x38 => ops2 regB regS c .dec256
  | 0x40 => match c.ff.toNat with
    | 0 => opsEcc c .eccencNone
    | 1 => opsEcc c .eccencRaw
    | 2 => opsEcc c .hamenc
    | _ => .error .mode
  | 0x41 => match c.ff.toNat with
    | 0 => opsEcc c .eccdecNone
    | 1 => opsEcc c .eccdecRaw
    | 2 => opsEcc c .hamdec
    | _ => .error .mode
  | 0x50 => ops3 regF regR regX c .timearr
  | 0x51 => ops3 regR regR regR c .sps
  | 0x52 => ops4 regF regF regR regF c .shres
  | 0x53 => ops3 regF regR regR c .gausswin
  | 0x54 => ops4 regF regR regR regR c .lpfir
  | 0x55 => ops5 regF regR regR regR regR c .lpfira
  | 0x56 => ops4 regZ regF regR regR c .goertz
  | 0x57 => ops4 regR regF regR regR c .avgint
  | 0x58 => ops3 regF regF regF c .conv
  | 0x60 => ops4 regR regR regR regF c .cfgask
  | 0x61 => ops4 regR regR regR regF c .cfgfsk
  | 0x62 => ops5 regR regR regR regR regF c .cfgpsk
  | 0x63 => ops4 regR regR regR regZ c .cfgqam
  | 0x68 => ops2 regS regF c .slice
  | 0x69 => ops2 regS regZ c .slicez
  | 0x70 => ops2 regF regS c .modask
  | 0x71 => ops2 regF regS c .modfsk
  | 0x72 => ops2 regF regS c .modpsk
  | 0x73 => ops2 regF regS c .modqam
  | 0x78 => ops2 regS regF c .demask
  | 0x79 => ops2 regS regF c .demfsk
  | 0x7A => ops2 regS regF c .dempsk
  | 0x7B => ops2 regS regF c .demqam
  | _ => .error .opcode

/-- The decoder: every word is a command or is rejected by name (R74, R75). -/
def decode (w : CmdWord) : Except IllegalReason Instr := decodeRaw (splitWord w)

/-- The field value of a register index (R71). -/
def nib {n : Nat} (i : Fin n) : Nibble := BitVec.ofNat 4 i.val

/-- The fields of a command, row by row as in R72. -/
def Instr.raw : Instr → RawCommand
  | .rdbit xd bs xp => ⟨0x10, (nib xd), (nib bs), (nib xp), 0, 0, 0⟩
  | .rdbits sd bs => ⟨0x11, (nib sd), (nib bs), 0, 0, 0, 0⟩
  | .wrbit bd xp xv => ⟨0x12, (nib bd), (nib xp), (nib xv), 0, 0, 0⟩
  | .enc2 sd bs => ⟨0x21, (nib sd), (nib bs), 0, 0, 0, 0⟩
  | .enc4 sd bs => ⟨0x22, (nib sd), (nib bs), 0, 0, 0, 0⟩
  | .enc8 sd bs => ⟨0x23, (nib sd), (nib bs), 0, 0, 0, 0⟩
  | .enc16 sd bs => ⟨0x24, (nib sd), (nib bs), 0, 0, 0, 0⟩
  | .enc32 sd bs => ⟨0x25, (nib sd), (nib bs), 0, 0, 0, 0⟩
  | .enc64 sd bs => ⟨0x26, (nib sd), (nib bs), 0, 0, 0, 0⟩
  | .enc256 sd bs => ⟨0x28, (nib sd), (nib bs), 0, 0, 0, 0⟩
  | .dec2 bd ss => ⟨0x31, (nib bd), (nib ss), 0, 0, 0, 0⟩
  | .dec4 bd ss => ⟨0x32, (nib bd), (nib ss), 0, 0, 0, 0⟩
  | .dec8 bd ss => ⟨0x33, (nib bd), (nib ss), 0, 0, 0, 0⟩
  | .dec16 bd ss => ⟨0x34, (nib bd), (nib ss), 0, 0, 0, 0⟩
  | .dec32 bd ss => ⟨0x35, (nib bd), (nib ss), 0, 0, 0, 0⟩
  | .dec64 bd ss => ⟨0x36, (nib bd), (nib ss), 0, 0, 0, 0⟩
  | .dec256 bd ss => ⟨0x38, (nib bd), (nib ss), 0, 0, 0, 0⟩
  | .eccencNone bd bs => ⟨0x40, (nib bd), (nib bs), 0, 0, 0, 0⟩
  | .eccencRaw bd bs => ⟨0x40, (nib bd), (nib bs), 0, 0, 0, 1⟩
  | .hamenc bd bs => ⟨0x40, (nib bd), (nib bs), 0, 0, 0, 2⟩
  | .eccdecNone bd bs => ⟨0x41, (nib bd), (nib bs), 0, 0, 0, 0⟩
  | .eccdecRaw bd bs => ⟨0x41, (nib bd), (nib bs), 0, 0, 0, 1⟩
  | .hamdec bd bs => ⟨0x41, (nib bd), (nib bs), 0, 0, 0, 2⟩
  | .timearr fd rfs xn => ⟨0x50, (nib fd), (nib rfs), (nib xn), 0, 0, 0⟩
  | .sps rd rfs rbaud => ⟨0x51, (nib rd), (nib rfs), (nib rbaud), 0, 0, 0⟩
  | .shres fd ft rbaud fv => ⟨0x52, (nib fd), (nib ft), (nib rbaud), (nib fv), 0, 0⟩
  | .gausswin fd rfs rsigma => ⟨0x53, (nib fd), (nib rfs), (nib rsigma), 0, 0, 0⟩
  | .lpfir fd rfs rlo rhi => ⟨0x54, (nib fd), (nib rfs), (nib rlo), (nib rhi), 0, 0⟩
  | .lpfira fd rfs rlo rhi ratt => ⟨0x55, (nib fd), (nib rfs), (nib rlo), (nib rhi), (nib ratt), 0⟩
  | .goertz zd fd rfreq rfs => ⟨0x56, (nib zd), (nib fd), (nib rfreq), (nib rfs), 0, 0⟩
  | .avgint rd fa rbegin rend => ⟨0x57, (nib rd), (nib fa), (nib rbegin), (nib rend), 0, 0⟩
  | .conv fd fa fk => ⟨0x58, (nib fd), (nib fa), (nib fk), 0, 0, 0⟩
  | .cfgask rfs rcar rbaud famp => ⟨0x60, (nib rfs), (nib rcar), (nib rbaud), (nib famp), 0, 0⟩
  | .cfgfsk rfs ramp rbaud ffreq => ⟨0x61, (nib rfs), (nib ramp), (nib rbaud), (nib ffreq), 0, 0⟩
  | .cfgpsk rfs rcar ramp rbaud fph => ⟨0x62, (nib rfs), (nib rcar), (nib ramp), (nib rbaud), (nib fph), 0⟩
  | .cfgqam rfs rcar rbaud zcon => ⟨0x63, (nib rfs), (nib rcar), (nib rbaud), (nib zcon), 0, 0⟩
  | .slice sd fobs => ⟨0x68, (nib sd), (nib fobs), 0, 0, 0, 0⟩
  | .slicez sd zobs => ⟨0x69, (nib sd), (nib zobs), 0, 0, 0, 0⟩
  | .modask fd ss => ⟨0x70, (nib fd), (nib ss), 0, 0, 0, 0⟩
  | .modfsk fd ss => ⟨0x71, (nib fd), (nib ss), 0, 0, 0, 0⟩
  | .modpsk fd ss => ⟨0x72, (nib fd), (nib ss), 0, 0, 0, 0⟩
  | .modqam fd ss => ⟨0x73, (nib fd), (nib ss), 0, 0, 0, 0⟩
  | .demask sd fx => ⟨0x78, (nib sd), (nib fx), 0, 0, 0, 0⟩
  | .demfsk sd fx => ⟨0x79, (nib sd), (nib fx), 0, 0, 0, 0⟩
  | .dempsk sd fx => ⟨0x7A, (nib sd), (nib fx), 0, 0, 0, 0⟩
  | .demqam sd fx => ⟨0x7B, (nib sd), (nib fx), 0, 0, 0, 0⟩

/-- The word of a command (R70, R72). -/
def encode (i : Instr) : CmdWord := joinWord i.raw

/-- A command is well formed when its fields are legal by R74. -/
def Instr.wellFormed (i : Instr) : Bool := i.raw.legal

/-- What the decoder reads from an instruction given as the number `w` of `nbits` bits, bit 0 the least
significant bit of the word. The block is handed whole 32-bit words (R25, R70), so the word is the number
itself; bits from `nbits` on are 0. -/
def decodeTableWord (nbits w : Nat) : Option Instr :=
  match decode (BitVec.ofNat 32 (w % 2 ^ nbits)) with
  | .ok i => some i
  | .error _ => none

/-- A register in the assembler's spelling: class letter and decimal index (R77). -/
def asmReg {n : Nat} (cls : String) (i : Fin n) : String := cls ++ String.singleton (Nat.digitChar i.val)

/-- A line of assembler: the mnemonic, then the operands in field order (R77). -/
def asmLine (mnemonic : String) (operands : List String) : String :=
  mnemonic ++ " " ++ String.intercalate ", " operands

/-- The assembler's spelling of a command (R72, R77). -/
def Instr.asm : Instr → String
  | .rdbit xd bs xp => asmLine "RDBIT" [asmReg "x" xd, asmReg "b" bs, asmReg "x" xp]
  | .rdbits sd bs => asmLine "RDBITS" [asmReg "s" sd, asmReg "b" bs]
  | .wrbit bd xp xv => asmLine "WRBIT" [asmReg "b" bd, asmReg "x" xp, asmReg "x" xv]
  | .enc2 sd bs => asmLine "ENC2" [asmReg "s" sd, asmReg "b" bs]
  | .enc4 sd bs => asmLine "ENC4" [asmReg "s" sd, asmReg "b" bs]
  | .enc8 sd bs => asmLine "ENC8" [asmReg "s" sd, asmReg "b" bs]
  | .enc16 sd bs => asmLine "ENC16" [asmReg "s" sd, asmReg "b" bs]
  | .enc32 sd bs => asmLine "ENC32" [asmReg "s" sd, asmReg "b" bs]
  | .enc64 sd bs => asmLine "ENC64" [asmReg "s" sd, asmReg "b" bs]
  | .enc256 sd bs => asmLine "ENC256" [asmReg "s" sd, asmReg "b" bs]
  | .dec2 bd ss => asmLine "DEC2" [asmReg "b" bd, asmReg "s" ss]
  | .dec4 bd ss => asmLine "DEC4" [asmReg "b" bd, asmReg "s" ss]
  | .dec8 bd ss => asmLine "DEC8" [asmReg "b" bd, asmReg "s" ss]
  | .dec16 bd ss => asmLine "DEC16" [asmReg "b" bd, asmReg "s" ss]
  | .dec32 bd ss => asmLine "DEC32" [asmReg "b" bd, asmReg "s" ss]
  | .dec64 bd ss => asmLine "DEC64" [asmReg "b" bd, asmReg "s" ss]
  | .dec256 bd ss => asmLine "DEC256" [asmReg "b" bd, asmReg "s" ss]
  | .eccencNone bd bs => asmLine "ECCENC.NONE" [asmReg "b" bd, asmReg "b" bs]
  | .eccencRaw bd bs => asmLine "ECCENC.RAW" [asmReg "b" bd, asmReg "b" bs]
  | .hamenc bd bs => asmLine "HAMENC" [asmReg "b" bd, asmReg "b" bs]
  | .eccdecNone bd bs => asmLine "ECCDEC.NONE" [asmReg "b" bd, asmReg "b" bs]
  | .eccdecRaw bd bs => asmLine "ECCDEC.RAW" [asmReg "b" bd, asmReg "b" bs]
  | .hamdec bd bs => asmLine "HAMDEC" [asmReg "b" bd, asmReg "b" bs]
  | .timearr fd rfs xn => asmLine "TIMEARR" [asmReg "f" fd, asmReg "r" rfs, asmReg "x" xn]
  | .sps rd rfs rbaud => asmLine "SPS" [asmReg "r" rd, asmReg "r" rfs, asmReg "r" rbaud]
  | .shres fd ft rbaud fv => asmLine "SHRES" [asmReg "f" fd, asmReg "f" ft, asmReg "r" rbaud, asmReg "f" fv]
  | .gausswin fd rfs rsigma => asmLine "GAUSSWIN" [asmReg "f" fd, asmReg "r" rfs, asmReg "r" rsigma]
  | .lpfir fd rfs rlo rhi => asmLine "LPFIR" [asmReg "f" fd, asmReg "r" rfs, asmReg "r" rlo, asmReg "r" rhi]
  | .lpfira fd rfs rlo rhi ratt => asmLine "LPFIRA" [asmReg "f" fd, asmReg "r" rfs, asmReg "r" rlo, asmReg "r" rhi, asmReg "r" ratt]
  | .goertz zd fd rfreq rfs => asmLine "GOERTZ" [asmReg "z" zd, asmReg "f" fd, asmReg "r" rfreq, asmReg "r" rfs]
  | .avgint rd fa rbegin rend => asmLine "AVGINT" [asmReg "r" rd, asmReg "f" fa, asmReg "r" rbegin, asmReg "r" rend]
  | .conv fd fa fk => asmLine "CONV" [asmReg "f" fd, asmReg "f" fa, asmReg "f" fk]
  | .cfgask rfs rcar rbaud famp => asmLine "CFGASK" [asmReg "r" rfs, asmReg "r" rcar, asmReg "r" rbaud, asmReg "f" famp]
  | .cfgfsk rfs ramp rbaud ffreq => asmLine "CFGFSK" [asmReg "r" rfs, asmReg "r" ramp, asmReg "r" rbaud, asmReg "f" ffreq]
  | .cfgpsk rfs rcar ramp rbaud fph => asmLine "CFGPSK" [asmReg "r" rfs, asmReg "r" rcar, asmReg "r" ramp, asmReg "r" rbaud, asmReg "f" fph]
  | .cfgqam rfs rcar rbaud zcon => asmLine "CFGQAM" [asmReg "r" rfs, asmReg "r" rcar, asmReg "r" rbaud, asmReg "z" zcon]
  | .slice sd fobs => asmLine "SLICE" [asmReg "s" sd, asmReg "f" fobs]
  | .slicez sd zobs => asmLine "SLICEZ" [asmReg "s" sd, asmReg "z" zobs]
  | .modask fd ss => asmLine "MODASK" [asmReg "f" fd, asmReg "s" ss]
  | .modfsk fd ss => asmLine "MODFSK" [asmReg "f" fd, asmReg "s" ss]
  | .modpsk fd ss => asmLine "MODPSK" [asmReg "f" fd, asmReg "s" ss]
  | .modqam fd ss => asmLine "MODQAM" [asmReg "f" fd, asmReg "s" ss]
  | .demask sd fx => asmLine "DEMASK" [asmReg "s" sd, asmReg "f" fx]
  | .demfsk sd fx => asmLine "DEMFSK" [asmReg "s" sd, asmReg "f" fx]
  | .dempsk sd fx => asmLine "DEMPSK" [asmReg "s" sd, asmReg "f" fx]
  | .demqam sd fx => asmLine "DEMQAM" [asmReg "s" sd, asmReg "f" fx]

end Sys2Proof
end

