-- ==== Sys2Proof/Config.lean ====
section
/-! DEFINITION. What an implementation fixes (the named parameters of spec/00_scope.md R7, gathered again
under "Open parameters in one place" of spec/92_eei_decisions.md) and the free values of the model. -/

namespace Sys2Proof.Config

/-- What HAMDEC does with an odd number of 7-bit groups: `HAM_ODD`, OPEN (R7, R136). -/
inductive HamOdd where
  /-- the default: `raise Length(G)` -/
  | fault
  /-- the last group's four bits are discarded -/
  | drop
  /-- the four bits become the high nibble of a last byte whose low nibble is 0 -/
  | zeroPad
deriving DecidableEq, Repr

/-- The numeric domain of real values, `NUM`, OPEN (R7, R12; U13 of spec/93). -/
inductive NumDomain where
  /-- the exact real numbers, the reference semantics of every rule -/
  | exact
  /-- IEEE 754 double precision: each arithmetic result is the configuration function `binary64` of its
  operands -/
  | binary64
deriving DecidableEq, Repr

/-- The parameters of R7 beside the sizes of `Config.layout` (`Sys2Proof/Word.lean`). R8: every literal of the
source stays a named parameter, none is written into a rule. Under `NUM = binary64` an implementation gives
here the numbers that its format holds for them. -/
structure Params where
  /-- `MAXLEN`: the largest element count of a buffer register; `none` is the unbounded machine
  ("infinity allowed", spec/93 U12) -/
  maxLen : Option Nat
  /-- `NMAX`: the largest alphabet a configuration can hold -/
  nMax : Nat
  /-- `NUM` -/
  num : NumDomain
  sigmaMultT : XNum
  sigmaMultF : XNum
  fskCycleFrac : XNum
  carrierWarnFrac : XNum
  lowAmpWarn : XNum
  askSepMin : XNum
  fskSepMin : XNum
  pskSepMin : XNum
  qamSepMin : XNum
  attDefault : XNum
  hamOdd : HamOdd
deriving DecidableEq, Repr

/-- A rational constant in lowest terms, as a term. -/
abbrev frac (n : Int) (d : Nat) (hd : d ≠ 0 := by decide)
    (hc : n.natAbs.Coprime d := by decide) : XNum :=
  .rat ⟨n, d, hd, hc⟩

/-- The values of R7's table and of R178: `MAXLEN = 2^24`, `NMAX = 256`, the source's constants, the
spec's own separation defaults `0.05`, `2`, `2*pi/64` and `0.05`, `ATT_DEFAULT = 80`,
`HAM_ODD = fault`. -/
def Params.default : Params where
  maxLen := some 16777216
  nMax := 256
  num := .exact
  sigmaMultT := frac 289 100
  sigmaMultF := frac 93 25
  fskCycleFrac := frac 1 4
  carrierWarnFrac := frac 1 3
  lowAmpWarn := frac 1 10
  askSepMin := frac 1 20
  fskSepMin := frac 2 1
  pskSepMin := .ratio (.times (frac 2 1) .pi) (frac 64 1)
  qamSepMin := frac 1 20
  attDefault := frac 80 1
  hamOdd := .fault

/-- FREE VALUE. The reals that the host may load and that have no closed form (R23, R61). Nothing
constrains which reals they are. -/
opaque givenReal : Nat → ℝ

/-- FREE VALUE. The results of `NUM = binary64`: R12 takes "each arithmetic result as a configuration function of
its operands". Nothing constrains which function it is, so a discrete result computed from one may fall on
either side of a boundary (U20 of spec/93). -/
opaque binary64 : FpOp → ℝ → ℝ → ℝ → ℝ

end Sys2Proof.Config
end

