-- ==== Sys2Proof/Machine/State.lean ====
section
/-! DEFINITION. The whole state of VMDSP-CORE (spec/10_state.md R20 to R35), the sequencer that runs a
program on it (R25), the reasons a step can stop, and the state after reset (R38). -/

namespace Sys2Proof.Machine

/-- Content of a byte buffer register: the bytes and the read-only attribute (R26). -/
structure ByteBuf where
  bytes : List Byte
  ro : Bool
deriving DecidableEq, Repr

/-- The modulator kinds, `CFG.MODE` (R34, R170). -/
inductive Mode where
  | ask
  | fsk
  | psk
  | qam
deriving DecidableEq, Repr

/-- The configuration bank `CFG` (R34). Real alphabets are stored with imaginary part 0. -/
structure ModemConfig where
  /-- `CFG.VALID` -/
  valid : Bool
  /-- `CFG.MODE` -/
  mode : Mode
  /-- `CFG.FS`, Hz -/
  fs : XNum
  /-- `CFG.BAUD`, symbols per second -/
  baud : XNum
  /-- `CFG.CARRIER`, Hz; 0 in fsk -/
  carrier : XNum
  /-- `CFG.AMP`; 0 in ask and qam -/
  amp : XNum
  /-- `CFG.N` -/
  n : Nat
  /-- `CFG.ALPHA[0..N-1]` -/
  alpha : List Cplx
deriving DecidableEq, Repr

/-- What a command hands the host (R32): error code, info value, and the set of warnings it raised in the
bit order of `STATUS[7:4]`. -/
structure Response where
  err : BitVec 4
  info : Word
  warn : BitVec 4
deriving DecidableEq, Repr

/-- The state. A scalar or buffer register is `none` while it is empty, which is a state the spec gives it
(R22: "An empty register has no value"), and `some` once it is written. -/
structure State where
  /-- `x0..x7` (R21) -/
  xReg : Vector (Option Word) Config.nx
  /-- `r0..r7` (R23) -/
  rReg : Vector (Option XNum) Config.nr
  /-- `b0..b3` (R26) -/
  bReg : Vector (Option ByteBuf) Config.nb
  /-- `s0..s3` (R27) -/
  sReg : Vector (Option (List Word)) Config.ns
  /-- `f0..f7` (R28) -/
  fReg : Vector (Option (List XNum)) Config.nf
  /-- `z0..z3` (R29) -/
  zReg : Vector (Option (List Cplx)) Config.nz
  /-- `CFG` (R34) -/
  cfg : ModemConfig
  /-- `STATUS.ERR`, bits 3:0 (R30) -/
  err : BitVec 4
  /-- `STATUS.WARN`, bits 7:4 (R30) -/
  warn : BitVec 4
  /-- `ERRINFO` (R31) -/
  errInfo : Word
  /-- the program the sequencer runs (R25) -/
  program : List CmdWord
  /-- the sequencer index (R25) -/
  pc : Nat
  /-- the model's own: a run is in progress; an error ends it (R251) -/
  running : Bool
  /-- the model's own: the response of the last command (R32 says it is no state of the block) -/
  response : Response
  /-- the model's own: the implementation's parameters (R7, R37), which no step changes -/
  params : Config.Params
deriving DecidableEq, Repr

/-- Why a step stops the machine. No rule of the spec does: an error of the block is a next state. -/
inductive Fault where
  /-- Raised by `step`: the sequencer index lies beyond the end of the program, which no run reaches
  (R25: `pc` runs from 0 to `m`). Safe. -/
  | pcBeyondProgram
deriving DecidableEq, Repr

/-- Why the model refuses. -/
inductive Refusal where
  /-- Raised by an arm of `exec` that has no meaning yet. Safe. -/
  | notModelled (mnemonic : String)
  /-- Raised by a host write of a buffer with more than `MAXLEN` elements, which R61 does not allow. Safe. -/
  | hostLoadTooLong
  /-- Raised by a host write of a NaN or an infinity: it is no real number (R23, R28, R29), and R13 asks a model to
  refuse it under `NUM = binary64`. Safe. -/
  | hostLoadNotReal
deriving DecidableEq, Repr

/-- The bank after reset: `VALID = 0` (R38). The other fields are unspecified there; the model gives them
zeros and an empty alphabet. DESIGN CHOICE, unsafe, notes/assumptions/3.md. -/
def ModemConfig.reset : ModemConfig where
  valid := false
  mode := .ask
  fs := .rat 0
  baud := .rat 0
  carrier := .rat 0
  amp := .rat 0
  n := 0
  alpha := []

/-- The state after reset (R38, R270): every register empty, `CFG.VALID = 0`, `STATUS = 0`,
`ERRINFO = 0`, `pc = 0`, no program loaded. -/
def State.reset : State where
  xReg := Vector.replicate Config.nx none
  rReg := Vector.replicate Config.nr none
  bReg := Vector.replicate Config.nb none
  sReg := Vector.replicate Config.ns none
  fReg := Vector.replicate Config.nf none
  zReg := Vector.replicate Config.nz none
  cfg := ModemConfig.reset
  err := 0
  warn := 0
  errInfo := 0
  program := []
  pc := 0
  running := true
  response := ⟨0, 0, 0⟩
  params := Config.Params.default

end Sys2Proof.Machine
end

