-- ==== Sys2Proof/Machine/Flags.lean ====
section
/-! DEFINITION. The flags of the block: the four warnings and the `STATUS` word
(spec/10_state.md R30, R33; spec/60_exceptions.md R253, R254). There are no condition codes. -/

namespace Sys2Proof.Machine

/-- `CFG.MODE` as a 2-bit code (R34). -/
def Mode.code : Mode → BitVec 2
  | .ask => 0
  | .fsk => 1
  | .psk => 2
  | .qam => 3

/-- A set of warnings in the bit order of R254. -/
def warnSet (carrier separation lowAmp corrupt : Bool) : BitVec 4 :=
  BitVec.ofBool corrupt ++ BitVec.ofBool lowAmp ++ BitVec.ofBool separation ++ BitVec.ofBool carrier

/-- No warning. -/
def noWarn : BitVec 4 := 0

/-- The warning of the slicer and the demodulators alone (R254). -/
def corruptOnly (corrupt : Bool) : BitVec 4 := warnSet false false false corrupt

/-- `STATUS.CFGMODE`: a copy of `CFG.MODE`, 0 while `CFG.VALID = 0` (R30). -/
def State.cfgMode (s : State) : BitVec 2 := if s.cfg.valid then s.cfg.mode.code else 0

/-- The 32-bit `STATUS` word (R30): `ERR` in 3:0, `WARN` in 7:4, `CFGVALID` in 8, `CFGMODE` in 10:9, the
reserved bits 31:11 reading as 0. -/
def State.status (s : State) : BitVec 32 :=
  (0 : BitVec 21) ++ s.cfgMode ++ BitVec.ofBool s.cfg.valid ++ s.warn ++ s.err

end Sys2Proof.Machine
end

