-- ==== Sys2Proof/Machine/Ops.lean ====
section
/-! DEFINITION. How a command ends: the errors and what raising one does (spec/60_exceptions.md R240 to R252,
R255), completion with warnings (R253), and the sequencer's fetch (spec/10_state.md R25). There is no
handler and no return from an error (R257): entering an error is the whole of the trap-like machinery. -/

namespace Sys2Proof.Machine

/-- The kinds of error, in the order of their codes (R240). -/
inductive ErrorKind where
  | range
  | capability
  | length
  | symbol
  | domain
  | config
  | illegal
  | uninit
  | noCfg
  | capacity
deriving DecidableEq, Repr

/-- The error code `err` (R240). -/
def ErrorKind.code : ErrorKind → BitVec 4
  | .range => 1
  | .capability => 2
  | .length => 3
  | .symbol => 4
  | .domain => 5
  | .config => 6
  | .illegal => 7
  | .uninit => 8
  | .noCfg => 9
  | .capacity => 10

/-- An error with its info value, a mathematical integer until it is reported (R15, R240). -/
structure CmdError where
  kind : ErrorKind
  info : Int
deriving DecidableEq, Repr

/-- A computation inside a command: its value, or the one error the command reports (R252). -/
abbrev Cmd (α : Type) := Except CmdError α

/-- End with error `k(info)` when the condition holds. -/
def failIf (c : Bool) (k : ErrorKind) (info : Int) : Cmd Unit :=
  if c then .error ⟨k, info⟩ else .ok ()

/-- R15: an info value outside the signed `XLEN` range is clamped to it. -/
def clampInfo (i : Int) : Word :=
  BitVec.ofInt Config.xlen (max (-2 ^ (Config.xlen - 1)) (min i (2 ^ (Config.xlen - 1) - 1)))

/-- A count does not fit a buffer register (R255). -/
def overMax (p : Config.Params) (count : Int) : Bool :=
  match p.maxLen with
  | none => false
  | some m => decide ((m : Int) < count)

/-- R10, R255: a result of `count` elements that does not fit raises `Capacity`. -/
def fits (p : Config.Params) (count : Int) : Cmd Unit := failIf (overMax p count) .capacity count

/-- Error entry (R250): nothing is written but the response and, for the first error since reset, `STATUS.ERR`
and `ERRINFO`; `pc` is not advanced and the run ends (R251). -/
def State.raise (s : State) (e : CmdError) : State :=
  { s with
    err := if s.err = 0 then e.kind.code else s.err
    errInfo := if s.err = 0 then clampInfo e.info else s.errInfo
    response := ⟨e.kind.code, clampInfo e.info, 0⟩
    running := false }

/-- Completion without error: the warnings go to the response and are ORed into `STATUS` (R253), and `pc`
moves on (R25). -/
def State.retire (s : State) (w : BitVec 4) : State :=
  { s with
    warn := s.warn ||| w
    response := ⟨0, 0, w⟩
    pc := s.pc + 1 }

/-- The next state of a command (R11): `body` gives the state with all destinations written together and the
warnings raised, or the error. -/
def State.complete (s : State) (body : Cmd (State × BitVec 4)) : Host.Outcome State Fault Refusal :=
  match body with
  | .ok (t, w) => .next (t.retire w)
  | .error e => .next (s.raise e)

/-- R246: an illegal word, reported as a signed number. -/
def State.illegal (s : State) (w : CmdWord) : Host.Outcome State Fault Refusal :=
  s.complete (.error ⟨.illegal, w.toInt⟩)

/-- The word the sequencer issues next (R25): none once the run is over (R251, R278). -/
def State.fetch (s : State) : Option CmdWord :=
  if s.running then s.program[s.pc]? else none

end Sys2Proof.Machine
end

