-- ==== Sys2Proof/Machine/Operands.lean ====
section
/-! DEFINITION. Reading and writing operands: the six register classes (spec/30_encoding.md R71), a read of
an empty register (spec/60_exceptions.md R247), buffer writes with their capacity check
(spec/00_scope.md R10), and the configuration a modem command needs (spec/44_modulator_config.md R185). -/

namespace Sys2Proof.Machine

/-- R247: `info = 16*class + index` of the empty register. -/
def uninitInfo (cls idx : Nat) : Int := 16 * cls + idx

/-- The content of a source register, or `Uninit` (R22, R247). -/
def source {α : Type} (cls idx : Nat) (v : Option α) : Cmd α :=
  match v with
  | some a => .ok a
  | none => .error ⟨.uninit, uninitInfo cls idx⟩

def State.readX (s : State) (i : XReg) : Cmd Word := source 0 i.val s.xReg[i]
def State.readR (s : State) (i : RReg) : Cmd XNum := source 1 i.val s.rReg[i]
def State.readB (s : State) (i : BReg) : Cmd ByteBuf := source 2 i.val s.bReg[i]
def State.readS (s : State) (i : SReg) : Cmd (List Word) := source 3 i.val s.sReg[i]
def State.readF (s : State) (i : FReg) : Cmd (List XNum) := source 4 i.val s.fReg[i]
def State.readZ (s : State) (i : ZReg) : Cmd (List Cplx) := source 5 i.val s.zReg[i]

def State.setX (s : State) (i : XReg) (v : Word) : State := { s with xReg := s.xReg.set i (some v) }
def State.setR (s : State) (i : RReg) (v : XNum) : State := { s with rReg := s.rReg.set i (some v) }
def State.setB (s : State) (i : BReg) (v : ByteBuf) : State := { s with bReg := s.bReg.set i (some v) }
def State.setS (s : State) (i : SReg) (v : List Word) : State := { s with sReg := s.sReg.set i (some v) }
def State.setF (s : State) (i : FReg) (v : List XNum) : State := { s with fReg := s.fReg.set i (some v) }
def State.setZ (s : State) (i : ZReg) (v : List Cplx) : State := { s with zReg := s.zReg.set i (some v) }

/-- `b[i] <- bytes` (R10, R26): the new content is not read-only. -/
def State.putB (s : State) (i : BReg) (bytes : List Byte) : Cmd State := do
  fits s.params bytes.length
  return s.setB i ⟨bytes, false⟩

/-- `s[i] <- q` (R10). -/
def State.putS (s : State) (i : SReg) (q : List Word) : Cmd State := do
  fits s.params q.length
  return s.setS i q

/-- `f[i] <- q` (R10). -/
def State.putF (s : State) (i : FReg) (q : List XNum) : Cmd State := do
  fits s.params q.length
  return s.setF i q

/-- `z[i] <- q` (R10). -/
def State.putZ (s : State) (i : ZReg) (q : List Cplx) : Cmd State := do
  fits s.params q.length
  return s.setZ i q

/-- R185, R249: the command needs a valid bank in one of the given modes; `info` is 4 when the bank is not
valid and the mode found otherwise. -/
def State.needCfg (s : State) (modes : List Mode) : Cmd Unit :=
  if s.cfg.valid then
    failIf (!modes.contains s.cfg.mode) .noCfg s.cfg.mode.code.toNat
  else .error ⟨.noCfg, 4⟩

end Sys2Proof.Machine
end

