-- ==== Sys2Proof/Machine/Enclosure.lean ====
section
/-! DEFINITION. Rational intervals that hold a real number (spec/00_scope.md R12): the interval arithmetic by
which the machine decides the order of exact reals. That each operation is sound is proved in
`Sys2Proof/Laws/Enclosure.lean`. -/

namespace Sys2Proof

/-- Newton steps towards the integer square root, from `x`, `fuel` times. -/
def isqrtStep (n : Nat) : Nat → Nat → Nat
  | 0, x => x
  | fuel + 1, x => if x = 0 then 0 else
      let y := (x + n / x) / 2
      if y < x then isqrtStep n fuel y else x

/-- The integer square root of `n`. -/
def isqrt (n : Nat) : Nat := isqrtStep n (n.log2 + 2) (2 ^ (n.log2 / 2 + 1))

/-- A rational interval that holds a real. -/
structure Enclosure where
  lo : ℚ
  hi : ℚ
deriving DecidableEq, Repr

/-- The real lies in the interval. -/
def Enclosure.Holds (e : Enclosure) (x : ℝ) : Prop := (e.lo : ℝ) ≤ x ∧ x ≤ (e.hi : ℝ)

/-- The grid `2^(-96)` that enclosures are widened to, so that their endpoints stay small. -/
def Enclosure.grid : ℚ := 79228162514264337593543950336

/-- The grid point at or below `q`. -/
def roundDown (q : ℚ) : ℚ := (q * Enclosure.grid).floor / Enclosure.grid

/-- The grid point at or above `q`. -/
def roundUp (q : ℚ) : ℚ := -roundDown (-q)

/-- The interval widened to the grid. -/
def Enclosure.widen (e : Enclosure) : Enclosure := ⟨roundDown e.lo, roundUp e.hi⟩

def Enclosure.point (q : ℚ) : Enclosure := ⟨q, q⟩
def Enclosure.add (e g : Enclosure) : Enclosure := ⟨e.lo + g.lo, e.hi + g.hi⟩
def Enclosure.neg (e : Enclosure) : Enclosure := ⟨-e.hi, -e.lo⟩
def Enclosure.sub (e g : Enclosure) : Enclosure := e.add g.neg

/-- The products of the endpoints bound the product. -/
def Enclosure.mul (e g : Enclosure) : Enclosure :=
  ⟨min (min (e.lo * g.lo) (e.lo * g.hi)) (min (e.hi * g.lo) (e.hi * g.hi)),
   max (max (e.lo * g.lo) (e.lo * g.hi)) (max (e.hi * g.lo) (e.hi * g.hi))⟩

/-- The inverse, where the interval does not hold 0. -/
def Enclosure.inv? (e : Enclosure) : Option Enclosure :=
  if 0 < e.lo ∨ e.hi < 0 then some ⟨e.hi⁻¹, e.lo⁻¹⟩ else none

/-- Widen by `r` on each side. -/
def Enclosure.grow (e : Enclosure) (r : ℚ) : Enclosure := ⟨e.lo - r, e.hi + r⟩

/-- `pi` to twenty decimals. -/
def piEnclosure : Enclosure :=
  ⟨314159265358979323846 / 100000000000000000000, 314159265358979323847 / 100000000000000000000⟩

/-- The square root: a candidate from the integer square root, kept where its square confirms it. -/
def Enclosure.sqrt (e : Enclosure) : Enclosure :=
  let root (q : ℚ) : ℚ := (isqrt (q * Enclosure.grid * Enclosure.grid).floor.toNat : ℚ) / Enclosure.grid
  let l := root e.lo
  let h := root e.hi + 1 / Enclosure.grid
  ⟨if 0 < e.lo ∧ 0 ≤ l ∧ l * l ≤ e.lo then l else 0,
   if e.hi ≤ 0 then 0 else if 0 ≤ h ∧ e.hi ≤ h * h then h else max e.hi 1⟩

/-- `1 + t/k * (1 + t/(k+1) * (1 + ...))`, `n` terms deep: with `k = 1` the exponential series of `t`. -/
def expSeries (t : ℚ) : Nat → Nat → ℚ
  | 0, _ => 1
  | n + 1, k => 1 + t / k * expSeries t n (k + 1)

/-- `1 - u/(k*(k+1)) * (1 - u/((k+2)*(k+3)) * ...)`, `n` terms deep: with `k = 1` the cosine series of
`t` for `u = t^2`. -/
def cosSeries (u : ℚ) : Nat → Nat → ℚ
  | 0, _ => 1
  | n + 1, k => 1 - u / (k * (k + 1)) * cosSeries u n (k + 2)

/-- What the two series leave out at an argument of magnitude at most 1 is below this. -/
def seriesError : ℚ := 1 / 10 ^ 28

/-- Squaring, `n` times. -/
def Enclosure.squareTimes : Nat → Enclosure → Enclosure
  | 0, e => e
  | n + 1, e => Enclosure.squareTimes n (e.mul e).widen

/-- The exponential at a rational: halve it to a magnitude of at most 1, sum the series, square back. -/
def expPoint (m : ℚ) : Enclosure :=
  let k := (|m|).ceil.toNat.log2 + 1
  let t := m / 2 ^ k
  let p := expSeries t 29 1
  Enclosure.squareTimes k ((Enclosure.point p).grow seriesError).widen

/-- The exponential grows with its argument. -/
def Enclosure.exp (e : Enclosure) : Enclosure := ⟨(expPoint e.lo).lo, (expPoint e.hi).hi⟩

/-- `cos 2a = 2*cos(a)^2 - 1`. -/
def Enclosure.doubleAngle (e : Enclosure) : Enclosure :=
  ((Enclosure.point 2).mul (e.mul e)).sub (Enclosure.point 1)

/-- No cosine leaves `[-1, 1]`. -/
def Enclosure.clampUnit (e : Enclosure) : Enclosure := ⟨max e.lo (-1), min e.hi 1⟩

/-- The cosine at a rational of magnitude at most 4: a quarter of it, the series, two doublings. -/
def cosNear (y : ℚ) : Enclosure :=
  let t := y / 4
  let p := cosSeries (t * t) 14 1
  (((Enclosure.point p).grow seriesError).widen.doubleAngle.widen.doubleAngle).widen

/-- The cosine over an interval: whole turns are taken off with the enclosure of `pi`; the cosine moves no
faster than its argument. -/
def Enclosure.cos (e : Enclosure) : Enclosure :=
  let turns : Int := ((e.lo + e.hi) / (4 * piEnclosure.lo) + 1 / 2).floor
  let y := e.sub ((Enclosure.point (2 * turns)).mul piEnclosure)
  let c := roundDown ((y.lo + y.hi) / 2)
  let r := max (y.hi - c) (c - y.lo)
  if |c| ≤ 4 then ((cosNear c).grow r).clampUnit else ⟨-1, 1⟩

/-- `sin x = cos (x - pi/2)`. -/
def Enclosure.sin (e : Enclosure) : Enclosure :=
  Enclosure.cos (e.sub (piEnclosure.mul (Enclosure.point (1 / 2))))


end Sys2Proof
end

