-- ==== Sys2Proof/Machine/LeastSquares.lean ====
section
/-! DEFINITION. An enclosure of the taps of the least-squares low-pass filter (spec/43_signal_utils.md R147):
the normal equations with interval coefficients, an approximate inverse of their matrix, and the check that
shows how far the approximate solution can lie from the exact one. Nothing depends on how good the
approximate inverse is: where it is bad the check fails and there is no enclosure. -/

namespace Sys2Proof

/-- `[f 0, ..., f (n-1)]`. -/
def table {α : Type} (n : Nat) (f : Nat → α) : List α := (List.range n).map f

/-- Entry `(i, j)` of a matrix given by rows. -/
def entry {α : Type} (rows : List (List α)) (i j : Nat) (default : α) : α := (rows.getD i []).getD j default

/-- The sum of a list of enclosures. -/
def Enclosure.sum (l : List Enclosure) : Enclosure := l.foldr Enclosure.add (.point 0)

/-- A bound on the magnitude of every real in the interval. -/
def Enclosure.mag (e : Enclosure) : ℚ := max |e.lo| |e.hi|

/-- A rational near the middle of the interval. -/
def Enclosure.mid (e : Enclosure) : ℚ := roundDown ((e.lo + e.hi) / 2)

/-- The largest element of a list of rationals, 0 for an empty one. -/
def maxOfRats (l : List ℚ) : ℚ := l.foldr max 0

/-- R147: the integral `I(k, f1, f2)` for a natural `k`. -/
def cosIntegralBounds (fs : Enclosure) (k : Nat) (f1 f2 : Enclosure) : Option Enclosure := do
  if k = 0 then return f2.sub f1
  let perFs ← fs.inv?
  let turn := piEnclosure.mul (.point (2 * k))
  let perTurn ← turn.inv?
  let at_ (f : Enclosure) : Enclosure := (((turn.mul f).mul perFs).widen.sin).widen
  return ((fs.mul perTurn).mul ((at_ f2).sub (at_ f1))).widen

/-- `I(k, 0, lo) + I(k, hi, fs/2)`: the two bands together (R147). -/
def bandBounds (fs lo hi : Enclosure) (k : Nat) : Option Enclosure := do
  let pass ← cosIntegralBounds fs k (.point 0) lo
  let stop ← cosIntegralBounds fs k hi (fs.mul (.point (1 / 2)))
  return pass.add stop

/-- All of a list of options, or nothing. -/
def allSome {α : Type} : List (Option α) → Option (List α)
  | [] => some []
  | none :: _ => none
  | some a :: l => (allSome l).map (a :: ·)

/-- One step of the elimination on rows `[Q | I]`: clear column `i` but for row `i`. -/
def eliminate (rows : List (List ℚ)) (i : Nat) : List (List ℚ) :=
  let row := rows.getD i []
  let pivotRow := row.map fun a => roundDown (a / row.getD i 1)
  rows.zipIdx.map fun rj =>
    if rj.2 = i then pivotRow
    else
      let factor := rj.1.getD i 0
      List.zipWith (fun a b => roundDown (a - factor * b)) rj.1 pivotRow

/-- An approximate inverse of an `n` by `n` matrix. -/
def approxInverse (n : Nat) (rows : List (List ℚ)) : List (List ℚ) :=
  let start := table n fun i => table n (fun j => entry rows i j 0) ++ table n fun j => if i = j then 1 else 0
  ((List.range n).foldl eliminate start).map (List.drop n)

/-- The product `r q` of a rational matrix with a matrix of intervals. -/
def timesMatrix (n : Nat) (r : List (List ℚ)) (q : List (List Enclosure)) : List (List Enclosure) :=
  table n fun i => table n fun j =>
    (Enclosure.sum (table n fun k => (Enclosure.point (entry r i k 0)).mul (entry q k j (.point 0)))).widen

/-- The product `r d` of a rational matrix with a vector of intervals. -/
def timesVector (n : Nat) (r : List (List ℚ)) (d : List Enclosure) : List Enclosure :=
  table n fun i => (Enclosure.sum (table n fun k => (Enclosure.point (entry r i k 0)).mul (d.getD k (.point 0)))).widen

/-- The largest row sum of `|1 - rq|`. -/
def contraction (n : Nat) (rq : List (List Enclosure)) : ℚ :=
  maxOfRats (table n fun i =>
    (table n fun j => ((Enclosure.point (if i = j then 1 else 0)).sub (entry rq i j (.point 0))).mag).sum)

/-- The largest component of `|rd - rq x|`. -/
def residual (n : Nat) (rq : List (List Enclosure)) (rd : List Enclosure) (x : List ℚ) : ℚ :=
  maxOfRats (table n fun i =>
    ((rd.getD i (.point 0)).sub
      (Enclosure.sum (table n fun j => (entry rq i j (.point 0)).mul (.point (x.getD j 0))))).mag)

/-- The solution of `Q a = d` for a matrix in `q` and a right-hand side in `d`, with any matrix `r`: it differs
from `x` by at most `max |r d - (r q) x| / (1 - e)`, where `e < 1` is the largest row sum of `|1 - r q|`. -/
def solveBounds (n : Nat) (q : List (List Enclosure)) (d : List Enclosure) (r : List (List ℚ)) :
    Option (List Enclosure) :=
  let rq := timesMatrix n r q
  let rd := timesVector n r d
  let x := rd.map Enclosure.mid
  let e := contraction n rq
  if e < 1 then some (x.map fun v => (Enclosure.point v).grow (residual n rq rd x / (1 - e))) else none

/-- The matrix `Q` of the normal equations (R147) from the band integrals for `k = 0, 1, ...`: the integral of
`cos` does not depend on the sign of `k`. -/
def normalMatrix (n : Nat) (bands : List Enclosure) : List (List Enclosure) :=
  table n fun i => table n fun j =>
    (((bands.getD ((i : Int) - j).natAbs (.point 0)).add (bands.getD (i + j) (.point 0))).mul
      (.point (1 / 2))).widen

/-- The tap `n` places from the centre (R147): `a[0]` in the middle, `a[n]/2` beside it, nothing beyond. -/
def lsqTapBounds (fs lo hi : Enclosure) (half n : Nat) : Option Enclosure :=
  if half < n then some (.point 0)
  else do
    let bands ← allSome (table (2 * half + 1) (bandBounds fs lo hi))
    let d ← allSome (table (half + 1) fun k => cosIntegralBounds fs k (.point 0) lo)
    let q := normalMatrix (half + 1) bands
    let a ← solveBounds (half + 1) q d (approxInverse (half + 1) (q.map fun row => row.map Enclosure.mid))
    let an := a.getD n (.point 0)
    return if n = 0 then an else (an.mul (.point (1 / 2))).widen

end Sys2Proof
end

