-- ==== Sys2Proof/Machine/Real.lean ====
section
/-! DEFINITION. Arithmetic on real numbers (spec/00_scope.md R7, R10, R12): which real a term stands for, the
exact folding operations, rational enclosures, the order, the roundings `floor`, `ceil`, `round_he`, and
the operations of the two numeric domains, `NUM = exact` and `NUM = binary64`, that the machine computes
with. -/

namespace Sys2Proof

/-! ## What a term stands for -/

/-- R147: the integral of `cos(2*pi*f*k/fs)` over `f1 <= f <= f2`. -/
noncomputable def cosIntegral (fs : ℝ) (k : ℤ) (f1 f2 : ℝ) : ℝ :=
  if k = 0 then f2 - f1
  else fs / (2 * Real.pi * k) * (Real.sin (2 * Real.pi * k * f2 / fs) - Real.sin (2 * Real.pi * k * f1 / fs))

/-- R147: the matrix `Q` of the normal equations. -/
noncomputable def lsqMatrix (fs lo hi : ℝ) (half : Nat) : Matrix (Fin (half + 1)) (Fin (half + 1)) ℝ :=
  fun n m =>
    (cosIntegral fs ((n : ℤ) - m) 0 lo + cosIntegral fs ((n : ℤ) + m) 0 lo
      + cosIntegral fs ((n : ℤ) - m) hi (fs / 2) + cosIntegral fs ((n : ℤ) + m) hi (fs / 2)) / 2

/-- R147: the right-hand side `d` of the normal equations. -/
noncomputable def lsqTarget (fs lo : ℝ) (half : Nat) : Fin (half + 1) → ℝ :=
  fun n => cosIntegral fs n 0 lo

/-- R147: the solution `a` of `Q a = d`. -/
noncomputable def lsqSolution (fs lo hi : ℝ) (half : Nat) : Fin (half + 1) → ℝ :=
  (lsqMatrix fs lo hi half)⁻¹.mulVec (lsqTarget fs lo half)

/-- R147: the tap `n` places from the centre, `h[M] = a[0]` and `h[M+n] = h[M-n] = a[n]/2`. -/
noncomputable def lsqTapReal (fs lo hi : ℝ) (half n : Nat) : ℝ :=
  if h : n < half + 1 then
    if n = 0 then lsqSolution fs lo hi half ⟨n, h⟩ else lsqSolution fs lo hi half ⟨n, h⟩ / 2
  else 0

/-- The real number a term stands for. -/
noncomputable def XNum.toReal : XNum → ℝ
  | .rat q => q
  | .given n => Config.givenReal n
  | .pi => Real.pi
  | .plus a b => a.toReal + b.toReal
  | .minus a b => a.toReal - b.toReal
  | .times a b => a.toReal * b.toReal
  | .ratio a b => a.toReal / b.toReal
  | .negOf a => -a.toReal
  | .cosOf a => Real.cos a.toReal
  | .sinOf a => Real.sin a.toReal
  | .expOf a => Real.exp a.toReal
  | .sqrtOf a => Real.sqrt a.toReal
  | .lsqTap fs lo hi half n => lsqTapReal fs.toReal lo.toReal hi.toReal half n
  | .fp op a b c => Config.binary64 op a.toReal b.toReal c.toReal

/-! ## Folding operations -/

/-- An integer as a real (R15: exact). -/
def XNum.ofInt (i : Int) : XNum := .rat i

/-- A count or an index as a real (R15: exact). -/
def XNum.ofNat (n : Nat) : XNum := .rat n

/-- Addition; rationals fold, 0 is dropped. -/
def XNum.add : XNum → XNum → XNum
  | .rat p, .rat q => .rat (p + q)
  | .rat p, b => if p = 0 then b else .plus (.rat p) b
  | a, .rat q => if q = 0 then a else .plus a (.rat q)
  | a, b => .plus a b

/-- Negation; rationals fold. -/
def XNum.neg : XNum → XNum
  | .rat p => .rat (-p)
  | a => .negOf a

/-- Subtraction; rationals fold, 0 is dropped. -/
def XNum.sub : XNum → XNum → XNum
  | .rat p, .rat q => .rat (p - q)
  | .rat p, b => if p = 0 then .negOf b else .minus (.rat p) b
  | a, .rat q => if q = 0 then a else .minus a (.rat q)
  | a, b => .minus a b

/-- Multiplication; rationals fold, a factor 0 gives 0, a factor 1 is dropped. -/
def XNum.mul : XNum → XNum → XNum
  | .rat p, .rat q => .rat (p * q)
  | .rat p, b => if p = 0 then .rat 0 else if p = 1 then b else .times (.rat p) b
  | a, .rat q => if q = 0 then .rat 0 else if q = 1 then a else .times a (.rat q)
  | a, b => .times a b

/-- Division; rationals fold, a dividend 0 gives 0, a divisor 1 is dropped. Every division of the rules
stands behind a check that its divisor is not 0. -/
def XNum.div : XNum → XNum → XNum
  | .rat p, .rat q => .rat (p / q)
  | .rat p, b => if p = 0 then .rat 0 else .ratio (.rat p) b
  | a, .rat q => if q = 1 then a else .ratio a (.rat q)
  | a, b => .ratio a b

/-- The square of a term, where it is a rational by its form: of products and quotients of rationals and of
square roots of rationals. -/
def XNum.ratSq? : XNum → Option ℚ
  | .rat q => some (q * q)
  | .sqrtOf (.rat q) => some (max q 0)
  | .negOf a => a.ratSq?
  | .times a b => do return (← a.ratSq?) * (← b.ratSq?)
  | .ratio a b => do return (← a.ratSq?) / (← b.ratSq?)
  | _ => none

/-- The square; a rational where the term's form shows it. -/
def XNum.sq (a : XNum) : XNum :=
  match a.ratSq? with
  | some q => .rat q
  | none => a.mul a

/-- The rational `q` of a term that is `q*pi` by its form. -/
def XNum.halfTurns? : XNum → Option ℚ
  | .rat q => if q = 0 then some 0 else none
  | .pi => some 1
  | .times (.rat q) a => do return q * (← a.halfTurns?)
  | .times a (.rat q) => do return (← a.halfTurns?) * q
  | .ratio a (.rat q) => do return (← a.halfTurns?) / q
  | .plus a b => do return (← a.halfTurns?) + (← b.halfTurns?)
  | .minus a b => do return (← a.halfTurns?) - (← b.halfTurns?)
  | .negOf a => do return -(← a.halfTurns?)
  | _ => none

/-- `cos(q*pi)`, where it is a rational: at the multiples of a third and of a half. -/
def cosOfHalfTurns? (q : ℚ) : Option ℚ :=
  let r := q - 2 * (q / 2).floor
  if r = 0 then some 1
  else if r = 1 / 3 ∨ r = 5 / 3 then some (1 / 2)
  else if r = 1 / 2 ∨ r = 3 / 2 then some 0
  else if r = 2 / 3 ∨ r = 4 / 3 then some (-1 / 2)
  else if r = 1 then some (-1)
  else none

/-- Cosine; a rational where the term's form shows it. -/
def XNum.cos (a : XNum) : XNum :=
  match a.halfTurns?.bind cosOfHalfTurns? with
  | some c => .rat c
  | none => .cosOf a

/-- Sine, `sin(q*pi) = cos((q - 1/2)*pi)` where that is a rational by the term's form. -/
def XNum.sin (a : XNum) : XNum :=
  match a.halfTurns?.bind fun q => cosOfHalfTurns? (q - 1 / 2) with
  | some c => .rat c
  | none => .sinOf a

/-- Exponential. -/
def XNum.exp (a : XNum) : XNum := if a = .rat 0 then .rat 1 else .expOf a

/-- The rational square root of `q`, where it has one. -/
def ratSqrt? (q : ℚ) : Option ℚ :=
  let r : ℚ := mkRat (isqrt q.num.toNat) (isqrt q.den)
  if 0 ≤ r ∧ r * r = q then some r else none

/-- Square root; a rational with a rational root folds. -/
def XNum.sqrt : XNum → XNum
  | .rat q => match ratSqrt? q with
    | some r => .rat r
    | none => .sqrtOf (.rat q)
  | a => .sqrtOf a

/-- The sum of a list, first element first. -/
def XNum.sum (l : List XNum) : XNum := l.foldl XNum.add (.rat 0)

/-! ## Enclosures -/

/-- A rational interval that holds the real a term stands for, where one is found: a real that the host
supplied and a result of `NUM = binary64` have none, nor has a quotient by an interval that holds 0, nor a
filter tap whose normal equations the intervals do not show to be solvable. -/
def XNum.bounds : XNum → Option Enclosure
  | .rat q => some (Enclosure.point q)
  | .given _ => none
  | .pi => some piEnclosure
  | .plus a b => do return ((← a.bounds).add (← b.bounds)).widen
  | .minus a b => do return ((← a.bounds).sub (← b.bounds)).widen
  | .times a b => do return ((← a.bounds).mul (← b.bounds)).widen
  | .ratio a b => do
    let n ← a.bounds
    let d ← b.bounds
    let i ← d.inv?
    return (n.mul i).widen
  | .negOf a => do return (← a.bounds).neg
  | .cosOf a => do return (← a.bounds).cos
  | .sinOf a => do return (← a.bounds).sin
  | .expOf a => do return (← a.bounds).exp
  | .sqrtOf a => do return (← a.bounds).sqrt
  | .lsqTap fs lo hi half n => do lsqTapBounds (← fs.bounds) (← lo.bounds) (← hi.bounds) half n
  | .fp _ _ _ _ => none

/-! ## Order

R12: error conditions that compare reals and slicer decisions are exact. -/

/-- Whether the reals of two terms are in order. The type says what the answer is, so no choice is left; the
recursion only gives the definition a program, which does not end, as no program compares all reals. -/
def XNum.exactLe (a b : XNum) : Decidable (a.toReal ≤ b.toReal) := XNum.exactLe a b
partial_fixpoint

/-- The floor of the real of a term, in the same manner. -/
def XNum.exactFloor (a : XNum) : { n : Int // n = ⌊a.toReal⌋ } := XNum.exactFloor a
partial_fixpoint

/-- `a ≤ b`, for terms that are not both rationals: equal terms are equal reals, enclosures that do not overlap
settle the order, and the order of the reals itself is the answer otherwise. -/
def XNum.leTerm (a b : XNum) : Bool :=
  if a = b then true
  else match a.bounds, b.bounds with
    | some e, some g =>
      if e.hi ≤ g.lo then true else if g.hi < e.lo then false else @decide _ (XNum.exactLe a b)
    | _, _ => @decide _ (XNum.exactLe a b)

/-- `a ≤ b`: exact on rationals. -/
def XNum.le (a b : XNum) : Bool :=
  match a, b with
  | .rat p, .rat q => decide (p ≤ q)
  | a, b => a.leTerm b

/-- `a < b`. -/
def XNum.lt (a b : XNum) : Bool := !b.le a

/-- `a = b` as reals: each is at most the other. -/
def XNum.eq (a b : XNum) : Bool := a.le b && b.le a

/-- The smaller of two reals. -/
def XNum.min (a b : XNum) : XNum := if a.le b then a else b

/-- The larger of two reals. -/
def XNum.max (a b : XNum) : XNum := if a.le b then b else a

/-- The distance of two reals. -/
def XNum.dist (a b : XNum) : XNum := if b.le a then a.sub b else b.sub a

/-- The largest element of a list that begins with `a`. -/
def XNum.maxFrom (a : XNum) (l : List XNum) : XNum := l.foldl XNum.max a

/-! ## Roundings (R10) -/

/-- `floor`: to the integer below. An enclosure between two integers settles it. -/
def XNum.floor (a : XNum) : Int :=
  match a.bounds with
  | some e => if e.lo.floor = e.hi.floor then e.lo.floor else (XNum.exactFloor a).1
  | none => (XNum.exactFloor a).1

/-- `ceil`: to the integer above. -/
def XNum.ceil (a : XNum) : Int := -(XNum.floor a.neg)

/-- `round_he`: to the nearest integer, ties to the even integer. -/
def XNum.roundHe (a : XNum) : Int :=
  let n := a.floor
  let d := a.sub (XNum.ofInt n)
  if d.lt (.rat (1 / 2)) then n
  else if (XNum.rat (1 / 2)).lt d then n + 1
  else if n % 2 = 0 then n else n + 1

/-- `odd_up`: an even count is raised by 1. -/
def oddUp (n : Int) : Int := if n % 2 = 0 then n + 1 else n

/-! ## Complex numbers (R10) -/

def Cplx.zero : Cplx := ⟨.rat 0, .rat 0⟩

/-- A real as a complex number. -/
def Cplx.ofReal (a : XNum) : Cplx := ⟨a, .rat 0⟩

/-- Equality of reals in both parts (R175). -/
def Cplx.eq (c d : Cplx) : Bool := c.re.eq d.re && c.im.eq d.im

/-! ## The numeric domain

`NUM` (R7, R12). The operations that the rules of the signal path compute with: exact under `NUM = exact`; under
`NUM = binary64` each result is a configuration function of its operands, and there is no folding. The order
and the roundings above are those of the real number that a value is, in both domains. -/

namespace Config.NumDomain

variable (d : Config.NumDomain)

/-- The result of an operation: the exact one, or what the configuration says. -/
def result (op : Config.FpOp) (a b c exact : XNum) : XNum :=
  match d with
  | .exact => exact
  | .binary64 => .fp op a b c

/-- A result of two operands. -/
def result₂ (op : Config.FpOp) (a b exact : XNum) : XNum := d.result op a b (.rat 0) exact

/-- A result of one operand. -/
def result₁ (op : Config.FpOp) (a exact : XNum) : XNum := d.result op a (.rat 0) (.rat 0) exact

def add (a b : XNum) : XNum := d.result₂ .plus a b (a.add b)
def sub (a b : XNum) : XNum := d.result₂ .minus a b (a.sub b)
def mul (a b : XNum) : XNum := d.result₂ .times a b (a.mul b)
def div (a b : XNum) : XNum := d.result₂ .ratio a b (a.div b)
/-- The square of a number (R144, R190). DESIGN CHOICE under `binary64`: the rules write a power, and it is taken as the
product of the number with itself, the same function as multiplication (notes/assumptions/21.md). -/
def sq (a : XNum) : XNum := d.result₂ .times a a a.sq
def neg (a : XNum) : XNum := d.result₁ .negate a a.neg
def cos (a : XNum) : XNum := d.result₁ .cosine a a.cos
def sin (a : XNum) : XNum := d.result₁ .sine a a.sin
def exp (a : XNum) : XNum := d.result₁ .exponential a a.exp
def sqrt (a : XNum) : XNum := d.result₁ .squareRoot a a.sqrt
def pi : XNum := d.result₁ .pi (.rat 0) .pi

/-- The tap `n` places from the centre of the least-squares design (R147). -/
def filterTap (fs lo hi : XNum) (half n : Nat) : XNum :=
  d.result (.filterTap half n) fs lo hi (.lsqTap fs lo hi half n)

/-- The sum of a list. DESIGN CHOICE under `binary64`: one function for each place of a sum of a given length, the same for
all sums of that length (notes/assumptions/1.md). -/
def sum (l : List XNum) : XNum :=
  match d with
  | .exact => XNum.sum l
  | .binary64 => l.zipIdx.foldl (fun acc ai => .fp (.runningSum l.length ai.2) acc ai.1 (.rat 0)) (.rat 0)

/-- `abs(a - b)` of real numbers. DESIGN CHOICE under `binary64`: the difference has a result, taking its magnitude does not
round (notes/assumptions/1.md). -/
def dist (a b : XNum) : XNum :=
  match d with
  | .exact => a.dist b
  | .binary64 => (d.sub a b).max (d.sub a b).neg

/-- `2*pi`. -/
def twoPi : XNum := d.mul (.rat 2) d.pi

/-- `cis(a) = cos(a) + j*sin(a)` (R10). DESIGN CHOICE under `binary64`: one result for each part, the cosine and the sine
functions of the real rules (notes/assumptions/21.md). -/
def cis (a : XNum) : Cplx := ⟨d.cos a, d.sin a⟩

/-- The modulus of a complex number, `abs(c)` (R10, R151, R174, R201, R211). DESIGN CHOICE under `binary64`: R10 has it as
one primitive, and it is taken as `sqrt(re*re + im*im)`, each of the four operations with a result of its own
(notes/assumptions/21.md). -/
def abs (c : Cplx) : XNum := d.sqrt (d.add (d.sq c.re) (d.sq c.im))

/-- The difference of two complex numbers. DESIGN CHOICE under `binary64`: one result for each part
(notes/assumptions/21.md). -/
def cplxSub (a b : Cplx) : Cplx := ⟨d.sub a.re b.re, d.sub a.im b.im⟩

end Config.NumDomain

end Sys2Proof
end

