-- ==== Sys2Proof/Machine/ModemConfig.lean ====
section
/-! DEFINITION. Constructing a modulator: the checks, the bank load and the construction warnings of CFGASK,
CFGFSK, CFGPSK and CFGQAM (spec/44_modulator_config.md R170 to R178). -/

namespace Sys2Proof.Machine

/-- The operands of a CFG* command (R170): the fields a mode does not use are 0. -/
structure CfgRequest where
  mode : Mode
  fs : XNum
  baud : XNum
  carrier : XNum
  amp : XNum
  alpha : List Cplx
deriving DecidableEq, Repr

/-- Two different places `i < j` of a list meet the relation. -/
def anyPair {α : Type} (rel : α → α → Bool) : List α → Bool
  | [] => false
  | a :: l => l.any (rel a) || anyPair rel l

/-- The real alphabet of ask, fsk and psk. -/
def realAlpha (alpha : List Cplx) : List XNum := alpha.map Cplx.re

/-- The largest element; 0 for an empty list, which no check or rule reaches (R175 check 3). -/
def maxOf : List XNum → XNum
  | [] => .rat 0
  | a :: l => XNum.maxFrom a l

/-- A value lies outside `(0, 1]` (R170). -/
def outsideUnit (a : XNum) : Bool := a.le (.rat 0) || (XNum.rat 1).lt a

/-- An alphabet value outside its mode's domain (R170, R175 check 9). DESIGN CHOICE under `binary64`: R175 writes
`abs(c_i) = 0`, and a modulus below 0, which nothing rules out for a free result, fails the check too
(notes/assumptions/21.md). -/
def alphaOutside (d : Config.NumDomain) (mode : Mode) (c : Cplx) : Bool :=
  match mode with
  | .ask => outsideUnit c.re
  | .fsk => c.re.le (.rat 0)
  | .psk => c.re.lt (.rat 0) || d.twoPi.le c.re
  | .qam => outsideUnit (d.abs c)

/-- The condition that fails check `c` of R175. The smallest tone is at most `baud` exactly when some tone is, and
the largest at least `fs/2` exactly when some tone is. -/
def cfgCheckFails (p : Config.Params) (q : CfgRequest) (c : Nat) : Bool :=
  match c with
  | 1 => q.fs.le (.rat 0)
  | 2 => q.baud.le (.rat 0)
  | 3 => q.alpha.isEmpty
  | 4 => decide (p.nMax < q.alpha.length)
  | 5 => anyPair Cplx.eq q.alpha
  | 6 => q.carrier.le (.rat 0)
  | 7 => (p.num.div q.fs (.rat 2)).le q.carrier
  | 8 => match q.mode with
    | .fsk => (realAlpha q.alpha).any fun a => a.le q.baud
    | _ => (p.num.div q.carrier (.rat 2)).le q.baud
  | 9 => q.alpha.any (alphaOutside p.num q.mode)
  | 10 => outsideUnit q.amp
  | 11 => (realAlpha q.alpha).any fun a => (p.num.div q.fs (.rat 2)).le a
  | _ => false

/-- The checks of a mode, in the order they are applied (R171 to R175). -/
def cfgChecks : Mode → List Nat
  | .ask => [1, 2, 3, 4, 5, 6, 7, 8, 9]
  | .fsk => [1, 2, 3, 4, 5, 8, 9, 10, 11]
  | .psk => [1, 2, 3, 4, 5, 6, 7, 8, 9, 10]
  | .qam => [1, 2, 3, 4, 5, 6, 7, 8, 9]

/-- The first check that fails, if one does (R175). -/
def cfgFailure (p : Config.Params) (q : CfgRequest) : Option Nat := (cfgChecks q.mode).find? (cfgCheckFails p q)

/-- `circ(p, q) < t` (R173): the distance of two phases round the circle, the smaller of `abs(p - q)` and
`2*pi - abs(p - q)`, is below `t` exactly when one of the two is. -/
def circBelow (d : Config.NumDomain) (p q t : XNum) : Bool :=
  (d.dist p q).lt t || (d.sub d.twoPi (d.dist p q)).lt t

/-- The carrier warning (R176); fsk has no carrier and no such warning (R172). -/
def carrierWarns (p : Config.Params) (q : CfgRequest) : Bool :=
  match q.mode with
  | .fsk => false
  | _ => (p.num.mul p.carrierWarnFrac q.fs).le q.carrier

/-- The low-amplitude warning (R177): the base amplitude, in ask and qam the smallest of the alphabet, is below
the threshold. -/
def lowAmpWarns (p : Config.Params) (q : CfgRequest) : Bool :=
  match q.mode with
  | .ask => (realAlpha q.alpha).any fun a => a.lt p.lowAmpWarn
  | .fsk => q.amp.lt p.lowAmpWarn
  | .psk => q.amp.lt p.lowAmpWarn
  | .qam => (q.alpha.map p.num.abs).any fun a => a.lt p.lowAmpWarn

/-- Two alphabet values are closer than the mode's threshold (R178). -/
def tooClose (p : Config.Params) (q : CfgRequest) (c d : Cplx) : Bool :=
  match q.mode with
  | .ask => (p.num.dist c.re d.re).lt p.askSepMin
  | .fsk => (p.num.dist c.re d.re).lt (p.num.mul p.fskSepMin q.baud)
  | .psk => circBelow p.num c.re d.re p.pskSepMin
  | .qam => (p.num.abs (p.num.cplxSub c d)).lt p.qamSepMin

/-- The warnings of a construction that succeeds (R176 to R178). The smallest pairwise distance is below the
threshold exactly when some pair's is; with one value there is no pair. -/
def cfgWarnings (p : Config.Params) (q : CfgRequest) : BitVec 4 :=
  warnSet (carrierWarns p q) (anyPair (tooClose p q) q.alpha) (lowAmpWarns p q) false

/-- The bank after a successful construction: every field at once (R35). -/
def CfgRequest.bank (q : CfgRequest) : ModemConfig where
  valid := true
  mode := q.mode
  fs := q.fs
  baud := q.baud
  carrier := q.carrier
  amp := q.amp
  n := q.alpha.length
  alpha := q.alpha

/-- The common body of the CFG* commands: the checks, then the load and the warnings. -/
def construct (s : State) (q : CfgRequest) : Cmd (State × BitVec 4) :=
  match cfgFailure s.params q with
  | some c => .error ⟨.config, c⟩
  | none => .ok ({ s with cfg := q.bank }, cfgWarnings s.params q)

/-- CFGASK (R171). -/
def execCfgask (rfs rcar rbaud : RReg) (famp : FReg) (s : State) : Host.Outcome State Fault Refusal :=
  s.complete do
    let fs ← s.readR rfs
    let carrier ← s.readR rcar
    let baud ← s.readR rbaud
    let alpha ← s.readF famp
    construct s ⟨.ask, fs, baud, carrier, .rat 0, alpha.map Cplx.ofReal⟩

/-- CFGFSK (R172). -/
def execCfgfsk (rfs ramp rbaud : RReg) (ffreq : FReg) (s : State) : Host.Outcome State Fault Refusal :=
  s.complete do
    let fs ← s.readR rfs
    let amp ← s.readR ramp
    let baud ← s.readR rbaud
    let alpha ← s.readF ffreq
    construct s ⟨.fsk, fs, baud, .rat 0, amp, alpha.map Cplx.ofReal⟩

/-- CFGPSK (R173). -/
def execCfgpsk (rfs rcar ramp rbaud : RReg) (fph : FReg) (s : State) : Host.Outcome State Fault Refusal :=
  s.complete do
    let fs ← s.readR rfs
    let carrier ← s.readR rcar
    let amp ← s.readR ramp
    let baud ← s.readR rbaud
    let alpha ← s.readF fph
    construct s ⟨.psk, fs, baud, carrier, amp, alpha.map Cplx.ofReal⟩

/-- CFGQAM (R174). -/
def execCfgqam (rfs rcar rbaud : RReg) (zcon : ZReg) (s : State) : Host.Outcome State Fault Refusal :=
  s.complete do
    let fs ← s.readR rfs
    let carrier ← s.readR rcar
    let baud ← s.readR rbaud
    let alpha ← s.readZ zcon
    construct s ⟨.qam, fs, baud, carrier, .rat 0, alpha⟩

end Sys2Proof.Machine
end

