-- ==== Sys2Proof/Machine/Signal.lean ====
section
/-! DEFINITION. The signal utilities: time grid, resampler, Gaussian window, low-pass designer, Goertzel
designer, interval averager, FIR application, and the nine commands over them
(spec/43_signal_utils.md R140 to R155). -/

namespace Sys2Proof.Machine

/-! ## Time and rate -/

/-- `[i/fs for i in 0..n-1]` (R141): each element a quotient, no running sum; the first is exactly 0 in every numeric
domain. -/
def timeGrid (d : Config.NumDomain) (fs : XNum) (n : Nat) : List XNum :=
  (List.range n).map fun i => if i = 0 then .rat 0 else d.div (.ofNat i) fs

/-- `hold(v, u)` (R143): the sample at or before `u`, 0 outside `0 <= u <= L-1`. -/
def hold (v : List XNum) (u : XNum) : XNum :=
  if decide (1 ≤ v.length) && (XNum.rat 0).le u && u.le (XNum.ofInt (v.length - 1)) then
    v.getD u.floor.toNat (.rat 0)
  else .rat 0

/-- The resampled sequence (R143). -/
def resample (d : Config.NumDomain) (t : List XNum) (baud : XNum) (v : List XNum) : List XNum :=
  t.map fun tj => hold v (d.mul tj baud)

/-! ## Pulse-shaping window -/

/-- `odd_up(ceil(6*s + 1))` for `s = sigma*fs` (R144): the length that GAUSSWIN checks and delivers. DESIGN CHOICE under
`binary64`: R145 writes the checked length as `6*sigma*fs + 1`, other operations, whose result could differ; the
check takes R144's too (notes/assumptions/21.md). -/
def gaussLength (d : Config.NumDomain) (fs sigma : XNum) : Int :=
  oddUp (d.add (d.mul (.rat 6) (d.mul sigma fs)) (.rat 1)).ceil

/-- The unnormalised tap `exp(-((i - c)/s)^2/2)` (R144). DESIGN CHOICE under `binary64`: the square as
`Config.NumDomain.sq` takes it, halved, then negated (notes/assumptions/21.md). -/
def gaussTap (d : Config.NumDomain) (s : XNum) (c i : Int) : XNum :=
  d.exp (d.neg (d.div (d.sq (d.div (.ofInt (i - c)) s)) (.rat 2)))

/-- `gauss(fs, sigma)` (R144). -/
def gauss (d : Config.NumDomain) (fs sigma : XNum) : List XNum :=
  let n := (gaussLength d fs sigma).toNat
  let g := (List.range n).map fun (i : Nat) => gaussTap d (d.mul sigma fs) ((n - 1) / 2 : Nat) i
  g.map fun gi => d.div gi (d.sum g)

/-! ## Low-pass FIR designer -/

/-- `taps(fs, lo, hi, att) = odd_up(ceil(fs/(hi - lo) * att/22))` (R146). -/
def firLength (d : Config.NumDomain) (fs lo hi att : XNum) : Int :=
  oddUp (d.div (d.mul (d.div fs (d.sub hi lo)) att) (.rat 22)).ceil

/-- `lsfir(fs, lo, hi, T)` (R147): tap `i` of the least-squares design, symmetric about the middle. -/
def lsfir (d : Config.NumDomain) (fs lo hi : XNum) (count : Nat) : List XNum :=
  let half := (count - 1) / 2
  (List.range count).map fun i => d.filterTap fs lo hi half (if i ≤ half then half - i else i - half)

/-- The condition that fails check `c` of R149. -/
def lowpassCheckFails (d : Config.NumDomain) (fs lo hi att : XNum) (c : Nat) : Bool :=
  match c with
  | 1 => fs.le (.rat 0)
  | 2 => hi.le lo
  | 3 => (d.div fs (.rat 2)).le lo
  | 4 => (d.div fs (.rat 2)).le hi
  | 5 => lo.lt (.rat 0)
  | 6 => att.le (.rat 0)
  | _ => false

/-- The first of the checks 1 to 6 of R149 that fails. -/
def lowpassFailure (d : Config.NumDomain) (fs lo hi att : XNum) : Option Nat :=
  [1, 2, 3, 4, 5, 6].find? (lowpassCheckFails d fs lo hi att)

/-- The taps of R149, or its error: the checks, then the capacity. -/
def lowpass (p : Config.Params) (fs lo hi att : XNum) : Cmd (List XNum) :=
  match lowpassFailure p.num fs lo hi att with
  | some c => .error ⟨.domain, c⟩
  | none => do
    fits p (firLength p.num fs lo hi att)
    return lsfir p.num fs lo hi (firLength p.num fs lo hi att).toNat

/-! ## Goertzel designer -/

/-- `w = 2*pi*freq/fs` (R150). -/
def goertzelAngle (d : Config.NumDomain) (freq fs : XNum) : XNum := d.div (d.mul d.twoPi freq) fs

/-- The numerator `[1, -cis(-w)]` (R150). DESIGN CHOICE under `binary64`: the complex negation part by part
(notes/assumptions/21.md). -/
def goertzelNumerator (d : Config.NumDomain) (w : XNum) : List Cplx :=
  [Cplx.ofReal (.rat 1), ⟨d.neg (d.cis (d.neg w)).re, d.neg (d.cis (d.neg w)).im⟩]

/-- The denominator `[1, -2*cos(w), 1]` (R150). DESIGN CHOICE under `binary64`: the product of the literal `-2` with the
cosine, no negation (notes/assumptions/21.md). -/
def goertzelDenominator (d : Config.NumDomain) (w : XNum) : List XNum := [.rat 1, d.mul (.rat (-2)) (d.cos w), .rat 1]

/-- `abs(sum over m of x[m]*cis(-w*m))` for the `n` samples from `from_` on (R151, R211). DESIGN CHOICE under `binary64`:
the product `(-w)*m`, the complex products and the sum part by part, the modulus as `Config.NumDomain.abs` takes it
(notes/assumptions/21.md). -/
def goertzelMag (d : Config.NumDomain) (x : List XNum) (from_ n : Nat) (w : XNum) : XNum :=
  let term (m : Nat) : Cplx := d.cis (d.mul (d.neg w) (.ofNat m))
  let part (g : Cplx → XNum) : XNum :=
    d.sum ((List.range n).map fun m => d.mul (x.getD (from_ + m) (.rat 0)) (g (term m)))
  d.abs ⟨part Cplx.re, part Cplx.im⟩

/-! ## Interval averager -/

/-- `lin(v, u)` (R152): piecewise-linear between integer indices. -/
def lin (d : Config.NumDomain) (v : List XNum) (u : XNum) : XNum :=
  if u.lt (XNum.ofInt (v.length - 1)) then
    let i := u.floor
    let vi := v.getD i.toNat (.rat 0)
    d.add vi (d.mul (d.sub u (.ofInt i)) (d.sub (v.getD (i.toNat + 1) (.rat 0)) vi))
  else v.getD (v.length - 1) (.rat 0)

/-- The knots of R152: `begin`, the integers strictly between, `end`. -/
def knots (b e : XNum) : List XNum :=
  let first := b.floor + 1
  let last := e.ceil - 1
  [b] ++ (List.range (last - first + 1).toNat).map (fun (k : Nat) => XNum.ofInt (first + k)) ++ [e]

/-- The trapezoid of `lin(v, ·)` from one knot to the next (R152). -/
def trapezoid (d : Config.NumDomain) (v : List XNum) (u u' : XNum) : XNum :=
  d.mul (d.div (d.add (lin d v u) (lin d v u')) (.rat 2)) (d.sub u' u)

/-- `avg(v, begin, end)` (R152). -/
def avg (d : Config.NumDomain) (v : List XNum) (b e : XNum) : XNum :=
  if b.eq e then lin d v b
  else
    let k := knots b e
    d.div (d.sum ((k.zip k.tail).map fun uu => trapezoid d v uu.1 uu.2)) (d.sub e b)

/-! ## FIR application -/

/-- `conv_same(u, w)` (R154). -/
def convSame (d : Config.NumDomain) (u w : List XNum) : List XNum :=
  let c := (w.length - 1) / 2
  (List.range u.length).map fun i =>
    d.sum (((List.range w.length).filter fun k => decide (k ≤ i + c) && decide (i + c - k < u.length)).map
      fun k => d.mul (w.getD k (.rat 0)) (u.getD (i + c - k) (.rat 0)))

/-! ## Commands -/

/-- TIMEARR (R141). -/
def execTimearr (fd : FReg) (rfs : RReg) (xn : XReg) (s : State) : Host.Outcome State Fault Refusal :=
  s.complete do
    let fs ← s.readR rfs
    let n ← s.readX xn
    failIf (fs.le (.rat 0)) .domain 1
    failIf (decide (n.toInt < 0)) .domain 2
    fits s.params n.toInt
    let t ← s.putF fd (timeGrid s.params.num fs n.toInt.toNat)
    return (t, noWarn)

/-- SPS (R142). -/
def execSps (rd rfs rbaud : RReg) (s : State) : Host.Outcome State Fault Refusal :=
  s.complete do
    let fs ← s.readR rfs
    let baud ← s.readR rbaud
    failIf (fs.le (.rat 0)) .domain 1
    failIf (baud.le (.rat 0)) .domain 2
    return (s.setR rd (s.params.num.div fs baud), noWarn)

/-- SHRES (R143). -/
def execShres (fd ft : FReg) (rbaud : RReg) (fv : FReg) (s : State) : Host.Outcome State Fault Refusal :=
  s.complete do
    let t ← s.readF ft
    let baud ← s.readR rbaud
    let v ← s.readF fv
    failIf (baud.le (.rat 0)) .domain 1
    let t' ← s.putF fd (resample s.params.num t baud v)
    return (t', noWarn)

/-- GAUSSWIN (R145). -/
def execGausswin (fd : FReg) (rfs rsigma : RReg) (s : State) : Host.Outcome State Fault Refusal :=
  s.complete do
    let fs ← s.readR rfs
    let sigma ← s.readR rsigma
    failIf (fs.le (.rat 0)) .domain 1
    failIf (sigma.le (.rat 0)) .domain 2
    fits s.params (gaussLength s.params.num fs sigma)
    let t ← s.putF fd (gauss s.params.num fs sigma)
    return (t, noWarn)

/-- LPFIR (R148): LPFIRA with `ATT_DEFAULT`. -/
def execLpfir (fd : FReg) (rfs rlo rhi : RReg) (s : State) : Host.Outcome State Fault Refusal :=
  s.complete do
    let fs ← s.readR rfs
    let lo ← s.readR rlo
    let hi ← s.readR rhi
    let h ← lowpass s.params fs lo hi s.params.attDefault
    let t ← s.putF fd h
    return (t, noWarn)

/-- LPFIRA (R149). -/
def execLpfira (fd : FReg) (rfs rlo rhi ratt : RReg) (s : State) : Host.Outcome State Fault Refusal :=
  s.complete do
    let fs ← s.readR rfs
    let lo ← s.readR rlo
    let hi ← s.readR rhi
    let att ← s.readR ratt
    let h ← lowpass s.params fs lo hi att
    let t ← s.putF fd h
    return (t, noWarn)

/-- GOERTZ (R150): both destinations are written together. -/
def execGoertz (zd : ZReg) (fd : FReg) (rfreq rfs : RReg) (s : State) : Host.Outcome State Fault Refusal :=
  s.complete do
    let freq ← s.readR rfreq
    let fs ← s.readR rfs
    failIf (fs.le (.rat 0)) .domain 1
    failIf ((s.params.num.div fs (.rat 2)).le freq) .domain 2
    let w := goertzelAngle s.params.num freq fs
    let t ← s.putZ zd (goertzelNumerator s.params.num w)
    let t' ← t.putF fd (goertzelDenominator s.params.num w)
    return (t', noWarn)

/-- AVGINT (R153). -/
def execAvgint (rd : RReg) (fa : FReg) (rbegin rend : RReg) (s : State) : Host.Outcome State Fault Refusal :=
  s.complete do
    let v ← s.readF fa
    let b ← s.readR rbegin
    let e ← s.readR rend
    failIf (e.lt b) .domain 1
    failIf (b.lt (.rat 0)) .domain 2
    failIf ((XNum.ofInt (v.length - 1)).lt e) .domain 3
    return (s.setR rd (avg s.params.num v b e), noWarn)

/-- CONV (R155). -/
def execConv (fd fa fk : FReg) (s : State) : Host.Outcome State Fault Refusal :=
  s.complete do
    let u ← s.readF fa
    let w ← s.readF fk
    failIf w.isEmpty .domain 1
    let t ← s.putF fd (convSame s.params.num u w)
    return (t, noWarn)

end Sys2Proof.Machine
end

