-- ==== Sys2Proof/Machine/Slicer.lean ====
section
/-! DEFINITION. The symbol slicer: vector quantiser, codebooks, the finishing step with its warning, and SLICE
and SLICEZ (spec/45_slicer.md R190 to R193; spec/44_modulator_config.md R183). -/

namespace Sys2Proof.Machine

/-- The squared Euclidean distance of two points of one dimension (R190). DESIGN CHOICE under `binary64`: the square as
`Config.NumDomain.sq` takes it (notes/assumptions/21.md). -/
def dist2 (d : Config.NumDomain) (o c : List XNum) : XNum := d.sum (List.zipWith (fun a b => d.sq (d.sub a b)) o c)

/-- Going through the codewords from number `j` on, with `best` the distance of the nearest one so far and
`at_` its index: a later one takes over only when it is strictly nearer. -/
def nearestFrom (d : Config.NumDomain) (o : List XNum) (best : XNum) (at_ j : Nat) : List (List XNum) → Nat
  | [] => at_
  | c :: rest =>
    if best.le (dist2 d o c) then nearestFrom d o best at_ (j + 1) rest
    else nearestFrom d o (dist2 d o c) j (j + 1) rest

/-- The smallest index whose codeword is at most as far from the observation as every codeword (R190). -/
def nearest (d : Config.NumDomain) (code : List (List XNum)) (o : List XNum) : Nat :=
  match code with
  | [] => 0
  | c :: rest => nearestFrom d o (dist2 d o c) 0 1 rest

/-- `vq(obs, code)` (R190). -/
def vq (d : Config.NumDomain) (obs code : List (List XNum)) : List Nat := obs.map (nearest d code)

/-- The codebook of the bank's mode (R191): the null codeword, then one codeword per symbol. -/
def codebook (d : Config.NumDomain) (c : ModemConfig) : List (List XNum) :=
  match c.mode with
  | .ask => [.rat 0] :: c.alpha.map fun a => [a.re]
  | .fsk => List.replicate c.n (.rat 0) ::
      (List.range c.n).map fun j => (List.range c.n).map fun k => if k = j then c.amp else .rat 0
  | .psk => [.rat 0, .rat 0] :: c.alpha.map fun a => [d.mul c.amp (d.cos a.re), d.mul c.amp (d.sin a.re)]
  | .qam => [.rat 0, .rat 0] :: c.alpha.map fun a => [a.re, a.im]

/-- `finish(idx)` (R183): subtract 1, so that the null becomes -1; drop the guards; warn CORRUPT when a guard
is not null or an inner symbol is. -/
def finish (idx : List Nat) : List Word × BitVec 4 :=
  let q : List Int := idx.map fun (j : Nat) => (j : Int) - 1
  let inner := q.tail.dropLast
  (inner.map (BitVec.ofInt Config.xlen),
    corruptOnly (decide (q.head? ≠ some (-1)) || decide (q.getLast? ≠ some (-1)) || inner.any (fun v => decide (v = -1))))

/-- Cut a list into `count` pieces of `d` elements (R192). -/
def chunks {α : Type} (d count : Nat) (l : List α) : List (List α) :=
  (List.range count).map fun i => (l.drop (i * d)).take d

/-- The last steps of SLICE, SLICEZ and DEM*: quantise, finish, write. -/
def sliceInto (s : State) (sd : SReg) (obs : List (List XNum)) : Cmd (State × BitVec 4) := do
  let out := finish (vq s.params.num obs (codebook s.params.num s.cfg))
  let t ← s.putS sd out.1
  return (t, out.2)

/-- SLICE (R192). -/
def execSlice (sd : SReg) (fobs : FReg) (s : State) : Host.Outcome State Fault Refusal :=
  s.complete do
    let o ← s.readF fobs
    s.needCfg [.ask, .fsk]
    let d := if s.cfg.mode = .ask then 1 else s.cfg.n
    failIf (decide (o.length % d ≠ 0)) .length o.length
    let count := o.length / d
    failIf (decide (count < 2)) .length count
    sliceInto s sd (chunks d count o)

/-- SLICEZ (R193). -/
def execSlicez (sd : SReg) (zobs : ZReg) (s : State) : Host.Outcome State Fault Refusal :=
  s.complete do
    let o ← s.readZ zobs
    s.needCfg [.psk, .qam]
    failIf (decide (o.length < 2)) .length o.length
    sliceInto s sd (o.map fun c => [c.re, c.im])

end Sys2Proof.Machine
end

