-- ==== Sys2Proof/Machine/Bitstream.lean ====
section
/-! DEFINITION. The bitstream accessor: bit order, `MemRead` and `MemWrite` (spec/20_memory.md R51 to R54), and
the commands RDBIT, RDBITS, WRBIT (spec/40_bitstream.md R90 to R92). -/

namespace Sys2Proof.Machine

/-- Stream bit `p` of a byte sequence (R51): bit `7 - p mod 8` of byte `p div 8`. Past the end it is 0. -/
def streamBit (v : List Byte) (p : Nat) : Bool := (v.getD (p / 8) 0).getLsbD (7 - p % 8)

/-- The number whose `n` binary digits, most significant first, are `bit p`, `bit (p+1)`, ... (R52). -/
def groupVal (bit : Nat → Bool) (p : Nat) : Nat → Nat
  | 0 => 0
  | n + 1 => 2 * groupVal bit p n + (bit (p + n)).toNat

/-- `MemRead((v,p), n)` (R53). -/
def memRead (v : List Byte) (p n : Nat) : Nat := groupVal (streamBit v) p n

/-- `n` bytes built from a stream of bits, most significant bit first (R51). -/
def packBytes (n : Nat) (bit : Nat → Bool) : List Byte :=
  (List.range n).map fun m => BitVec.ofNat 8 (groupVal bit (8 * m) 8)

/-- `MemWrite((v,p), n, x)` (R54): stream bits `p..p+n-1` become the digits of `x`, most significant first;
the other bits and the length stay. -/
def memWrite (v : List Byte) (p n x : Nat) : List Byte :=
  packBytes v.length fun q =>
    if p ≤ q ∧ q < p + n then x.testBit (n - 1 - (q - p)) else streamBit v q

/-- A bit position `p` is in the buffer (R90, R92): `Range(p)` when `p < 0` or `p >= 8*len`. -/
def bitIndex (v : List Byte) (p : Int) : Cmd Nat := do
  failIf (decide (p < 0) || decide ((8 * v.length : Nat) ≤ p)) .range p
  return p.toNat

/-- All bits in order (R91). -/
def allBits (v : List Byte) : List Word :=
  (List.range (8 * v.length)).map fun p => BitVec.ofNat Config.xlen (memRead v p 1)

/-- RDBIT (R90): `x[xd] <- MemRead((b[bs], x[xp]), 1)`. -/
def execRdbit (xd : XReg) (bs : BReg) (xp : XReg) (s : State) : Host.Outcome State Fault Refusal :=
  s.complete do
    let v ← s.readB bs
    let p ← s.readX xp
    let i ← bitIndex v.bytes p.toInt
    return (s.setX xd (BitVec.ofNat Config.xlen (memRead v.bytes i 1)), noWarn)

/-- RDBITS (R91). -/
def execRdbits (sd : SReg) (bs : BReg) (s : State) : Host.Outcome State Fault Refusal :=
  s.complete do
    let v ← s.readB bs
    let t ← s.putS sd (allBits v.bytes)
    return (t, noWarn)

/-- WRBIT (R92): in place, so `len` and `ro` stay; `Capability` comes before `Range`; any value but 0 is 1. -/
def execWrbit (bd : BReg) (xp xv : XReg) (s : State) : Host.Outcome State Fault Refusal :=
  s.complete do
    let v ← s.readB bd
    let p ← s.readX xp
    let val ← s.readX xv
    failIf v.ro .capability bd.val
    let i ← bitIndex v.bytes p.toInt
    return (s.setB bd ⟨memWrite v.bytes i 1 (if val = 0 then 0 else 1), v.ro⟩, noWarn)

end Sys2Proof.Machine
end

