-- ==== Sys2Proof/Machine/SymbolCodec.lean ====
section
/-! DEFINITION. The symbol alphabet encoders and decoders (spec/41_symbol_codec.md R100 to R115). -/

namespace Sys2Proof.Machine

/-- The pad of `encode_k` (R100): only radix 8 pads, by 0, 1 or 2 zero bits. -/
def encodePad (k nbits : Nat) : Nat := if k = 3 then (3 - nbits % 3) % 3 else 0

/-- The stream `encode_k` reads: the buffer's bits, then zeros (R100). -/
def paddedBit (v : List Byte) (p : Nat) : Bool := decide (p < 8 * v.length) && streamBit v p

/-- `encode_k(v)` (R100). The capacity check is the buffer write's. -/
def encodeK (k : Nat) (v : List Byte) : Cmd (List Word) := do
  let total := 8 * v.length + encodePad k (8 * v.length)
  failIf (decide (total % k ≠ 0)) .length v.length
  return (List.range (total / k)).map fun i => BitVec.ofNat Config.xlen (groupVal (paddedBit v) (k * i) k)

/-- The symbol count suits radix `2^k` (R101): a multiple of the whole group, for radix 8 also with a
remainder of 3 or 6 symbols. -/
def decodeLengthOk (k n : Nat) : Bool :=
  if k = 3 then n % 8 = 0 || n % 8 = 3 || n % 8 = 6 else n % (8 / Nat.gcd k 8) = 0

/-- A symbol lies outside `[0, bound)` (R101, R181). -/
def symbolOutside (bound : Nat) (q : Word) : Bool := decide (q.toInt < 0) || decide ((bound : Int) ≤ q.toInt)

/-- R101, R181: the first symbol outside `[0, bound)` raises `Symbol` with its index. -/
def checkSymbols (bound : Nat) (q : List Word) : Cmd Unit :=
  match q.findIdx? (symbolOutside bound) with
  | some i => .error ⟨.symbol, i⟩
  | none => .ok ()

/-- Bit `k*i + j` of a symbol sequence is bit `k-1-j` of symbol `i` (R101). -/
def symbolBit (k : Nat) (q : List Word) (p : Nat) : Bool := (q.getD (p / k) 0).getLsbD (k - 1 - p % k)

/-- Some bit past the last whole byte is 1 (R101). -/
def padBitSet (k : Nat) (q : List Word) : Bool :=
  let nb := k * q.length / 8
  (List.range (k * q.length - 8 * nb)).any fun d => symbolBit k q (8 * nb + d)

/-- `decode_k(q)` (R101): length, then symbols, then pad bits. -/
def decodeK (k : Nat) (q : List Word) : Cmd (List Byte) := do
  failIf (!decodeLengthOk k q.length) .length q.length
  checkSymbols (2 ^ k) q
  failIf (padBitSet k q) .length q.length
  return packBytes (k * q.length / 8) (symbolBit k q)

/-- `s[sd] <- encode_k(b[bs])`. -/
def encodeCommand (k : Nat) (sd : SReg) (bs : BReg) (s : State) : Host.Outcome State Fault Refusal :=
  s.complete do
    let v ← s.readB bs
    let q ← encodeK k v.bytes
    let t ← s.putS sd q
    return (t, noWarn)

/-- `b[bd] <- decode_k(s[ss])`. -/
def decodeCommand (k : Nat) (bd : BReg) (ss : SReg) (s : State) : Host.Outcome State Fault Refusal :=
  s.complete do
    let q ← s.readS ss
    let v ← decodeK k q
    let t ← s.putB bd v
    return (t, noWarn)

/-- ENC2 (R102). -/
def execEnc2 (sd : SReg) (bs : BReg) (s : State) : Host.Outcome State Fault Refusal := encodeCommand 1 sd bs s
/-- ENC4 (R103). -/
def execEnc4 (sd : SReg) (bs : BReg) (s : State) : Host.Outcome State Fault Refusal := encodeCommand 2 sd bs s
/-- ENC8 (R104). -/
def execEnc8 (sd : SReg) (bs : BReg) (s : State) : Host.Outcome State Fault Refusal := encodeCommand 3 sd bs s
/-- ENC16 (R105). -/
def execEnc16 (sd : SReg) (bs : BReg) (s : State) : Host.Outcome State Fault Refusal := encodeCommand 4 sd bs s
/-- ENC32 (R106). -/
def execEnc32 (sd : SReg) (bs : BReg) (s : State) : Host.Outcome State Fault Refusal := encodeCommand 5 sd bs s
/-- ENC64 (R107). -/
def execEnc64 (sd : SReg) (bs : BReg) (s : State) : Host.Outcome State Fault Refusal := encodeCommand 6 sd bs s
/-- ENC256 (R108). -/
def execEnc256 (sd : SReg) (bs : BReg) (s : State) : Host.Outcome State Fault Refusal := encodeCommand 8 sd bs s
/-- DEC2 (R109). -/
def execDec2 (bd : BReg) (ss : SReg) (s : State) : Host.Outcome State Fault Refusal := decodeCommand 1 bd ss s
/-- DEC4 (R110). -/
def execDec4 (bd : BReg) (ss : SReg) (s : State) : Host.Outcome State Fault Refusal := decodeCommand 2 bd ss s
/-- DEC8 (R111). -/
def execDec8 (bd : BReg) (ss : SReg) (s : State) : Host.Outcome State Fault Refusal := decodeCommand 3 bd ss s
/-- DEC16 (R112). -/
def execDec16 (bd : BReg) (ss : SReg) (s : State) : Host.Outcome State Fault Refusal := decodeCommand 4 bd ss s
/-- DEC32 (R113). -/
def execDec32 (bd : BReg) (ss : SReg) (s : State) : Host.Outcome State Fault Refusal := decodeCommand 5 bd ss s
/-- DEC64 (R114). -/
def execDec64 (bd : BReg) (ss : SReg) (s : State) : Host.Outcome State Fault Refusal := decodeCommand 6 bd ss s
/-- DEC256 (R115). -/
def execDec256 (bd : BReg) (ss : SReg) (s : State) : Host.Outcome State Fault Refusal := decodeCommand 8 bd ss s

end Sys2Proof.Machine
end

