-- ==== Sys2Proof/Machine/Modem.lean ====
section
/-! DEFINITION. What the four modems share: pulse width, shaping, interval geometry and down-conversion
(spec/44_modulator_config.md R179 to R184). -/

namespace Sys2Proof.Machine

/-- `sps = FS/BAUD` (R180). -/
def samplesPerSymbol (d : Config.NumDomain) (c : ModemConfig) : XNum := d.div c.fs c.baud

/-- The Gaussian `sigma` of the bank (R179). -/
def pulseSigma (p : Config.Params) (c : ModemConfig) : XNum :=
  let sigmaT := p.num.div (p.num.div (.rat 1) c.baud) (p.num.mul (.rat 4) p.sigmaMultT)
  match c.mode with
  | .fsk => XNum.min sigmaT (p.num.div p.fskCycleFrac (maxOf (realAlpha c.alpha)))
  | _ => XNum.min sigmaT (p.num.div p.sigmaMultF (p.num.mul p.num.pi c.carrier))

/-- The transition width in samples (R180). -/
def transitionWidth (p : Config.Params) (c : ModemConfig) : XNum :=
  p.num.mul (p.num.mul p.sigmaMultT (pulseSigma p c)) c.fs

/-- The values of a symbol sequence with a guard 0 at each end (R181). -/
def guarded (value : Nat → XNum) (q : List Word) : List XNum :=
  [.rat 0] ++ q.map (fun w => value w.toNat) ++ [.rat 0]

/-- The real part of alphabet entry `j`. -/
def alphaRe (c : ModemConfig) (j : Nat) : XNum := (c.alpha.getD j Cplx.zero).re

/-- The imaginary part of alphabet entry `j`. -/
def alphaIm (c : ModemConfig) (j : Nat) : XNum := (c.alpha.getD j Cplx.zero).im

/-- `Ns = ceil((n+2)*sps)` for `slots = n+2` (R181). -/
def sampleCount (d : Config.NumDomain) (c : ModemConfig) (slots : Nat) : Int :=
  (d.mul (.ofNat slots) (samplesPerSymbol d c)).ceil

/-- The sample times `t` of `shaped` for a transmission of `slots` slots (R181). -/
def sampleTimes (d : Config.NumDomain) (c : ModemConfig) (slots : Nat) : List XNum :=
  timeGrid d c.fs (sampleCount d c slots).toNat

/-- The second result of `shaped(vals)` (R181): the values held at the sample rate, smoothed by the Gaussian
kernel. -/
def shaped (p : Config.Params) (c : ModemConfig) (vals : List XNum) : List XNum :=
  convSame p.num (resample p.num (sampleTimes p.num c vals.length) c.baud vals) (gauss p.num c.fs (pulseSigma p c))

/-- What every MOD* command checks before it shapes `q` (R181): the symbols, then the sample count. -/
def checkTransmission (p : Config.Params) (c : ModemConfig) (q : List Word) : Cmd Unit := do
  checkSymbols c.n q
  fits p (sampleCount p.num c (q.length + 2))

/-- `2*pi*CARRIER*t` (R200, R220, R222). -/
def carrierPhase (d : Config.NumDomain) (c : ModemConfig) (t : XNum) : XNum :=
  d.mul (d.mul d.twoPi c.carrier) t

/-- The averaging window of interval `i` of `count` (R182). -/
def interval (p : Config.Params) (c : ModemConfig) (ns count i : Nat) : XNum × XNum :=
  let sps := samplesPerSymbol p.num c
  let w := transitionWidth p c
  let b := p.num.add (p.num.mul (.ofNat i) sps) (if i = 0 then .rat 0 else w)
  let e := p.num.sub (p.num.mul (.ofNat (i + 1)) sps) (if i + 1 = count then .rat 0 else w)
  (b, XNum.min e (XNum.ofInt (ns - 1)))

/-- `count = round_he(Ns/sps)` (R182). -/
def intervalCount (d : Config.NumDomain) (c : ModemConfig) (ns : Nat) : Int :=
  (d.div (.ofNat ns) (samplesPerSymbol d c)).roundHe

/-- The list of averaging windows (R182). -/
def intervalList (p : Config.Params) (c : ModemConfig) (ns : Nat) : List (XNum × XNum) :=
  (List.range (intervalCount p.num c ns).toNat).map (interval p c ns (intervalCount p.num c ns).toNat)

/-- `intervals(Ns)` (R182): fewer than two intervals raise `Length`. -/
def intervals (p : Config.Params) (c : ModemConfig) (ns : Nat) : Cmd (List (XNum × XNum)) := do
  failIf (decide (intervalCount p.num c ns < 2)) .length (intervalCount p.num c ns)
  return intervalList p c ns

/-- The pass edge `BAUD/2` (R184). -/
def passEdge (d : Config.NumDomain) (c : ModemConfig) : XNum := d.div c.baud (.rat 2)

/-- The stop edge `min(2*CARRIER, FS - 2*CARRIER) - BAUD/2` (R184). -/
def stopEdge (d : Config.NumDomain) (c : ModemConfig) : XNum :=
  let twice := d.mul (.rat 2) c.carrier
  d.sub (XNum.min twice (d.sub c.fs twice)) (d.div c.baud (.rat 2))

/-- The mixing angle `sign*2*pi*CARRIER*i/FS` (R184). DESIGN CHOICE under `binary64`: `sign*2` is the exact integer, the
other factors follow from left to right (notes/assumptions/21.md). -/
def mixAngle (d : Config.NumDomain) (c : ModemConfig) (sign : Int) (i : Nat) : XNum :=
  d.div (d.mul (d.mul (d.mul (.ofInt (sign * 2)) d.pi) c.carrier) (.ofNat i)) c.fs

/-- `d[i] = 2*x[i]*cis(sign*2*pi*CARRIER*i/FS)` (R184), one part of it. DESIGN CHOICE under `binary64`: the complex product
part by part, `2*x[i]` first (notes/assumptions/21.md). -/
def mixed (d : Config.NumDomain) (c : ModemConfig) (x : List XNum) (sign : Int) (part : Cplx → XNum) : List XNum :=
  (List.range x.length).map fun i =>
    d.mul (d.mul (.rat 2) (x.getD i (.rat 0))) (part (d.cis (mixAngle d c sign i)))

/-- The taps `h` of the demodulators' low-pass (R184). -/
def basebandTaps (p : Config.Params) (c : ModemConfig) : Cmd (List XNum) :=
  lowpass p c.fs (passEdge p.num c) (stopEdge p.num c) p.attDefault

/-- One part of `baseband(x, sign)` (R184), given its taps. DESIGN CHOICE under `binary64`: the complex convolution part by
part (notes/assumptions/21.md). -/
def baseband (d : Config.NumDomain) (c : ModemConfig) (x : List XNum) (sign : Int) (h : List XNum)
    (part : Cplx → XNum) : List XNum :=
  convSame d (mixed d c x sign part) h

/-- The observations of `demod2d` (R223): the averaged complex value of each interval. -/
def observations2d (d : Config.NumDomain) (c : ModemConfig) (x : List XNum) (iv : List (XNum × XNum))
    (h : List XNum) : List (List XNum) :=
  iv.map fun be =>
    [avg d (baseband d c x (-1) h Cplx.re) be.1 be.2, avg d (baseband d c x (-1) h Cplx.im) be.1 be.2]

end Sys2Proof.Machine
end

