-- ==== Sys2Proof/Machine/Ask.lean ====
section
/-! DEFINITION. The ASK modulator and demodulator (spec/46_ask.md R200, R201). -/

namespace Sys2Proof.Machine

/-- The samples of an ASK transmission (R200): the envelope on the carrier's cosine. -/
def askSamples (p : Config.Params) (c : ModemConfig) (q : List Word) : List XNum :=
  List.zipWith (fun t e => p.num.mul e (p.num.cos (carrierPhase p.num c t)))
    (sampleTimes p.num c (q.length + 2)) (shaped p c (guarded (alphaRe c) q))

/-- MODASK (R200). -/
def execModask (fd : FReg) (ss : SReg) (s : State) : Host.Outcome State Fault Refusal :=
  s.complete do
    let q ← s.readS ss
    s.needCfg [.ask]
    checkTransmission s.params s.cfg q
    let t ← s.putF fd (askSamples s.params s.cfg q)
    return (t, noWarn)

/-- The filtered magnitude `m` (R201). -/
def askMagnitude (d : Config.NumDomain) (c : ModemConfig) (x h : List XNum) : List XNum :=
  List.zipWith (fun a b => d.abs ⟨a, b⟩) (baseband d c x 1 h Cplx.re) (baseband d c x 1 h Cplx.im)

/-- The observations of ASK (R201): the averaged magnitude of each interval. -/
def askObservations (d : Config.NumDomain) (c : ModemConfig) (x : List XNum) (iv : List (XNum × XNum))
    (h : List XNum) : List (List XNum) :=
  iv.map fun be => [avg d (askMagnitude d c x h) be.1 be.2]

/-- DEMASK (R201). -/
def execDemask (sd : SReg) (fx : FReg) (s : State) : Host.Outcome State Fault Refusal :=
  s.complete do
    let x ← s.readF fx
    s.needCfg [.ask]
    let iv ← intervals s.params s.cfg x.length
    let h ← basebandTaps s.params s.cfg
    sliceInto s sd (askObservations s.params.num s.cfg x iv h)

end Sys2Proof.Machine
end

