-- ==== Sys2Proof/Machine/Fsk.lean ====
section
/-! DEFINITION. The FSK modulator and demodulator (spec/47_fsk.md R210, R211). -/

namespace Sys2Proof.Machine

/-- The phases after the first, from the phase and the frequency of the sample before (R210): the trapezoid
rule `ph[i] = ph[i-1] + 2*pi*(fr[i-1] + fr[i])/(2*FS)`. -/
def phasesFrom (d : Config.NumDomain) (fs ph prev : XNum) : List XNum → List XNum
  | [] => []
  | f :: rest =>
    let next := d.add ph (d.div (d.mul d.twoPi (d.add prev f)) (d.mul (.rat 2) fs))
    next :: phasesFrom d fs next f rest

/-- The phase sequence, `ph[0] = 0` (R210). -/
def phases (d : Config.NumDomain) (fs : XNum) : List XNum → List XNum
  | [] => []
  | f :: rest => .rat 0 :: phasesFrom d fs (.rat 0) f rest

/-- The samples of an FSK transmission (R210): the smoothed envelope on the cosine of the integrated
frequency. -/
def fskSamples (p : Config.Params) (c : ModemConfig) (q : List Word) : List XNum :=
  List.zipWith (fun e ph => p.num.mul e (p.num.cos ph)) (shaped p c (guarded (fun _ => c.amp) q))
    (phases p.num c.fs (shaped p c (guarded (alphaRe c) q)))

/-- MODFSK (R210). -/
def execModfsk (fd : FReg) (ss : SReg) (s : State) : Host.Outcome State Fault Refusal :=
  s.complete do
    let q ← s.readS ss
    s.needCfg [.fsk]
    checkTransmission s.params s.cfg q
    let t ← s.putF fd (fskSamples s.params s.cfg q)
    return (t, noWarn)

/-- The number of samples `Wn = ei - bi` of a window rounded to whole samples (R211). -/
def windowLength (be : XNum × XNum) : Int := be.2.roundHe - be.1.roundHe

/-- The tone magnitudes of one window (R211): `g[k] = 2*goertzel_mag/Wn` for each tone. -/
def toneMagnitudes (d : Config.NumDomain) (c : ModemConfig) (x : List XNum) (be : XNum × XNum) : List XNum :=
  (List.range c.n).map fun k =>
    d.div (d.mul (.rat 2) (goertzelMag d x be.1.roundHe.toNat (windowLength be).toNat
      (goertzelAngle d (alphaRe c k) c.fs))) (.ofInt (windowLength be))

/-- An empty window raises `Domain(1)` (R211). -/
def checkWindows (iv : List (XNum × XNum)) : Cmd Unit :=
  failIf (iv.any fun be => decide (windowLength be ≤ 0)) .domain 1

/-- DEMFSK (R211). -/
def execDemfsk (sd : SReg) (fx : FReg) (s : State) : Host.Outcome State Fault Refusal :=
  s.complete do
    let x ← s.readF fx
    s.needCfg [.fsk]
    let iv ← intervals s.params s.cfg x.length
    checkWindows iv
    sliceInto s sd (iv.map (toneMagnitudes s.params.num s.cfg x))

end Sys2Proof.Machine
end

