-- ==== Sys2Proof/Machine/Hamming.lean ====
section
/-! DEFINITION. The error-correcting code layer: the Hamming (7,4) codeword and the commands of the three ECC
modes (spec/42_hamming.md R130 to R138). -/

namespace Sys2Proof.Machine

/-- Bit at position `pos` (1 to 7) of the codeword of the data bits `d1..d4` (R130). -/
def codewordBit (d1 d2 d3 d4 : Bool) (pos : Nat) : Bool :=
  match pos with
  | 1 => d1 ^^ d2 ^^ d4
  | 2 => d1 ^^ d3 ^^ d4
  | 3 => d1
  | 4 => d2 ^^ d3 ^^ d4
  | 5 => d2
  | 6 => d3
  | 7 => d4
  | _ => false

/-- The output stream of HAMENC (R133): codeword `g` in stream bits `7g..7g+6` for the `2*len` nibbles of the
input, then zeros. -/
def hamEncodeBit (v : List Byte) (q : Nat) : Bool :=
  let g := q / 7
  decide (g < 2 * v.length) &&
    codewordBit (streamBit v (4 * g)) (streamBit v (4 * g + 1)) (streamBit v (4 * g + 2))
      (streamBit v (4 * g + 3)) (q % 7 + 1)

/-- HAMENC's result (R133): `ceil(14*N/8)` bytes. -/
def hamEncode (v : List Byte) : List Byte := packBytes ((14 * v.length + 7) / 8) (hamEncodeBit v)

/-- The syndrome of the 7-bit group that `c` gives by position 1 to 7 (R137). -/
def syndrome (c : Nat → Bool) : Nat :=
  (c 1 ^^ c 3 ^^ c 5 ^^ c 7).toNat + 2 * (c 2 ^^ c 3 ^^ c 6 ^^ c 7).toNat
    + 4 * (c 4 ^^ c 5 ^^ c 6 ^^ c 7).toNat

/-- Position `pos` after the correction (R137, R138): the bit the syndrome names is flipped when it is a data
bit; a wrong parity bit is left. -/
def correctedBit (c : Nat → Bool) (pos : Nat) : Bool :=
  c pos ^^ (decide (pos = syndrome c) && (pos = 3 || pos = 5 || pos = 6 || pos = 7))

/-- The position of data bit `j` (0 to 3) in the codeword (R130). -/
def dataPosition (j : Nat) : Nat := if j = 0 then 3 else j + 4

/-- Whole 7-bit groups of a buffer (R137). -/
def hamGroups (v : List Byte) : Nat := 8 * v.length / 7

/-- The output stream of HAMDEC (R137): the four data bits of each whole group, then zeros. -/
def hamDecodeBit (v : List Byte) (q : Nat) : Bool :=
  let g := q / 4
  decide (g < hamGroups v) &&
    correctedBit (fun pos => streamBit v (7 * g + (pos - 1))) (dataPosition (q % 4))

/-- HAMDEC's result (R136, R137): `G/2` bytes for an even number `G` of groups; for an odd one what `HAM_ODD`
says. -/
def hamDecode (odd : Config.HamOdd) (v : List Byte) : Cmd (List Byte) :=
  let g := hamGroups v
  if g % 2 = 0 then .ok (packBytes (g / 2) (hamDecodeBit v))
  else match odd with
    | .fault => .error ⟨.length, g⟩
    | .drop => .ok (packBytes (g / 2) (hamDecodeBit v))
    | .zeroPad => .ok (packBytes (g / 2 + 1) (hamDecodeBit v))

/-- `b[bd] <- b[bs]`, the byte sequence unchanged (R131). -/
def copyCommand (bd bs : BReg) (s : State) : Host.Outcome State Fault Refusal :=
  s.complete do
    let v ← s.readB bs
    let t ← s.putB bd v.bytes
    return (t, noWarn)

/-- ECCENC.NONE (R131). -/
def execEccencNone (bd bs : BReg) (s : State) : Host.Outcome State Fault Refusal := copyCommand bd bs s
/-- ECCENC.RAW (R132). -/
def execEccencRaw (bd bs : BReg) (s : State) : Host.Outcome State Fault Refusal := copyCommand bd bs s
/-- ECCDEC.NONE (R134). -/
def execEccdecNone (bd bs : BReg) (s : State) : Host.Outcome State Fault Refusal := copyCommand bd bs s
/-- ECCDEC.RAW (R135). -/
def execEccdecRaw (bd bs : BReg) (s : State) : Host.Outcome State Fault Refusal := copyCommand bd bs s

/-- HAMENC (R133). -/
def execHamenc (bd bs : BReg) (s : State) : Host.Outcome State Fault Refusal :=
  s.complete do
    let v ← s.readB bs
    let t ← s.putB bd (hamEncode v.bytes)
    return (t, noWarn)

/-- HAMDEC (R137). A correction raises no warning and leaves no trace. -/
def execHamdec (bd bs : BReg) (s : State) : Host.Outcome State Fault Refusal :=
  s.complete do
    let v ← s.readB bs
    let out ← hamDecode s.params.hamOdd v.bytes
    let t ← s.putB bd out
    return (t, noWarn)

end Sys2Proof.Machine
end

