-- ==== Sys2Proof/Machine/PskQam.lean ====
section
/-! DEFINITION. The PSK and QAM modulators and demodulators (spec/48_psk_qam.md R220 to R223). -/

namespace Sys2Proof.Machine

/-- The samples of a PSK transmission (R220): phase and envelope smoothed apart, the phase added inside the
cosine. -/
def pskSamples (p : Config.Params) (c : ModemConfig) (q : List Word) : List XNum :=
  List.zipWith (fun e a => p.num.mul e (p.num.cos a)) (shaped p c (guarded (fun _ => c.amp) q))
    (List.zipWith (fun t ph => p.num.add (carrierPhase p.num c t) ph)
      (sampleTimes p.num c (q.length + 2)) (shaped p c (guarded (alphaRe c) q)))

/-- MODPSK (R220). -/
def execModpsk (fd : FReg) (ss : SReg) (s : State) : Host.Outcome State Fault Refusal :=
  s.complete do
    let q ← s.readS ss
    s.needCfg [.psk]
    checkTransmission s.params s.cfg q
    let t ← s.putF fd (pskSamples s.params s.cfg q)
    return (t, noWarn)

/-- DEMPSK (R221): rule R223's body with the PSK codebook. -/
def execDempsk (sd : SReg) (fx : FReg) (s : State) : Host.Outcome State Fault Refusal :=
  s.complete do
    let x ← s.readF fx
    s.needCfg [.psk]
    let iv ← intervals s.params s.cfg x.length
    let h ← basebandTaps s.params s.cfg
    sliceInto s sd (observations2d s.params.num s.cfg x iv h)

/-- The samples of a QAM transmission (R222): real and imaginary parts shaped alike, the real part on the
cosine, the imaginary part on the negated sine. DESIGN CHOICE under `binary64`: of R222's two forms of the real part
of the product, the one written out in reals (notes/assumptions/21.md). -/
def qamSamples (p : Config.Params) (c : ModemConfig) (q : List Word) : List XNum :=
  List.zipWith (fun t (ri : XNum × XNum) =>
      p.num.sub (p.num.mul ri.1 (p.num.cos (carrierPhase p.num c t)))
        (p.num.mul ri.2 (p.num.sin (carrierPhase p.num c t))))
    (sampleTimes p.num c (q.length + 2))
    ((shaped p c (guarded (alphaRe c) q)).zip (shaped p c (guarded (alphaIm c) q)))

/-- MODQAM (R222). -/
def execModqam (fd : FReg) (ss : SReg) (s : State) : Host.Outcome State Fault Refusal :=
  s.complete do
    let q ← s.readS ss
    s.needCfg [.qam]
    checkTransmission s.params s.cfg q
    let t ← s.putF fd (qamSamples s.params s.cfg q)
    return (t, noWarn)

/-- DEMQAM (R223). -/
def execDemqam (sd : SReg) (fx : FReg) (s : State) : Host.Outcome State Fault Refusal :=
  s.complete do
    let x ← s.readF fx
    s.needCfg [.qam]
    let iv ← intervals s.params s.cfg x.length
    let h ← basebandTaps s.params s.cfg
    sliceInto s sd (observations2d s.params.num s.cfg x iv h)

end Sys2Proof.Machine
end

