-- ==== Sys2Proof/Machine/Dispatch.lean ====
section
/-! DEFINITION. One arm per command of spec/30_encoding.md R72, each a direct call of its meaning. -/

namespace Sys2Proof.Machine

def exec (i : Instr) (s : State) : Host.Outcome State Fault Refusal :=
  match i with
  | .rdbit xd bs xp => Sys2Proof.Machine.execRdbit xd bs xp s
  | .rdbits sd bs => Sys2Proof.Machine.execRdbits sd bs s
  | .wrbit bd xp xv => Sys2Proof.Machine.execWrbit bd xp xv s
  | .enc2 sd bs => Sys2Proof.Machine.execEnc2 sd bs s
  | .enc4 sd bs => Sys2Proof.Machine.execEnc4 sd bs s
  | .enc8 sd bs => Sys2Proof.Machine.execEnc8 sd bs s
  | .enc16 sd bs => Sys2Proof.Machine.execEnc16 sd bs s
  | .enc32 sd bs => Sys2Proof.Machine.execEnc32 sd bs s
  | .enc64 sd bs => Sys2Proof.Machine.execEnc64 sd bs s
  | .enc256 sd bs => Sys2Proof.Machine.execEnc256 sd bs s
  | .dec2 bd ss => Sys2Proof.Machine.execDec2 bd ss s
  | .dec4 bd ss => Sys2Proof.Machine.execDec4 bd ss s
  | .dec8 bd ss => Sys2Proof.Machine.execDec8 bd ss s
  | .dec16 bd ss => Sys2Proof.Machine.execDec16 bd ss s
  | .dec32 bd ss => Sys2Proof.Machine.execDec32 bd ss s
  | .dec64 bd ss => Sys2Proof.Machine.execDec64 bd ss s
  | .dec256 bd ss => Sys2Proof.Machine.execDec256 bd ss s
  | .eccencNone bd bs => Sys2Proof.Machine.execEccencNone bd bs s
  | .eccencRaw bd bs => Sys2Proof.Machine.execEccencRaw bd bs s
  | .hamenc bd bs => Sys2Proof.Machine.execHamenc bd bs s
  | .eccdecNone bd bs => Sys2Proof.Machine.execEccdecNone bd bs s
  | .eccdecRaw bd bs => Sys2Proof.Machine.execEccdecRaw bd bs s
  | .hamdec bd bs => Sys2Proof.Machine.execHamdec bd bs s
  | .timearr fd rfs xn => Sys2Proof.Machine.execTimearr fd rfs xn s
  | .sps rd rfs rbaud => Sys2Proof.Machine.execSps rd rfs rbaud s
  | .shres fd ft rbaud fv => Sys2Proof.Machine.execShres fd ft rbaud fv s
  | .gausswin fd rfs rsigma => Sys2Proof.Machine.execGausswin fd rfs rsigma s
  | .lpfir fd rfs rlo rhi => Sys2Proof.Machine.execLpfir fd rfs rlo rhi s
  | .lpfira fd rfs rlo rhi ratt => Sys2Proof.Machine.execLpfira fd rfs rlo rhi ratt s
  | .goertz zd fd rfreq rfs => Sys2Proof.Machine.execGoertz zd fd rfreq rfs s
  | .avgint rd fa rbegin rend => Sys2Proof.Machine.execAvgint rd fa rbegin rend s
  | .conv fd fa fk => Sys2Proof.Machine.execConv fd fa fk s
  | .cfgask rfs rcar rbaud famp => Sys2Proof.Machine.execCfgask rfs rcar rbaud famp s
  | .cfgfsk rfs ramp rbaud ffreq => Sys2Proof.Machine.execCfgfsk rfs ramp rbaud ffreq s
  | .cfgpsk rfs rcar ramp rbaud fph => Sys2Proof.Machine.execCfgpsk rfs rcar ramp rbaud fph s
  | .cfgqam rfs rcar rbaud zcon => Sys2Proof.Machine.execCfgqam rfs rcar rbaud zcon s
  | .slice sd fobs => Sys2Proof.Machine.execSlice sd fobs s
  | .slicez sd zobs => Sys2Proof.Machine.execSlicez sd zobs s
  | .modask fd ss => Sys2Proof.Machine.execModask fd ss s
  | .modfsk fd ss => Sys2Proof.Machine.execModfsk fd ss s
  | .modpsk fd ss => Sys2Proof.Machine.execModpsk fd ss s
  | .modqam fd ss => Sys2Proof.Machine.execModqam fd ss s
  | .demask sd fx => Sys2Proof.Machine.execDemask sd fx s
  | .demfsk sd fx => Sys2Proof.Machine.execDemfsk sd fx s
  | .dempsk sd fx => Sys2Proof.Machine.execDempsk sd fx s
  | .demqam sd fx => Sys2Proof.Machine.execDemqam sd fx s

end Sys2Proof.Machine
end

