-- ==== Sys2Proof/Machine/Step.lean ====
section
/-! DEFINITION. One step of the sequencer (spec/10_state.md R25; spec/60_exceptions.md R246, R251;
spec/70_reset_and_hazards.md R278), and where it fetches its next command. -/

namespace Sys2Proof.Machine

/-- A command word is issued (R75, R246): a legal word runs its command, an illegal one raises `Illegal`. -/
def issue (w : CmdWord) (s : State) : Host.Outcome State Fault Refusal :=
  match decode w with
  | .ok i => exec i s
  | .error _ => s.illegal w

/-- One step (R25): while a run is in progress and `pc < m`, the command `P[pc]` is issued. Once the run is
over, at `pc = m` or after an error, the block is idle and the step changes nothing (R262, R278). -/
def step (s : State) : Host.Outcome State Fault Refusal :=
  if s.program.length < s.pc then .fault .pcBeyondProgram
  else match s.fetch with
    | some w => issue w s
    | none => .next s

/-- The instruction `w` of `nbits` bits as the next command: the sequencer is given the one-word program that
holds it, as a host does that starts a run (R25). -/
def State.withFetchWord (s : State) (nbits w : Nat) : State :=
  { s with program := [BitVec.ofNat 32 (w % 2 ^ nbits)], pc := 0, running := true }

end Sys2Proof.Machine
end

