-- ==== Sys2Proof/Machine/HostPort.lean ====
section
/-! DEFINITION. What the host may do between commands (spec/20_memory.md R61; spec/00_scope.md R13;
spec/70_reset_and_hazards.md R270, R276): load registers, start a run, reset. Reading is reading the state.
`CFG`, `STATUS` and `ERRINFO` have no host write, and no host access makes a register empty. -/

namespace Sys2Proof.Machine

/-- What a host may hand over as a real number: one, or a value of its own format that is none (R13). -/
inductive HostReal where
  | num (v : XNum)
  | nan
  | infinity (negative : Bool)
deriving DecidableEq, Repr

/-- The real number handed over, if it is one. -/
def HostReal.value? : HostReal → Option XNum
  | .num v => some v
  | .nan => none
  | .infinity _ => none

/-- The complex number handed over, if both parts are real numbers. -/
def hostCplx? (c : HostReal × HostReal) : Option Cplx := do return ⟨← c.1.value?, ← c.2.value?⟩

/-- A host action. -/
inductive HostAction where
  | loadX (i : XReg) (v : Word)
  | loadR (i : RReg) (v : HostReal)
  /-- a byte buffer is loaded together with its read-only attribute (R26, R61) -/
  | loadB (i : BReg) (v : ByteBuf)
  | loadS (i : SReg) (v : List Word)
  | loadF (i : FReg) (v : List HostReal)
  | loadZ (i : ZReg) (v : List (HostReal × HostReal))
  /-- a program is handed to the sequencer, which starts it at `pc = 0`; "a run does not imply a reset" (R38).
  DESIGN CHOICE: a run in progress is given up (notes/assumptions/19.md). -/
  | run (program : List CmdWord)
  /-- the one reset (R270); the parameters of the implementation stay. DESIGN CHOICE: a run in progress is given up,
  program and all (notes/assumptions/19.md). -/
  | reset
deriving DecidableEq, Repr

/-- A host load of a buffer: at most `MAXLEN` elements (R61). -/
def hostLoad (s : State) (count : Nat) (t : State) : Host.Outcome State Fault Refusal :=
  if overMax s.params count then .refused .hostLoadTooLong else .next t

/-- A host load of real numbers: R13, a NaN or an infinity is refused. -/
def hostReals {α : Type} (v : Option α) (load : α → Host.Outcome State Fault Refusal) :
    Host.Outcome State Fault Refusal :=
  match v with
  | some a => load a
  | none => .refused .hostLoadNotReal

/-- The effect of a host action on an idle block (R61, R270, R276). DESIGN CHOICE: R270 resets the block of R20, to
which program and `pc` do not belong, and R278 gives a run two ends only; what a reset or a new run does to a run
in progress is the model's: it ends, and `pc` is 0 (notes/assumptions/19.md). -/
def hostAct (a : HostAction) (s : State) : Host.Outcome State Fault Refusal :=
  match a with
  | .loadX i v => .next (s.setX i v)
  | .loadR i v => hostReals v.value? fun a => .next (s.setR i a)
  | .loadB i v => hostLoad s v.bytes.length (s.setB i v)
  | .loadS i v => hostLoad s v.length (s.setS i v)
  | .loadF i v => hostReals (v.mapM HostReal.value?) fun l => hostLoad s l.length (s.setF i l)
  | .loadZ i v => hostReals (v.mapM hostCplx?) fun l => hostLoad s l.length (s.setZ i l)
  | .run program => .next { s with program := program, pc := 0, running := true }
  | .reset => .next { State.reset with params := s.params }

end Sys2Proof.Machine
end

