-- ==== Sys2Proof/Safety.lean ====
section
/-! DEFINITION. The terms that claims about the machine are stated in: the invariant of its states, what each
command reads, writes and may warn of, the meaning of "unchanged", and the rules of the signal path written
over the real numbers, apart from the terms that the machine computes with. -/

namespace Sys2Proof

/-- Stream bit `p` as R51 writes it: `(bk[p div 8] >> (7 - (p mod 8))) & 1`. -/
def bitOf (bytes : List Byte) (p : Nat) : Nat := ((bytes.getD (p / 8) 0).toNat >>> (7 - p % 8)) % 2

/-- The number of the digits `digit 0, ..., digit (n-1)`, most significant first (R52). -/
def numberOf (n : Nat) (digit : Nat → Nat) : Nat := ∑ j ∈ Finset.range n, digit j * 2 ^ (n - 1 - j)

/-- Element `i` of a real sequence, as a real number. -/
noncomputable def realAt (l : List XNum) (i : Nat) : ℝ := (l.getD i (.rat 0)).toReal

/-- One radix of the symbol codec: the bits per symbol, the encoder, the decoder (R117). -/
structure Codec where
  k : Nat
  enc : SReg → BReg → Instr
  dec : BReg → SReg → Instr

/-- The seven radices (R100, R101). -/
def codecs : List Codec :=
  [⟨1, .enc2, .dec2⟩, ⟨2, .enc4, .dec4⟩, ⟨3, .enc8, .dec8⟩, ⟨4, .enc16, .dec16⟩, ⟨5, .enc32, .dec32⟩,
    ⟨6, .enc64, .dec64⟩, ⟨8, .enc256, .dec256⟩]

/-- The bit count an encoder works on: the buffer's bits and the pad of radix 8 (R100). -/
def paddedBits (k len : Nat) : Nat := 8 * len + if k = 3 then (3 - 8 * len % 3) % 3 else 0

/-! ## The rules of the signal path over the real numbers -/

/-- `round_he` (R10): to the nearest integer, a tie to the even one. -/
noncomputable def roundEven (x : ℝ) : ℤ :=
  if Int.fract x < 1 / 2 then ⌊x⌋
  else if 1 / 2 < Int.fract x then ⌊x⌋ + 1
  else if Even ⌊x⌋ then ⌊x⌋ else ⌊x⌋ + 1

/-! ### The values of the operations of a numeric domain -/

/-- The mathematical value of an operation (R12). -/
noncomputable def Config.FpOp.exact : Config.FpOp → ℝ → ℝ → ℝ → ℝ
  | .plus, a, b, _ => a + b
  | .minus, a, b, _ => a - b
  | .times, a, b, _ => a * b
  | .ratio, a, b, _ => a / b
  | .negate, a, _, _ => -a
  | .cosine, a, _, _ => Real.cos a
  | .sine, a, _, _ => Real.sin a
  | .exponential, a, _, _ => Real.exp a
  | .squareRoot, a, _, _ => √a
  | .pi, _, _, _ => Real.pi
  | .runningSum _ _, a, b, _ => a + b
  | .filterTap half n, fs, lo, hi => lsqTapReal fs lo hi half n

namespace Config.NumDomain

/-- R12: the value of an operation under `NUM`: the mathematical one, or the configuration function of the
operands. -/
noncomputable def real (d : Config.NumDomain) (op : Config.FpOp) (a b c : ℝ) : ℝ :=
  match d with
  | .exact => op.exact a b c
  | .binary64 => Config.binary64 op a b c

variable (d : Config.NumDomain)

noncomputable def addR (a b : ℝ) : ℝ := d.real .plus a b 0
noncomputable def subR (a b : ℝ) : ℝ := d.real .minus a b 0
noncomputable def mulR (a b : ℝ) : ℝ := d.real .times a b 0
noncomputable def divR (a b : ℝ) : ℝ := d.real .ratio a b 0
noncomputable def negR (a : ℝ) : ℝ := d.real .negate a 0 0
noncomputable def cosR (a : ℝ) : ℝ := d.real .cosine a 0 0
noncomputable def sinR (a : ℝ) : ℝ := d.real .sine a 0 0
noncomputable def sqrtR (a : ℝ) : ℝ := d.real .squareRoot a 0 0
noncomputable def piR : ℝ := d.real .pi 0 0 0

end Config.NumDomain

/-! ### The rules

Counts, bounds and guards take the numeric domain; the values of samples are those of the exact domain. -/

/-- `hold(v, u)` (R143): the value at or before `u`, 0 outside `0 <= u <= L-1`. -/
noncomputable def holdReal (v : List XNum) (u : ℝ) : ℝ :=
  if 1 ≤ v.length ∧ 0 ≤ u ∧ u ≤ v.length - 1 then realAt v ⌊u⌋.toNat else 0

/-- The length of the Gaussian window (R144): `odd_up(ceil(6*s + 1))`, `s = sigma*fs`; under `binary64` the capacity check
of R145 takes the same operations (notes/assumptions/21.md). -/
noncomputable def gaussCount (d : Config.NumDomain) (fs sigma : ℝ) : ℤ := oddUp ⌈d.addR (d.mulR 6 (d.mulR sigma fs)) 1⌉

/-- Tap `i` of the Gaussian window of `n` taps (R144), `s` in samples: centred on the middle tap, sum 1. -/
noncomputable def gaussReal (s : ℝ) (n i : ℕ) : ℝ :=
  let g (m : ℕ) : ℝ := Real.exp (-(((m : ℝ) - ((n - 1) / 2 : ℕ)) / s) ^ 2 / 2)
  g i / ∑ m ∈ Finset.range n, g m

/-- Element `i` of `conv_same(u, w)` (R154) of a signal of `n` elements and a kernel of `k`. -/
noncomputable def convReal (u : ℕ → ℝ) (n : ℕ) (w : ℕ → ℝ) (k i : ℕ) : ℝ :=
  ∑ j ∈ Finset.range k, if j ≤ i + (k - 1) / 2 ∧ i + (k - 1) / 2 - j < n then w j * u (i + (k - 1) / 2 - j) else 0

/-- The tap count of the low-pass designer (R146). -/
noncomputable def firCount (d : Config.NumDomain) (fs lo hi att : ℝ) : ℤ :=
  oddUp ⌈d.divR (d.mulR (d.divR fs (d.subR hi lo)) att) 22⌉

/-- Tap `i` of the least-squares low-pass of `n` taps (R147). -/
noncomputable def firReal (fs lo hi : ℝ) (n i : ℕ) : ℝ :=
  lsqTapReal fs lo hi ((n - 1) / 2) ((i : ℤ) - ((n - 1) / 2 : ℕ)).natAbs

/-- The condition that fails check `c` of the low-pass designer (R149). -/
def lowpassViolates (d : Config.NumDomain) (fs lo hi att : ℝ) : ℕ → Prop
  | 1 => fs ≤ 0
  | 2 => hi ≤ lo
  | 3 => d.divR fs 2 ≤ lo
  | 4 => d.divR fs 2 ≤ hi
  | 5 => lo < 0
  | 6 => att ≤ 0
  | _ => False

/-- `avg(d, begin, end)` (R152) of a sequence of `n` values: the trapezoid rule over the ends and the integers
strictly between them, divided by the span, on the piecewise-linear line through the values; at a point, the
line itself. -/
noncomputable def averageReal (d : ℕ → ℝ) (n : ℕ) (b e : ℝ) : ℝ :=
  let line (u : ℝ) : ℝ :=
    if u < (n : ℝ) - 1 then d ⌊u⌋.toNat + (u - ⌊u⌋) * (d (⌊u⌋.toNat + 1) - d ⌊u⌋.toNat) else d (n - 1)
  let area (u v : ℝ) : ℝ := (line u + line v) / 2 * (v - u)
  if b = e then line b
  else if e ≤ ⌊b⌋ + 1 then area b e / (e - b)
  else (area b (⌊b⌋ + 1 : ℤ)
    + ∑ j ∈ Finset.range (⌈e⌉ - ⌊b⌋ - 2).toNat, area (⌊b⌋ + 1 + j : ℤ) (⌊b⌋ + 2 + j : ℤ)
    + area (⌈e⌉ - 1 : ℤ) e) / (e - b)

/-- The resonator of R150 run from rest over `x`: the pair `(q[n], q[n-1])` of R151. -/
noncomputable def resonator (w : ℝ) (x : Nat → ℝ) : Nat → ℝ × ℝ
  | 0 => (x 0, 0)
  | n + 1 => (x (n + 1) + 2 * Real.cos w * (resonator w x n).1 - (resonator w x n).2, (resonator w x n).1)

/-- A register as an operand of a command. -/
inductive Operand where
  | x (i : XReg)
  | r (i : RReg)
  | b (i : BReg)
  | s (i : SReg)
  | f (i : FReg)
  | z (i : ZReg)
deriving DecidableEq, Repr

/-- What a command writes (R72): registers, or the configuration bank. -/
inductive Dest where
  | reg (o : Operand)
  | regs (o p : Operand)
  | cfg
deriving DecidableEq, Repr

/-- The destination of each command (R72). -/
def Instr.dest : Instr → Dest
  | .rdbit xd _ _ => .reg (.x xd)
  | .rdbits sd _ => .reg (.s sd)
  | .wrbit bd _ _ => .reg (.b bd)
  | .enc2 sd _ => .reg (.s sd)
  | .enc4 sd _ => .reg (.s sd)
  | .enc8 sd _ => .reg (.s sd)
  | .enc16 sd _ => .reg (.s sd)
  | .enc32 sd _ => .reg (.s sd)
  | .enc64 sd _ => .reg (.s sd)
  | .enc256 sd _ => .reg (.s sd)
  | .dec2 bd _ => .reg (.b bd)
  | .dec4 bd _ => .reg (.b bd)
  | .dec8 bd _ => .reg (.b bd)
  | .dec16 bd _ => .reg (.b bd)
  | .dec32 bd _ => .reg (.b bd)
  | .dec64 bd _ => .reg (.b bd)
  | .dec256 bd _ => .reg (.b bd)
  | .eccencNone bd _ => .reg (.b bd)
  | .eccencRaw bd _ => .reg (.b bd)
  | .hamenc bd _ => .reg (.b bd)
  | .eccdecNone bd _ => .reg (.b bd)
  | .eccdecRaw bd _ => .reg (.b bd)
  | .hamdec bd _ => .reg (.b bd)
  | .timearr fd _ _ => .reg (.f fd)
  | .sps rd _ _ => .reg (.r rd)
  | .shres fd _ _ _ => .reg (.f fd)
  | .gausswin fd _ _ => .reg (.f fd)
  | .lpfir fd _ _ _ => .reg (.f fd)
  | .lpfira fd _ _ _ _ => .reg (.f fd)
  | .goertz zd fd _ _ => .regs (.z zd) (.f fd)
  | .avgint rd _ _ _ => .reg (.r rd)
  | .conv fd _ _ => .reg (.f fd)
  | .cfgask _ _ _ _ => .cfg
  | .cfgfsk _ _ _ _ => .cfg
  | .cfgpsk _ _ _ _ _ => .cfg
  | .cfgqam _ _ _ _ => .cfg
  | .slice sd _ => .reg (.s sd)
  | .slicez sd _ => .reg (.s sd)
  | .modask fd _ => .reg (.f fd)
  | .modfsk fd _ => .reg (.f fd)
  | .modpsk fd _ => .reg (.f fd)
  | .modqam fd _ => .reg (.f fd)
  | .demask sd _ => .reg (.s sd)
  | .demfsk sd _ => .reg (.s sd)
  | .dempsk sd _ => .reg (.s sd)
  | .demqam sd _ => .reg (.s sd)

/-- The sources of each command, in field order (R72, R247); WRBIT's `bd` is one. -/
def Instr.sources : Instr → List Operand
  | .rdbit _ bs xp => [.b bs, .x xp]
  | .rdbits _ bs => [.b bs]
  | .wrbit bd xp xv => [.b bd, .x xp, .x xv]
  | .enc2 _ bs => [.b bs]
  | .enc4 _ bs => [.b bs]
  | .enc8 _ bs => [.b bs]
  | .enc16 _ bs => [.b bs]
  | .enc32 _ bs => [.b bs]
  | .enc64 _ bs => [.b bs]
  | .enc256 _ bs => [.b bs]
  | .dec2 _ ss => [.s ss]
  | .dec4 _ ss => [.s ss]
  | .dec8 _ ss => [.s ss]
  | .dec16 _ ss => [.s ss]
  | .dec32 _ ss => [.s ss]
  | .dec64 _ ss => [.s ss]
  | .dec256 _ ss => [.s ss]
  | .eccencNone _ bs => [.b bs]
  | .eccencRaw _ bs => [.b bs]
  | .hamenc _ bs => [.b bs]
  | .eccdecNone _ bs => [.b bs]
  | .eccdecRaw _ bs => [.b bs]
  | .hamdec _ bs => [.b bs]
  | .timearr _ rfs xn => [.r rfs, .x xn]
  | .sps _ rfs rbaud => [.r rfs, .r rbaud]
  | .shres _ ft rbaud fv => [.f ft, .r rbaud, .f fv]
  | .gausswin _ rfs rsigma => [.r rfs, .r rsigma]
  | .lpfir _ rfs rlo rhi => [.r rfs, .r rlo, .r rhi]
  | .lpfira _ rfs rlo rhi ratt => [.r rfs, .r rlo, .r rhi, .r ratt]
  | .goertz _ _ rfreq rfs => [.r rfreq, .r rfs]
  | .avgint _ fa rbegin rend => [.f fa, .r rbegin, .r rend]
  | .conv _ fa fk => [.f fa, .f fk]
  | .cfgask rfs rcar rbaud famp => [.r rfs, .r rcar, .r rbaud, .f famp]
  | .cfgfsk rfs ramp rbaud ffreq => [.r rfs, .r ramp, .r rbaud, .f ffreq]
  | .cfgpsk rfs rcar ramp rbaud fph => [.r rfs, .r rcar, .r ramp, .r rbaud, .f fph]
  | .cfgqam rfs rcar rbaud zcon => [.r rfs, .r rcar, .r rbaud, .z zcon]
  | .slice _ fobs => [.f fobs]
  | .slicez _ zobs => [.z zobs]
  | .modask _ ss => [.s ss]
  | .modfsk _ ss => [.s ss]
  | .modpsk _ ss => [.s ss]
  | .modqam _ ss => [.s ss]
  | .demask _ fx => [.f fx]
  | .demfsk _ fx => [.f fx]
  | .dempsk _ fx => [.f fx]
  | .demqam _ fx => [.f fx]

/-- The configuration modes in which a command runs (R185); `none` for a command that needs no
configuration. -/
def Instr.modes : Instr → Option (List Machine.Mode)
  | .modask _ _ | .demask _ _ => some [.ask]
  | .modfsk _ _ | .demfsk _ _ => some [.fsk]
  | .modpsk _ _ | .dempsk _ _ => some [.psk]
  | .modqam _ _ | .demqam _ _ => some [.qam]
  | .slice _ _ => some [.ask, .fsk]
  | .slicez _ _ => some [.psk, .qam]
  | _ => none

/-- The warnings a command can raise (R254), in the bit order of `STATUS[7:4]`. -/
def Instr.mayWarn : Instr → BitVec 4
  | .cfgask _ _ _ _ | .cfgpsk _ _ _ _ _ | .cfgqam _ _ _ _ => 0b0111
  | .cfgfsk _ _ _ _ => 0b0110
  | .slice _ _ | .slicez _ _ | .demask _ _ | .demfsk _ _ | .dempsk _ _ | .demqam _ _ => 0b1000
  | _ => 0

/-- The register is one the command writes. -/
def Dest.has (d : Dest) (o : Operand) : Prop :=
  match d with
  | .reg p => o = p
  | .regs p q => o = p ∨ o = q
  | .cfg => False

namespace Machine

/-- Register class number of R247. -/
def operandClass : Operand → Nat
  | .x _ => 0
  | .r _ => 1
  | .b _ => 2
  | .s _ => 3
  | .f _ => 4
  | .z _ => 5

/-- Register index. -/
def operandIndex : Operand → Nat
  | .x i | .r i | .f i => i.val
  | .b i | .s i | .z i => i.val

/-- The register is empty (R22). -/
def State.isEmpty (s : State) : Operand → Bool
  | .x i => s.xReg[i].isNone
  | .r i => s.rReg[i].isNone
  | .b i => s.bReg[i].isNone
  | .s i => s.sReg[i].isNone
  | .f i => s.fReg[i].isNone
  | .z i => s.zReg[i].isNone

/-- A register holds in `t` what it holds in `s`. -/
def State.SameReg (s t : State) : Operand → Prop
  | .x i => t.xReg[i] = s.xReg[i]
  | .r i => t.rReg[i] = s.rReg[i]
  | .b i => t.bReg[i] = s.bReg[i]
  | .s i => t.sReg[i] = s.sReg[i]
  | .f i => t.fReg[i] = s.fReg[i]
  | .z i => t.zReg[i] = s.zReg[i]

/-- No register changes (all six classes). -/
def State.SameRegs (s t : State) : Prop :=
  t.xReg = s.xReg ∧ t.rReg = s.rReg ∧ t.bReg = s.bReg ∧ t.sReg = s.sReg ∧ t.fReg = s.fReg ∧ t.zReg = s.zReg

/-- Every buffer of a register file holds at most `MAXLEN` elements. -/
def Within {α : Type} {n : Nat} (p : Config.Params) (size : α → Nat) (regs : Vector (Option α) n) : Prop :=
  ∀ (i : Fin n) (v : α), regs[i] = some v → overMax p (size v) = false

/-- The register that a host action loads. -/
def HostAction.target : HostAction → Option Operand
  | .loadX i _ => some (.x i)
  | .loadR i _ => some (.r i)
  | .loadB i _ => some (.b i)
  | .loadS i _ => some (.s i)
  | .loadF i _ => some (.f i)
  | .loadZ i _ => some (.z i)
  | .run _ => none
  | .reset => none

/-- The bank's contents as the operands of the CFG* command that loads them. -/
def ModemConfig.request (c : ModemConfig) : CfgRequest := ⟨c.mode, c.fs, c.baud, c.carrier, c.amp, c.alpha⟩

end Machine

/-- What a CFG* command is asked to load (R171 to R174): its operands, the fields its mode does not use being 0;
none for another command, and none while a source is empty. -/
def Instr.request (s : Machine.State) : Instr → Option Machine.CfgRequest
  | .cfgask rfs rcar rbaud famp => do
    return ⟨.ask, ← s.rReg[rfs], ← s.rReg[rbaud], ← s.rReg[rcar], .rat 0, (← s.fReg[famp]).map Cplx.ofReal⟩
  | .cfgfsk rfs ramp rbaud ffreq => do
    return ⟨.fsk, ← s.rReg[rfs], ← s.rReg[rbaud], .rat 0, ← s.rReg[ramp], (← s.fReg[ffreq]).map Cplx.ofReal⟩
  | .cfgpsk rfs rcar ramp rbaud fph => do
    return ⟨.psk, ← s.rReg[rfs], ← s.rReg[rbaud], ← s.rReg[rcar], ← s.rReg[ramp], (← s.fReg[fph]).map Cplx.ofReal⟩
  | .cfgqam rfs rcar rbaud zcon => do
    return ⟨.qam, ← s.rReg[rfs], ← s.rReg[rbaud], ← s.rReg[rcar], .rat 0, ← s.zReg[zcon]⟩
  | _ => none

namespace Machine

/-- The modulus of the point `re + j*im`, under `binary64` computed as notes/assumptions/21.md says. -/
noncomputable def modulus (d : Config.NumDomain) (re im : ℝ) : ℝ := d.sqrtR (d.addR (d.mulR re re) (d.mulR im im))

/-- The condition that fails check `c` of a CFG* command (R175). -/
def CfgRequest.Violates (p : Config.Params) (q : CfgRequest) : ℕ → Prop
  | 1 => q.fs.toReal ≤ 0
  | 2 => q.baud.toReal ≤ 0
  | 3 => q.alpha = []
  | 4 => p.nMax < q.alpha.length
  | 5 => ∃ (i j : ℕ) (a b : Cplx), i < j ∧ q.alpha[i]? = some a ∧ q.alpha[j]? = some b
      ∧ a.re.toReal = b.re.toReal ∧ a.im.toReal = b.im.toReal
  | 6 => q.carrier.toReal ≤ 0
  | 7 => p.num.divR q.fs.toReal 2 ≤ q.carrier.toReal
  | 8 => if q.mode = .fsk then ∃ a ∈ q.alpha, a.re.toReal ≤ q.baud.toReal
      else p.num.divR q.carrier.toReal 2 ≤ q.baud.toReal
  | 9 => ∃ a ∈ q.alpha, match q.mode with
      | .ask => a.re.toReal ≤ 0 ∨ 1 < a.re.toReal
      | .fsk => a.re.toReal ≤ 0
      | .psk => a.re.toReal < 0 ∨ p.num.mulR 2 p.num.piR ≤ a.re.toReal
      | .qam => modulus p.num a.re.toReal a.im.toReal ≤ 0 ∨ 1 < modulus p.num a.re.toReal a.im.toReal
  | 10 => q.amp.toReal ≤ 0 ∨ 1 < q.amp.toReal
  | 11 => ∃ a ∈ q.alpha, p.num.divR q.fs.toReal 2 ≤ a.re.toReal
  | _ => False

/-- The checks of each CFG* command (R171 to R174). -/
def checksOf : Mode → List ℕ
  | .ask | .qam => [1, 2, 3, 4, 5, 6, 7, 8, 9]
  | .fsk => [1, 2, 3, 4, 5, 8, 9, 10, 11]
  | .psk => [1, 2, 3, 4, 5, 6, 7, 8, 9, 10]

/-- The distance of two alphabet values that the separation warning looks at (R173, R178). -/
noncomputable def separation (d : Config.NumDomain) (m : Mode) (a b : Cplx) : ℝ :=
  let apart := |d.subR a.re.toReal b.re.toReal|
  match m with
  | .ask | .fsk => apart
  | .psk => min apart (d.subR (d.mulR 2 d.piR) apart)
  | .qam => modulus d (d.subR a.re.toReal b.re.toReal) (d.subR a.im.toReal b.im.toReal)

/-- The threshold of the separation warning (R178). -/
noncomputable def separationMin (p : Config.Params) (q : CfgRequest) : ℝ :=
  match q.mode with
  | .ask => p.askSepMin.toReal
  | .fsk => p.num.mulR p.fskSepMin.toReal q.baud.toReal
  | .psk => p.pskSepMin.toReal
  | .qam => p.qamSepMin.toReal

/-- The condition of the construction warning with response bit `b` (R176 to R178, R254). -/
def CfgRequest.Warns (p : Config.Params) (q : CfgRequest) : ℕ → Prop
  | 0 => q.mode ≠ .fsk ∧ p.num.mulR p.carrierWarnFrac.toReal q.fs.toReal ≤ q.carrier.toReal
  | 1 => ∃ (i j : ℕ) (a b : Cplx), i < j ∧ q.alpha[i]? = some a ∧ q.alpha[j]? = some b
      ∧ separation p.num q.mode a b < separationMin p q
  | 2 => match q.mode with
      | .ask => ∃ a ∈ q.alpha, a.re.toReal < p.lowAmpWarn.toReal
      | .qam => ∃ a ∈ q.alpha, modulus p.num a.re.toReal a.im.toReal < p.lowAmpWarn.toReal
      | .fsk | .psk => q.amp.toReal < p.lowAmpWarn.toReal
  | _ => False

/-! ## The modems over the real numbers -/

/-- `sigma` (R179), in seconds. -/
noncomputable def sigmaReal (p : Config.Params) (c : ModemConfig) : ℝ :=
  min (p.num.divR (p.num.divR 1 c.baud.toReal) (p.num.mulR 4 p.sigmaMultT.toReal))
    (if c.mode = .fsk then p.num.divR p.fskCycleFrac.toReal ((c.alpha.map fun a => a.re.toReal).maximum.unbotD 0)
      else p.num.divR p.sigmaMultF.toReal (p.num.mulR p.num.piR c.carrier.toReal))

/-- `Ns` (R181) for `slots` slots, the guards among them. -/
noncomputable def sampleCountReal (d : Config.NumDomain) (c : ModemConfig) (slots : ℕ) : ℤ :=
  ⌈d.mulR slots (d.divR c.fs.toReal c.baud.toReal)⌉

/-- The values of a transmission (R181, R200 to R222): one for each symbol, and 0 in the guard slots. -/
def slotValues (value : Cplx → XNum) (c : ModemConfig) (q : List Word) : List XNum :=
  .rat 0 :: (q.map fun w => value (c.alpha.getD w.toNat ⟨.rat 0, .rat 0⟩)) ++ [.rat 0]

/-- Element `i` of the shaped sequence (R181): held at the sample rate, smoothed by the Gaussian window. -/
noncomputable def shapedReal (p : Config.Params) (c : ModemConfig) (vals : List XNum) (i : ℕ) : ℝ :=
  let count := (gaussCount p.num c.fs.toReal (sigmaReal p c)).toNat
  convReal (fun j => holdReal vals (j / c.fs.toReal * c.baud.toReal)) (sampleCountReal p.num c vals.length).toNat
    (gaussReal (sigmaReal p c * c.fs.toReal) count) count i

/-- The number of intervals in `n` samples (R182). -/
noncomputable def intervalCountReal (d : Config.NumDomain) (c : ModemConfig) (n : ℕ) : ℤ :=
  roundEven (d.divR n (d.divR c.fs.toReal c.baud.toReal))

/-- The averaging window of interval `i` of `count` in `n` samples (R180, R182). -/
noncomputable def intervalReal (p : Config.Params) (c : ModemConfig) (n count i : ℕ) : ℝ × ℝ :=
  let sps := p.num.divR c.fs.toReal c.baud.toReal
  let w := p.num.mulR (p.num.mulR p.sigmaMultT.toReal (sigmaReal p c)) c.fs.toReal
  (p.num.addR (p.num.mulR i sps) (if i = 0 then 0 else w),
    min (p.num.subR (p.num.mulR (i + 1) sps) (if i + 1 = count then 0 else w)) (n - 1))

/-- The pass edge of the demodulators' low-pass (R184). -/
noncomputable def passReal (d : Config.NumDomain) (c : ModemConfig) : ℝ := d.divR c.baud.toReal 2

/-- The stop edge of the demodulators' low-pass (R184). -/
noncomputable def stopReal (d : Config.NumDomain) (c : ModemConfig) : ℝ :=
  d.subR (min (d.mulR 2 c.carrier.toReal) (d.subR c.fs.toReal (d.mulR 2 c.carrier.toReal))) (d.divR c.baud.toReal 2)

/-- The tap count of the demodulators' low-pass (R184). -/
noncomputable def basebandCount (p : Config.Params) (c : ModemConfig) : ℤ :=
  firCount p.num c.fs.toReal (passReal p.num c) (stopReal p.num c) p.attDefault.toReal

/-- Element `i` of one part of `baseband(x, sign)` (R184): `part` is the cosine for the real part, the sine for the
imaginary part. -/
noncomputable def basebandReal (p : Config.Params) (c : ModemConfig) (x : List XNum) (sign : ℝ) (part : ℝ → ℝ)
    (i : ℕ) : ℝ :=
  convReal (fun j => 2 * realAt x j * part (sign * 2 * Real.pi * c.carrier.toReal * j / c.fs.toReal)) x.length
    (firReal c.fs.toReal (passReal p.num c) (stopReal p.num c) (basebandCount p c).toNat) (basebandCount p c).toNat i

/-- `g[k]` (R211) over the window of samples `b..e-1`. -/
noncomputable def toneReal (c : ModemConfig) (x : List XNum) (b e : ℤ) (k : ℕ) : ℝ :=
  2 * ‖∑ m ∈ Finset.range (e - b).toNat, (realAt x (b.toNat + m) : ℂ) * Complex.exp
    (-(2 * Real.pi * (c.alpha.getD k ⟨.rat 0, .rat 0⟩).re.toReal / c.fs.toReal * m * Complex.I))‖ / (e - b)

/-- The observation of one interval (R201, R211, R221, R223), `w` being its window. -/
noncomputable def observationReal (p : Config.Params) (c : ModemConfig) (x : List XNum) (w : ℝ × ℝ) : List ℝ :=
  match c.mode with
  | .ask => [averageReal (fun i => √(basebandReal p c x 1 Real.cos i ^ 2 + basebandReal p c x 1 Real.sin i ^ 2))
      x.length w.1 w.2]
  | .fsk => (List.range c.n).map (toneReal c x (roundEven w.1) (roundEven w.2))
  | .psk | .qam => [averageReal (basebandReal p c x (-1) Real.cos) x.length w.1 w.2,
      averageReal (basebandReal p c x (-1) Real.sin) x.length w.1 w.2]

/-- The codebook of each mode (R191), the null codeword first. -/
noncomputable def codebookReal (c : ModemConfig) : List (List ℝ) :=
  match c.mode with
  | .ask => [0] :: c.alpha.map fun a => [a.re.toReal]
  | .fsk => List.replicate c.n 0 ::
      (List.range c.n).map fun j => (List.range c.n).map fun k => if k = j then c.amp.toReal else 0
  | .psk => [0, 0] :: c.alpha.map fun a => [c.amp.toReal * Real.cos a.re.toReal, c.amp.toReal * Real.sin a.re.toReal]
  | .qam => [0, 0] :: c.alpha.map fun a => [a.re.toReal, a.im.toReal]

/-- `j` is the smallest index whose point of `code` is nearest to `o` (R190). -/
def IsNearest (code : List (List ℝ)) (o : List ℝ) (j : ℕ) : Prop :=
  let dist (m : ℕ) : ℝ := (List.zipWith (fun a b => (a - b) ^ 2) o (code.getD m [])).sum
  j < code.length ∧ (∀ m < code.length, dist j ≤ dist m) ∧ ∀ m < j, dist j < dist m

/-- What the finishing step makes of the indices `idx` (R183): the symbols and the warnings. -/
def IsFinished (idx : List ℕ) (out : List Word) (w : BitVec 4) : Prop :=
  out.length = idx.length - 2
  ∧ (∀ i < out.length, (out.getD i 0).toInt = (idx.getD (i + 1) 0 : ℤ) - 1)
  ∧ (w = 0b1000 ∨ w = 0)
  ∧ (w = 0b1000 ↔ idx.getD 0 0 ≠ 0 ∨ idx.getD (idx.length - 1) 0 ≠ 0
      ∨ ∃ i, 1 ≤ i ∧ i < idx.length - 1 ∧ idx.getD i 0 = 0)

/-- `out` and `w` are what slicing the observations and finishing gives (R183, R190, R191). -/
def IsSliced (c : ModemConfig) (obs : List (List ℝ)) (out : List Word) (w : BitVec 4) : Prop :=
  ∃ idx : List ℕ, idx.length = obs.length
    ∧ (∀ i < obs.length, IsNearest (codebookReal c) (obs.getD i []) (idx.getD i 0)) ∧ IsFinished idx out w

/-- The fields a mode does not use are 0, and a real alphabet has imaginary part 0 (R34, R170). -/
def ModemConfig.UnusedZero (c : ModemConfig) : Prop :=
  (c.mode = .fsk → c.carrier = .rat 0) ∧ (c.mode = .ask ∨ c.mode = .qam → c.amp = .rat 0)
    ∧ (c.mode ≠ .qam → ∀ a ∈ c.alpha, a.im = .rat 0)

/-- `u` is `s` with only the destination written: `d` says where, and every other register, the bank (unless it
is the destination), `STATUS`, `ERRINFO`, the program and `pc` are as in `s`. A buffer that is replaced fits
`MAXLEN` (R10); WRBIT keeps the length (R54); a bank that is loaded has passed the checks (R175). -/
def Wrote (d : Dest) (s u : State) : Prop :=
  match d with
  | .reg (.x i) => ∃ v, u = s.setX i v
  | .reg (.r i) => ∃ v, u = s.setR i v
  | .reg (.b i) => ∃ v, (overMax s.params v.bytes.length = false
      ∨ ∃ old, s.bReg[i] = some old ∧ v.bytes.length = old.bytes.length) ∧ u = s.setB i v
  | .reg (.s i) => ∃ v, overMax s.params v.length = false ∧ u = s.setS i v
  | .reg (.f i) => ∃ v, overMax s.params v.length = false ∧ u = s.setF i v
  | .reg (.z i) => ∃ v, overMax s.params v.length = false ∧ u = s.setZ i v
  | .regs (.z i) (.f j) => ∃ v w, overMax s.params v.length = false ∧ overMax s.params w.length = false
      ∧ u = (s.setZ i v).setF j w
  | .regs _ _ => False
  | .cfg => ∃ q : CfgRequest, cfgFailure s.params q = none ∧ q.bank.UnusedZero ∧ u = { s with cfg := q.bank }

/-- Every buffer register holds at most `MAXLEN` elements (R26 to R29). -/
structure State.AllFit (s : State) : Prop where
  bytes : Within s.params (fun v => v.bytes.length) s.bReg
  symbols : Within s.params List.length s.sReg
  samples : Within s.params List.length s.fReg
  complex : Within s.params List.length s.zReg

/-- What every state that the block can be in satisfies. -/
structure State.Inv (s : State) : Prop where
  /-- R26 to R29 -/
  fit : s.AllFit
  /-- R34, R35: a valid bank holds what the checks of R175 let through -/
  cfgChecked : s.cfg.valid = true → cfgFailure s.params s.cfg.request = none
  /-- R34: `CFG.N` is the length of the alphabet -/
  cfgCount : s.cfg.valid = true → s.cfg.n = s.cfg.alpha.length
  /-- R34, R170 -/
  cfgUnused : s.cfg.valid = true → s.cfg.UnusedZero
  /-- R240: codes 11 to 15 are never produced -/
  errCode : s.err.toNat ≤ 10
  /-- R31: `ERRINFO` is 0 while `STATUS.ERR = 0` -/
  errInfoZero : s.err = 0 → s.errInfo = 0
  /-- R25: `pc` names a command or the end of the program -/
  pcInProgram : s.pc ≤ s.program.length

/-- The run is over (R251, R278): an error ended it, or `pc` has reached the end of the program. -/
def State.runOver (s : State) : Prop := s.running = false ∨ s.pc = s.program.length

end Machine

end Sys2Proof
end

