-- ==== Sys2Proof/Certificates/Slice0/Obligations.lean ====
section
/-! DEFINITION. The statements about the machine. Each docstring names the rules of the spec it formalises. -/

open Sys2Proof Sys2Proof.Machine

/-! ## Command words -/

/-- R70 to R73, R75: a word decodes to a command exactly when it is that command's word; no operand value is
dropped and no two words decode to one command. -/
def Obligations.DecodeIffEncode : Prop :=
  ∀ (w : CmdWord) (i : Instr), decode w = .ok i ↔ encode i = w

/-- R74, R75: the words that match a row of R72 in opcode, mode, unused fields and register fields are the words
of the commands. -/
def Obligations.LegalWordsAreCommands : Prop :=
  ∀ w : CmdWord, (splitWord w).legal = true ↔ ∃ i : Instr, encode i = w

/-- R25, R74, R246: issuing an illegal word, by itself or in a run, raises `Illegal` with the word as a signed
number and reads no register; the all-zero and the all-ones word are illegal. -/
def Obligations.IllegalWordRaisesIllegal : Prop :=
  (∀ (w : CmdWord) (s : State), (splitWord w).legal = false →
    issue w s = .next (s.raise ⟨.illegal, w.toInt⟩) ∧ clampInfo w.toInt = w
    ∧ (s.running = true → s.program[s.pc]? = some w → step s = .next (s.raise ⟨.illegal, w.toInt⟩)))
  ∧ (splitWord 0).legal = false ∧ (splitWord (BitVec.allOnes 32)).legal = false

/-- R77: the spec's three example words decode to the commands the spec says they are, in their spelling. -/
def Obligations.SpecExampleWordsDecode : Prop :=
  decode 0x24000000 = .ok (.enc16 0 0) ∧ (Instr.enc16 0 0).asm = "ENC16 s0, b0"
  ∧ decode 0x10102000 = .ok (.rdbit 1 0 2) ∧ (Instr.rdbit 1 0 2).asm = "RDBIT x1, b0, x2"
  ∧ decode 0x41100002 = .ok (.hamdec 1 0) ∧ (Instr.hamdec 1 0).asm = "HAMDEC b1, b0"

/-! ## The sequencer -/

/-- R25, R75: while a run is in progress, a step runs the command that the word at `pc` decodes to, and nothing
else; with `withFetchWord` that word is the given one. -/
def Obligations.StepRunsDecodedCommand : Prop :=
  (∀ (s : State) (w : CmdWord) (i : Instr), s.running = true → s.program[s.pc]? = some w → decode w = .ok i →
    step s = exec i s)
  ∧ ∀ (s : State) (n : Nat) (i : Instr), decode (BitVec.ofNat 32 (n % 2 ^ 32)) = .ok i →
    step (s.withFetchWord 32 n) = exec i (s.withFetchWord 32 n)

/-- The model's choices of `notes/assumptions/5.md` and `notes/assumptions/19.md`: once the run is over, at
`pc = m` or after an error, a step changes nothing; a host reset or a new run gives up a run in progress. -/
def Obligations.EndedRunsStayEnded : Prop :=
  (∀ s : State, s.pc ≤ s.program.length → s.runOver → step s = .next s)
  ∧ ∀ s t : State, (hostAct .reset s = .next t → t.program = [] ∧ t.pc = 0)
    ∧ ∀ prog : List CmdWord, hostAct (.run prog) s = .next t → t.program = prog ∧ t.pc = 0 ∧ t.running = true

/-- R277: every command, in every state, ends with a next state: no fault, no refusal, no run without end; and so
does every step from a state the block can be in. -/
def Obligations.EveryCommandAnswersNext : Prop :=
  (∀ (i : Instr) (s : State), ∃ t, exec i s = .next t) ∧ ∀ s : State, s.Inv → ∃ t, step s = .next t

/-- R250: an error writes nothing: no register, no bank field, no warning; the response carries no warning; the
first error since reset goes to `STATUS.ERR` and `ERRINFO`, a later one leaves both; `pc` stays and the block
is idle; the next command does what it would have done without the error. -/
def Obligations.ErrorEntryWritesNothing : Prop :=
  ∀ (i : Instr) (s t : State), exec i s = .next t → t.response.err ≠ 0 →
    State.SameRegs s t ∧ t.cfg = s.cfg ∧ t.warn = s.warn ∧ t.response.warn = 0 ∧ t.pc = s.pc
    ∧ (s.err = 0 → t.err = t.response.err ∧ t.errInfo = t.response.info)
    ∧ (s.err ≠ 0 → t.err = s.err ∧ t.errInfo = s.errInfo)
    ∧ t.program = s.program ∧ t.params = s.params ∧ t.runOver
    ∧ ∀ (j : Instr) (u u' : State), exec j s = .next u → exec j t = .next u' →
      State.SameRegs u u' ∧ u'.cfg = u.cfg ∧ u'.response = u.response

/-- R25, R32, R253: a command that completes answers `(0, 0, warn)`, ORs `warn` into `STATUS`, leaves
`STATUS.ERR` and `ERRINFO`, and moves `pc` on by one whatever it warned of. -/
def Obligations.CompletionAdvances : Prop :=
  ∀ (i : Instr) (s t : State), exec i s = .next t → t.response.err = 0 →
    t.response.info = 0 ∧ t.pc = s.pc + 1 ∧ t.warn = s.warn ||| t.response.warn ∧ t.err = s.err
    ∧ t.errInfo = s.errInfo ∧ t.running = s.running ∧ t.program = s.program ∧ t.params = s.params

/-- R25, R251: the first error ends the run with `pc` naming the failing word; later words are not issued. That the
next step is an idle one is the model's choice (`notes/assumptions/5.md`). -/
def Obligations.RunStopsAtFirstError : Prop :=
  ∀ s t : State, s.running = true → s.pc < s.program.length → step s = .next t → t.response.err ≠ 0 →
    t.pc = s.pc ∧ t.program = s.program ∧ t.runOver ∧ step t = .next t

/-! ## What a command can change -/

/-- R11, R20, R36, R58: a command that answers a next state leaves every register but its destinations
(`Instr.dest`), and the bank unless it is a constructor; its answer and what it writes depend on its sources
(`Instr.sources`), on the parameters, and on the bank if it is one of the commands of R185, alone. -/
def Obligations.OnlyDestinationChanges : Prop :=
  (∀ (i : Instr) (s t : State), exec i s = .next t →
    (∀ o : Operand, ¬ i.dest.has o → s.SameReg t o) ∧ (i.dest ≠ .cfg → t.cfg = s.cfg)
    ∧ t.program = s.program ∧ t.params = s.params)
  ∧ ∀ (i : Instr) (s s' t t' : State), (∀ o ∈ i.sources, s.SameReg s' o) → (i.modes ≠ none → s'.cfg = s.cfg) →
    s'.params = s.params → exec i s = .next t → exec i s' = .next t' →
    t'.response = t.response
    ∧ (t.response.err = 0 → (∀ o : Operand, i.dest.has o → t.SameReg t' o) ∧ (i.dest = .cfg → t'.cfg = t.cfg))

/-- R22: reset leaves every register empty; a command that completes writes its destination, a host load its
register, and nothing but reset makes a register empty again; a command with an empty source raises `Uninit`
and does nothing else; a written buffer of length 0 is not empty. -/
def Obligations.WrittenStaysWritten : Prop :=
  (∀ (o : Operand) (s t : State), State.reset.isEmpty o = true ∧ (hostAct .reset s = .next t → t.isEmpty o = true))
  ∧ (∀ (i : Instr) (s t : State), exec i s = .next t →
      (∀ o : Operand, s.isEmpty o = false → t.isEmpty o = false)
      ∧ (t.response.err = 0 → ∀ o : Operand, i.dest.has o → t.isEmpty o = false)
      ∧ ((∃ o ∈ i.sources, s.isEmpty o = true) →
        t.response.err = ErrorKind.uninit.code ∧ State.SameRegs s t ∧ t.cfg = s.cfg))
  ∧ (∀ (a : HostAction) (s t : State), a ≠ .reset → hostAct a s = .next t →
      ∀ o : Operand, s.isEmpty o = false ∨ a.target = some o → t.isEmpty o = false)
  ∧ ∀ (s : State) (i : BReg) (j : SReg) (k : FReg) (l : ZReg) (ro : Bool),
      (s.setB i ⟨[], ro⟩).isEmpty (.b i) = false ∧ (s.setS j []).isEmpty (.s j) = false
      ∧ (s.setF k []).isEmpty (.f k) = false ∧ (s.setZ l []).isEmpty (.z l) = false

/-- R35: the bank is written only by a CFG* command that completes, and then every field at once, from the
command's operands; a failing one leaves it; no host access but reset writes it. -/
def Obligations.CfgWrittenOnlyByConstructors : Prop :=
  (∀ (i : Instr) (s t : State), exec i s = .next t →
    (t.response.err ≠ 0 → t.cfg = s.cfg) ∧ (i.dest ≠ .cfg → t.cfg = s.cfg)
    ∧ (i.dest = .cfg → t.response.err = 0 → ∃ q : CfgRequest, i.request s = some q
      ∧ t.cfg = ⟨true, q.mode, q.fs, q.baud, q.carrier, q.amp, q.alpha.length, q.alpha⟩))
  ∧ ∀ (a : HostAction) (s t : State), a ≠ .reset → hostAct a s = .next t → t.cfg = s.cfg

/-- R254: a command raises no warning but those the table gives it. -/
def Obligations.WarningsOnlyFromTheirCommands : Prop :=
  ∀ (i : Instr) (s t : State), exec i s = .next t → t.response.warn &&& ~~~i.mayWarn = 0

/-- R33, R58: the result and the response of a command do not depend on `STATUS`, `ERRINFO`, earlier responses or
the sequencer. -/
def Obligations.CommandsIgnoreStatus : Prop :=
  ∀ (i : Instr) (s s' t t' : State), State.SameRegs s s' → s'.cfg = s.cfg → s'.params = s.params →
    exec i s = .next t → exec i s' = .next t' →
    State.SameRegs t t' ∧ t'.cfg = t.cfg ∧ t'.response = t.response

/-! ## Status and reset -/

/-- R30: the fields of the `STATUS` word. -/
def Obligations.StatusWordLayout : Prop :=
  ∀ s : State, s.status.extractLsb' 0 4 = s.err ∧ s.status.extractLsb' 4 4 = s.warn
    ∧ s.status.getLsbD 8 = s.cfg.valid
    ∧ s.status.extractLsb' 9 2 = (if s.cfg.valid then s.cfg.mode.code else 0)
    ∧ ∀ b, 11 ≤ b → s.status.getLsbD b = false

/-- R30, R31: no command and no host action but reset changes a non-zero `STATUS.ERR` or its `ERRINFO`, or clears
a warning; reset clears all three. -/
def Obligations.StatusStickyUntilReset : Prop :=
  (∀ (i : Instr) (s t : State), exec i s = .next t →
    (s.err ≠ 0 → t.err = s.err ∧ t.errInfo = s.errInfo) ∧ s.warn &&& t.warn = s.warn)
  ∧ ∀ (a : HostAction) (s t : State), hostAct a s = .next t →
    if a = .reset then t.err = 0 ∧ t.errInfo = 0 ∧ t.warn = 0
    else t.err = s.err ∧ t.errInfo = s.errInfo ∧ t.warn = s.warn

/-- R38, R270: the reset values the spec gives, also after a host reset of any state; while `CFG.VALID = 0` no
command reads the other fields of the bank, which the spec leaves unspecified (`notes/assumptions/3.md`); a run
starts at `pc = 0` and is no reset. -/
def Obligations.ResetValues : Prop :=
  (∀ t : State, t = State.reset ∨ (∃ s, hostAct .reset s = .next t) →
    (∀ o : Operand, t.isEmpty o = true) ∧ t.cfg.valid = false ∧ t.status = 0 ∧ t.errInfo = 0)
  ∧ (∀ (i : Instr) (s t : State) (c : ModemConfig), s.cfg.valid = false → c.valid = false → exec i s = .next t →
    ∃ t', exec i { s with cfg := c } = .next t' ∧ State.SameRegs t t' ∧ t'.response = t.response
      ∧ t'.status = t.status)
  ∧ ∀ (prog : List CmdWord) (s t : State), hostAct (.run prog) s = .next t →
    t.pc = 0 ∧ t.program = prog ∧ State.SameRegs s t ∧ t.cfg = s.cfg ∧ t.status = s.status ∧ t.errInfo = s.errInfo

/-! ## The invariant -/

/-- The state after reset satisfies the invariant. -/
def Obligations.ResetSatisfiesInv : Prop := State.reset.Inv

/-- R25 to R29, R31, R34, R35, R170, R175, R240: from every state that satisfies the invariant, a step goes to one
that does: no buffer exceeds `MAXLEN`, a valid bank has passed its mode's checks, no reserved error code
appears, `ERRINFO` is 0 while there is no error, `pc` stays in the program. -/
def Obligations.StepKeepsInv : Prop :=
  ∀ s t : State, s.Inv → step s = .next t → t.Inv

/-- R13, R61, R270: every host action keeps the invariant; a load within `MAXLEN` stores the value handed over, and leaves every
other register, the bank, `STATUS`, `ERRINFO`, the program and `pc`. A load of a NaN or an infinity is refused: R13 asks
that under `binary64`; that it is refused in both numeric domains, that one such element refuses a whole buffer, and
that this comes before the length, is the model's choice (`notes/assumptions/20.md`). -/
def Obligations.HostActionsKeepInv : Prop :=
  (∀ (a : HostAction) (s t : State), s.Inv → hostAct a s = .next t → t.Inv)
  ∧ (∀ s : State,
    (∀ (i : XReg) (v : Word), hostAct (.loadX i v) s = .next (s.setX i v))
    ∧ (∀ (i : RReg) (a : XNum), hostAct (.loadR i (.num a)) s = .next (s.setR i a))
    ∧ (∀ (i : BReg) (v : ByteBuf), overMax s.params v.bytes.length = false →
      hostAct (.loadB i v) s = .next (s.setB i v))
    ∧ (∀ (i : SReg) (q : List Word), overMax s.params q.length = false → hostAct (.loadS i q) s = .next (s.setS i q))
    ∧ (∀ (i : FReg) (l : List XNum), overMax s.params l.length = false →
      hostAct (.loadF i (l.map .num)) s = .next (s.setF i l))
    ∧ ∀ (i : ZReg) (l : List Cplx), overMax s.params l.length = false →
      hostAct (.loadZ i (l.map fun c => (.num c.re, .num c.im))) s = .next (s.setZ i l))
  ∧ (∀ (a : HostAction) (s t : State), a.target ≠ none → hostAct a s = .next t →
    (∀ o : Operand, a.target ≠ some o → s.SameReg t o) ∧ t.cfg = s.cfg ∧ t.status = s.status ∧ t.errInfo = s.errInfo
    ∧ t.program = s.program ∧ t.pc = s.pc ∧ t.running = s.running ∧ t.params = s.params)
  ∧ ∀ s : State,
    (∀ (i : RReg) (v : HostReal), hostAct (.loadR i v) s = .refused .hostLoadNotReal ↔ ∀ a, v ≠ .num a)
    ∧ (∀ (i : FReg) (v : List HostReal),
      hostAct (.loadF i v) s = .refused .hostLoadNotReal ↔ ∃ x ∈ v, ∀ a, x ≠ .num a)
    ∧ ∀ (i : ZReg) (v : List (HostReal × HostReal)),
      hostAct (.loadZ i v) s = .refused .hostLoadNotReal ↔ ∃ x ∈ v, (∀ a, x.1 ≠ .num a) ∨ ∀ a, x.2 ≠ .num a

/-! ## Checks common to all commands -/

/-- R247, R252: the first empty source, in field order, is reported before anything else; a command whose sources
are all written, whatever its destinations, does not raise `Uninit`. -/
def Obligations.FirstEmptySourceRaisesUninit : Prop :=
  ∀ (i : Instr) (s : State),
    (∀ o : Operand, i.sources.find? s.isEmpty = some o →
      exec i s = .next (s.raise ⟨.uninit, 16 * operandClass o + operandIndex o⟩))
    ∧ ((∀ o ∈ i.sources, s.isEmpty o = false) →
      ∀ t, exec i s = .next t → t.response.err ≠ ErrorKind.uninit.code)

/-- R185, R249: a modem or slicer command with its source written but no bank of its mode raises `NoCfg` before
any check of its own. -/
def Obligations.MissingConfigurationRaisesNoCfg : Prop :=
  ∀ (i : Instr) (s : State) (ms : List Mode), i.modes = some ms → (∀ o ∈ i.sources, s.isEmpty o = false) →
    (s.cfg.valid = false → exec i s = .next (s.raise ⟨.noCfg, 4⟩))
    ∧ (s.cfg.valid = true → s.cfg.mode ∉ ms → exec i s = .next (s.raise ⟨.noCfg, s.cfg.mode.code.toNat⟩))

/-! ## Bitstream accessor -/

/-- R90: RDBIT delivers the stream bit, or `Range` with the position. -/
def Obligations.RdbitReadsBit : Prop :=
  ∀ (xd : XReg) (bs : BReg) (xp : XReg) (s : State) (v : ByteBuf) (p : Word),
    s.bReg[bs] = some v → s.xReg[xp] = some p →
    (0 ≤ p.toInt → p.toInt < 8 * v.bytes.length →
      exec (.rdbit xd bs xp) s =
        .next ((s.setX xd (BitVec.ofNat Config.xlen (bitOf v.bytes p.toInt.toNat))).retire 0))
    ∧ (p.toInt < 0 ∨ 8 * v.bytes.length ≤ p.toInt →
      exec (.rdbit xd bs xp) s = .next (s.raise ⟨.range, p.toInt⟩))

/-- R91: RDBITS delivers all bits in order, or `Capacity`. -/
def Obligations.RdbitsReadsAllBits : Prop :=
  ∀ (sd : SReg) (bs : BReg) (s : State) (v : ByteBuf), s.bReg[bs] = some v →
    exec (.rdbits sd bs) s =
      if overMax s.params (8 * v.bytes.length) then .next (s.raise ⟨.capacity, 8 * v.bytes.length⟩)
      else .next ((s.setS sd
        ((List.range (8 * v.bytes.length)).map fun p => BitVec.ofNat Config.xlen (bitOf v.bytes p))).retire 0)

/-- R54, R92: WRBIT raises `Capability` on a read-only buffer, else `Range` outside it, else writes the one bit and
keeps every other bit, the length and `ro`. -/
def Obligations.WrbitWritesOneBit : Prop :=
  ∀ (bd : BReg) (xp xv : XReg) (s : State) (v : ByteBuf) (p val : Word),
    s.bReg[bd] = some v → s.xReg[xp] = some p → s.xReg[xv] = some val →
    (v.ro = true → exec (.wrbit bd xp xv) s = .next (s.raise ⟨.capability, bd.val⟩))
    ∧ (v.ro = false → p.toInt < 0 ∨ 8 * v.bytes.length ≤ p.toInt →
      exec (.wrbit bd xp xv) s = .next (s.raise ⟨.range, p.toInt⟩))
    ∧ (v.ro = false → 0 ≤ p.toInt → p.toInt < 8 * v.bytes.length →
      ∃ out : List Byte, exec (.wrbit bd xp xv) s = .next ((s.setB bd ⟨out, false⟩).retire 0)
        ∧ out.length = v.bytes.length
        ∧ ∀ q < 8 * v.bytes.length,
          bitOf out q = if (q : Int) = p.toInt then (if val = 0 then 0 else 1) else bitOf v.bytes q)

/-- R93: after a WRBIT, RDBIT at its position returns the bit written and elsewhere what it returned before; RDBIT
changes no buffer; an element of the RDBITS result is the RDBIT result at its index; positions -1 and
`8*len` raise `Range`, and writing a read-only buffer raises `Capability`. -/
def Obligations.AccessorLaws : Prop :=
  (∀ (bd : BReg) (xp xv xd xq : XReg) (s t : State) (v : ByteBuf) (p val q : Word),
    s.bReg[bd] = some v → s.xReg[xp] = some p → s.xReg[xv] = some val → s.xReg[xq] = some q →
    v.ro = false → 0 ≤ p.toInt → p.toInt < 8 * v.bytes.length → 0 ≤ q.toInt → q.toInt < 8 * v.bytes.length →
    exec (.wrbit bd xp xv) s = .next t →
    ∃ before after, exec (.rdbit xd bd xq) s = .next before ∧ exec (.rdbit xd bd xq) t = .next after
      ∧ (q = p → after.xReg[xd] = some (if val = 0 then 0 else 1))
      ∧ (q ≠ p → after.xReg[xd] = before.xReg[xd]))
  ∧ (∀ (xd : XReg) (bs : BReg) (xp : XReg) (s t : State), exec (.rdbit xd bs xp) s = .next t → t.bReg = s.bReg)
  ∧ (∀ (xd : XReg) (sd : SReg) (bs : BReg) (xp : XReg) (s t u : State) (v : ByteBuf) (p : Word) (l : List Word),
    s.bReg[bs] = some v → s.xReg[xp] = some p → 0 ≤ p.toInt → p.toInt < 8 * v.bytes.length →
    exec (.rdbits sd bs) s = .next t → t.response.err = 0 → t.sReg[sd] = some l →
    exec (.rdbit xd bs xp) s = .next u → u.xReg[xd] = l[p.toInt.toNat]?)
  ∧ (∀ (xd : XReg) (bs : BReg) (xp xv : XReg) (s : State) (v : ByteBuf) (p val : Word),
    s.bReg[bs] = some v → s.xReg[xp] = some p → s.xReg[xv] = some val →
    (p.toInt = -1 ∨ p.toInt = 8 * v.bytes.length →
      exec (.rdbit xd bs xp) s = .next (s.raise ⟨.range, p.toInt⟩)
      ∧ (v.ro = false → exec (.wrbit bs xp xv) s = .next (s.raise ⟨.range, p.toInt⟩)))
    ∧ (v.ro = true → exec (.wrbit bs xp xv) s = .next (s.raise ⟨.capability, bs.val⟩)))

/-! ## Symbol codec -/

/-- R100: each encoder packs `k` bits a symbol, most significant first, with the pad of radix 8; it raises `Length`
when the bits do not divide and then `Capacity` when the symbols do not fit. -/
def Obligations.EncodersPackBits : Prop :=
  ∀ c ∈ codecs, ∀ (sd : SReg) (bs : BReg) (s : State) (v : ByteBuf), s.bReg[bs] = some v →
    let total := paddedBits c.k v.bytes.length
    (total % c.k ≠ 0 → exec (c.enc sd bs) s = .next (s.raise ⟨.length, v.bytes.length⟩))
    ∧ (total % c.k = 0 → overMax s.params (total / c.k : Nat) = true →
      exec (c.enc sd bs) s = .next (s.raise ⟨.capacity, (total / c.k : Nat)⟩))
    ∧ (total % c.k = 0 → overMax s.params (total / c.k : Nat) = false →
      ∃ out : List Word, exec (c.enc sd bs) s = .next ((s.setS sd out).retire 0) ∧ out.length = total / c.k
        ∧ ∀ i < total / c.k, (out.getD i 0).toNat = numberOf c.k fun j =>
          if c.k * i + j < 8 * v.bytes.length then bitOf v.bytes (c.k * i + j) else 0)

/-- R101: each decoder checks the count, then the symbols, then the pad bits, and unpacks whole bytes. -/
def Obligations.DecodersUnpackBits : Prop :=
  ∀ c ∈ codecs, ∀ (bd : BReg) (ss : SReg) (s : State) (q : List Word), s.sReg[ss] = some q →
    overMax s.params q.length = false →
    let n := q.length
    let countOk := if c.k = 3 then n % 8 = 0 ∨ n % 8 = 3 ∨ n % 8 = 6 else n % (8 / Nat.gcd c.k 8) = 0
    let inRange (i : Nat) : Prop := 0 ≤ (q.getD i 0).toInt ∧ (q.getD i 0).toInt < 2 ^ c.k
    let bit (p : Nat) : Nat := ((q.getD (p / c.k) 0).toNat >>> (c.k - 1 - p % c.k)) % 2
    let bytes := c.k * n / 8
    (¬ countOk → exec (c.dec bd ss) s = .next (s.raise ⟨.length, n⟩))
    ∧ (countOk → ∀ i < n, (∀ j < i, inRange j) → ¬ inRange i →
      exec (c.dec bd ss) s = .next (s.raise ⟨.symbol, i⟩))
    ∧ (countOk → (∀ i < n, inRange i) → (∃ p, 8 * bytes ≤ p ∧ p < c.k * n ∧ bit p = 1) →
      exec (c.dec bd ss) s = .next (s.raise ⟨.length, n⟩))
    ∧ (countOk → (∀ i < n, inRange i) → (∀ p, 8 * bytes ≤ p → p < c.k * n → bit p = 0) →
      ∃ out : List Byte, exec (c.dec bd ss) s = .next ((s.setB bd ⟨out, false⟩).retire 0) ∧ out.length = bytes
        ∧ ∀ m < bytes, (out.getD m 0).toNat = numberOf 8 fun j => bit (8 * m + j))

/-- R116: a buffer that an encoder accepts is what the decoder gives back, and a symbol sequence that a decoder
accepts is what the encoder gives back; radices 2, 4, 8, 16 and 256 accept every buffer, radix 32 every
multiple of five bytes, radix 64 every multiple of three. -/
def Obligations.CodecRoundTrip : Prop :=
  ∀ c ∈ codecs, ∀ (sd : SReg) (bs bd : BReg) (s : State),
    (∀ v : ByteBuf, s.bReg[bs] = some v → overMax s.params v.bytes.length = false →
      (c.k = 5 → v.bytes.length % 5 = 0) → (c.k = 6 → v.bytes.length % 3 = 0) →
      overMax s.params (paddedBits c.k v.bytes.length / c.k : Nat) = false →
      ∃ t u, exec (c.enc sd bs) s = .next t ∧ exec (c.dec bd sd) t = .next u ∧ u.response.err = 0
        ∧ u.bReg[bd] = some ⟨v.bytes, false⟩)
    ∧ ∀ (q : List Word) (t u : State), s.sReg[sd] = some q → overMax s.params q.length = false →
      exec (c.dec bd sd) s = .next t → t.response.err = 0 → exec (c.enc sd bd) t = .next u →
      u.response.err = 0 ∧ u.sReg[sd] = some q

/-! ## Error-correcting codes -/

/-- R131, R132, R134, R135: the four commands of the modes `none` and `raw` copy the bytes and clear `ro`, also
onto the same register. -/
def Obligations.EccModesCopyBytes : Prop :=
  ∀ (bd bs : BReg) (s : State) (v : ByteBuf), s.bReg[bs] = some v → overMax s.params v.bytes.length = false →
    ∀ i ∈ [Instr.eccencNone bd bs, .eccencRaw bd bs, .eccdecNone bd bs, .eccdecRaw bd bs],
      exec i s = .next ((s.setB bd ⟨v.bytes, false⟩).retire 0)

/-- R130, R133: HAMENC emits a codeword for every nibble, positions 1 to 7 in stream order, then zero bits to a
whole byte; or raises `Capacity`. -/
def Obligations.HamencEmitsCodewords : Prop :=
  ∀ (bd bs : BReg) (s : State) (v : ByteBuf), s.bReg[bs] = some v →
    let count := (14 * v.bytes.length + 7) / 8
    (overMax s.params count = true → exec (.hamenc bd bs) s = .next (s.raise ⟨.capacity, count⟩))
    ∧ (overMax s.params count = false →
      ∃ out : List Byte, exec (.hamenc bd bs) s = .next ((s.setB bd ⟨out, false⟩).retire 0)
        ∧ out.length = count
        ∧ (∀ g < 2 * v.bytes.length,
          let d (j : Nat) : Nat := bitOf v.bytes (4 * g + j - 1)
          (List.range 7).map (fun j => bitOf out (7 * g + j)) =
            [(d 1 + d 2 + d 4) % 2, (d 1 + d 3 + d 4) % 2, d 1, (d 2 + d 3 + d 4) % 2, d 2, d 3, d 4])
        ∧ ∀ p, 14 * v.bytes.length ≤ p → p < 8 * count → bitOf out p = 0)

/-- R136 to R138: HAMDEC flips the data bit that the syndrome of each whole 7-bit group names and delivers the four
data bits; the bits past the last group have no effect; an odd group count is what `HAM_ODD` says. -/
def Obligations.HamdecCorrectsGroups : Prop :=
  ∀ (bd bs : BReg) (s : State) (v : ByteBuf), s.bReg[bs] = some v → overMax s.params v.bytes.length = false →
    let groups := 8 * v.bytes.length / 7
    let c (g pos : Nat) : Nat := bitOf v.bytes (7 * g + pos - 1)
    let syn (g : Nat) : Nat := (c g 1 + c g 3 + c g 5 + c g 7) % 2 + 2 * ((c g 2 + c g 3 + c g 6 + c g 7) % 2)
      + 4 * ((c g 4 + c g 5 + c g 6 + c g 7) % 2)
    let data (g pos : Nat) : Nat := (c g pos + if syn g = pos then 1 else 0) % 2
    (groups % 2 = 1 → s.params.hamOdd = .fault → exec (.hamdec bd bs) s = .next (s.raise ⟨.length, groups⟩))
    ∧ (groups % 2 = 0 ∨ s.params.hamOdd ≠ .fault →
      ∃ out : List Byte, exec (.hamdec bd bs) s = .next ((s.setB bd ⟨out, false⟩).retire 0)
        ∧ out.length = groups / 2 + (if groups % 2 = 1 ∧ s.params.hamOdd = .zeroPad then 1 else 0)
        ∧ (∀ g < groups, 8 * out.length ≤ 4 * g ∨
          (List.range 4).map (fun j => bitOf out (4 * g + j)) = [data g 3, data g 5, data g 6, data g 7])
        ∧ ∀ p, 4 * groups ≤ p → p < 8 * out.length → bitOf out p = 0)

/-- R139: HAMDEC gives back what HAMENC was given, for the uncorrupted output, for any one bit flipped, and for one
bit flipped in every group and any pad bits; two wrong bits in one group are not corrected; the modes `none`
and `raw` are the identity on byte sequences. -/
def Obligations.HammingCorrectsOneErrorPerGroup : Prop :=
  (∀ (bd bs be : BReg) (s t u : State) (v : ByteBuf) (code received : List Byte) (ro : Bool),
    s.bReg[bs] = some v → overMax s.params v.bytes.length = false →
    exec (.hamenc bd bs) s = .next t → t.response.err = 0 → t.bReg[bd] = some ⟨code, false⟩ →
    received.length = code.length →
    exec (.hamdec be bd) (t.setB bd ⟨received, ro⟩) = .next u →
    (∀ wrong : Nat → Nat,
      (∀ g < 2 * v.bytes.length, ∀ j < 7, j ≠ wrong g → bitOf received (7 * g + j) = bitOf code (7 * g + j)) →
      u.response.err = 0 ∧ u.bReg[be] = some ⟨v.bytes, false⟩)
    ∧ ∀ g < 2 * v.bytes.length, ∀ a < 7, ∀ b < a,
      (∀ j < 7, (bitOf received (7 * g + j) ≠ bitOf code (7 * g + j) ↔ j = a ∨ j = b)) →
      u.bReg[be] ≠ some ⟨v.bytes, false⟩)
  ∧ ∀ (bd bs : BReg) (s t : State) (v : ByteBuf), s.bReg[bs] = some v →
    ∀ i ∈ [Instr.eccencNone bd bs, .eccencRaw bd bs, .eccdecNone bd bs, .eccdecRaw bd bs],
      exec i s = .next t → t.response.err = 0 → t.bReg[bd] = some ⟨v.bytes, false⟩

/-! ## Signal utilities -/

/-- R12, R141: TIMEARR delivers `i/fs` for `i` in `0..n-1`, the first element exactly 0 in every numeric domain; under
`binary64` the other quotients are the configuration function of their operands. -/
def Obligations.TimearrMakesTimeGrid : Prop :=
  ∀ (fd : FReg) (rfs : RReg) (xn : XReg) (s : State) (fs : XNum) (n : Word),
    s.rReg[rfs] = some fs → s.xReg[xn] = some n → 0 < fs.toReal → 0 ≤ n.toInt →
    (overMax s.params n.toInt = true → exec (.timearr fd rfs xn) s = .next (s.raise ⟨.capacity, n.toInt⟩))
    ∧ (overMax s.params n.toInt = false →
      ∃ out : List XNum, exec (.timearr fd rfs xn) s = .next ((s.setF fd out).retire 0)
        ∧ (out.length : Int) = n.toInt ∧ (0 < out.length → out.getD 0 (.rat 1) = .rat 0)
        ∧ (s.params.num = .exact → ∀ i < out.length, realAt out i = i / fs.toReal)
        ∧ (s.params.num = .binary64 → ∀ i < out.length, 0 < i →
          realAt out i = Config.binary64 .ratio i fs.toReal 0))

/-- R12, R142: SPS delivers `fs/baud`, under `binary64` the configuration function of the two. -/
def Obligations.SpsDivides : Prop :=
  ∀ (rd rfs rbaud : RReg) (s : State) (fs baud : XNum), s.rReg[rfs] = some fs → s.rReg[rbaud] = some baud →
    0 < fs.toReal → 0 < baud.toReal →
    ∃ v : XNum, exec (.sps rd rfs rbaud) s = .next ((s.setR rd v).retire 0)
      ∧ (s.params.num = .exact → v.toReal = fs.toReal / baud.toReal)
      ∧ (s.params.num = .binary64 → v.toReal = Config.binary64 .ratio fs.toReal baud.toReal 0)

/-- R140 to R155: the checks of the signal utilities, in the order of each rule, each command with its own sources
only, in either numeric domain; those of the low-pass designers stand in `LowpassChecks`. -/
def Obligations.SignalGuardsRaiseDomain : Prop :=
  ∀ s : State,
    (∀ (fd : FReg) (r1 : RReg) (xn : XReg) (fs : XNum) (n : Word), s.rReg[r1] = some fs → s.xReg[xn] = some n →
      (fs.toReal ≤ 0 → exec (.timearr fd r1 xn) s = .next (s.raise ⟨.domain, 1⟩))
      ∧ (0 < fs.toReal → n.toInt < 0 → exec (.timearr fd r1 xn) s = .next (s.raise ⟨.domain, 2⟩)))
    ∧ (∀ (rd r1 r2 : RReg) (fd : FReg) (zd : ZReg) (a b : XNum), s.rReg[r1] = some a → s.rReg[r2] = some b →
      (a.toReal ≤ 0 → exec (.sps rd r1 r2) s = .next (s.raise ⟨.domain, 1⟩)
        ∧ exec (.gausswin fd r1 r2) s = .next (s.raise ⟨.domain, 1⟩)
        ∧ exec (.goertz zd fd r2 r1) s = .next (s.raise ⟨.domain, 1⟩))
      ∧ (0 < a.toReal → b.toReal ≤ 0 → exec (.sps rd r1 r2) s = .next (s.raise ⟨.domain, 2⟩)
        ∧ exec (.gausswin fd r1 r2) s = .next (s.raise ⟨.domain, 2⟩))
      ∧ (0 < a.toReal → s.params.num.divR a.toReal 2 ≤ b.toReal →
        exec (.goertz zd fd r2 r1) s = .next (s.raise ⟨.domain, 2⟩)))
    ∧ (∀ (fd ft fv : FReg) (r1 : RReg) (t v : List XNum) (baud : XNum), s.fReg[ft] = some t →
      s.rReg[r1] = some baud → s.fReg[fv] = some v → baud.toReal ≤ 0 →
      exec (.shres fd ft r1 fv) s = .next (s.raise ⟨.domain, 1⟩))
    ∧ (∀ (rd r1 r2 : RReg) (fa : FReg) (d : List XNum) (b e : XNum), s.fReg[fa] = some d →
      s.rReg[r1] = some b → s.rReg[r2] = some e →
      (e.toReal < b.toReal → exec (.avgint rd fa r1 r2) s = .next (s.raise ⟨.domain, 1⟩))
      ∧ (b.toReal ≤ e.toReal → b.toReal < 0 → exec (.avgint rd fa r1 r2) s = .next (s.raise ⟨.domain, 2⟩))
      ∧ (b.toReal ≤ e.toReal → 0 ≤ b.toReal → (d.length : ℝ) - 1 < e.toReal →
        exec (.avgint rd fa r1 r2) s = .next (s.raise ⟨.domain, 3⟩)))
    ∧ ∀ (fd fa fk : FReg) (u : List XNum), s.fReg[fa] = some u → s.fReg[fk] = some [] →
      exec (.conv fd fa fk) s = .next (s.raise ⟨.domain, 1⟩)

/-- R143: SHRES delivers one value per time point: the value at or before it inside `0 <= u <= L-1` and 0
outside. -/
def Obligations.ShresHoldsPreviousValue : Prop :=
  ∀ (fd ft : FReg) (rbaud : RReg) (fv : FReg) (s : State) (t v : List XNum) (baud : XNum),
    s.fReg[ft] = some t → s.rReg[rbaud] = some baud → s.fReg[fv] = some v → 0 < baud.toReal →
    overMax s.params t.length = false →
    ∃ out : List XNum, exec (.shres fd ft rbaud fv) s = .next ((s.setF fd out).retire 0) ∧ out.length = t.length
      ∧ ∀ j < t.length,
          let u := s.params.num.mulR (realAt t j) baud.toReal
          out.getD j (.rat 0) =
            if 1 ≤ v.length ∧ 0 ≤ u ∧ u ≤ (v.length : ℝ) - 1 then v.getD ⌊u⌋.toNat (.rat 0) else .rat 0

/-- R144, R145: GAUSSWIN; the length is `odd_up(ceil(6*sigma*fs + 1))`, in either numeric domain, and odd; over the
exact reals it is at least 3, and the taps are the normalised Gaussian about the middle tap: positive, symmetric,
with sum 1. That the capacity check of R145 takes R144's operations under `binary64` is the model's choice
(`notes/assumptions/21.md`). -/
def Obligations.GausswinMakesGaussian : Prop :=
  ∀ (fd : FReg) (rfs rsigma : RReg) (s : State) (fs sigma : XNum), s.rReg[rfs] = some fs →
    s.rReg[rsigma] = some sigma → 0 < fs.toReal → 0 < sigma.toReal →
    let count := gaussCount s.params.num fs.toReal sigma.toReal
    (overMax s.params count = true → exec (.gausswin fd rfs rsigma) s = .next (s.raise ⟨.capacity, count⟩))
    ∧ (overMax s.params count = false →
      ∃ out : List XNum, exec (.gausswin fd rfs rsigma) s = .next ((s.setF fd out).retire 0)
        ∧ out.length = count.toNat ∧ count % 2 = 1
        ∧ (s.params.num = .exact →
          count = oddUp ⌈6 * (sigma.toReal * fs.toReal) + 1⌉ ∧ 3 ≤ count ∧ (∀ i < out.length, realAt out i =
            Real.exp (-(((i : ℝ) - ((out.length - 1) / 2 : ℕ)) / (sigma.toReal * fs.toReal)) ^ 2 / 2)
              / ∑ m ∈ Finset.range out.length,
                  Real.exp (-(((m : ℝ) - ((out.length - 1) / 2 : ℕ)) / (sigma.toReal * fs.toReal)) ^ 2 / 2))
        ∧ (∀ i < out.length, 0 < realAt out i ∧ realAt out i = realAt out (out.length - 1 - i))
        ∧ ∑ i ∈ Finset.range out.length, realAt out i = 1))

/-- R146 to R149: past the checks, LPFIRA delivers the least-squares taps of its tap count, an odd number, symmetric
about the middle, each the number that the normal equations give, and LPFIR those of `ATT_DEFAULT`; a count above
`MAXLEN` raises `Capacity`. Under `binary64` the count and each tap are what the configuration function gives. -/
def Obligations.LowpassDesignTaps : Prop :=
  ∀ (i : Instr) (fd : FReg) (rfs rlo rhi : RReg) (s : State) (fs lo hi att : XNum),
    s.rReg[rfs] = some fs → s.rReg[rlo] = some lo → s.rReg[rhi] = some hi →
    (i = .lpfir fd rfs rlo rhi ∧ att = s.params.attDefault
      ∨ ∃ ratt, i = .lpfira fd rfs rlo rhi ratt ∧ s.rReg[ratt] = some att) →
    0 < fs.toReal → 0 ≤ lo.toReal → lo.toReal < hi.toReal → hi.toReal < s.params.num.divR fs.toReal 2 →
    0 < att.toReal →
    let count := firCount s.params.num fs.toReal lo.toReal hi.toReal att.toReal
    (overMax s.params count = true → exec i s = .next (s.raise ⟨.capacity, count⟩))
    ∧ (overMax s.params count = false →
      ∃ out : List XNum, exec i s = .next ((s.setF fd out).retire 0) ∧ out.length = count.toNat ∧ count % 2 = 1
        ∧ (s.params.num = .exact → count = oddUp ⌈fs.toReal / (hi.toReal - lo.toReal) * att.toReal / 22⌉ ∧ 1 ≤ count)
        ∧ (∀ j < out.length,
          let place := ((j : ℤ) - ((out.length - 1) / 2 : ℕ)).natAbs
          realAt out j = match s.params.num with
            | .exact => lsqTapReal fs.toReal lo.toReal hi.toReal ((out.length - 1) / 2) place
            | .binary64 => Config.binary64 (.filterTap ((out.length - 1) / 2) place) fs.toReal lo.toReal hi.toReal)
        ∧ ∀ j < out.length, realAt out j = realAt out (out.length - 1 - j))

/-- R148, R149: the six checks of LPFIR and LPFIRA, in their order and in either numeric domain: the first that is
violated raises `Domain` with its number. -/
def Obligations.LowpassChecks : Prop :=
  ∀ (i : Instr) (fd : FReg) (rfs rlo rhi : RReg) (s : State) (fs lo hi att : XNum),
    s.rReg[rfs] = some fs → s.rReg[rlo] = some lo → s.rReg[rhi] = some hi →
    (i = .lpfir fd rfs rlo rhi ∧ att = s.params.attDefault
      ∨ ∃ ratt, i = .lpfira fd rfs rlo rhi ratt ∧ s.rReg[ratt] = some att) →
    let nyquist := s.params.num.divR fs.toReal 2
    (fs.toReal ≤ 0 → exec i s = .next (s.raise ⟨.domain, 1⟩))
    ∧ (0 < fs.toReal → hi.toReal ≤ lo.toReal → exec i s = .next (s.raise ⟨.domain, 2⟩))
    ∧ (0 < fs.toReal → lo.toReal < hi.toReal → nyquist ≤ lo.toReal → exec i s = .next (s.raise ⟨.domain, 3⟩))
    ∧ (0 < fs.toReal → lo.toReal < hi.toReal → lo.toReal < nyquist → nyquist ≤ hi.toReal →
      exec i s = .next (s.raise ⟨.domain, 4⟩))
    ∧ (0 < fs.toReal → lo.toReal < hi.toReal → hi.toReal < nyquist → lo.toReal < 0 →
      exec i s = .next (s.raise ⟨.domain, 5⟩))
    ∧ (0 < fs.toReal → 0 ≤ lo.toReal → lo.toReal < hi.toReal → hi.toReal < nyquist → att.toReal ≤ 0 →
      exec i s = .next (s.raise ⟨.domain, 6⟩))

/-- R12, R150: GOERTZ writes the numerator `[1, -cis(-w)]` and the denominator `[1, -2*cos(w), 1]` together, each
operation being that of the numeric domain; over the exact reals that is the resonator of `w = 2*pi*freq/fs`. Which
operations they are under `binary64` is the model's choice (`notes/assumptions/21.md`). -/
def Obligations.GoertzWritesResonator : Prop :=
  ∀ (zd : ZReg) (fd : FReg) (rfreq rfs : RReg) (s : State) (freq fs : XNum),
    s.rReg[rfreq] = some freq → s.rReg[rfs] = some fs → 0 < fs.toReal →
    freq.toReal < s.params.num.divR fs.toReal 2 → overMax s.params 3 = false →
    let d := s.params.num
    let w := d.divR (d.mulR (d.mulR 2 d.piR) freq.toReal) fs.toReal
    ∃ (num : List Cplx) (den : List XNum),
      exec (.goertz zd fd rfreq rfs) s = .next (((s.setZ zd num).setF fd den).retire 0)
      ∧ num.map (fun c => (c.re.toReal, c.im.toReal)) =
        [(1, 0), (d.negR (d.cosR (d.negR w)), d.negR (d.sinR (d.negR w)))]
      ∧ den.map XNum.toReal = [1, d.mulR (-2) (d.cosR w), 1]
      ∧ (d = .exact → w = 2 * Real.pi * freq.toReal / fs.toReal
        ∧ num.map (fun c => (c.re.toReal, c.im.toReal)) = [(1, 0), (-Real.cos w, Real.sin w)]
        ∧ den.map XNum.toReal = [1, -2 * Real.cos w, 1])

/-- R151: the resonator run from rest delivers `y[n] = q[n] - cis(-w)*q[n-1] = sum of x[m]*cis(w*(n-m))`; the modulus
of its last output over a window is that of the single-bin transform, which DEMFSK uses. -/
def Obligations.GoertzelClosedForm : Prop :=
  (∀ (w : ℝ) (x : Nat → ℝ) (n : Nat),
    ((resonator w x n).1 : ℂ) - Complex.exp (-(w * Complex.I)) * ((resonator w x n).2 : ℂ)
      = ∑ m ∈ Finset.range (n + 1), (x m : ℂ) * Complex.exp (w * ((n : ℂ) - m) * Complex.I))
  ∧ ∀ (x : List XNum) (first n : Nat) (w : XNum),
    (goertzelMag .exact x first (n + 1) w).toReal =
      ‖∑ m ∈ Finset.range (n + 1), (realAt x (first + m) : ℂ) * Complex.exp (-(w.toReal * m * Complex.I))‖
    ∧ (goertzelMag .exact x first (n + 1) w).toReal =
      ‖((resonator w.toReal (fun m => realAt x (first + m)) n).1 : ℂ)
        - Complex.exp (-(w.toReal * Complex.I)) * ((resonator w.toReal (fun m => realAt x (first + m)) n).2 : ℂ)‖

/-- R152, R153: AVGINT past its checks delivers the average, over the exact reals the trapezoid rule over the ends and
the integers strictly between them, divided by the span, and a point value where the ends meet. -/
def Obligations.AvgintAverages : Prop :=
  ∀ (rd : RReg) (fa : FReg) (rb re : RReg) (s : State) (d : List XNum) (b e : XNum),
    s.fReg[fa] = some d → s.rReg[rb] = some b → s.rReg[re] = some e →
    b.toReal ≤ e.toReal → 0 ≤ b.toReal → e.toReal ≤ (d.length : ℝ) - 1 →
    ∃ v : XNum, exec (.avgint rd fa rb re) s = .next ((s.setR rd v).retire 0)
      ∧ (s.params.num = .exact → v.toReal = averageReal (realAt d) d.length b.toReal e.toReal)

/-- R154, R155: CONV delivers as many values as the signal has, over the exact reals the linear convolution centred on
it. -/
def Obligations.ConvFilters : Prop :=
  ∀ (fd fa fk : FReg) (s : State) (u w : List XNum), s.fReg[fa] = some u → s.fReg[fk] = some w → w ≠ [] →
    overMax s.params u.length = false →
    ∃ out : List XNum, exec (.conv fd fa fk) s = .next ((s.setF fd out).retire 0) ∧ out.length = u.length
      ∧ (s.params.num = .exact → ∀ i < u.length, realAt out i = convReal (realAt u) u.length (realAt w) w.length i)

/-! ## Configuration -/

/-- R171 to R178: each CFG* command with its sources written runs its checks in order, in either numeric domain; the
first that is violated raises `Config` with its number; otherwise the whole bank is loaded and the construction's
warnings are raised, each exactly when its condition holds. How the modulus is computed under `binary64` is the
model's choice (`notes/assumptions/21.md`). -/
def Obligations.ConstructorsLoadOrFail : Prop :=
  ∀ (i : Instr) (s : State) (q : CfgRequest), i.request s = some q →
    (∀ k ∈ checksOf q.mode, q.Violates s.params k → (∀ j ∈ checksOf q.mode, j < k → ¬ q.Violates s.params j) →
      exec i s = .next (s.raise ⟨.config, k⟩))
    ∧ ((∀ k ∈ checksOf q.mode, ¬ q.Violates s.params k) →
      ∃ w : BitVec 4, exec i s = .next ({ s with cfg := ⟨true, q.mode, q.fs, q.baud, q.carrier, q.amp,
          q.alpha.length, q.alpha⟩ }.retire w)
        ∧ ∀ b < 4, (w.getLsbD b = true ↔ q.Warns s.params b))

/-- R170 to R175: the operands with which each CFG* command loads its configuration over the exact reals, mode by
mode. -/
def Obligations.ConstructorsLoadExactlyWhen : Prop :=
  ∀ (i : Instr) (s t : State) (q : CfgRequest), i.request s = some q → s.params.num = .exact → exec i s = .next t →
    (t.response.err = 0 ↔
      0 < q.fs.toReal ∧ 0 < q.baud.toReal ∧ q.alpha ≠ [] ∧ q.alpha.length ≤ s.params.nMax
      ∧ q.alpha.Pairwise (fun a b => a.re.toReal ≠ b.re.toReal ∨ a.im.toReal ≠ b.im.toReal)
      ∧ (q.mode ≠ .fsk → 0 < q.carrier.toReal ∧ q.carrier.toReal < q.fs.toReal / 2
        ∧ q.baud.toReal < q.carrier.toReal / 2)
      ∧ (q.mode = .fsk ∨ q.mode = .psk → 0 < q.amp.toReal ∧ q.amp.toReal ≤ 1)
      ∧ ∀ a ∈ q.alpha, match q.mode with
        | .ask => 0 < a.re.toReal ∧ a.re.toReal ≤ 1
        | .fsk => q.baud.toReal < a.re.toReal ∧ a.re.toReal < q.fs.toReal / 2
        | .psk => 0 ≤ a.re.toReal ∧ a.re.toReal < 2 * Real.pi
        | .qam => 0 < a.re.toReal ^ 2 + a.im.toReal ^ 2 ∧ a.re.toReal ^ 2 + a.im.toReal ^ 2 ≤ 1)

/-! ## Slicing -/

/-- R190: the slicer takes the smallest index whose squared distance is at most every other's, in either numeric
domain; over the exact reals the distance is the Euclidean one. How the squares are computed under `binary64` is the
model's choice (`notes/assumptions/21.md`). -/
def Obligations.NearestCodeword : Prop :=
  ∀ (code : List (List XNum)) (o : List XNum), code ≠ [] →
    (∀ d : Config.NumDomain,
      let dist (m : ℕ) : ℝ := (dist2 d o (code.getD m [])).toReal
      nearest d code o < code.length ∧ (∀ m < code.length, dist (nearest d code o) ≤ dist m)
      ∧ ∀ m < nearest d code o, dist (nearest d code o) < dist m)
    ∧ IsNearest (code.map fun c => c.map XNum.toReal) (o.map XNum.toReal) (nearest .exact code o)

/-- R183: 1 is taken off every index, the guards are dropped, and CORRUPT is warned exactly when a guard is not null
or an inner symbol is. -/
def Obligations.FinishDropsGuards : Prop :=
  ∀ idx : List Nat, 2 ≤ idx.length → (∀ j ∈ idx, j < 2 ^ 31) →
    (finish idx).1.length = idx.length - 2
    ∧ (∀ i < idx.length - 2, ((finish idx).1.getD i 0).toInt = (idx.getD (i + 1) 0 : Int) - 1)
    ∧ ((finish idx).2 = 0b1000 ∨ (finish idx).2 = 0)
    ∧ ((finish idx).2 = 0b1000 ↔ idx.getD 0 0 ≠ 0 ∨ idx.getD (idx.length - 1) 0 ≠ 0
      ∨ ∃ i, 1 ≤ i ∧ i < idx.length - 1 ∧ idx.getD i 0 = 0)

/-- R183, R191 to R194: SLICE and SLICEZ with a bank of their modes: `Length` for a count that is no multiple of the
dimension, then for fewer than two observations; otherwise, over the exact reals, the nearest codewords' indices,
finished, with the warning that the finishing step gives. -/
def Obligations.SliceNearestSymbols : Prop :=
  (∀ (sd : SReg) (fobs : FReg) (s : State) (o : List XNum), s.fReg[fobs] = some o → s.cfg.valid = true →
    s.cfg.mode = .ask ∨ s.cfg.mode = .fsk → s.cfg.n = s.cfg.alpha.length → s.cfg.n < 2 ^ 31 →
    overMax s.params o.length = false →
    let d := if s.cfg.mode = .ask then 1 else s.cfg.n
    (o.length % d ≠ 0 → exec (.slice sd fobs) s = .next (s.raise ⟨.length, o.length⟩))
    ∧ (o.length % d = 0 → o.length / d < 2 → exec (.slice sd fobs) s = .next (s.raise ⟨.length, (o.length / d : Nat)⟩))
    ∧ (o.length % d = 0 → 2 ≤ o.length / d →
      ∃ (out : List Word) (w : BitVec 4), exec (.slice sd fobs) s = .next ((s.setS sd out).retire w)
        ∧ out.length = o.length / d - 2 ∧ (w = 0b1000 ∨ w = 0)
        ∧ (s.params.num = .exact → IsSliced s.cfg ((List.range (o.length / d)).map fun i =>
            (List.range d).map fun k => realAt o (i * d + k)) out w)
        ∧ ∀ a ∈ out, -1 ≤ a.toInt ∧ a.toInt < s.cfg.n))
  ∧ ∀ (sd : SReg) (zobs : ZReg) (s : State) (o : List Cplx), s.zReg[zobs] = some o → s.cfg.valid = true →
    s.cfg.mode = .psk ∨ s.cfg.mode = .qam → s.cfg.n = s.cfg.alpha.length → s.cfg.n < 2 ^ 31 →
    overMax s.params o.length = false →
    (o.length < 2 → exec (.slicez sd zobs) s = .next (s.raise ⟨.length, o.length⟩))
    ∧ (2 ≤ o.length →
      ∃ (out : List Word) (w : BitVec 4), exec (.slicez sd zobs) s = .next ((s.setS sd out).retire w)
        ∧ out.length = o.length - 2 ∧ (w = 0b1000 ∨ w = 0)
        ∧ (s.params.num = .exact → IsSliced s.cfg (o.map fun a => [a.re.toReal, a.im.toReal]) out w)
        ∧ ∀ a ∈ out, -1 ≤ a.toInt ∧ a.toInt < s.cfg.n)

/-! ## Modulators -/

/-- R181, R200, R210, R220, R222: a MOD* command raises `Symbol` at the first symbol outside the alphabet, then
`Capacity` when its `ceil((n+2)*fs/baud)` samples do not fit, in either numeric domain. -/
def Obligations.ModulatorsCheckFirst : Prop :=
  ∀ (fd : FReg) (ss : SReg) (s : State) (q : List Word), s.sReg[ss] = some q → s.cfg.valid = true →
    ∀ mi ∈ [(Mode.ask, Instr.modask fd ss), (.fsk, .modfsk fd ss), (.psk, .modpsk fd ss), (.qam, .modqam fd ss)],
      s.cfg.mode = mi.1 →
      (∀ i < q.length, (∀ j < i, 0 ≤ (q.getD j 0).toInt ∧ (q.getD j 0).toInt < s.cfg.n) →
        ¬ (0 ≤ (q.getD i 0).toInt ∧ (q.getD i 0).toInt < s.cfg.n) → exec mi.2 s = .next (s.raise ⟨.symbol, i⟩))
      ∧ ((∀ w ∈ q, 0 ≤ w.toInt ∧ w.toInt < s.cfg.n) →
        overMax s.params (sampleCountReal s.params.num s.cfg (q.length + 2)) = true →
        exec mi.2 s = .next (s.raise ⟨.capacity, sampleCountReal s.params.num s.cfg (q.length + 2)⟩))

/-- R179, R181, R200: MODASK delivers `ceil((n+2)*sps)` samples, over the exact reals the held and smoothed amplitude on
the carrier's cosine. -/
def Obligations.ModaskMixesEnvelope : Prop :=
  ∀ (fd : FReg) (ss : SReg) (s : State) (q : List Word), s.sReg[ss] = some q → s.cfg.valid = true →
    s.cfg.mode = .ask → (∀ w ∈ q, 0 ≤ w.toInt ∧ w.toInt < s.cfg.n) →
    overMax s.params (sampleCountReal s.params.num s.cfg (q.length + 2)) = false →
    ∃ out : List XNum, exec (.modask fd ss) s = .next ((s.setF fd out).retire 0)
      ∧ out.length = (sampleCountReal s.params.num s.cfg (q.length + 2)).toNat
      ∧ (s.params.num = .exact → ∀ i < out.length,
        realAt out i = shapedReal s.params s.cfg (slotValues Cplx.re s.cfg q) i
          * Real.cos (2 * Real.pi * s.cfg.carrier.toReal * (i / s.cfg.fs.toReal)))

/-- R179, R181, R210: MODFSK delivers `ceil((n+2)*sps)` samples, over the exact reals the smoothed envelope on the
cosine of the running trapezoid integral of the smoothed frequency, from phase 0. -/
def Obligations.ModfskIntegratesFrequency : Prop :=
  ∀ (fd : FReg) (ss : SReg) (s : State) (q : List Word), s.sReg[ss] = some q → s.cfg.valid = true →
    s.cfg.mode = .fsk → (∀ w ∈ q, 0 ≤ w.toInt ∧ w.toInt < s.cfg.n) →
    overMax s.params (sampleCountReal s.params.num s.cfg (q.length + 2)) = false →
    let frequency := shapedReal s.params s.cfg (slotValues Cplx.re s.cfg q)
    let envelope := shapedReal s.params s.cfg (slotValues (fun _ => s.cfg.amp) s.cfg q)
    ∃ (out : List XNum) (phase : Nat → ℝ), exec (.modfsk fd ss) s = .next ((s.setF fd out).retire 0)
      ∧ out.length = (sampleCountReal s.params.num s.cfg (q.length + 2)).toNat
      ∧ (s.params.num = .exact → phase 0 = 0
        ∧ (∀ i, i + 1 < out.length → phase (i + 1) = phase i
          + 2 * Real.pi * (frequency i + frequency (i + 1)) / (2 * s.cfg.fs.toReal))
        ∧ ∀ i < out.length, realAt out i = envelope i * Real.cos (phase i))

/-- R179, R181, R220: MODPSK delivers `ceil((n+2)*sps)` samples; over the exact reals it smooths phase and envelope apart
and adds the phase inside the cosine. -/
def Obligations.ModpskShiftsPhase : Prop :=
  ∀ (fd : FReg) (ss : SReg) (s : State) (q : List Word), s.sReg[ss] = some q → s.cfg.valid = true →
    s.cfg.mode = .psk → (∀ w ∈ q, 0 ≤ w.toInt ∧ w.toInt < s.cfg.n) →
    overMax s.params (sampleCountReal s.params.num s.cfg (q.length + 2)) = false →
    ∃ out : List XNum, exec (.modpsk fd ss) s = .next ((s.setF fd out).retire 0)
      ∧ out.length = (sampleCountReal s.params.num s.cfg (q.length + 2)).toNat
      ∧ (s.params.num = .exact → ∀ i < out.length,
        realAt out i = shapedReal s.params s.cfg (slotValues (fun _ => s.cfg.amp) s.cfg q) i
          * Real.cos (2 * Real.pi * s.cfg.carrier.toReal * (i / s.cfg.fs.toReal)
            + shapedReal s.params s.cfg (slotValues Cplx.re s.cfg q) i))

/-- R179, R181, R222: MODQAM delivers `ceil((n+2)*sps)` samples; over the exact reals it puts the real part on the cosine
and the imaginary part on the negated sine. -/
def Obligations.ModqamMixesQuadrature : Prop :=
  ∀ (fd : FReg) (ss : SReg) (s : State) (q : List Word), s.sReg[ss] = some q → s.cfg.valid = true →
    s.cfg.mode = .qam → (∀ w ∈ q, 0 ≤ w.toInt ∧ w.toInt < s.cfg.n) →
    overMax s.params (sampleCountReal s.params.num s.cfg (q.length + 2)) = false →
    ∃ out : List XNum, exec (.modqam fd ss) s = .next ((s.setF fd out).retire 0)
      ∧ out.length = (sampleCountReal s.params.num s.cfg (q.length + 2)).toNat
      ∧ (s.params.num = .exact → ∀ i < out.length,
        realAt out i = shapedReal s.params s.cfg (slotValues Cplx.re s.cfg q) i
            * Real.cos (2 * Real.pi * s.cfg.carrier.toReal * (i / s.cfg.fs.toReal))
          - shapedReal s.params s.cfg (slotValues Cplx.im s.cfg q) i
            * Real.sin (2 * Real.pi * s.cfg.carrier.toReal * (i / s.cfg.fs.toReal)))

/-! ## Demodulators -/

/-- R182, R184, R201, R211, R221, R223: a DEM* command with a bank of its mode raises `Length(count)` for fewer than
two intervals; then, by the filter design, `Domain` and `Capacity`, or for FSK `Domain(1)` for an empty window; all in
either numeric domain. -/
def Obligations.DemodulatorsCheckFirst : Prop :=
  ∀ (sd : SReg) (fx : FReg) (s : State) (x : List XNum), s.fReg[fx] = some x → s.cfg.valid = true →
    let count := intervalCountReal s.params.num s.cfg x.length
    let violates := lowpassViolates s.params.num s.cfg.fs.toReal (passReal s.params.num s.cfg)
      (stopReal s.params.num s.cfg) s.params.attDefault.toReal
    (∀ mi ∈ [(Mode.ask, Instr.demask sd fx), (.fsk, .demfsk sd fx), (.psk, .dempsk sd fx), (.qam, .demqam sd fx)],
      s.cfg.mode = mi.1 → count < 2 → exec mi.2 s = .next (s.raise ⟨.length, count⟩))
    ∧ (∀ mi ∈ [(Mode.ask, Instr.demask sd fx), (.psk, .dempsk sd fx), (.qam, .demqam sd fx)],
      s.cfg.mode = mi.1 → 2 ≤ count →
      (∀ k, violates k → (∀ j < k, ¬ violates j) → exec mi.2 s = .next (s.raise ⟨.domain, k⟩))
      ∧ ((∀ k, ¬ violates k) → overMax s.params (basebandCount s.params s.cfg) = true →
        exec mi.2 s = .next (s.raise ⟨.capacity, basebandCount s.params s.cfg⟩)))
    ∧ (s.cfg.mode = .fsk → 2 ≤ count →
      (∃ i < count.toNat, roundEven (intervalReal s.params s.cfg x.length count.toNat i).2
        ≤ roundEven (intervalReal s.params s.cfg x.length count.toNat i).1) →
      exec (.demfsk sd fx) s = .next (s.raise ⟨.domain, 1⟩))

/-- R182 to R184, R191, R201, R211, R221, R223: past its checks a DEM* command delivers `count - 2` symbols in
`-1..N-1` and no warning but CORRUPT: over the exact reals, the finished slicing of one observation per interval. -/
def Obligations.DemodulatorsDeliverSymbols : Prop :=
  ∀ (sd : SReg) (fx : FReg) (s : State) (x : List XNum), s.fReg[fx] = some x → s.cfg.valid = true →
    s.cfg.n = s.cfg.alpha.length → s.cfg.n < 2 ^ 31 →
    let count := intervalCountReal s.params.num s.cfg x.length
    let window := intervalReal s.params s.cfg x.length count.toNat
    2 ≤ count → overMax s.params count = false →
    ∀ mi ∈ [(Mode.ask, Instr.demask sd fx), (.fsk, .demfsk sd fx), (.psk, .dempsk sd fx), (.qam, .demqam sd fx)],
      s.cfg.mode = mi.1 →
      (if s.cfg.mode = .fsk then ∀ i < count.toNat, roundEven (window i).1 < roundEven (window i).2
        else (∀ k, ¬ lowpassViolates s.params.num s.cfg.fs.toReal (passReal s.params.num s.cfg)
            (stopReal s.params.num s.cfg) s.params.attDefault.toReal k)
          ∧ overMax s.params (basebandCount s.params s.cfg) = false) →
      ∃ (out : List Word) (w : BitVec 4), exec mi.2 s = .next ((s.setS sd out).retire w)
        ∧ (out.length : ℤ) = count - 2
        ∧ (w = 0b1000 ∨ w = 0)
        ∧ (s.params.num = .exact →
          IsSliced s.cfg ((List.range count.toNat).map fun i => observationReal s.params s.cfg x (window i)) out w)
        ∧ ∀ a ∈ out, -1 ≤ a.toInt ∧ a.toInt < s.cfg.n

/-! ## Exact real numbers -/

/-- R12: the rational interval that the machine computes for a term holds the real that the term stands for, through
every operation, cosine, exponential, square root and least-squares tap. -/
def Obligations.EnclosuresHold : Prop :=
  ∀ (a : XNum) (e : Enclosure), a.bounds = some e → e.Holds a.toReal

/-- R12: the machine's order is the order of the reals, for every two terms, results of `binary64` among them. -/
def Obligations.OrderIsExact : Prop :=
  ∀ a b : XNum, (a.le b = true ↔ a.toReal ≤ b.toReal) ∧ (a.lt b = true ↔ a.toReal < b.toReal)
    ∧ (a.eq b = true ↔ a.toReal = b.toReal) ∧ (XNum.min a b).toReal = min a.toReal b.toReal

/-- R10: `floor`, `ceil` and `round_he` are exact for every term: below, above, and nearest with ties to even. -/
def Obligations.RoundingsAreExact : Prop :=
  ∀ a : XNum, a.floor = ⌊a.toReal⌋ ∧ a.ceil = ⌈a.toReal⌉ ∧ |(a.roundHe : ℝ) - a.toReal| ≤ 1 / 2
    ∧ (|(a.roundHe : ℝ) - a.toReal| = 1 / 2 → a.roundHe % 2 = 0) ∧ a.roundHe = roundEven a.toReal
end

