-- ==== Sys2Proof/Laws/Bits.lean ====
section
/-! SUPPORT. Bit streams: groups of bits as numbers, bytes built from bits, and the bits of what the codecs
build (spec/20_memory.md R51 to R54). -/

namespace Sys2Proof.Machine

/-- The width of a word as a numeral, for arithmetic on indices of bits. -/
@[simp] theorem xlen_eq : Config.xlen = 32 := rfl

/-! ## Groups -/

theorem groupVal_lt (bit : Nat → Bool) (p n : Nat) : groupVal bit p n < 2 ^ n := by
  induction n with
  | zero => simp [groupVal]
  | succ n ih => rw [groupVal, pow_succ]; have := Bool.toNat_lt (bit (p + n)); omega

/-- R53: a group is the sum of its bits at their weights. -/
theorem groupVal_eq_sum (bit : Nat → Bool) (p n : Nat) :
    groupVal bit p n = ∑ i ∈ Finset.range n, (bit (p + i)).toNat * 2 ^ (n - 1 - i) := by
  induction n with
  | zero => simp [groupVal]
  | succ n ih =>
    rw [groupVal, ih, Finset.sum_range_succ, Finset.mul_sum]
    congr 1
    · refine Finset.sum_congr rfl fun i hi => ?_
      have : i < n := Finset.mem_range.1 hi
      rw [show n + 1 - 1 - i = (n - 1 - i) + 1 by omega, pow_succ]; ring
    · simp

theorem testBit_groupVal (bit : Nat → Bool) (p n j : Nat) :
    (groupVal bit p n).testBit j = (decide (j < n) && bit (p + (n - 1 - j))) := by
  induction n generalizing j with
  | zero => simp [groupVal]
  | succ n ih =>
    cases j with
    | zero =>
      rw [groupVal, Nat.testBit_zero]
      have : n + 1 - 1 - 0 = n := by omega
      rw [this]
      cases bit (p + n) <;> simp [Nat.add_mod]
    | succ j =>
      have : (2 * groupVal bit p n + (bit (p + n)).toNat) / 2 = groupVal bit p n := by
        have := Bool.toNat_lt (bit (p + n)); omega
      rw [groupVal, Nat.testBit_succ, this, ih]
      by_cases h : j < n
      · simp [h, show n - 1 - j = n + 1 - 1 - (j + 1) by omega]
      · simp [h]

theorem groupVal_congr {bit bit' : Nat → Bool} {p p' n : Nat} (h : ∀ i < n, bit (p + i) = bit' (p' + i)) :
    groupVal bit p n = groupVal bit' p' n := by
  induction n with
  | zero => rfl
  | succ n ih => rw [groupVal, groupVal, ih fun i hi => h i (by omega), h n (by omega)]

theorem memRead_one (v : List Byte) (p : Nat) : memRead v p 1 = (streamBit v p).toNat := by
  simp [memRead, groupVal]

/-! ## Bytes built from bits -/

@[simp] theorem packBytes_length (n : Nat) (bit : Nat → Bool) : (packBytes n bit).length = n := by simp [packBytes]

theorem streamBit_packBytes {n p : Nat} (bit : Nat → Bool) (h : p < 8 * n) : streamBit (packBytes n bit) p = bit p := by
  have h8 : p / 8 < n := by omega
  have h7 : 7 - p % 8 < 8 := by omega
  simp only [streamBit, packBytes, List.getD_eq_getElem?_getD, List.getElem?_map, List.getElem?_range h8, Option.map_some,
    Option.getD_some, BitVec.getLsbD_ofNat, h7, decide_true, Bool.true_and, testBit_groupVal]
  congr 1; omega

theorem streamBit_beyond {v : List Byte} {p : Nat} (h : 8 * v.length ≤ p) : streamBit v p = false := by
  have : ¬ p / 8 < v.length := by omega
  simp [streamBit, this]

/-- Two byte sequences of one length with the same stream bits are the same. -/
theorem bytes_ext {v w : List Byte} (hl : v.length = w.length)
    (h : ∀ p < 8 * v.length, streamBit v p = streamBit w p) : v = w := by
  refine List.ext_getElem hl fun m hm hm' => ?_
  refine BitVec.eq_of_getLsbD_eq fun j hj => ?_
  have := h (8 * m + (7 - j)) (by omega)
  have h1 : (8 * m + (7 - j)) / 8 = m := by omega
  have h2 : 7 - (8 * m + (7 - j)) % 8 = j := by omega
  simp only [streamBit, h1, h2] at this
  simpa [hm, hm'] using this

theorem packBytes_streamBit (v : List Byte) : packBytes v.length (streamBit v) = v :=
  bytes_ext (by simp) fun p hp => streamBit_packBytes _ (by simpa using hp)

/-- R54: `MemWrite` changes the written bits and no other. -/
theorem streamBit_memWrite {v : List Byte} {p n x q : Nat} (hq : q < 8 * v.length) :
    streamBit (memWrite v p n x) q =
      if p ≤ q ∧ q < p + n then x.testBit (n - 1 - (q - p)) else streamBit v q := by
  rw [memWrite, streamBit_packBytes _ hq]

/-! ## Symbols -/

theorem symbolVal_lt {bit : Nat → Bool} {p k : Nat} (hk : k ≤ 8) : groupVal bit p k < 256 :=
  (groupVal_lt bit p k).trans_le (Nat.pow_le_pow_right (by norm_num) hk)

theorem symbol_toNat {bit : Nat → Bool} {p k : Nat} (hk : k ≤ 8) :
    (BitVec.ofNat Config.xlen (groupVal bit p k)).toNat = groupVal bit p k := by
  have := symbolVal_lt (bit := bit) (p := p) hk
  simp only [BitVec.toNat_ofNat, xlen_eq]; omega

theorem symbol_toInt {bit : Nat → Bool} {p k : Nat} (hk : k ≤ 8) :
    (BitVec.ofNat Config.xlen (groupVal bit p k)).toInt = groupVal bit p k := by
  have := symbolVal_lt (bit := bit) (p := p) hk
  rw [BitVec.toInt_eq_toNat_of_lt (by rw [symbol_toNat hk, xlen_eq]; omega), symbol_toNat hk]

/-- R100: every symbol an encoder builds lies below the radix. -/
theorem symbolOutside_group {bit : Nat → Bool} {p k : Nat} (hk : k ≤ 8) :
    symbolOutside (2 ^ k) (BitVec.ofNat Config.xlen (groupVal bit p k)) = false := by
  have := groupVal_lt bit p k
  simp only [symbolOutside, symbol_toInt hk, Bool.or_eq_false_iff, decide_eq_false_iff_not, not_lt, not_le]
  exact ⟨Int.natCast_nonneg _, by exact_mod_cast this⟩

end Sys2Proof.Machine
end

