-- ==== Sys2Proof/Laws/Enclosure.lean ====
section
/-! SUPPORT. The interval arithmetic of `Sys2Proof/Machine/Enclosure.lean` is sound: an operation on intervals
holds the operation on the reals in them. -/

namespace Sys2Proof

theorem grid_pos : 0 < Enclosure.grid := by norm_num [Enclosure.grid]

theorem roundDown_le (q : ℚ) : roundDown q ≤ q := by
  rw [roundDown, div_le_iff₀ grid_pos]
  exact Rat.floor_le _

theorem le_roundUp (q : ℚ) : q ≤ roundUp q := by
  have := roundDown_le (-q)
  rw [roundUp]; linarith

namespace Laws

theorem holds_widen {e : Enclosure} {x : ℝ} (h : e.Holds x) : e.widen.Holds x := by
  have h1 : ((roundDown e.lo : ℚ) : ℝ) ≤ e.lo := by exact_mod_cast roundDown_le e.lo
  have h2 : (e.hi : ℝ) ≤ ((roundUp e.hi : ℚ) : ℝ) := by exact_mod_cast le_roundUp e.hi
  exact ⟨h1.trans h.1, h.2.trans h2⟩

theorem holds_point (q : ℚ) : (Enclosure.point q).Holds q := ⟨le_rfl, le_rfl⟩

theorem holds_point_of_eq {q : ℚ} {x : ℝ} (h : x = q) : (Enclosure.point q).Holds x := h ▸ holds_point q

theorem holds_add {e g : Enclosure} {x y : ℝ} (h : e.Holds x) (h' : g.Holds y) : (e.add g).Holds (x + y) := by
  constructor <;> simp only [Enclosure.add] <;> push_cast
  · exact add_le_add h.1 h'.1
  · exact add_le_add h.2 h'.2

theorem holds_neg {e : Enclosure} {x : ℝ} (h : e.Holds x) : e.neg.Holds (-x) := by
  constructor <;> simp only [Enclosure.neg] <;> push_cast
  · exact neg_le_neg h.2
  · exact neg_le_neg h.1

theorem holds_sub {e g : Enclosure} {x y : ℝ} (h : e.Holds x) (h' : g.Holds y) : (e.sub g).Holds (x - y) := by
  rw [sub_eq_add_neg]
  exact holds_add h (holds_neg h')

/-- A product with a factor in an interval lies below the larger product with an endpoint. -/
theorem mul_le_max_mul {a b x y : ℝ} (ha : a ≤ x) (hb : x ≤ b) : x * y ≤ max (a * y) (b * y) := by
  rcases le_total 0 y with hy | hy
  · exact (mul_le_mul_of_nonneg_right hb hy).trans (le_max_right _ _)
  · exact (mul_le_mul_of_nonpos_right ha hy).trans (le_max_left _ _)

theorem min_mul_le_mul {a b x y : ℝ} (ha : a ≤ x) (hb : x ≤ b) : min (a * y) (b * y) ≤ x * y := by
  rcases le_total 0 y with hy | hy
  · exact (min_le_left _ _).trans (mul_le_mul_of_nonneg_right ha hy)
  · exact (min_le_right _ _).trans (mul_le_mul_of_nonpos_right hb hy)

theorem holds_mul {e g : Enclosure} {x y : ℝ} (h : e.Holds x) (h' : g.Holds y) : (e.mul g).Holds (x * y) := by
  constructor <;> simp only [Enclosure.mul] <;> push_cast
  · refine le_trans (min_le_min ?_ ?_) (min_mul_le_mul h.1 h.2)
    · rw [mul_comm (e.lo : ℝ) y, mul_comm (e.lo : ℝ), mul_comm (e.lo : ℝ)]
      exact min_mul_le_mul h'.1 h'.2
    · rw [mul_comm (e.hi : ℝ) y, mul_comm (e.hi : ℝ), mul_comm (e.hi : ℝ)]
      exact min_mul_le_mul h'.1 h'.2
  · refine le_trans (mul_le_max_mul h.1 h.2) (max_le_max ?_ ?_)
    · rw [mul_comm (e.lo : ℝ) y, mul_comm (e.lo : ℝ), mul_comm (e.lo : ℝ)]
      exact mul_le_max_mul h'.1 h'.2
    · rw [mul_comm (e.hi : ℝ) y, mul_comm (e.hi : ℝ), mul_comm (e.hi : ℝ)]
      exact mul_le_max_mul h'.1 h'.2

theorem holds_inv {e i : Enclosure} {x : ℝ} (h : e.Holds x) (hi : e.inv? = some i) :
    i.Holds x⁻¹ ∧ x ≠ 0 := by
  rw [Enclosure.inv?] at hi
  split at hi
  case isFalse => cases hi
  case isTrue hs =>
    cases hi
    obtain ⟨hl, hu⟩ := h
    rcases hs with hs | hs
    · have hs' : (0 : ℝ) < e.lo := by exact_mod_cast hs
      have hx := hs'.trans_le hl
      refine ⟨⟨?_, ?_⟩, hx.ne'⟩ <;> push_cast
      · exact inv_anti₀ hx hu
      · exact inv_anti₀ hs' hl
    · have hs' : (e.hi : ℝ) < 0 := by exact_mod_cast hs
      have hx := hu.trans_lt hs'
      refine ⟨⟨?_, ?_⟩, hx.ne⟩ <;> push_cast
      · exact (inv_le_inv_of_neg hs' hx).2 hu
      · exact (inv_le_inv_of_neg hx (hl.trans_lt hx)).2 hl

theorem holds_grow {e : Enclosure} {x y : ℝ} {r : ℚ} (h : e.Holds x) (hr : |y - x| ≤ r) : (e.grow r).Holds y := by
  obtain ⟨h1, h2⟩ := abs_le.1 hr
  obtain ⟨h3, h4⟩ := h
  constructor <;> simp only [Enclosure.grow] <;> push_cast <;> linarith

theorem holds_pi : piEnclosure.Holds Real.pi := by
  constructor
  · refine le_trans (le_of_eq ?_) Real.pi_gt_d20.le
    norm_num [piEnclosure]
  · refine le_trans Real.pi_lt_d20.le (le_of_eq ?_)
    norm_num [piEnclosure]

theorem holds_sqrt {e : Enclosure} {x : ℝ} (h : e.Holds x) : e.sqrt.Holds (Real.sqrt x) := by
  obtain ⟨hl, hu⟩ := h
  constructor
  · simp only [Enclosure.sqrt]
    split
    case isTrue hc =>
      obtain ⟨-, h0, h2⟩ := hc
      refine Real.le_sqrt_of_sq_le (le_trans ?_ hl)
      rw [pow_two]; exact_mod_cast h2
    case isFalse => simp [Real.sqrt_nonneg]
  · simp only [Enclosure.sqrt]
    split
    case isTrue hc =>
      have : (e.hi : ℝ) ≤ 0 := by exact_mod_cast hc
      rw [Real.sqrt_eq_zero_of_nonpos (hu.trans this)]; simp
    case isFalse hc =>
      split
      case isTrue hh =>
        refine Real.sqrt_le_iff.2 ⟨by exact_mod_cast hh.1, hu.trans ?_⟩
        rw [pow_two]; exact_mod_cast hh.2
      case isFalse =>
        push_cast
        refine Real.sqrt_le_iff.2 ⟨le_max_of_le_right zero_le_one, ?_⟩
        have h1 : (1 : ℝ) ≤ max (e.hi : ℝ) 1 := le_max_right _ _
        have h2 : (e.hi : ℝ) ≤ max (e.hi : ℝ) 1 := le_max_left _ _
        nlinarith

/-! ## The exponential -/

theorem expSeries_eq (t : ℚ) (n k : Nat) :
    expSeries t n (k + 1) = ∑ i ∈ Finset.range (n + 1), t ^ i * k.factorial / (k + i).factorial := by
  induction n generalizing k with
  | zero => simp [expSeries, Nat.factorial_ne_zero]
  | succ n ih =>
    rw [expSeries, ih (k + 1), Finset.sum_range_succ' (fun i => t ^ i * (k.factorial : ℚ) / (k + i).factorial) (n + 1)]
    simp only [pow_zero, one_mul, add_zero, Finset.mul_sum]
    rw [div_self (by exact_mod_cast Nat.factorial_ne_zero k), add_comm]
    congr 1
    refine Finset.sum_congr rfl fun i _ => ?_
    have hk : ((k + 1 : ℕ) : ℚ) ≠ 0 := by exact_mod_cast Nat.succ_ne_zero k
    rw [show k + 1 + i = k + (i + 1) by ring, Nat.factorial_succ k]
    push_cast
    push_cast at hk
    field_simp
    ring

theorem expSeries_near {t : ℚ} (ht : |t| ≤ 1) :
    |Real.exp t - (expSeries t 29 1 : ℚ)| ≤ (seriesError : ℚ) := by
  have ht' : |(t : ℝ)| ≤ 1 := by exact_mod_cast ht
  have h := Real.exp_bound ht' (n := 30) (by norm_num)
  have hs : ((expSeries t 29 1 : ℚ) : ℝ) = ∑ m ∈ Finset.range 30, (t : ℝ) ^ m / m.factorial := by
    rw [expSeries_eq t 29 0]
    push_cast
    refine Finset.sum_congr rfl fun i _ => by simp
  rw [hs]
  refine h.trans ?_
  have h1 : |(t : ℝ)| ^ 30 ≤ 1 := pow_le_one₀ (abs_nonneg _) ht'
  calc |(t : ℝ)| ^ 30 * ((30 : ℕ).succ / ((30 : ℕ).factorial * (30 : ℕ)))
      ≤ 1 * ((30 : ℕ).succ / ((30 : ℕ).factorial * (30 : ℕ))) := by gcongr
    _ ≤ _ := by norm_num [seriesError, Nat.factorial]

theorem holds_squareTimes {e : Enclosure} {x : ℝ} (n : Nat) (h : e.Holds x) :
    (Enclosure.squareTimes n e).Holds (x ^ 2 ^ n) := by
  induction n generalizing e x with
  | zero => simpa [Enclosure.squareTimes] using h
  | succ n ih =>
    rw [Enclosure.squareTimes, pow_succ', pow_mul, pow_two]
    exact ih (holds_widen (holds_mul h h))

theorem abs_div_two_pow_le (m : ℚ) : |m / 2 ^ ((|m|).ceil.toNat.log2 + 1)| ≤ 1 := by
  rw [abs_div, abs_of_pos (by positivity : (0 : ℚ) < 2 ^ _), div_le_one (by positivity)]
  have h1 : |m| ≤ (|m|).ceil := Rat.le_ceil
  have h2 : ((|m|).ceil : ℚ) ≤ ((|m|).ceil.toNat : ℚ) := by exact_mod_cast Int.self_le_toNat _
  have h3 : ((|m|).ceil.toNat : ℚ) ≤ 2 ^ ((|m|).ceil.toNat.log2 + 1) := by
    exact_mod_cast (Nat.lt_log2_self (n := (|m|).ceil.toNat)).le
  exact h1.trans (h2.trans h3)

theorem holds_expPoint (m : ℚ) : (expPoint m).Holds (Real.exp m) := by
  have ht := expSeries_near (abs_div_two_pow_le m)
  have h := holds_squareTimes ((|m|).ceil.toNat.log2 + 1)
    (holds_widen (holds_grow (holds_point (expSeries (m / 2 ^ ((|m|).ceil.toNat.log2 + 1)) 29 1)) ht))
  rw [← Real.exp_nat_mul] at h
  have hm : ((2 ^ ((|m|).ceil.toNat.log2 + 1) : ℕ) : ℝ) * ((m / 2 ^ ((|m|).ceil.toNat.log2 + 1) : ℚ) : ℝ) = m := by
    push_cast
    field_simp
  rwa [hm] at h

theorem holds_exp {e : Enclosure} {x : ℝ} (h : e.Holds x) : e.exp.Holds (Real.exp x) :=
  ⟨(holds_expPoint e.lo).1.trans (Real.exp_le_exp.2 h.1), (Real.exp_le_exp.2 h.2).trans (holds_expPoint e.hi).2⟩

/-! ## The cosine -/

theorem cosSeries_eq (u : ℚ) (n k : Nat) :
    cosSeries u n (2 * k + 1) =
      ∑ i ∈ Finset.range (n + 1), (-1) ^ i * u ^ i * (2 * k).factorial / (2 * (k + i)).factorial := by
  induction n generalizing k with
  | zero => simp [cosSeries, Nat.factorial_ne_zero]
  | succ n ih =>
    rw [cosSeries, show 2 * k + 1 + 2 = 2 * (k + 1) + 1 by ring, ih (k + 1), Finset.sum_range_succ'
      (fun i => (-1) ^ i * u ^ i * ((2 * k).factorial : ℚ) / (2 * (k + i)).factorial) (n + 1)]
    simp only [pow_zero, one_mul, add_zero, Finset.mul_sum]
    rw [div_self (by exact_mod_cast Nat.factorial_ne_zero _), sub_eq_add_neg, add_comm (1 : ℚ), add_left_inj,
      ← Finset.sum_neg_distrib]
    refine Finset.sum_congr rfl fun i _ => ?_
    have h1 : ((2 * k + 1 : ℕ) : ℚ) ≠ 0 := by positivity
    have h2 : ((2 * k + 2 : ℕ) : ℚ) ≠ 0 := by positivity
    rw [show 2 * (k + 1 + i) = 2 * (k + (i + 1)) by ring, show 2 * (k + 1) = 2 * k + 1 + 1 by ring,
      Nat.factorial_succ (2 * k + 1), Nat.factorial_succ (2 * k)]
    push_cast
    push_cast at h1 h2
    rw [pow_succ, pow_succ]
    field_simp

theorem re_series (t : ℝ) (n : Nat) :
    (∑ m ∈ Finset.range (2 * n), ((t : ℂ) * Complex.I) ^ m / m.factorial).re =
      ∑ i ∈ Finset.range n, (-1) ^ i * (t ^ 2) ^ i / (2 * i).factorial := by
  induction n with
  | zero => simp
  | succ n ih =>
    rw [show 2 * (n + 1) = 2 * n + 1 + 1 by ring, Finset.sum_range_succ, Finset.sum_range_succ, Finset.sum_range_succ,
      Complex.add_re, Complex.add_re, ih, add_assoc]
    congr 1
    have he : ((t : ℂ) * Complex.I) ^ (2 * n) = (((-1) ^ n * (t ^ 2) ^ n : ℝ) : ℂ) := by
      rw [pow_mul, mul_pow, Complex.I_sq]; push_cast; ring
    have h1 : (((t : ℂ) * Complex.I) ^ (2 * n) / ((2 * n).factorial : ℂ)).re = (-1) ^ n * (t ^ 2) ^ n / (2 * n).factorial := by
      rw [he, ← Complex.ofReal_natCast, ← Complex.ofReal_div, Complex.ofReal_re]
    have h2 : (((t : ℂ) * Complex.I) ^ (2 * n + 1) / ((2 * n + 1).factorial : ℂ)).re = 0 := by
      rw [pow_succ, he, ← Complex.ofReal_natCast, Complex.div_ofReal_re, ← mul_assoc, ← Complex.ofReal_mul,
        Complex.re_ofReal_mul, Complex.I_re, mul_zero, zero_div]
    rw [h1, h2, add_zero]

theorem cosSeries_near {t : ℚ} (ht : |t| ≤ 1) :
    |Real.cos t - (cosSeries (t * t) 14 1 : ℚ)| ≤ (seriesError : ℚ) := by
  have ht' : |(t : ℝ)| ≤ 1 := by exact_mod_cast ht
  have hn : ‖((t : ℝ) : ℂ) * Complex.I‖ ≤ 1 := by
    simpa using ht'
  have h := Complex.exp_bound hn (n := 30) (by norm_num)
  have hs : ((cosSeries (t * t) 14 1 : ℚ) : ℝ) = ∑ i ∈ Finset.range 15, (-1) ^ i * ((t : ℝ) ^ 2) ^ i / (2 * i).factorial := by
    rw [cosSeries_eq (t * t) 14 0]
    push_cast
    refine Finset.sum_congr rfl fun i _ => by simp [pow_two]
  rw [hs, ← re_series t 15, ← Complex.exp_ofReal_mul_I_re, ← Complex.sub_re]
  refine (Complex.abs_re_le_norm _).trans (h.trans ?_)
  have h1 : ‖((t : ℝ) : ℂ) * Complex.I‖ ^ 30 ≤ 1 := pow_le_one₀ (norm_nonneg _) hn
  calc ‖((t : ℝ) : ℂ) * Complex.I‖ ^ 30 * ((30 : ℕ).succ * ((30 : ℕ).factorial * (30 : ℕ) : ℝ)⁻¹)
      ≤ 1 * ((30 : ℕ).succ * ((30 : ℕ).factorial * (30 : ℕ) : ℝ)⁻¹) := by gcongr
    _ ≤ _ := by norm_num [seriesError, Nat.factorial]

theorem holds_doubleAngle {e : Enclosure} {x : ℝ} (h : e.Holds (Real.cos x)) :
    e.doubleAngle.Holds (Real.cos (2 * x)) := by
  rw [Real.cos_two_mul, pow_two, Enclosure.doubleAngle]
  exact holds_sub (holds_mul (holds_point_of_eq (by norm_num)) (holds_mul h h)) (holds_point_of_eq (by norm_num))

theorem holds_cosNear {y : ℚ} (hy : |y| ≤ 4) : (cosNear y).Holds (Real.cos y) := by
  have ht : |y / 4| ≤ 1 := by
    rw [abs_div, abs_of_pos (by norm_num : (0 : ℚ) < 4)]; linarith
  have h := holds_widen (holds_doubleAngle (holds_widen (holds_doubleAngle (holds_widen
    (holds_grow (holds_point (cosSeries (y / 4 * (y / 4)) 14 1)) (cosSeries_near ht))))))
  have hm : 2 * (2 * ((y / 4 : ℚ) : ℝ)) = y := by push_cast; ring
  rwa [hm] at h

theorem holds_clampUnit {e : Enclosure} {x : ℝ} (h : e.Holds (Real.cos x)) : e.clampUnit.Holds (Real.cos x) := by
  constructor <;> simp only [Enclosure.clampUnit] <;> push_cast
  · exact max_le h.1 (Real.neg_one_le_cos x)
  · exact le_min h.2 (Real.cos_le_one x)

theorem holds_cos {e : Enclosure} {x : ℝ} (h : e.Holds x) : e.cos.Holds (Real.cos x) := by
  rw [Enclosure.cos]
  generalize (((e.lo + e.hi) / (4 * piEnclosure.lo) + 1 / 2).floor : Int) = turns
  have hy : (e.sub ((Enclosure.point (2 * turns)).mul piEnclosure)).Holds (x - turns * (2 * Real.pi)) := by
    refine holds_sub h ?_
    rw [show (turns : ℝ) * (2 * Real.pi) = 2 * turns * Real.pi by ring]
    exact holds_mul (holds_point_of_eq (by push_cast; rfl)) holds_pi
  rw [← Real.cos_sub_int_mul_two_pi x turns]
  generalize e.sub ((Enclosure.point (2 * turns)).mul piEnclosure) = y at hy
  generalize x - turns * (2 * Real.pi) = x' at hy
  generalize roundDown ((y.lo + y.hi) / 2) = c
  split
  case isTrue hc =>
    refine holds_clampUnit (holds_grow (holds_cosNear hc) ?_)
    refine (Real.abs_cos_sub_cos_le _ _).trans (abs_le.2 ?_)
    obtain ⟨h1, h2⟩ := hy
    push_cast
    constructor
    · have := le_max_right ((y.hi : ℝ) - c) (c - y.lo); linarith
    · have := le_max_left ((y.hi : ℝ) - c) (c - y.lo); linarith
  case isFalse =>
    constructor <;> simp [Real.neg_one_le_cos, Real.cos_le_one]

theorem holds_sin {e : Enclosure} {x : ℝ} (h : e.Holds x) : e.sin.Holds (Real.sin x) := by
  rw [Enclosure.sin, ← Real.cos_sub_pi_div_two]
  refine holds_cos (holds_sub h ?_)
  rw [div_eq_mul_one_div]
  exact holds_mul holds_pi (holds_point_of_eq (by norm_num))

end Laws

end Sys2Proof
end

