-- ==== Sys2Proof/Laws/State.lean ====
section
/-! SUPPORT. What each named update of the state does to each field: one lemma per field per update, so that no
proof unfolds a record update. -/

namespace Sys2Proof.Machine

variable (s : State)

/-! ## `State.setX` -/

@[simp] theorem State.setX_xReg (i : XReg) (v : Word) : (s.setX i v).xReg = s.xReg.set i (some v) := rfl
@[simp] theorem State.setX_rReg (i : XReg) (v : Word) : (s.setX i v).rReg = s.rReg := rfl
@[simp] theorem State.setX_bReg (i : XReg) (v : Word) : (s.setX i v).bReg = s.bReg := rfl
@[simp] theorem State.setX_sReg (i : XReg) (v : Word) : (s.setX i v).sReg = s.sReg := rfl
@[simp] theorem State.setX_fReg (i : XReg) (v : Word) : (s.setX i v).fReg = s.fReg := rfl
@[simp] theorem State.setX_zReg (i : XReg) (v : Word) : (s.setX i v).zReg = s.zReg := rfl
@[simp] theorem State.setX_cfg (i : XReg) (v : Word) : (s.setX i v).cfg = s.cfg := rfl
@[simp] theorem State.setX_err (i : XReg) (v : Word) : (s.setX i v).err = s.err := rfl
@[simp] theorem State.setX_warn (i : XReg) (v : Word) : (s.setX i v).warn = s.warn := rfl
@[simp] theorem State.setX_errInfo (i : XReg) (v : Word) : (s.setX i v).errInfo = s.errInfo := rfl
@[simp] theorem State.setX_program (i : XReg) (v : Word) : (s.setX i v).program = s.program := rfl
@[simp] theorem State.setX_pc (i : XReg) (v : Word) : (s.setX i v).pc = s.pc := rfl
@[simp] theorem State.setX_running (i : XReg) (v : Word) : (s.setX i v).running = s.running := rfl
@[simp] theorem State.setX_response (i : XReg) (v : Word) : (s.setX i v).response = s.response := rfl
@[simp] theorem State.setX_params (i : XReg) (v : Word) : (s.setX i v).params = s.params := rfl

/-! ## `State.setR` -/

@[simp] theorem State.setR_xReg (i : RReg) (v : XNum) : (s.setR i v).xReg = s.xReg := rfl
@[simp] theorem State.setR_rReg (i : RReg) (v : XNum) : (s.setR i v).rReg = s.rReg.set i (some v) := rfl
@[simp] theorem State.setR_bReg (i : RReg) (v : XNum) : (s.setR i v).bReg = s.bReg := rfl
@[simp] theorem State.setR_sReg (i : RReg) (v : XNum) : (s.setR i v).sReg = s.sReg := rfl
@[simp] theorem State.setR_fReg (i : RReg) (v : XNum) : (s.setR i v).fReg = s.fReg := rfl
@[simp] theorem State.setR_zReg (i : RReg) (v : XNum) : (s.setR i v).zReg = s.zReg := rfl
@[simp] theorem State.setR_cfg (i : RReg) (v : XNum) : (s.setR i v).cfg = s.cfg := rfl
@[simp] theorem State.setR_err (i : RReg) (v : XNum) : (s.setR i v).err = s.err := rfl
@[simp] theorem State.setR_warn (i : RReg) (v : XNum) : (s.setR i v).warn = s.warn := rfl
@[simp] theorem State.setR_errInfo (i : RReg) (v : XNum) : (s.setR i v).errInfo = s.errInfo := rfl
@[simp] theorem State.setR_program (i : RReg) (v : XNum) : (s.setR i v).program = s.program := rfl
@[simp] theorem State.setR_pc (i : RReg) (v : XNum) : (s.setR i v).pc = s.pc := rfl
@[simp] theorem State.setR_running (i : RReg) (v : XNum) : (s.setR i v).running = s.running := rfl
@[simp] theorem State.setR_response (i : RReg) (v : XNum) : (s.setR i v).response = s.response := rfl
@[simp] theorem State.setR_params (i : RReg) (v : XNum) : (s.setR i v).params = s.params := rfl

/-! ## `State.setB` -/

@[simp] theorem State.setB_xReg (i : BReg) (v : ByteBuf) : (s.setB i v).xReg = s.xReg := rfl
@[simp] theorem State.setB_rReg (i : BReg) (v : ByteBuf) : (s.setB i v).rReg = s.rReg := rfl
@[simp] theorem State.setB_bReg (i : BReg) (v : ByteBuf) : (s.setB i v).bReg = s.bReg.set i (some v) := rfl
@[simp] theorem State.setB_sReg (i : BReg) (v : ByteBuf) : (s.setB i v).sReg = s.sReg := rfl
@[simp] theorem State.setB_fReg (i : BReg) (v : ByteBuf) : (s.setB i v).fReg = s.fReg := rfl
@[simp] theorem State.setB_zReg (i : BReg) (v : ByteBuf) : (s.setB i v).zReg = s.zReg := rfl
@[simp] theorem State.setB_cfg (i : BReg) (v : ByteBuf) : (s.setB i v).cfg = s.cfg := rfl
@[simp] theorem State.setB_err (i : BReg) (v : ByteBuf) : (s.setB i v).err = s.err := rfl
@[simp] theorem State.setB_warn (i : BReg) (v : ByteBuf) : (s.setB i v).warn = s.warn := rfl
@[simp] theorem State.setB_errInfo (i : BReg) (v : ByteBuf) : (s.setB i v).errInfo = s.errInfo := rfl
@[simp] theorem State.setB_program (i : BReg) (v : ByteBuf) : (s.setB i v).program = s.program := rfl
@[simp] theorem State.setB_pc (i : BReg) (v : ByteBuf) : (s.setB i v).pc = s.pc := rfl
@[simp] theorem State.setB_running (i : BReg) (v : ByteBuf) : (s.setB i v).running = s.running := rfl
@[simp] theorem State.setB_response (i : BReg) (v : ByteBuf) : (s.setB i v).response = s.response := rfl
@[simp] theorem State.setB_params (i : BReg) (v : ByteBuf) : (s.setB i v).params = s.params := rfl

/-! ## `State.setS` -/

@[simp] theorem State.setS_xReg (i : SReg) (v : List Word) : (s.setS i v).xReg = s.xReg := rfl
@[simp] theorem State.setS_rReg (i : SReg) (v : List Word) : (s.setS i v).rReg = s.rReg := rfl
@[simp] theorem State.setS_bReg (i : SReg) (v : List Word) : (s.setS i v).bReg = s.bReg := rfl
@[simp] theorem State.setS_sReg (i : SReg) (v : List Word) : (s.setS i v).sReg = s.sReg.set i (some v) := rfl
@[simp] theorem State.setS_fReg (i : SReg) (v : List Word) : (s.setS i v).fReg = s.fReg := rfl
@[simp] theorem State.setS_zReg (i : SReg) (v : List Word) : (s.setS i v).zReg = s.zReg := rfl
@[simp] theorem State.setS_cfg (i : SReg) (v : List Word) : (s.setS i v).cfg = s.cfg := rfl
@[simp] theorem State.setS_err (i : SReg) (v : List Word) : (s.setS i v).err = s.err := rfl
@[simp] theorem State.setS_warn (i : SReg) (v : List Word) : (s.setS i v).warn = s.warn := rfl
@[simp] theorem State.setS_errInfo (i : SReg) (v : List Word) : (s.setS i v).errInfo = s.errInfo := rfl
@[simp] theorem State.setS_program (i : SReg) (v : List Word) : (s.setS i v).program = s.program := rfl
@[simp] theorem State.setS_pc (i : SReg) (v : List Word) : (s.setS i v).pc = s.pc := rfl
@[simp] theorem State.setS_running (i : SReg) (v : List Word) : (s.setS i v).running = s.running := rfl
@[simp] theorem State.setS_response (i : SReg) (v : List Word) : (s.setS i v).response = s.response := rfl
@[simp] theorem State.setS_params (i : SReg) (v : List Word) : (s.setS i v).params = s.params := rfl

/-! ## `State.setF` -/

@[simp] theorem State.setF_xReg (i : FReg) (v : List XNum) : (s.setF i v).xReg = s.xReg := rfl
@[simp] theorem State.setF_rReg (i : FReg) (v : List XNum) : (s.setF i v).rReg = s.rReg := rfl
@[simp] theorem State.setF_bReg (i : FReg) (v : List XNum) : (s.setF i v).bReg = s.bReg := rfl
@[simp] theorem State.setF_sReg (i : FReg) (v : List XNum) : (s.setF i v).sReg = s.sReg := rfl
@[simp] theorem State.setF_fReg (i : FReg) (v : List XNum) : (s.setF i v).fReg = s.fReg.set i (some v) := rfl
@[simp] theorem State.setF_zReg (i : FReg) (v : List XNum) : (s.setF i v).zReg = s.zReg := rfl
@[simp] theorem State.setF_cfg (i : FReg) (v : List XNum) : (s.setF i v).cfg = s.cfg := rfl
@[simp] theorem State.setF_err (i : FReg) (v : List XNum) : (s.setF i v).err = s.err := rfl
@[simp] theorem State.setF_warn (i : FReg) (v : List XNum) : (s.setF i v).warn = s.warn := rfl
@[simp] theorem State.setF_errInfo (i : FReg) (v : List XNum) : (s.setF i v).errInfo = s.errInfo := rfl
@[simp] theorem State.setF_program (i : FReg) (v : List XNum) : (s.setF i v).program = s.program := rfl
@[simp] theorem State.setF_pc (i : FReg) (v : List XNum) : (s.setF i v).pc = s.pc := rfl
@[simp] theorem State.setF_running (i : FReg) (v : List XNum) : (s.setF i v).running = s.running := rfl
@[simp] theorem State.setF_response (i : FReg) (v : List XNum) : (s.setF i v).response = s.response := rfl
@[simp] theorem State.setF_params (i : FReg) (v : List XNum) : (s.setF i v).params = s.params := rfl

/-! ## `State.setZ` -/

@[simp] theorem State.setZ_xReg (i : ZReg) (v : List Cplx) : (s.setZ i v).xReg = s.xReg := rfl
@[simp] theorem State.setZ_rReg (i : ZReg) (v : List Cplx) : (s.setZ i v).rReg = s.rReg := rfl
@[simp] theorem State.setZ_bReg (i : ZReg) (v : List Cplx) : (s.setZ i v).bReg = s.bReg := rfl
@[simp] theorem State.setZ_sReg (i : ZReg) (v : List Cplx) : (s.setZ i v).sReg = s.sReg := rfl
@[simp] theorem State.setZ_fReg (i : ZReg) (v : List Cplx) : (s.setZ i v).fReg = s.fReg := rfl
@[simp] theorem State.setZ_zReg (i : ZReg) (v : List Cplx) : (s.setZ i v).zReg = s.zReg.set i (some v) := rfl
@[simp] theorem State.setZ_cfg (i : ZReg) (v : List Cplx) : (s.setZ i v).cfg = s.cfg := rfl
@[simp] theorem State.setZ_err (i : ZReg) (v : List Cplx) : (s.setZ i v).err = s.err := rfl
@[simp] theorem State.setZ_warn (i : ZReg) (v : List Cplx) : (s.setZ i v).warn = s.warn := rfl
@[simp] theorem State.setZ_errInfo (i : ZReg) (v : List Cplx) : (s.setZ i v).errInfo = s.errInfo := rfl
@[simp] theorem State.setZ_program (i : ZReg) (v : List Cplx) : (s.setZ i v).program = s.program := rfl
@[simp] theorem State.setZ_pc (i : ZReg) (v : List Cplx) : (s.setZ i v).pc = s.pc := rfl
@[simp] theorem State.setZ_running (i : ZReg) (v : List Cplx) : (s.setZ i v).running = s.running := rfl
@[simp] theorem State.setZ_response (i : ZReg) (v : List Cplx) : (s.setZ i v).response = s.response := rfl
@[simp] theorem State.setZ_params (i : ZReg) (v : List Cplx) : (s.setZ i v).params = s.params := rfl

/-! ## `State.retire` -/

@[simp] theorem State.retire_xReg (w : BitVec 4) : (s.retire w).xReg = s.xReg := rfl
@[simp] theorem State.retire_rReg (w : BitVec 4) : (s.retire w).rReg = s.rReg := rfl
@[simp] theorem State.retire_bReg (w : BitVec 4) : (s.retire w).bReg = s.bReg := rfl
@[simp] theorem State.retire_sReg (w : BitVec 4) : (s.retire w).sReg = s.sReg := rfl
@[simp] theorem State.retire_fReg (w : BitVec 4) : (s.retire w).fReg = s.fReg := rfl
@[simp] theorem State.retire_zReg (w : BitVec 4) : (s.retire w).zReg = s.zReg := rfl
@[simp] theorem State.retire_cfg (w : BitVec 4) : (s.retire w).cfg = s.cfg := rfl
@[simp] theorem State.retire_err (w : BitVec 4) : (s.retire w).err = s.err := rfl
@[simp] theorem State.retire_warn (w : BitVec 4) : (s.retire w).warn = s.warn ||| w := rfl
@[simp] theorem State.retire_errInfo (w : BitVec 4) : (s.retire w).errInfo = s.errInfo := rfl
@[simp] theorem State.retire_program (w : BitVec 4) : (s.retire w).program = s.program := rfl
@[simp] theorem State.retire_pc (w : BitVec 4) : (s.retire w).pc = s.pc + 1 := rfl
@[simp] theorem State.retire_running (w : BitVec 4) : (s.retire w).running = s.running := rfl
@[simp] theorem State.retire_response (w : BitVec 4) : (s.retire w).response = ⟨0, 0, w⟩ := rfl
@[simp] theorem State.retire_params (w : BitVec 4) : (s.retire w).params = s.params := rfl

/-! ## `State.raise` -/

@[simp] theorem State.raise_xReg (e : CmdError) : (s.raise e).xReg = s.xReg := rfl
@[simp] theorem State.raise_rReg (e : CmdError) : (s.raise e).rReg = s.rReg := rfl
@[simp] theorem State.raise_bReg (e : CmdError) : (s.raise e).bReg = s.bReg := rfl
@[simp] theorem State.raise_sReg (e : CmdError) : (s.raise e).sReg = s.sReg := rfl
@[simp] theorem State.raise_fReg (e : CmdError) : (s.raise e).fReg = s.fReg := rfl
@[simp] theorem State.raise_zReg (e : CmdError) : (s.raise e).zReg = s.zReg := rfl
@[simp] theorem State.raise_cfg (e : CmdError) : (s.raise e).cfg = s.cfg := rfl
@[simp] theorem State.raise_err (e : CmdError) : (s.raise e).err = if s.err = 0 then e.kind.code else s.err := rfl
@[simp] theorem State.raise_warn (e : CmdError) : (s.raise e).warn = s.warn := rfl
@[simp] theorem State.raise_errInfo (e : CmdError) : (s.raise e).errInfo = if s.err = 0 then clampInfo e.info else s.errInfo := rfl
@[simp] theorem State.raise_program (e : CmdError) : (s.raise e).program = s.program := rfl
@[simp] theorem State.raise_pc (e : CmdError) : (s.raise e).pc = s.pc := rfl
@[simp] theorem State.raise_running (e : CmdError) : (s.raise e).running = false := rfl
@[simp] theorem State.raise_response (e : CmdError) : (s.raise e).response = ⟨e.kind.code, clampInfo e.info, 0⟩ := rfl
@[simp] theorem State.raise_params (e : CmdError) : (s.raise e).params = s.params := rfl

/-! ## `State.withFetchWord` -/

@[simp] theorem State.withFetchWord_xReg (nbits w : Nat) : (s.withFetchWord nbits w).xReg = s.xReg := rfl
@[simp] theorem State.withFetchWord_rReg (nbits w : Nat) : (s.withFetchWord nbits w).rReg = s.rReg := rfl
@[simp] theorem State.withFetchWord_bReg (nbits w : Nat) : (s.withFetchWord nbits w).bReg = s.bReg := rfl
@[simp] theorem State.withFetchWord_sReg (nbits w : Nat) : (s.withFetchWord nbits w).sReg = s.sReg := rfl
@[simp] theorem State.withFetchWord_fReg (nbits w : Nat) : (s.withFetchWord nbits w).fReg = s.fReg := rfl
@[simp] theorem State.withFetchWord_zReg (nbits w : Nat) : (s.withFetchWord nbits w).zReg = s.zReg := rfl
@[simp] theorem State.withFetchWord_cfg (nbits w : Nat) : (s.withFetchWord nbits w).cfg = s.cfg := rfl
@[simp] theorem State.withFetchWord_err (nbits w : Nat) : (s.withFetchWord nbits w).err = s.err := rfl
@[simp] theorem State.withFetchWord_warn (nbits w : Nat) : (s.withFetchWord nbits w).warn = s.warn := rfl
@[simp] theorem State.withFetchWord_errInfo (nbits w : Nat) : (s.withFetchWord nbits w).errInfo = s.errInfo := rfl
@[simp] theorem State.withFetchWord_program (nbits w : Nat) : (s.withFetchWord nbits w).program = [BitVec.ofNat 32 (w % 2 ^ nbits)] := rfl
@[simp] theorem State.withFetchWord_pc (nbits w : Nat) : (s.withFetchWord nbits w).pc = 0 := rfl
@[simp] theorem State.withFetchWord_running (nbits w : Nat) : (s.withFetchWord nbits w).running = true := rfl
@[simp] theorem State.withFetchWord_response (nbits w : Nat) : (s.withFetchWord nbits w).response = s.response := rfl
@[simp] theorem State.withFetchWord_params (nbits w : Nat) : (s.withFetchWord nbits w).params = s.params := rfl

/-! ## Reading a register that has just been written -/

theorem State.setX_get (i : XReg) (v : Word) : (s.setX i v).xReg[i] = some v := by simp

theorem State.setX_get_ne {i j : XReg} (v : Word) (h : i ≠ j) : (s.setX i v).xReg[j] = s.xReg[j] := by
  have : (i : Nat) ≠ j := fun hc => h (Fin.ext hc)
  simp [Vector.getElem_set_ne _ _ this]

theorem State.setR_get (i : RReg) (v : XNum) : (s.setR i v).rReg[i] = some v := by simp

theorem State.setR_get_ne {i j : RReg} (v : XNum) (h : i ≠ j) : (s.setR i v).rReg[j] = s.rReg[j] := by
  have : (i : Nat) ≠ j := fun hc => h (Fin.ext hc)
  simp [Vector.getElem_set_ne _ _ this]

theorem State.setB_get (i : BReg) (v : ByteBuf) : (s.setB i v).bReg[i] = some v := by simp

theorem State.setB_get_ne {i j : BReg} (v : ByteBuf) (h : i ≠ j) : (s.setB i v).bReg[j] = s.bReg[j] := by
  have : (i : Nat) ≠ j := fun hc => h (Fin.ext hc)
  simp [Vector.getElem_set_ne _ _ this]

theorem State.setS_get (i : SReg) (v : List Word) : (s.setS i v).sReg[i] = some v := by simp

theorem State.setS_get_ne {i j : SReg} (v : List Word) (h : i ≠ j) : (s.setS i v).sReg[j] = s.sReg[j] := by
  have : (i : Nat) ≠ j := fun hc => h (Fin.ext hc)
  simp [Vector.getElem_set_ne _ _ this]

theorem State.setF_get (i : FReg) (v : List XNum) : (s.setF i v).fReg[i] = some v := by simp

theorem State.setF_get_ne {i j : FReg} (v : List XNum) (h : i ≠ j) : (s.setF i v).fReg[j] = s.fReg[j] := by
  have : (i : Nat) ≠ j := fun hc => h (Fin.ext hc)
  simp [Vector.getElem_set_ne _ _ this]

theorem State.setZ_get (i : ZReg) (v : List Cplx) : (s.setZ i v).zReg[i] = some v := by simp

theorem State.setZ_get_ne {i j : ZReg} (v : List Cplx) (h : i ≠ j) : (s.setZ i v).zReg[j] = s.zReg[j] := by
  have : (i : Nat) ≠ j := fun hc => h (Fin.ext hc)
  simp [Vector.getElem_set_ne _ _ this]

end Sys2Proof.Machine
end

