-- ==== Sys2Proof/Laws/Ops.lean ====
section
/-! SUPPORT. What the shared operations can answer: for each, when it succeeds and with what. Proofs cite these
lemmas and do not unfold the operations. -/

namespace Sys2Proof.Machine

/-! ## Commands as computations -/

/-- A sequence of two computations succeeds when both do. -/
theorem bind_ok_iff {α β : Type} {x : Cmd α} {f : α → Cmd β} {r : β} :
    (x >>= f) = .ok r ↔ ∃ a, x = .ok a ∧ f a = .ok r := by
  cases x with
  | error e => exact ⟨fun h => (by cases h), fun ⟨_, h, _⟩ => (by cases h)⟩
  | ok a => exact ⟨fun h => ⟨a, rfl, h⟩, fun ⟨_, h, h'⟩ => by cases h; exact h'⟩

/-- It fails with the first error of the two. -/
theorem bind_error_iff {α β : Type} {x : Cmd α} {f : α → Cmd β} {e : CmdError} :
    (x >>= f) = .error e ↔ x = .error e ∨ ∃ a, x = .ok a ∧ f a = .error e := by
  cases x with
  | error e' =>
    constructor
    · intro h; cases h; exact .inl rfl
    · rintro (h | ⟨_, h, _⟩) <;> cases h
      rfl
  | ok a =>
    constructor
    · intro h; exact .inr ⟨a, rfl, h⟩
    · rintro (h | ⟨_, h, h'⟩) <;> cases h
      exact h'

@[simp] theorem ok_bind {α β : Type} (a : α) (f : α → Cmd β) : ((Except.ok a : Cmd α) >>= f) = f a := rfl

@[simp] theorem error_bind {α β : Type} (e : CmdError) (f : α → Cmd β) :
    ((Except.error e : Cmd α) >>= f) = .error e := rfl

@[simp] theorem pure_eq_ok {α : Type} (a : α) : (pure a : Cmd α) = .ok a := rfl

@[simp] theorem failIf_false (k : ErrorKind) (info : Int) : failIf false k info = .ok () := rfl

@[simp] theorem failIf_true (k : ErrorKind) (info : Int) : failIf true k info = .error ⟨k, info⟩ := rfl

theorem failIf_ok_iff {c : Bool} {k : ErrorKind} {info : Int} {u : Unit} : failIf c k info = .ok u ↔ c = false := by
  cases c <;> simp

/-- A command answers a next state whatever happens (R277): the completed one or the error entry. -/
theorem complete_next_iff {s t : State} {body : Cmd (State × BitVec 4)} :
    s.complete body = .next t ↔
      (∃ u w, body = .ok (u, w) ∧ t = u.retire w) ∨ ∃ e, body = .error e ∧ t = s.raise e := by
  rcases body with e | ⟨u, w⟩
  · constructor
    · intro h; cases h; exact .inr ⟨e, rfl, rfl⟩
    · rintro (⟨u, w, h, -⟩ | ⟨e', h, rfl⟩)
      · cases h
      · cases h; rfl
  · constructor
    · intro h; cases h; exact .inl ⟨u, w, rfl, rfl⟩
    · rintro (⟨u', w', h, rfl⟩ | ⟨e', h, -⟩)
      · cases h; rfl
      · cases h

@[simp] theorem complete_ok (s u : State) (w : BitVec 4) : s.complete (.ok (u, w)) = .next (u.retire w) := rfl

@[simp] theorem complete_error (s : State) (e : CmdError) : s.complete (.error e) = .next (s.raise e) := rfl

theorem complete_next (s : State) (body : Cmd (State × BitVec 4)) : ∃ t, s.complete body = .next t := by
  rcases body with e | ⟨u, w⟩
  · exact ⟨_, rfl⟩
  · exact ⟨_, rfl⟩

/-! ## Capacity -/

theorem fits_ok_iff {p : Config.Params} {n : Int} {u : Unit} : fits p n = .ok u ↔ overMax p n = false := failIf_ok_iff

theorem fits_eq_ok {p : Config.Params} {n : Int} (h : overMax p n = false) : fits p n = .ok () := fits_ok_iff.2 h

theorem fits_eq_error {p : Config.Params} {n : Int} (h : overMax p n = true) : fits p n = .error ⟨.capacity, n⟩ := by
  simp [fits, h]

/-- A count below one that fits, fits. -/
theorem overMax_mono {p : Config.Params} {m n : Int} (h : m ≤ n) (hn : overMax p n = false) : overMax p m = false := by
  unfold overMax at *
  split at hn
  · rfl
  · simp only [decide_eq_false_iff_not, not_lt] at *; omega

/-! ## Host loads -/

theorem hostLoad_next_iff {s t u : State} {count : Nat} :
    hostLoad s count t = .next u ↔ overMax s.params count = false ∧ u = t := by
  unfold hostLoad
  cases overMax s.params count
  · simp only [Bool.false_eq_true, if_false, Host.Outcome.next.injEq, true_and]
    exact ⟨Eq.symm, Eq.symm⟩
  · simp

theorem hostReals_next_iff {α : Type} {v : Option α} {load : α → Host.Outcome State Fault Refusal} {u : State} :
    hostReals v load = .next u ↔ ∃ a, v = some a ∧ load a = .next u := by
  cases v <;> simp [hostReals]

theorem value?_eq_none_iff {v : HostReal} : v.value? = none ↔ ∀ a, v ≠ .num a := by
  cases v <;> simp [HostReal.value?]

theorem hostCplx?_eq_none_iff {c : HostReal × HostReal} :
    hostCplx? c = none ↔ (∀ a, c.1 ≠ .num a) ∨ ∀ a, c.2 ≠ .num a := by
  obtain ⟨a, b⟩ := c
  cases a <;> cases b <;> simp [hostCplx?, HostReal.value?]

/-- A whole buffer is handed over when each of its elements is. -/
theorem mapM_eq_none_iff {α β : Type} {f : α → Option β} {l : List α} : l.mapM f = none ↔ ∃ x ∈ l, f x = none := by
  induction l with
  | nil => simp
  | cons a l ih => cases h : f a <;> cases h' : l.mapM f <;> simp_all

/-- R13: a host load of real numbers is refused as no number exactly when it holds one that is none. -/
theorem hostReals_refused_iff {α : Type} {v : Option α} {load : α → Host.Outcome State Fault Refusal}
    (h : ∀ a, load a ≠ .refused .hostLoadNotReal) : hostReals v load = .refused .hostLoadNotReal ↔ v = none := by
  cases v <;> simp [hostReals, h]

theorem hostLoad_ne {s t : State} {count : Nat} : hostLoad s count t ≠ .refused .hostLoadNotReal := by
  unfold hostLoad
  split <;> simp

/-! ## Reading registers -/

theorem source_ok_iff {α : Type} {c i : Nat} {v : Option α} {a : α} : source c i v = .ok a ↔ v = some a := by
  cases v <;> simp [source]

variable {s t : State}

theorem readX_ok_iff {i : XReg} {v : Word} : s.readX i = .ok v ↔ s.xReg[i] = some v := source_ok_iff
theorem readR_ok_iff {i : RReg} {v : XNum} : s.readR i = .ok v ↔ s.rReg[i] = some v := source_ok_iff
theorem readB_ok_iff {i : BReg} {v : ByteBuf} : s.readB i = .ok v ↔ s.bReg[i] = some v := source_ok_iff
theorem readS_ok_iff {i : SReg} {v : List Word} : s.readS i = .ok v ↔ s.sReg[i] = some v := source_ok_iff
theorem readF_ok_iff {i : FReg} {v : List XNum} : s.readF i = .ok v ↔ s.fReg[i] = some v := source_ok_iff
theorem readZ_ok_iff {i : ZReg} {v : List Cplx} : s.readZ i = .ok v ↔ s.zReg[i] = some v := source_ok_iff

theorem readX_empty {i : XReg} (h : s.xReg[i] = none) : s.readX i = .error ⟨.uninit, uninitInfo 0 i⟩ := by
  rw [State.readX, h, source]
theorem readR_empty {i : RReg} (h : s.rReg[i] = none) : s.readR i = .error ⟨.uninit, uninitInfo 1 i⟩ := by
  rw [State.readR, h, source]
theorem readB_empty {i : BReg} (h : s.bReg[i] = none) : s.readB i = .error ⟨.uninit, uninitInfo 2 i⟩ := by
  rw [State.readB, h, source]
theorem readS_empty {i : SReg} (h : s.sReg[i] = none) : s.readS i = .error ⟨.uninit, uninitInfo 3 i⟩ := by
  rw [State.readS, h, source]
theorem readF_empty {i : FReg} (h : s.fReg[i] = none) : s.readF i = .error ⟨.uninit, uninitInfo 4 i⟩ := by
  rw [State.readF, h, source]
theorem readZ_empty {i : ZReg} (h : s.zReg[i] = none) : s.readZ i = .error ⟨.uninit, uninitInfo 5 i⟩ := by
  rw [State.readZ, h, source]

/-! ## Writing buffers -/

theorem putB_ok_iff {i : BReg} {v : List Byte} :
    s.putB i v = .ok t ↔ overMax s.params v.length = false ∧ t = s.setB i ⟨v, false⟩ := by
  simp only [State.putB, bind_ok_iff, fits_ok_iff, pure_eq_ok, Except.ok.injEq]
  exact ⟨fun ⟨_, h, h'⟩ => ⟨h, h'.symm⟩, fun ⟨h, h'⟩ => ⟨(), h, h'.symm⟩⟩

theorem putS_ok_iff {i : SReg} {v : List Word} :
    s.putS i v = .ok t ↔ overMax s.params v.length = false ∧ t = s.setS i v := by
  simp only [State.putS, bind_ok_iff, fits_ok_iff, pure_eq_ok, Except.ok.injEq]
  exact ⟨fun ⟨_, h, h'⟩ => ⟨h, h'.symm⟩, fun ⟨h, h'⟩ => ⟨(), h, h'.symm⟩⟩

theorem putF_ok_iff {i : FReg} {v : List XNum} :
    s.putF i v = .ok t ↔ overMax s.params v.length = false ∧ t = s.setF i v := by
  simp only [State.putF, bind_ok_iff, fits_ok_iff, pure_eq_ok, Except.ok.injEq]
  exact ⟨fun ⟨_, h, h'⟩ => ⟨h, h'.symm⟩, fun ⟨h, h'⟩ => ⟨(), h, h'.symm⟩⟩

theorem putZ_ok_iff {i : ZReg} {v : List Cplx} :
    s.putZ i v = .ok t ↔ overMax s.params v.length = false ∧ t = s.setZ i v := by
  simp only [State.putZ, bind_ok_iff, fits_ok_iff, pure_eq_ok, Except.ok.injEq]
  exact ⟨fun ⟨_, h, h'⟩ => ⟨h, h'.symm⟩, fun ⟨h, h'⟩ => ⟨(), h, h'.symm⟩⟩

/-! ## The configuration a command needs -/

theorem needCfg_ok_iff {modes : List Mode} {u : Unit} :
    s.needCfg modes = .ok u ↔ s.cfg.valid = true ∧ s.cfg.mode ∈ modes := by
  rw [State.needCfg]
  cases h : s.cfg.valid <;> simp [failIf_ok_iff]

theorem needCfg_invalid {modes : List Mode} (h : s.cfg.valid = false) : s.needCfg modes = .error ⟨.noCfg, 4⟩ := by
  simp [State.needCfg, h]

theorem needCfg_other {modes : List Mode} (h : s.cfg.valid = true) (hm : s.cfg.mode ∉ modes) :
    s.needCfg modes = .error ⟨.noCfg, s.cfg.mode.code.toNat⟩ := by
  simp [State.needCfg, h, hm]

/-! ## Error codes -/

theorem code_ne_zero (k : ErrorKind) : k.code ≠ 0 := by cases k <;> decide

theorem code_le_ten (k : ErrorKind) : k.code.toNat ≤ 10 := by cases k <;> decide

end Sys2Proof.Machine
end

