-- ==== Sys2Proof/Laws/Exec.lean ====
section
/-! SUPPORT. What any command can do: end in the error entry with the state otherwise as it was, or write its
destination of `Instr.dest` and raise only warnings of `Instr.mayWarn`. -/

namespace Sys2Proof.Machine

/-! ## The shared command bodies -/

theorem fits_result {p : Config.Params} {n : Int} {u : Unit} (h : fits p n = .ok u) : overMax p n = false := fits_ok_iff.1 h

theorem memWrite_length (v : List Byte) (p n x : Nat) : (memWrite v p n x).length = v.length := by
  simp [memWrite, packBytes]

theorem encodeK_ok_iff {k : Nat} {v : List Byte} {q : List Word} :
    encodeK k v = .ok q ↔ (8 * v.length + encodePad k (8 * v.length)) % k = 0
      ∧ q = (List.range ((8 * v.length + encodePad k (8 * v.length)) / k)).map
          fun i => BitVec.ofNat Config.xlen (groupVal (paddedBit v) (k * i) k) := by
  simp only [encodeK, bind_ok_iff, failIf_ok_iff, pure_eq_ok, Except.ok.injEq, ne_eq, decide_not, Bool.not_eq_false',
    decide_eq_true_eq]
  exact ⟨fun ⟨_, h, h'⟩ => ⟨h, h'.symm⟩, fun ⟨h, h'⟩ => ⟨(), h, h'.symm⟩⟩

theorem checkSymbols_ok_iff {bound : Nat} {q : List Word} {u : Unit} :
    checkSymbols bound q = .ok u ↔ ∀ w ∈ q, symbolOutside bound w = false := by
  rw [checkSymbols]
  split
  case h_1 i h =>
    rw [List.findIdx?_eq_some_iff_getElem] at h
    obtain ⟨hi, h, -⟩ := h
    constructor
    · intro h; cases h
    · intro hall
      rw [hall _ (List.getElem_mem hi)] at h
      cases h
  case h_2 h => exact ⟨fun _ => List.findIdx?_eq_none_iff.1 h, fun _ => rfl⟩

theorem checkSymbols_error_iff {bound : Nat} {q : List Word} {e : CmdError} :
    checkSymbols bound q = .error e ↔ ∃ i, q.findIdx? (symbolOutside bound) = some i ∧ e = ⟨.symbol, i⟩ := by
  rw [checkSymbols]
  split
  case h_1 i h =>
    constructor
    · intro h'; cases h'; exact ⟨i, h, rfl⟩
    · rintro ⟨j, hj, rfl⟩
      rw [h, Option.some.injEq] at hj
      rw [hj]
  case h_2 h =>
    constructor
    · intro h'; cases h'
    · rintro ⟨j, hj, -⟩
      rw [h] at hj; cases hj

theorem decodeK_ok_iff {k : Nat} {q : List Word} {v : List Byte} :
    decodeK k q = .ok v ↔ decodeLengthOk k q.length = true ∧ (∀ w ∈ q, symbolOutside (2 ^ k) w = false)
      ∧ padBitSet k q = false ∧ v = packBytes (k * q.length / 8) (symbolBit k q) := by
  simp only [decodeK, bind_ok_iff, failIf_ok_iff, checkSymbols_ok_iff, pure_eq_ok, Except.ok.injEq, Bool.not_eq_false']
  exact ⟨fun ⟨_, h1, _, h2, _, h3, h4⟩ => ⟨h1, h2, h3, h4.symm⟩, fun ⟨h1, h2, h3, h4⟩ => ⟨(), h1, (), h2, (), h3, h4.symm⟩⟩

theorem bitIndex_ok_iff {v : List Byte} {p : Int} {i : Nat} :
    bitIndex v p = .ok i ↔ 0 ≤ p ∧ p < 8 * v.length ∧ i = p.toNat := by
  simp only [bitIndex, bind_ok_iff, failIf_ok_iff, pure_eq_ok, Except.ok.injEq, Bool.or_eq_false_iff,
    decide_eq_false_iff_not, not_lt, not_le]
  constructor
  · rintro ⟨_, ⟨h1, h2⟩, h3⟩
    exact ⟨h1, by push_cast at h2; omega, h3.symm⟩
  · rintro ⟨h1, h2, h3⟩
    exact ⟨(), ⟨h1, by push_cast; omega⟩, h3.symm⟩

theorem bitIndex_error_iff {v : List Byte} {p : Int} {e : CmdError} :
    bitIndex v p = .error e ↔ (p < 0 ∨ 8 * v.length ≤ p) ∧ e = ⟨.range, p⟩ := by
  by_cases h : p < 0 ∨ 8 * (v.length : Int) ≤ p
  · have hc : (decide (p < 0) || decide (((8 * v.length : Nat) : Int) ≤ p)) = true := by simpa using h
    simp only [bitIndex, hc, failIf_true, error_bind, Except.error.injEq]
    exact ⟨fun h' => ⟨h, h'.symm⟩, fun h' => h'.2.symm⟩
  · have hc : (decide (p < 0) || decide (((8 * v.length : Nat) : Int) ≤ p)) = false := by simpa using h
    simp only [bitIndex, hc, failIf_false, ok_bind, pure_eq_ok]
    exact ⟨fun h' => (by cases h'), fun h' => (h h'.1).elim⟩

theorem construct_ok_iff {s u : State} {q : CfgRequest} {w : BitVec 4} :
    construct s q = .ok (u, w) ↔
      cfgFailure s.params q = none ∧ u = { s with cfg := q.bank } ∧ w = cfgWarnings s.params q := by
  rw [construct]
  split
  case h_1 c h => simp [h]
  case h_2 h =>
    simp only [Except.ok.injEq, Prod.mk.injEq, h, true_and]
    exact ⟨fun h => ⟨h.1.symm, h.2.symm⟩, fun h => ⟨h.1.symm, h.2.symm⟩⟩

theorem construct_error_iff {s : State} {q : CfgRequest} {e : CmdError} :
    construct s q = .error e ↔ ∃ c, cfgFailure s.params q = some c ∧ e = ⟨.config, c⟩ := by
  rw [construct]
  split
  case h_1 c h =>
    simp only [h, Except.error.injEq, Option.some.injEq]
    exact ⟨fun h => ⟨c, rfl, h.symm⟩, fun ⟨c', h, h'⟩ => by rw [h', h]⟩
  case h_2 h => simp [h]

theorem sliceInto_ok_iff {s u : State} {sd : SReg} {obs : List (List XNum)} {w : BitVec 4} :
    sliceInto s sd obs = .ok (u, w) ↔
      overMax s.params (finish (vq s.params.num obs (codebook s.params.num s.cfg))).1.length = false
        ∧ u = s.setS sd (finish (vq s.params.num obs (codebook s.params.num s.cfg))).1 ∧ w = (finish (vq s.params.num obs (codebook s.params.num s.cfg))).2 := by
  simp only [sliceInto, bind_ok_iff, putS_ok_iff, pure_eq_ok, Except.ok.injEq, Prod.mk.injEq]
  constructor
  · rintro ⟨t, ⟨h1, rfl⟩, rfl, rfl⟩; exact ⟨h1, rfl, rfl⟩
  · rintro ⟨h1, rfl, rfl⟩; exact ⟨_, ⟨h1, rfl⟩, rfl, rfl⟩

theorem lowpass_ok_iff {p : Config.Params} {fs lo hi att : XNum} {h : List XNum} :
    lowpass p fs lo hi att = .ok h ↔ lowpassFailure p.num fs lo hi att = none
      ∧ overMax p (firLength p.num fs lo hi att) = false ∧ h = lsfir p.num fs lo hi (firLength p.num fs lo hi att).toNat := by
  rw [lowpass]
  split
  case h_1 c hc => simp [hc]
  case h_2 hc =>
    simp only [bind_ok_iff, fits_ok_iff, pure_eq_ok, Except.ok.injEq, hc, true_and]
    exact ⟨fun ⟨_, h1, h2⟩ => ⟨h1, h2.symm⟩, fun ⟨h1, h2⟩ => ⟨(), h1, h2.symm⟩⟩

theorem intervals_ok_iff {p : Config.Params} {c : ModemConfig} {ns : Nat} {l : List (XNum × XNum)} :
    intervals p c ns = .ok l ↔ 2 ≤ intervalCount p.num c ns ∧ l = intervalList p c ns := by
  simp only [intervals, bind_ok_iff, failIf_ok_iff, pure_eq_ok, Except.ok.injEq, decide_eq_false_iff_not, not_lt]
  exact ⟨fun ⟨_, h1, h2⟩ => ⟨h1, h2.symm⟩, fun ⟨h1, h2⟩ => ⟨(), h1, h2.symm⟩⟩

theorem checkTransmission_ok_iff {p : Config.Params} {c : ModemConfig} {q : List Word} {u : Unit} :
    checkTransmission p c q = .ok u ↔
      (∀ w ∈ q, symbolOutside c.n w = false) ∧ overMax p (sampleCount p.num c (q.length + 2)) = false := by
  simp only [checkTransmission, bind_ok_iff, checkSymbols_ok_iff, fits_ok_iff]
  exact ⟨fun ⟨_, h1, h2⟩ => ⟨h1, h2⟩, fun ⟨h1, h2⟩ => ⟨(), h1, h2⟩⟩

/-! ## Any command -/

theorem noWarn_allowed (m : BitVec 4) : noWarn &&& ~~~m = 0 := by simp [noWarn]

/-- What a command does that answers a next state. -/
def DoesOnly (d : Dest) (m : BitVec 4) (s t : State) : Prop :=
  (∃ e, t = s.raise e) ∨ ∃ u w, Wrote d s u ∧ w &&& ~~~m = 0 ∧ t = u.retire w

theorem doesOnly_of_body {s t : State} {d : Dest} {m : BitVec 4} {body : Cmd (State × BitVec 4)}
    (hb : ∀ u w, body = .ok (u, w) → Wrote d s u ∧ w &&& ~~~m = 0) (h : s.complete body = .next t) :
    DoesOnly d m s t := by
  rcases complete_next_iff.1 h with ⟨u, w, hu, rfl⟩ | ⟨e, -, rfl⟩
  · exact .inr ⟨u, w, (hb u w hu).1, (hb u w hu).2, rfl⟩
  · exact .inl ⟨e, rfl⟩

theorem encodeCommand_does {k : Nat} {sd : SReg} {bs : BReg} {s t : State}
    (h : encodeCommand k sd bs s = .next t) : DoesOnly (.reg (.s sd)) 0 s t := by
  refine doesOnly_of_body (fun u w hb => ?_) h
  simp only [bind_ok_iff, putS_ok_iff, pure_eq_ok, Except.ok.injEq, Prod.mk.injEq] at hb
  obtain ⟨v, -, q, -, t, ⟨hl, rfl⟩, rfl, rfl⟩ := hb
  exact ⟨⟨_, hl, rfl⟩, noWarn_allowed _⟩

theorem decodeCommand_does {k : Nat} {bd : BReg} {ss : SReg} {s t : State}
    (h : decodeCommand k bd ss s = .next t) : DoesOnly (.reg (.b bd)) 0 s t := by
  refine doesOnly_of_body (fun u w hb => ?_) h
  simp only [bind_ok_iff, putB_ok_iff, pure_eq_ok, Except.ok.injEq, Prod.mk.injEq] at hb
  obtain ⟨v, -, q, -, t, ⟨hl, rfl⟩, rfl, rfl⟩ := hb
  exact ⟨⟨_, .inl hl, rfl⟩, noWarn_allowed _⟩

theorem copyCommand_does {bd bs : BReg} {s t : State} (h : copyCommand bd bs s = .next t) :
    DoesOnly (.reg (.b bd)) 0 s t := by
  refine doesOnly_of_body (fun u w hb => ?_) h
  simp only [bind_ok_iff, putB_ok_iff, pure_eq_ok, Except.ok.injEq, Prod.mk.injEq] at hb
  obtain ⟨v, -, t, ⟨hl, rfl⟩, rfl, rfl⟩ := hb
  exact ⟨⟨⟨v.bytes, false⟩, .inl hl, rfl⟩, noWarn_allowed _⟩

/-- A bank load raises no warning but the three of construction (R254); CFGFSK not the carrier's. -/
theorem cfgWarnings_allowed (p : Config.Params) (q : CfgRequest) :
    cfgWarnings p q &&& ~~~(if q.mode = .fsk then 0b0110 else 0b0111) = 0 := by
  simp only [cfgWarnings, warnSet]
  generalize anyPair (tooClose p q) q.alpha = a
  generalize lowAmpWarns p q = b
  by_cases h : q.mode = .fsk
  · simp only [h, carrierWarns, if_true]; cases a <;> cases b <;> decide
  · generalize carrierWarns p q = c
    simp only [h, if_false]; cases a <;> cases b <;> cases c <;> decide

theorem finish_allowed (l : List Nat) : (finish l).2 &&& ~~~(0b1000 : BitVec 4) = 0 := by
  simp only [finish, corruptOnly]
  generalize (_ || _ || _ : Bool) = a
  cases a <;> decide

theorem sliceInto_wrote {s u : State} {sd : SReg} {obs : List (List XNum)} {w : BitVec 4}
    (h : sliceInto s sd obs = .ok (u, w)) : Wrote (.reg (.s sd)) s u ∧ w &&& ~~~(0b1000 : BitVec 4) = 0 := by
  obtain ⟨hl, rfl, rfl⟩ := sliceInto_ok_iff.1 h
  exact ⟨⟨_, hl, rfl⟩, finish_allowed _⟩

theorem construct_wrote {s u : State} {q : CfgRequest} {w : BitVec 4} (h : construct s q = .ok (u, w))
    (hz : q.bank.UnusedZero) :
    Wrote .cfg s u ∧ w &&& ~~~(if q.mode = .fsk then 0b0110 else 0b0111 : BitVec 4) = 0 := by
  obtain ⟨hq, rfl, rfl⟩ := construct_ok_iff.1 h
  exact ⟨⟨_, hq, hz, rfl⟩, cfgWarnings_allowed _ _⟩

theorem real_alpha_im (l : List XNum) : ∀ a ∈ l.map Cplx.ofReal, a.im = .rat 0 := by
  intro a ha
  obtain ⟨x, -, rfl⟩ := List.mem_map.1 ha
  rfl

theorem execRdbit_does {xd : XReg} {bs : BReg} {xp : XReg} {s t : State} (h : execRdbit xd bs xp s = .next t) :
    DoesOnly (Instr.rdbit xd bs xp).dest (Instr.rdbit xd bs xp).mayWarn s t := by
  refine doesOnly_of_body (fun u w hb => ?_) h
  simp only [bind_ok_iff, pure_eq_ok, Except.ok.injEq, Prod.mk.injEq] at hb
  obtain ⟨v, -, p, -, i, -, rfl, rfl⟩ := hb
  exact ⟨⟨_, rfl⟩, noWarn_allowed _⟩

theorem execRdbits_does {sd : SReg} {bs : BReg} {s t : State} (h : execRdbits sd bs s = .next t) :
    DoesOnly (Instr.rdbits sd bs).dest (Instr.rdbits sd bs).mayWarn s t := by
  refine doesOnly_of_body (fun u w hb => ?_) h
  simp only [bind_ok_iff, putS_ok_iff, pure_eq_ok, Except.ok.injEq, Prod.mk.injEq] at hb
  obtain ⟨v, -, t, ⟨hl, rfl⟩, rfl, rfl⟩ := hb
  exact ⟨⟨_, hl, rfl⟩, noWarn_allowed _⟩

theorem execWrbit_does {bd : BReg} {xp xv : XReg} {s t : State} (h : execWrbit bd xp xv s = .next t) :
    DoesOnly (Instr.wrbit bd xp xv).dest (Instr.wrbit bd xp xv).mayWarn s t := by
  refine doesOnly_of_body (fun u w hb => ?_) h
  simp only [bind_ok_iff, pure_eq_ok, Except.ok.injEq, Prod.mk.injEq] at hb
  obtain ⟨v, hv, p, -, val, -, _, -, i, -, rfl, rfl⟩ := hb
  exact ⟨⟨_, .inr ⟨v, readB_ok_iff.1 hv, memWrite_length _ _ _ _⟩, rfl⟩, noWarn_allowed _⟩

theorem execHamenc_does {bd bs : BReg} {s t : State} (h : execHamenc bd bs s = .next t) :
    DoesOnly (Instr.hamenc bd bs).dest (Instr.hamenc bd bs).mayWarn s t := by
  refine doesOnly_of_body (fun u w hb => ?_) h
  simp only [bind_ok_iff, putB_ok_iff, pure_eq_ok, Except.ok.injEq, Prod.mk.injEq] at hb
  obtain ⟨v, -, t, ⟨hl, rfl⟩, rfl, rfl⟩ := hb
  exact ⟨⟨_, .inl hl, rfl⟩, noWarn_allowed _⟩

theorem execHamdec_does {bd bs : BReg} {s t : State} (h : execHamdec bd bs s = .next t) :
    DoesOnly (Instr.hamdec bd bs).dest (Instr.hamdec bd bs).mayWarn s t := by
  refine doesOnly_of_body (fun u w hb => ?_) h
  simp only [bind_ok_iff, putB_ok_iff, pure_eq_ok, Except.ok.injEq, Prod.mk.injEq] at hb
  obtain ⟨v, -, o, -, t, ⟨hl, rfl⟩, rfl, rfl⟩ := hb
  exact ⟨⟨_, .inl hl, rfl⟩, noWarn_allowed _⟩

theorem execTimearr_does {fd : FReg} {rfs : RReg} {xn : XReg} {s t : State} (h : execTimearr fd rfs xn s = .next t) :
    DoesOnly (Instr.timearr fd rfs xn).dest (Instr.timearr fd rfs xn).mayWarn s t := by
  refine doesOnly_of_body (fun u w hb => ?_) h
  simp only [bind_ok_iff, putF_ok_iff, pure_eq_ok, Except.ok.injEq, Prod.mk.injEq] at hb
  obtain ⟨fs, -, n, -, _, -, _, -, _, -, t, ⟨hl, rfl⟩, rfl, rfl⟩ := hb
  exact ⟨⟨_, hl, rfl⟩, noWarn_allowed _⟩

theorem execSps_does {rd rfs rbaud : RReg} {s t : State} (h : execSps rd rfs rbaud s = .next t) :
    DoesOnly (Instr.sps rd rfs rbaud).dest (Instr.sps rd rfs rbaud).mayWarn s t := by
  refine doesOnly_of_body (fun u w hb => ?_) h
  simp only [bind_ok_iff, pure_eq_ok, Except.ok.injEq, Prod.mk.injEq] at hb
  obtain ⟨fs, -, baud, -, _, -, _, -, rfl, rfl⟩ := hb
  exact ⟨⟨_, rfl⟩, noWarn_allowed _⟩

theorem execShres_does {fd ft : FReg} {rbaud : RReg} {fv : FReg} {s t : State} (h : execShres fd ft rbaud fv s = .next t) :
    DoesOnly (Instr.shres fd ft rbaud fv).dest (Instr.shres fd ft rbaud fv).mayWarn s t := by
  refine doesOnly_of_body (fun u w hb => ?_) h
  simp only [bind_ok_iff, putF_ok_iff, pure_eq_ok, Except.ok.injEq, Prod.mk.injEq] at hb
  obtain ⟨ts, -, baud, -, v, -, _, -, t, ⟨hl, rfl⟩, rfl, rfl⟩ := hb
  exact ⟨⟨_, hl, rfl⟩, noWarn_allowed _⟩

theorem execGausswin_does {fd : FReg} {rfs rsigma : RReg} {s t : State} (h : execGausswin fd rfs rsigma s = .next t) :
    DoesOnly (Instr.gausswin fd rfs rsigma).dest (Instr.gausswin fd rfs rsigma).mayWarn s t := by
  refine doesOnly_of_body (fun u w hb => ?_) h
  simp only [bind_ok_iff, putF_ok_iff, pure_eq_ok, Except.ok.injEq, Prod.mk.injEq] at hb
  obtain ⟨fs, -, sigma, -, _, -, _, -, _, -, t, ⟨hl, rfl⟩, rfl, rfl⟩ := hb
  exact ⟨⟨_, hl, rfl⟩, noWarn_allowed _⟩

theorem execLpfir_does {fd : FReg} {rfs rlo rhi : RReg} {s t : State} (h : execLpfir fd rfs rlo rhi s = .next t) :
    DoesOnly (Instr.lpfir fd rfs rlo rhi).dest (Instr.lpfir fd rfs rlo rhi).mayWarn s t := by
  refine doesOnly_of_body (fun u w hb => ?_) h
  simp only [bind_ok_iff, putF_ok_iff, pure_eq_ok, Except.ok.injEq, Prod.mk.injEq] at hb
  obtain ⟨fs, -, lo, -, hi, -, taps, -, t, ⟨hl, rfl⟩, rfl, rfl⟩ := hb
  exact ⟨⟨_, hl, rfl⟩, noWarn_allowed _⟩

theorem execLpfira_does {fd : FReg} {rfs rlo rhi ratt : RReg} {s t : State} (h : execLpfira fd rfs rlo rhi ratt s = .next t) :
    DoesOnly (Instr.lpfira fd rfs rlo rhi ratt).dest (Instr.lpfira fd rfs rlo rhi ratt).mayWarn s t := by
  refine doesOnly_of_body (fun u w hb => ?_) h
  simp only [bind_ok_iff, putF_ok_iff, pure_eq_ok, Except.ok.injEq, Prod.mk.injEq] at hb
  obtain ⟨fs, -, lo, -, hi, -, att, -, taps, -, t, ⟨hl, rfl⟩, rfl, rfl⟩ := hb
  exact ⟨⟨_, hl, rfl⟩, noWarn_allowed _⟩

theorem execGoertz_does {zd : ZReg} {fd : FReg} {rfreq rfs : RReg} {s t : State} (h : execGoertz zd fd rfreq rfs s = .next t) :
    DoesOnly (Instr.goertz zd fd rfreq rfs).dest (Instr.goertz zd fd rfreq rfs).mayWarn s t := by
  refine doesOnly_of_body (fun u w hb => ?_) h
  simp only [bind_ok_iff, putZ_ok_iff, putF_ok_iff, pure_eq_ok, Except.ok.injEq, Prod.mk.injEq] at hb
  obtain ⟨freq, -, fs, -, _, -, _, -, t, ⟨hl, rfl⟩, t', ⟨hl', rfl⟩, rfl, rfl⟩ := hb
  exact ⟨⟨_, _, hl, hl', rfl⟩, noWarn_allowed _⟩

theorem execAvgint_does {rd : RReg} {fa : FReg} {rbegin rend : RReg} {s t : State} (h : execAvgint rd fa rbegin rend s = .next t) :
    DoesOnly (Instr.avgint rd fa rbegin rend).dest (Instr.avgint rd fa rbegin rend).mayWarn s t := by
  refine doesOnly_of_body (fun u w hb => ?_) h
  simp only [bind_ok_iff, pure_eq_ok, Except.ok.injEq, Prod.mk.injEq] at hb
  obtain ⟨d, -, b, -, e, -, _, -, _, -, _, -, rfl, rfl⟩ := hb
  exact ⟨⟨_, rfl⟩, noWarn_allowed _⟩

theorem execConv_does {fd fa fk : FReg} {s t : State} (h : execConv fd fa fk s = .next t) :
    DoesOnly (Instr.conv fd fa fk).dest (Instr.conv fd fa fk).mayWarn s t := by
  refine doesOnly_of_body (fun u w hb => ?_) h
  simp only [bind_ok_iff, putF_ok_iff, pure_eq_ok, Except.ok.injEq, Prod.mk.injEq] at hb
  obtain ⟨a, -, k, -, _, -, t, ⟨hl, rfl⟩, rfl, rfl⟩ := hb
  exact ⟨⟨_, hl, rfl⟩, noWarn_allowed _⟩

theorem execCfgask_does {rfs rcar rbaud : RReg} {famp : FReg} {s t : State} (h : execCfgask rfs rcar rbaud famp s = .next t) :
    DoesOnly (Instr.cfgask rfs rcar rbaud famp).dest (Instr.cfgask rfs rcar rbaud famp).mayWarn s t := by
  refine doesOnly_of_body (fun u w hb => ?_) h
  simp only [bind_ok_iff] at hb
  obtain ⟨fs, -, carrier, -, baud, -, alpha, -, hb⟩ := hb
  exact construct_wrote hb ⟨fun h => (nomatch h), fun _ => rfl, fun _ => real_alpha_im _⟩

theorem execCfgfsk_does {rfs ramp rbaud : RReg} {ffreq : FReg} {s t : State} (h : execCfgfsk rfs ramp rbaud ffreq s = .next t) :
    DoesOnly (Instr.cfgfsk rfs ramp rbaud ffreq).dest (Instr.cfgfsk rfs ramp rbaud ffreq).mayWarn s t := by
  refine doesOnly_of_body (fun u w hb => ?_) h
  simp only [bind_ok_iff] at hb
  obtain ⟨fs, -, amp, -, baud, -, alpha, -, hb⟩ := hb
  exact construct_wrote hb ⟨fun _ => rfl, fun h => (by rcases h with h | h <;> cases h), fun _ => real_alpha_im _⟩

theorem execCfgpsk_does {rfs rcar ramp rbaud : RReg} {fph : FReg} {s t : State} (h : execCfgpsk rfs rcar ramp rbaud fph s = .next t) :
    DoesOnly (Instr.cfgpsk rfs rcar ramp rbaud fph).dest (Instr.cfgpsk rfs rcar ramp rbaud fph).mayWarn s t := by
  refine doesOnly_of_body (fun u w hb => ?_) h
  simp only [bind_ok_iff] at hb
  obtain ⟨fs, -, carrier, -, amp, -, baud, -, alpha, -, hb⟩ := hb
  exact construct_wrote hb ⟨fun h => (nomatch h), fun h => (by rcases h with h | h <;> cases h), fun _ => real_alpha_im _⟩

theorem execCfgqam_does {rfs rcar rbaud : RReg} {zcon : ZReg} {s t : State} (h : execCfgqam rfs rcar rbaud zcon s = .next t) :
    DoesOnly (Instr.cfgqam rfs rcar rbaud zcon).dest (Instr.cfgqam rfs rcar rbaud zcon).mayWarn s t := by
  refine doesOnly_of_body (fun u w hb => ?_) h
  simp only [bind_ok_iff] at hb
  obtain ⟨fs, -, carrier, -, baud, -, alpha, -, hb⟩ := hb
  exact construct_wrote hb ⟨fun h => (nomatch h), fun _ => rfl, fun h => absurd rfl h⟩

theorem execSlice_does {sd : SReg} {fobs : FReg} {s t : State} (h : execSlice sd fobs s = .next t) :
    DoesOnly (Instr.slice sd fobs).dest (Instr.slice sd fobs).mayWarn s t := by
  refine doesOnly_of_body (fun u w hb => ?_) h
  simp only [bind_ok_iff] at hb
  obtain ⟨o, -, _, -, _, -, _, -, hb⟩ := hb
  exact sliceInto_wrote hb

theorem execSlicez_does {sd : SReg} {zobs : ZReg} {s t : State} (h : execSlicez sd zobs s = .next t) :
    DoesOnly (Instr.slicez sd zobs).dest (Instr.slicez sd zobs).mayWarn s t := by
  refine doesOnly_of_body (fun u w hb => ?_) h
  simp only [bind_ok_iff] at hb
  obtain ⟨o, -, _, -, _, -, hb⟩ := hb
  exact sliceInto_wrote hb

theorem execModask_does {fd : FReg} {ss : SReg} {s t : State} (h : execModask fd ss s = .next t) :
    DoesOnly (Instr.modask fd ss).dest (Instr.modask fd ss).mayWarn s t := by
  refine doesOnly_of_body (fun u w hb => ?_) h
  simp only [bind_ok_iff, putF_ok_iff, pure_eq_ok, Except.ok.injEq, Prod.mk.injEq] at hb
  obtain ⟨q, -, _, -, _, -, t, ⟨hl, rfl⟩, rfl, rfl⟩ := hb
  exact ⟨⟨_, hl, rfl⟩, noWarn_allowed _⟩

theorem execModfsk_does {fd : FReg} {ss : SReg} {s t : State} (h : execModfsk fd ss s = .next t) :
    DoesOnly (Instr.modfsk fd ss).dest (Instr.modfsk fd ss).mayWarn s t := by
  refine doesOnly_of_body (fun u w hb => ?_) h
  simp only [bind_ok_iff, putF_ok_iff, pure_eq_ok, Except.ok.injEq, Prod.mk.injEq] at hb
  obtain ⟨q, -, _, -, _, -, t, ⟨hl, rfl⟩, rfl, rfl⟩ := hb
  exact ⟨⟨_, hl, rfl⟩, noWarn_allowed _⟩

theorem execModpsk_does {fd : FReg} {ss : SReg} {s t : State} (h : execModpsk fd ss s = .next t) :
    DoesOnly (Instr.modpsk fd ss).dest (Instr.modpsk fd ss).mayWarn s t := by
  refine doesOnly_of_body (fun u w hb => ?_) h
  simp only [bind_ok_iff, putF_ok_iff, pure_eq_ok, Except.ok.injEq, Prod.mk.injEq] at hb
  obtain ⟨q, -, _, -, _, -, t, ⟨hl, rfl⟩, rfl, rfl⟩ := hb
  exact ⟨⟨_, hl, rfl⟩, noWarn_allowed _⟩

theorem execModqam_does {fd : FReg} {ss : SReg} {s t : State} (h : execModqam fd ss s = .next t) :
    DoesOnly (Instr.modqam fd ss).dest (Instr.modqam fd ss).mayWarn s t := by
  refine doesOnly_of_body (fun u w hb => ?_) h
  simp only [bind_ok_iff, putF_ok_iff, pure_eq_ok, Except.ok.injEq, Prod.mk.injEq] at hb
  obtain ⟨q, -, _, -, _, -, t, ⟨hl, rfl⟩, rfl, rfl⟩ := hb
  exact ⟨⟨_, hl, rfl⟩, noWarn_allowed _⟩

theorem execDemask_does {sd : SReg} {fx : FReg} {s t : State} (h : execDemask sd fx s = .next t) :
    DoesOnly (Instr.demask sd fx).dest (Instr.demask sd fx).mayWarn s t := by
  refine doesOnly_of_body (fun u w hb => ?_) h
  simp only [bind_ok_iff] at hb
  obtain ⟨x, -, _, -, iv, -, taps, -, hb⟩ := hb
  exact sliceInto_wrote hb

theorem execDemfsk_does {sd : SReg} {fx : FReg} {s t : State} (h : execDemfsk sd fx s = .next t) :
    DoesOnly (Instr.demfsk sd fx).dest (Instr.demfsk sd fx).mayWarn s t := by
  refine doesOnly_of_body (fun u w hb => ?_) h
  simp only [bind_ok_iff] at hb
  obtain ⟨x, -, _, -, iv, -, _, -, hb⟩ := hb
  exact sliceInto_wrote hb

theorem execDempsk_does {sd : SReg} {fx : FReg} {s t : State} (h : execDempsk sd fx s = .next t) :
    DoesOnly (Instr.dempsk sd fx).dest (Instr.dempsk sd fx).mayWarn s t := by
  refine doesOnly_of_body (fun u w hb => ?_) h
  simp only [bind_ok_iff] at hb
  obtain ⟨x, -, _, -, iv, -, taps, -, hb⟩ := hb
  exact sliceInto_wrote hb

theorem execDemqam_does {sd : SReg} {fx : FReg} {s t : State} (h : execDemqam sd fx s = .next t) :
    DoesOnly (Instr.demqam sd fx).dest (Instr.demqam sd fx).mayWarn s t := by
  refine doesOnly_of_body (fun u w hb => ?_) h
  simp only [bind_ok_iff] at hb
  obtain ⟨x, -, _, -, iv, -, taps, -, hb⟩ := hb
  exact sliceInto_wrote hb

/-- The inversion of `exec`: what each of the 46 commands can do. -/
theorem exec_does {i : Instr} {s t : State} (h : exec i s = .next t) : DoesOnly i.dest i.mayWarn s t := by
  cases i with
  | rdbit xd bs xp => exact execRdbit_does h
  | rdbits sd bs => exact execRdbits_does h
  | wrbit bd xp xv => exact execWrbit_does h
  | enc2 sd bs => exact encodeCommand_does h
  | enc4 sd bs => exact encodeCommand_does h
  | enc8 sd bs => exact encodeCommand_does h
  | enc16 sd bs => exact encodeCommand_does h
  | enc32 sd bs => exact encodeCommand_does h
  | enc64 sd bs => exact encodeCommand_does h
  | enc256 sd bs => exact encodeCommand_does h
  | dec2 bd ss => exact decodeCommand_does h
  | dec4 bd ss => exact decodeCommand_does h
  | dec8 bd ss => exact decodeCommand_does h
  | dec16 bd ss => exact decodeCommand_does h
  | dec32 bd ss => exact decodeCommand_does h
  | dec64 bd ss => exact decodeCommand_does h
  | dec256 bd ss => exact decodeCommand_does h
  | eccencNone bd bs => exact copyCommand_does h
  | eccencRaw bd bs => exact copyCommand_does h
  | eccdecNone bd bs => exact copyCommand_does h
  | eccdecRaw bd bs => exact copyCommand_does h
  | hamenc bd bs => exact execHamenc_does h
  | hamdec bd bs => exact execHamdec_does h
  | timearr fd rfs xn => exact execTimearr_does h
  | sps rd rfs rbaud => exact execSps_does h
  | shres fd ft rbaud fv => exact execShres_does h
  | gausswin fd rfs rsigma => exact execGausswin_does h
  | lpfir fd rfs rlo rhi => exact execLpfir_does h
  | lpfira fd rfs rlo rhi ratt => exact execLpfira_does h
  | goertz zd fd rfreq rfs => exact execGoertz_does h
  | avgint rd fa rbegin rend => exact execAvgint_does h
  | conv fd fa fk => exact execConv_does h
  | cfgask rfs rcar rbaud famp => exact execCfgask_does h
  | cfgfsk rfs ramp rbaud ffreq => exact execCfgfsk_does h
  | cfgpsk rfs rcar ramp rbaud fph => exact execCfgpsk_does h
  | cfgqam rfs rcar rbaud zcon => exact execCfgqam_does h
  | slice sd fobs => exact execSlice_does h
  | slicez sd zobs => exact execSlicez_does h
  | modask fd ss => exact execModask_does h
  | modfsk fd ss => exact execModfsk_does h
  | modpsk fd ss => exact execModpsk_does h
  | modqam fd ss => exact execModqam_does h
  | demask sd fx => exact execDemask_does h
  | demfsk sd fx => exact execDemfsk_does h
  | dempsk sd fx => exact execDempsk_does h
  | demqam sd fx => exact execDemqam_does h


/-! ## Buffers stay within `MAXLEN` -/

theorem within_set {α : Type} {n : Nat} {p : Config.Params} {size : α → Nat} {regs : Vector (Option α) n} {i : Fin n}
    {v : α} (h : Within p size regs) (hv : overMax p (size v) = false) : Within p size (regs.set i (some v)) := by
  intro j w hw
  by_cases hij : (i : Nat) = j
  · have : some v = some w := by simpa [hij] using hw
    cases this; exact hv
  · refine h j w ?_
    simpa [Vector.getElem_set_ne _ _ hij] using hw

theorem wrote_keeps_fit {d : Dest} {s u : State} (h : Wrote d s u) (hs : s.AllFit) : u.AllFit := by
  obtain ⟨hb, hsy, hf, hz⟩ := hs
  unfold Wrote at h
  split at h
  · obtain ⟨v, rfl⟩ := h; exact ⟨hb, hsy, hf, hz⟩
  · obtain ⟨v, rfl⟩ := h; exact ⟨hb, hsy, hf, hz⟩
  · obtain ⟨v, hv, rfl⟩ := h
    refine ⟨within_set hb ?_, hsy, hf, hz⟩
    rcases hv with hv | ⟨old, ho, hl⟩
    · exact hv
    · rw [hl]; exact hb _ _ ho
  · obtain ⟨v, hv, rfl⟩ := h; exact ⟨hb, within_set hsy hv, hf, hz⟩
  · obtain ⟨v, hv, rfl⟩ := h; exact ⟨hb, hsy, within_set hf hv, hz⟩
  · obtain ⟨v, hv, rfl⟩ := h; exact ⟨hb, hsy, hf, within_set hz hv⟩
  · obtain ⟨v, w, hv, hw, rfl⟩ := h; exact ⟨hb, hsy, within_set hf hw, within_set hz hv⟩
  · exact h.elim
  · obtain ⟨q, -, -, rfl⟩ := h; exact ⟨hb, hsy, hf, hz⟩

theorem doesOnly_keeps_fit {d : Dest} {m : BitVec 4} {s t : State} (h : DoesOnly d m s t) (hs : s.AllFit) : t.AllFit := by
  rcases h with ⟨e, rfl⟩ | ⟨u, w, hu, -, rfl⟩
  · exact ⟨hs.bytes, hs.symbols, hs.samples, hs.complex⟩
  · have := wrote_keeps_fit hu hs
    exact ⟨this.bytes, this.symbols, this.samples, this.complex⟩

/-- No command makes a buffer longer than `MAXLEN` (R10, R26 to R29). -/
theorem exec_keeps_fit {i : Instr} {s t : State} (h : exec i s = .next t) (hs : s.AllFit) : t.AllFit :=
  doesOnly_keeps_fit (exec_does h) hs

theorem within_empty {α : Type} {n : Nat} (p : Config.Params) (size : α → Nat) :
    Within p size (Vector.replicate n (none : Option α)) := by
  intro i v h; simp at h

theorem reset_allFit : State.reset.AllFit :=
  ⟨within_empty _ _, within_empty _ _, within_empty _ _, within_empty _ _⟩

/-- What a write leaves: `STATUS`, the sequencer, the parameters, and the bank unless it is the destination. -/
theorem wrote_rest {d : Dest} {s u : State} (h : Wrote d s u) :
    u.warn = s.warn ∧ u.err = s.err ∧ u.errInfo = s.errInfo ∧ u.pc = s.pc ∧ u.running = s.running
    ∧ u.program = s.program ∧ u.params = s.params ∧ (d ≠ .cfg → u.cfg = s.cfg) := by
  unfold Wrote at h
  split at h
  · obtain ⟨v, rfl⟩ := h; simp
  · obtain ⟨v, rfl⟩ := h; simp
  · obtain ⟨v, -, rfl⟩ := h; simp
  · obtain ⟨v, -, rfl⟩ := h; simp
  · obtain ⟨v, -, rfl⟩ := h; simp
  · obtain ⟨v, -, rfl⟩ := h; simp
  · obtain ⟨v, w, -, -, rfl⟩ := h; simp
  · exact h.elim
  · obtain ⟨q, -, -, rfl⟩ := h; simp

end Sys2Proof.Machine
end

