-- ==== Sys2Proof/Laws/LeastSquares.lean ====
section
/-! SUPPORT. The enclosure of the least-squares taps (`Sys2Proof/Machine/LeastSquares.lean`) holds the taps that
the normal equations of spec/43_signal_utils.md R147 give. -/

namespace Sys2Proof.Laws

/-! ## Tables, sums and maxima -/

theorem length_table {α : Type} (n : Nat) (f : Nat → α) : (table n f).length = n := by simp [table]

theorem getD_table {α : Type} {n i : Nat} (h : i < n) (f : Nat → α) (d : α) : (table n f).getD i d = f i := by
  simp [table, h]

theorem entry_table {α : Type} {n i j : Nat} (hi : i < n) (hj : j < n) (f : Nat → Nat → α) (d : α) :
    entry (table n fun i => table n fun j => f i j) i j d = f i j := by
  rw [entry, getD_table hi, getD_table hj]

theorem holds_sum_table {n : Nat} {f : Nat → Enclosure} {x : Nat → ℝ} (h : ∀ k < n, (f k).Holds (x k)) :
    (Enclosure.sum (table n f)).Holds (∑ k ∈ Finset.range n, x k) := by
  have key : ∀ l : List Nat, (∀ k ∈ l, (f k).Holds (x k)) → (Enclosure.sum (l.map f)).Holds ((l.map x).sum) := by
    intro l
    induction l with
    | nil => intro _; exact holds_point_of_eq (by simp)
    | cons a l ih =>
      intro h
      exact holds_add (h a (by simp)) (ih fun k hk => h k (by simp [hk]))
  have hx : ((List.range n).map x).sum = ∑ k ∈ Finset.range n, x k := by
    clear h key
    induction n with
    | zero => simp
    | succ n ih => rw [List.range_succ, List.map_append, List.sum_append, ih, Finset.sum_range_succ]; simp
  rw [← hx]
  exact key _ fun k hk => h k (List.mem_range.1 hk)

theorem sum_table (n : Nat) (f : Nat → ℚ) : (table n f).sum = ∑ k ∈ Finset.range n, f k := by
  rw [table]
  induction n with
  | zero => simp
  | succ n ih => rw [List.range_succ, List.map_append, List.sum_append, ih, Finset.sum_range_succ]; simp

theorem abs_le_mag {e : Enclosure} {x : ℝ} (h : e.Holds x) : |x| ≤ (e.mag : ℝ) := by
  obtain ⟨h1, h2⟩ := h
  rw [Enclosure.mag]
  push_cast
  refine abs_le.2 ⟨?_, ?_⟩
  · have := neg_abs_le (e.lo : ℝ)
    have := le_max_left |(e.lo : ℝ)| |(e.hi : ℝ)|
    linarith
  · exact h2.trans ((le_abs_self _).trans (le_max_right _ _))

theorem le_maxOfRats {l : List ℚ} {q : ℚ} (h : q ∈ l) : q ≤ maxOfRats l := by
  induction l with
  | nil => cases h
  | cons a l ih =>
    rcases List.mem_cons.1 h with rfl | h
    · exact le_max_left _ _
    · exact (ih h).trans (le_max_right _ _)

theorem getD_of_allSome {α : Type} {n : Nat} {f : Nat → Option α} {l : List α} (h : allSome (table n f) = some l)
    {k : Nat} (hk : k < n) (d : α) : f k = some (l.getD k d) := by
  have key : ∀ (t : List (Option α)) (l : List α), allSome t = some l → ∀ k < t.length, t[k]? = some (some (l.getD k d)) := by
    intro t
    induction t with
    | nil => intro l _ k hk; simp at hk
    | cons a t ih =>
      intro l h k hk
      cases a with
      | none => simp [allSome] at h
      | some a =>
        simp only [allSome, Option.map_eq_some_iff] at h
        obtain ⟨l', hl', rfl⟩ := h
        cases k with
        | zero => simp
        | succ k =>
          have := ih l' hl' k (by simpa using hk)
          simpa using this
  have := key _ _ h k (by simpa [length_table] using hk)
  simpa [table, hk] using this

/-! ## The integrals -/

theorem cosIntegral_neg (fs : ℝ) (k : ℤ) (f1 f2 : ℝ) : cosIntegral fs (-k) f1 f2 = cosIntegral fs k f1 f2 := by
  by_cases hk : k = 0
  · simp [hk]
  · have h (f : ℝ) : 2 * Real.pi * ((-k : ℤ) : ℝ) * f / fs = -(2 * Real.pi * k * f / fs) := by push_cast; ring
    simp only [cosIntegral, neg_eq_zero, hk, if_false, h, Real.sin_neg]
    push_cast
    rw [mul_neg, div_neg]
    ring

theorem cosIntegral_natAbs (fs : ℝ) (k : ℤ) (f1 f2 : ℝ) :
    cosIntegral fs (k.natAbs : ℤ) f1 f2 = cosIntegral fs k f1 f2 := by
  rcases Int.natAbs_eq k with h | h
  · rw [← h]
  · rw [← cosIntegral_neg, ← h]

theorem holds_cosIntegral {fs f1 f2 e : Enclosure} {rfs r1 r2 : ℝ} {k : Nat} (hfs : fs.Holds rfs) (h1 : f1.Holds r1)
    (h2 : f2.Holds r2) (h : cosIntegralBounds fs k f1 f2 = some e) : e.Holds (cosIntegral rfs k r1 r2) := by
  by_cases hk : k = 0
  · subst hk
    simp only [cosIntegralBounds, if_true] at h
    cases h
    simpa [cosIntegral] using holds_sub h2 h1
  · rw [cosIntegralBounds, if_neg hk] at h
    cases hp : fs.inv? with
    | none => simp [hp] at h
    | some perFs =>
      cases ht : (piEnclosure.mul (.point (2 * (k : ℚ)))).inv? with
      | none => simp [hp, ht] at h
      | some perTurn =>
        simp only [hp, ht] at h
        cases h
        have hturn : (piEnclosure.mul (.point (2 * (k : ℚ)))).Holds (Real.pi * (2 * k)) :=
          holds_mul holds_pi (holds_point_of_eq (by push_cast; rfl))
        have hi := (holds_inv hturn ht).1
        have hp' := (holds_inv hfs hp).1
        have hat {f : Enclosure} {r : ℝ} (hf : f.Holds r) :=
          holds_widen (holds_sin (holds_widen (holds_mul (holds_mul hturn hf) hp')))
        have := holds_widen (holds_mul (holds_mul hfs hi) (holds_sub (hat h2) (hat h1)))
        convert this using 1
        have hk' : ((k : ℤ)) ≠ 0 := by exact_mod_cast hk
        rw [cosIntegral, if_neg hk', div_eq_mul_inv]
        push_cast
        congr 3
        · ring
        · ring_nf
        · ring_nf

theorem holds_band {fs lo hi e : Enclosure} {rfs rlo rhi : ℝ} {k : Nat} (hfs : fs.Holds rfs) (hlo : lo.Holds rlo)
    (hhi : hi.Holds rhi) (h : bandBounds fs lo hi k = some e) :
    e.Holds (cosIntegral rfs k 0 rlo + cosIntegral rfs k rhi (rfs / 2)) := by
  rw [bandBounds] at h
  cases hp : cosIntegralBounds fs k (.point 0) lo with
  | none => simp [hp] at h
  | some pass =>
    cases hs : cosIntegralBounds fs k hi (fs.mul (.point (1 / 2))) with
    | none => rw [hp, hs] at h; cases h
    | some stop =>
      rw [hp, hs] at h
      cases h
      refine holds_add (holds_cosIntegral hfs (holds_point_of_eq (by simp)) hlo hp)
        (holds_cosIntegral hfs hhi ?_ hs)
      rw [div_eq_mul_one_div]
      exact holds_mul hfs (holds_point_of_eq (by norm_num))

/-! ## The linear equations -/

/-- A vector that a contraction moves by at most `rho` is small. -/
theorem le_of_contraction {n : Nat} {E : Matrix (Fin n) (Fin n) ℝ} {v : Fin n → ℝ} {e rho : ℝ}
    (hE : ∀ i, ∑ j, |E i j| ≤ e) (he : e < 1) (hv : ∀ i, |v i| ≤ |∑ j, E i j * v j| + rho) (i : Fin n) :
    |v i| ≤ rho / (1 - e) := by
  obtain ⟨m, -, hm⟩ := Finset.exists_max_image Finset.univ (fun j => |v j|) ⟨i, Finset.mem_univ i⟩
  have h1 : |∑ j, E m j * v j| ≤ e * |v m| := by
    calc |∑ j, E m j * v j| ≤ ∑ j, |E m j * v j| := Finset.abs_sum_le_sum_abs _ _
      _ ≤ ∑ j, |E m j| * |v m| := by
          refine Finset.sum_le_sum fun j _ => ?_
          rw [abs_mul]
          exact mul_le_mul_of_nonneg_left (hm j (Finset.mem_univ j)) (abs_nonneg _)
      _ = (∑ j, |E m j|) * |v m| := by rw [Finset.sum_mul]
      _ ≤ e * |v m| := mul_le_mul_of_nonneg_right (hE m) (abs_nonneg _)
  have h2 := hv m
  have h3 : |v m| ≤ rho / (1 - e) := by
    rw [le_div_iff₀ (by linarith)]; nlinarith
  exact (hm i (Finset.mem_univ i)).trans h3

/-- How far the solution of `Q a = d` lies from `x`, judged with any matrix `R`. -/
theorem solution_near {n : Nat} (Q R : Matrix (Fin n) (Fin n) ℝ) (d x : Fin n → ℝ) {e rho : ℝ}
    (hE : ∀ i, ∑ j, |(if i = j then 1 else 0) - (R * Q) i j| ≤ e) (he : e < 1)
    (hrho : ∀ i, |R.mulVec d i - ∑ j, (R * Q) i j * x j| ≤ rho) (i : Fin n) :
    |Q⁻¹.mulVec d i - x i| ≤ rho / (1 - e) := by
  have hdet : IsUnit Q.det := by
    rw [isUnit_iff_ne_zero]
    intro h0
    obtain ⟨v, hv0, hv⟩ := Matrix.exists_mulVec_eq_zero_iff.2 h0
    apply hv0
    have hRQ : ∀ i, ∑ j, (R * Q) i j * v j = 0 := by
      intro i
      have : (R * Q).mulVec v = 0 := by rw [← Matrix.mulVec_mulVec, hv, Matrix.mulVec_zero]
      exact congrFun this i
    funext i
    have := le_of_contraction (E := fun i j => (if i = j then 1 else 0) - (R * Q) i j) (v := v) (rho := 0) hE he
      (fun i => by
        simp only [sub_mul, Finset.sum_sub_distrib, hRQ i, ite_mul, one_mul, zero_mul]
        simp) i
    simpa using this
  have hQa : Q.mulVec (Q⁻¹.mulVec d) = d := by
    rw [Matrix.mulVec_mulVec, Matrix.mul_nonsing_inv _ hdet, Matrix.one_mulVec]
  generalize Q⁻¹.mulVec d = a at hQa ⊢
  have hRd : ∀ i, ∑ j, (R * Q) i j * a j = R.mulVec d i := by
    intro i
    have : (R * Q).mulVec a = R.mulVec d := by rw [← Matrix.mulVec_mulVec, hQa]
    exact congrFun this i
  refine le_of_contraction (E := fun i j => (if i = j then 1 else 0) - (R * Q) i j) (v := fun i => a i - x i) hE he
    (fun i => ?_) i
  have hsum : ∑ j, ((if i = j then (1 : ℝ) else 0) - (R * Q) i j) * (a j - x j)
      = (a i - x i) - (R.mulVec d i - ∑ j, (R * Q) i j * x j) := by
    simp only [sub_mul, mul_sub, Finset.sum_sub_distrib, ite_mul, one_mul, zero_mul, hRd i]
    simp
    ring
  rw [hsum]
  have h1 := abs_add_le ((a i - x i) - (R.mulVec d i - ∑ j, (R * Q) i j * x j)) (R.mulVec d i - ∑ j, (R * Q) i j * x j)
  rw [sub_add_cancel] at h1
  exact h1.trans (by linarith [hrho i])

/-- `solveBounds` encloses the solution. -/
theorem holds_solve {n : Nat} {q : List (List Enclosure)} {d : List Enclosure} {r : List (List ℚ)}
    {Q : Matrix (Fin n) (Fin n) ℝ} {D : Fin n → ℝ} {l : List Enclosure}
    (hq : ∀ i j : Fin n, (entry q i j (.point 0)).Holds (Q i j)) (hd : ∀ i : Fin n, (d.getD i (.point 0)).Holds (D i))
    (h : solveBounds n q d r = some l) (i : Fin n) : (l.getD i (.point 0)).Holds (Q⁻¹.mulVec D i) := by
  simp only [solveBounds] at h
  split at h
  case isFalse => cases h
  case isTrue he =>
    cases h
    have hRQ : ∀ i j : Fin n, (entry (timesMatrix n r q) i j (.point 0)).Holds
        ((Matrix.of (fun i k : Fin n => ((entry r i k 0 : ℚ) : ℝ)) * Q) i j) := by
      intro i j
      rw [timesMatrix, entry_table i.isLt j.isLt, Matrix.mul_apply, Finset.sum_fin_eq_sum_range]
      refine holds_widen (holds_sum_table fun k hk => ?_)
      rw [dif_pos hk]
      exact holds_mul (holds_point _) (hq ⟨k, hk⟩ j)
    have hRd : ∀ i : Fin n, ((timesVector n r d).getD i (.point 0)).Holds
        ((Matrix.of (fun i k : Fin n => ((entry r i k 0 : ℚ) : ℝ))).mulVec D i) := by
      intro i
      rw [timesVector, getD_table i.isLt]
      simp only [Matrix.mulVec, dotProduct]
      rw [Finset.sum_fin_eq_sum_range]
      refine holds_widen (holds_sum_table fun k hk => ?_)
      rw [dif_pos hk]
      exact holds_mul (holds_point _) (hd ⟨k, hk⟩)
    generalize Matrix.of (fun i k : Fin n => ((entry r i k 0 : ℚ) : ℝ)) = R at hRQ hRd
    have hlen : (timesVector n r d).length = n := by rw [timesVector, length_table]
    generalize timesVector n r d = rd at *
    generalize timesMatrix n r q = rq at *
    have hlx : (rd.map Enclosure.mid).length = n := by simpa using hlen
    generalize hx : rd.map Enclosure.mid = x at *
    have hi : (x.map fun v => (Enclosure.point v).grow (residual n rq rd x / (1 - contraction n rq))).getD i (.point 0)
        = (Enclosure.point (x.getD i 0)).grow (residual n rq rd x / (1 - contraction n rq)) := by
      have : (i : Nat) < x.length := by omega
      simp [this]
    rw [hi]
    refine holds_grow (holds_point _) ?_
    push_cast
    refine solution_near Q R D (fun j => ((x.getD j 0 : ℚ) : ℝ)) (e := contraction n rq) (rho := residual n rq rd x)
      (fun i => ?_) (by exact_mod_cast he) (fun i => ?_) i
    · have h1 : ∑ j, |(if i = j then (1 : ℝ) else 0) - (R * Q) i j|
          ≤ ∑ j : Fin n, ((((Enclosure.point (if (i : Nat) = j then 1 else 0)).sub (entry rq i j (.point 0))).mag : ℚ) : ℝ) := by
        refine Finset.sum_le_sum fun j _ => abs_le_mag (holds_sub (holds_point_of_eq ?_) (hRQ i j))
        by_cases hij : i = j
        · simp [hij]
        · have : (i : Nat) ≠ j := fun hc => hij (Fin.ext hc)
          simp [hij, this]
      refine h1.trans ?_
      have h2 : (table n fun j => ((Enclosure.point (if (i : Nat) = j then 1 else 0)).sub (entry rq i j (.point 0))).mag).sum
          ≤ contraction n rq := by
        refine le_maxOfRats ?_
        rw [table, List.mem_map]
        exact ⟨i, List.mem_range.2 i.isLt, rfl⟩
      have h3 : (table n fun j => ((Enclosure.point (if (i : Nat) = j then 1 else 0)).sub (entry rq i j (.point 0))).mag).sum
          = ∑ j : Fin n, ((Enclosure.point (if (i : Nat) = j then 1 else 0)).sub (entry rq i j (.point 0))).mag := by
        rw [sum_table, ← Fin.sum_univ_eq_sum_range (fun j =>
          ((Enclosure.point (if (i : Nat) = j then 1 else 0)).sub (entry rq i j (.point 0))).mag)]
      rw [h3] at h2
      exact_mod_cast h2
    · have h2 : ((rd.getD i (.point 0)).sub
          (Enclosure.sum (table n fun j => (entry rq i j (.point 0)).mul (.point (x.getD j 0))))).mag
          ≤ residual n rq rd x := by
        refine le_maxOfRats ?_
        rw [table, List.mem_map]
        exact ⟨i, List.mem_range.2 i.isLt, rfl⟩
      have h3 := abs_le_mag (holds_sub (hRd i) (holds_sum_table (n := n)
        (f := fun j => (entry rq i j (.point 0)).mul (.point (x.getD j 0)))
        (x := fun j => if h : j < n then (R * Q) i ⟨j, h⟩ * ((x.getD j 0 : ℚ) : ℝ) else 0) fun j hj => by
          rw [dif_pos hj]; exact holds_mul (hRQ i ⟨j, hj⟩) (holds_point _)))
      rw [Finset.sum_fin_eq_sum_range]
      exact h3.trans (by exact_mod_cast h2)

/-! ## The taps -/

/-- The enclosure of a tap holds the tap. -/
theorem holds_lsqTap {fs lo hi e : Enclosure} {rfs rlo rhi : ℝ} {half n : Nat} (hfs : fs.Holds rfs)
    (hlo : lo.Holds rlo) (hhi : hi.Holds rhi) (h : lsqTapBounds fs lo hi half n = some e) :
    e.Holds (lsqTapReal rfs rlo rhi half n) := by
  rw [lsqTapBounds] at h
  split at h
  case isTrue hn =>
    cases h
    rw [lsqTapReal, dif_neg (by omega)]
    exact holds_point_of_eq (by simp)
  case isFalse hn =>
    have hn' : n < half + 1 := by omega
    cases hb : allSome (table (2 * half + 1) (bandBounds fs lo hi)) with
    | none => simp [hb] at h
    | some bands =>
      cases ht : allSome (table (half + 1) fun k => cosIntegralBounds fs k (.point 0) lo) with
      | none => simp [hb, ht] at h
      | some d =>
        simp only [hb, ht] at h
        cases hs : solveBounds (half + 1) (normalMatrix (half + 1) bands) d
            (approxInverse (half + 1) ((normalMatrix (half + 1) bands).map fun row => row.map Enclosure.mid)) with
        | none => simp [hs] at h
        | some a =>
          simp only [Option.bind_eq_bind, Option.bind_some, hs] at h
          have hband : ∀ k < 2 * half + 1, (bands.getD k (.point 0)).Holds
              (cosIntegral rfs k 0 rlo + cosIntegral rfs k rhi (rfs / 2)) :=
            fun k hk => holds_band hfs hlo hhi (getD_of_allSome hb hk _)
          have hQ : ∀ i j : Fin (half + 1), (entry (normalMatrix (half + 1) bands) i j (.point 0)).Holds
              (lsqMatrix rfs rlo rhi half i j) := by
            intro i j
            rw [normalMatrix, entry_table i.isLt j.isLt]
            have hd := hband ((i : ℤ) - j).natAbs (by omega)
            have hp := hband ((i : ℕ) + j) (by omega)
            rw [cosIntegral_natAbs, cosIntegral_natAbs] at hd
            have := holds_widen (holds_mul (holds_add hd hp) (holds_point_of_eq (q := 1 / 2) (x := 1 / 2) (by norm_num)))
            convert this using 1
            rw [lsqMatrix]
            push_cast
            ring
          have hD : ∀ i : Fin (half + 1), (d.getD i (.point 0)).Holds (lsqTarget rfs rlo half i) :=
            fun i => holds_cosIntegral hfs (holds_point_of_eq (by simp)) hlo (getD_of_allSome ht i.isLt _)
          have ha := holds_solve hQ hD hs ⟨n, hn'⟩
          rw [lsqTapReal, dif_pos hn']
          by_cases h0 : n = 0
          · rw [if_pos h0]
            simp only [h0, if_true] at h
            cases h
            simpa [h0, lsqSolution] using ha
          · rw [if_neg h0]
            simp only [h0, if_false] at h
            cases h
            rw [div_eq_mul_one_div]
            exact holds_widen (holds_mul ha (holds_point_of_eq (by norm_num)))

end Sys2Proof.Laws
end

