-- ==== Sys2Proof/Laws/PerInstr.lean ====
section
/-! SUPPORT. The statement proved for every command: it is well formed, and its word decodes to it with every
operand at every value (spec/30_encoding.md R70 to R75). -/

set_option Elab.async false

namespace Sys2Proof.Laws

/-! ## Fields -/

theorem split_join (c : RawCommand) : splitWord (joinWord c) = c := by
  obtain ⟨op, fa, fb, fc, fd, fe, ff⟩ := c
  simp only [splitWord, joinWord, RawCommand.mk.injEq]
  refine ⟨?_, ?_, ?_, ?_, ?_, ?_, ?_⟩ <;>
  · ext j hj
    simp only [BitVec.getElem_extractLsb', BitVec.getLsbD_append]
    split_ifs <;> first
      | omega
      | (rw [← BitVec.getLsbD_eq_getElem hj]; congr 1; omega)

theorem join_split (w : CmdWord) : joinWord (splitWord w) = w := by
  simp only [splitWord, joinWord]
  ext j hj
  simp only [BitVec.getElem_append, BitVec.getElem_extractLsb']
  split_ifs <;> (rw [← BitVec.getLsbD_eq_getElem hj]; congr 1; omega)

theorem unusedZero_ok_iff {l : List Nibble} {u : Unit} : unusedZero l = .ok u ↔ ∀ v ∈ l, v = 0 := by
  unfold unusedZero
  split
  · rename_i h; simpa using h
  · rename_i h; simp; simpa using h

/-- A class of at most 16 registers fits the 4-bit fields. -/
theorem nib_lt {n : Nat} (hn : n ≤ 16) (i : Fin n) : (nib i).toNat < n := by
  rw [nib, BitVec.toNat_ofNat, Nat.mod_eq_of_lt (by omega)]; exact i.isLt

theorem readReg_nib {n : Nat} (hn : n ≤ 16) (i : Fin n) : readReg n (nib i) = .ok i := by
  have h : (nib i).toNat = i.val := by rw [nib, BitVec.toNat_ofNat, Nat.mod_eq_of_lt (by omega)]
  simp [readReg, h]

@[simp] theorem nib_lt_nx (i : XReg) : (nib i).toNat < Config.nx := nib_lt (by decide) i
@[simp] theorem nib_lt_nr (i : RReg) : (nib i).toNat < Config.nr := nib_lt (by decide) i
@[simp] theorem nib_lt_nb (i : BReg) : (nib i).toNat < Config.nb := nib_lt (by decide) i
@[simp] theorem nib_lt_ns (i : SReg) : (nib i).toNat < Config.ns := nib_lt (by decide) i
@[simp] theorem nib_lt_nf (i : FReg) : (nib i).toNat < Config.nf := nib_lt (by decide) i
@[simp] theorem nib_lt_nz (i : ZReg) : (nib i).toNat < Config.nz := nib_lt (by decide) i

@[simp] theorem regX_nib (i : XReg) : regX (nib i) = .ok i := readReg_nib (by decide) i
@[simp] theorem regR_nib (i : RReg) : regR (nib i) = .ok i := readReg_nib (by decide) i
@[simp] theorem regB_nib (i : BReg) : regB (nib i) = .ok i := readReg_nib (by decide) i
@[simp] theorem regS_nib (i : SReg) : regS (nib i) = .ok i := readReg_nib (by decide) i
@[simp] theorem regF_nib (i : FReg) : regF (nib i) = .ok i := readReg_nib (by decide) i
@[simp] theorem regZ_nib (i : ZReg) : regZ (nib i) = .ok i := readReg_nib (by decide) i

/-- A command is legal by the row of R72 that it matches. -/
theorem legal_of_row {c : RawCommand} (row : Row) (hm : row ∈ opcodeMap)
    (h : (decide (row.op = c.op) && c.modeIs row && c.unusedZero row && c.registersInRange row) = true) :
    c.legal = true :=
  List.any_eq_true.2 ⟨row, hm, h⟩

namespace Encoding

/-- The command is well formed and its word decodes to it. -/
def Statement (i : Instr) : Prop := i.wellFormed = true ∧ decode (encode i) = .ok i

theorem rdbit (xd : XReg) (bs : BReg) (xp : XReg) : Statement (.rdbit xd bs xp) := by
  refine ⟨legal_of_row (.of 0x10 [.x, .b, .x]) (by decide) ?_, ?_⟩
  · simp [Instr.raw, Row.of, RawCommand.modeIs, RawCommand.unusedZero, RawCommand.registersInRange, RawCommand.fieldsMeet,
      FieldKind.admits]
  · simp [decode, encode, split_join, Instr.raw, decodeRaw, ops3, Sys2Proof.unusedZero]
    rfl

theorem rdbits (sd : SReg) (bs : BReg) : Statement (.rdbits sd bs) := by
  refine ⟨legal_of_row (.of 0x11 [.s, .b]) (by decide) ?_, ?_⟩
  · simp [Instr.raw, Row.of, RawCommand.modeIs, RawCommand.unusedZero, RawCommand.registersInRange, RawCommand.fieldsMeet,
      FieldKind.admits]
  · simp [decode, encode, split_join, Instr.raw, decodeRaw, ops2, Sys2Proof.unusedZero]
    rfl

theorem wrbit (bd : BReg) (xp xv : XReg) : Statement (.wrbit bd xp xv) := by
  refine ⟨legal_of_row (.of 0x12 [.b, .x, .x]) (by decide) ?_, ?_⟩
  · simp [Instr.raw, Row.of, RawCommand.modeIs, RawCommand.unusedZero, RawCommand.registersInRange, RawCommand.fieldsMeet,
      FieldKind.admits]
  · simp [decode, encode, split_join, Instr.raw, decodeRaw, ops3, Sys2Proof.unusedZero]
    rfl

theorem enc2 (sd : SReg) (bs : BReg) : Statement (.enc2 sd bs) := by
  refine ⟨legal_of_row (.of 0x21 [.s, .b]) (by decide) ?_, ?_⟩
  · simp [Instr.raw, Row.of, RawCommand.modeIs, RawCommand.unusedZero, RawCommand.registersInRange, RawCommand.fieldsMeet,
      FieldKind.admits]
  · simp [decode, encode, split_join, Instr.raw, decodeRaw, ops2, Sys2Proof.unusedZero]
    rfl

theorem enc4 (sd : SReg) (bs : BReg) : Statement (.enc4 sd bs) := by
  refine ⟨legal_of_row (.of 0x22 [.s, .b]) (by decide) ?_, ?_⟩
  · simp [Instr.raw, Row.of, RawCommand.modeIs, RawCommand.unusedZero, RawCommand.registersInRange, RawCommand.fieldsMeet,
      FieldKind.admits]
  · simp [decode, encode, split_join, Instr.raw, decodeRaw, ops2, Sys2Proof.unusedZero]
    rfl

theorem enc8 (sd : SReg) (bs : BReg) : Statement (.enc8 sd bs) := by
  refine ⟨legal_of_row (.of 0x23 [.s, .b]) (by decide) ?_, ?_⟩
  · simp [Instr.raw, Row.of, RawCommand.modeIs, RawCommand.unusedZero, RawCommand.registersInRange, RawCommand.fieldsMeet,
      FieldKind.admits]
  · simp [decode, encode, split_join, Instr.raw, decodeRaw, ops2, Sys2Proof.unusedZero]
    rfl

theorem enc16 (sd : SReg) (bs : BReg) : Statement (.enc16 sd bs) := by
  refine ⟨legal_of_row (.of 0x24 [.s, .b]) (by decide) ?_, ?_⟩
  · simp [Instr.raw, Row.of, RawCommand.modeIs, RawCommand.unusedZero, RawCommand.registersInRange, RawCommand.fieldsMeet,
      FieldKind.admits]
  · simp [decode, encode, split_join, Instr.raw, decodeRaw, ops2, Sys2Proof.unusedZero]
    rfl

theorem enc32 (sd : SReg) (bs : BReg) : Statement (.enc32 sd bs) := by
  refine ⟨legal_of_row (.of 0x25 [.s, .b]) (by decide) ?_, ?_⟩
  · simp [Instr.raw, Row.of, RawCommand.modeIs, RawCommand.unusedZero, RawCommand.registersInRange, RawCommand.fieldsMeet,
      FieldKind.admits]
  · simp [decode, encode, split_join, Instr.raw, decodeRaw, ops2, Sys2Proof.unusedZero]
    rfl

theorem enc64 (sd : SReg) (bs : BReg) : Statement (.enc64 sd bs) := by
  refine ⟨legal_of_row (.of 0x26 [.s, .b]) (by decide) ?_, ?_⟩
  · simp [Instr.raw, Row.of, RawCommand.modeIs, RawCommand.unusedZero, RawCommand.registersInRange, RawCommand.fieldsMeet,
      FieldKind.admits]
  · simp [decode, encode, split_join, Instr.raw, decodeRaw, ops2, Sys2Proof.unusedZero]
    rfl

theorem enc256 (sd : SReg) (bs : BReg) : Statement (.enc256 sd bs) := by
  refine ⟨legal_of_row (.of 0x28 [.s, .b]) (by decide) ?_, ?_⟩
  · simp [Instr.raw, Row.of, RawCommand.modeIs, RawCommand.unusedZero, RawCommand.registersInRange, RawCommand.fieldsMeet,
      FieldKind.admits]
  · simp [decode, encode, split_join, Instr.raw, decodeRaw, ops2, Sys2Proof.unusedZero]
    rfl

theorem dec2 (bd : BReg) (ss : SReg) : Statement (.dec2 bd ss) := by
  refine ⟨legal_of_row (.of 0x31 [.b, .s]) (by decide) ?_, ?_⟩
  · simp [Instr.raw, Row.of, RawCommand.modeIs, RawCommand.unusedZero, RawCommand.registersInRange, RawCommand.fieldsMeet,
      FieldKind.admits]
  · simp [decode, encode, split_join, Instr.raw, decodeRaw, ops2, Sys2Proof.unusedZero]
    rfl

theorem dec4 (bd : BReg) (ss : SReg) : Statement (.dec4 bd ss) := by
  refine ⟨legal_of_row (.of 0x32 [.b, .s]) (by decide) ?_, ?_⟩
  · simp [Instr.raw, Row.of, RawCommand.modeIs, RawCommand.unusedZero, RawCommand.registersInRange, RawCommand.fieldsMeet,
      FieldKind.admits]
  · simp [decode, encode, split_join, Instr.raw, decodeRaw, ops2, Sys2Proof.unusedZero]
    rfl

theorem dec8 (bd : BReg) (ss : SReg) : Statement (.dec8 bd ss) := by
  refine ⟨legal_of_row (.of 0x33 [.b, .s]) (by decide) ?_, ?_⟩
  · simp [Instr.raw, Row.of, RawCommand.modeIs, RawCommand.unusedZero, RawCommand.registersInRange, RawCommand.fieldsMeet,
      FieldKind.admits]
  · simp [decode, encode, split_join, Instr.raw, decodeRaw, ops2, Sys2Proof.unusedZero]
    rfl

theorem dec16 (bd : BReg) (ss : SReg) : Statement (.dec16 bd ss) := by
  refine ⟨legal_of_row (.of 0x34 [.b, .s]) (by decide) ?_, ?_⟩
  · simp [Instr.raw, Row.of, RawCommand.modeIs, RawCommand.unusedZero, RawCommand.registersInRange, RawCommand.fieldsMeet,
      FieldKind.admits]
  · simp [decode, encode, split_join, Instr.raw, decodeRaw, ops2, Sys2Proof.unusedZero]
    rfl

theorem dec32 (bd : BReg) (ss : SReg) : Statement (.dec32 bd ss) := by
  refine ⟨legal_of_row (.of 0x35 [.b, .s]) (by decide) ?_, ?_⟩
  · simp [Instr.raw, Row.of, RawCommand.modeIs, RawCommand.unusedZero, RawCommand.registersInRange, RawCommand.fieldsMeet,
      FieldKind.admits]
  · simp [decode, encode, split_join, Instr.raw, decodeRaw, ops2, Sys2Proof.unusedZero]
    rfl

theorem dec64 (bd : BReg) (ss : SReg) : Statement (.dec64 bd ss) := by
  refine ⟨legal_of_row (.of 0x36 [.b, .s]) (by decide) ?_, ?_⟩
  · simp [Instr.raw, Row.of, RawCommand.modeIs, RawCommand.unusedZero, RawCommand.registersInRange, RawCommand.fieldsMeet,
      FieldKind.admits]
  · simp [decode, encode, split_join, Instr.raw, decodeRaw, ops2, Sys2Proof.unusedZero]
    rfl

theorem dec256 (bd : BReg) (ss : SReg) : Statement (.dec256 bd ss) := by
  refine ⟨legal_of_row (.of 0x38 [.b, .s]) (by decide) ?_, ?_⟩
  · simp [Instr.raw, Row.of, RawCommand.modeIs, RawCommand.unusedZero, RawCommand.registersInRange, RawCommand.fieldsMeet,
      FieldKind.admits]
  · simp [decode, encode, split_join, Instr.raw, decodeRaw, ops2, Sys2Proof.unusedZero]
    rfl

theorem eccencNone (bd bs : BReg) : Statement (.eccencNone bd bs) := by
  refine ⟨legal_of_row (.ecc 0x40 0) (by decide) ?_, ?_⟩
  · simp [Instr.raw, Row.ecc, RawCommand.modeIs, RawCommand.unusedZero, RawCommand.registersInRange, RawCommand.fieldsMeet,
      FieldKind.admits]
  · simp [decode, encode, split_join, Instr.raw, decodeRaw, opsEcc, Sys2Proof.unusedZero]
    rfl

theorem eccencRaw (bd bs : BReg) : Statement (.eccencRaw bd bs) := by
  refine ⟨legal_of_row (.ecc 0x40 1) (by decide) ?_, ?_⟩
  · simp [Instr.raw, Row.ecc, RawCommand.modeIs, RawCommand.unusedZero, RawCommand.registersInRange, RawCommand.fieldsMeet,
      FieldKind.admits]
  · simp [decode, encode, split_join, Instr.raw, decodeRaw, opsEcc, Sys2Proof.unusedZero]
    rfl

theorem hamenc (bd bs : BReg) : Statement (.hamenc bd bs) := by
  refine ⟨legal_of_row (.ecc 0x40 2) (by decide) ?_, ?_⟩
  · simp [Instr.raw, Row.ecc, RawCommand.modeIs, RawCommand.unusedZero, RawCommand.registersInRange, RawCommand.fieldsMeet,
      FieldKind.admits]
  · simp [decode, encode, split_join, Instr.raw, decodeRaw, opsEcc, Sys2Proof.unusedZero]
    rfl

theorem eccdecNone (bd bs : BReg) : Statement (.eccdecNone bd bs) := by
  refine ⟨legal_of_row (.ecc 0x41 0) (by decide) ?_, ?_⟩
  · simp [Instr.raw, Row.ecc, RawCommand.modeIs, RawCommand.unusedZero, RawCommand.registersInRange, RawCommand.fieldsMeet,
      FieldKind.admits]
  · simp [decode, encode, split_join, Instr.raw, decodeRaw, opsEcc, Sys2Proof.unusedZero]
    rfl

theorem eccdecRaw (bd bs : BReg) : Statement (.eccdecRaw bd bs) := by
  refine ⟨legal_of_row (.ecc 0x41 1) (by decide) ?_, ?_⟩
  · simp [Instr.raw, Row.ecc, RawCommand.modeIs, RawCommand.unusedZero, RawCommand.registersInRange, RawCommand.fieldsMeet,
      FieldKind.admits]
  · simp [decode, encode, split_join, Instr.raw, decodeRaw, opsEcc, Sys2Proof.unusedZero]
    rfl

theorem hamdec (bd bs : BReg) : Statement (.hamdec bd bs) := by
  refine ⟨legal_of_row (.ecc 0x41 2) (by decide) ?_, ?_⟩
  · simp [Instr.raw, Row.ecc, RawCommand.modeIs, RawCommand.unusedZero, RawCommand.registersInRange, RawCommand.fieldsMeet,
      FieldKind.admits]
  · simp [decode, encode, split_join, Instr.raw, decodeRaw, opsEcc, Sys2Proof.unusedZero]
    rfl

theorem timearr (fd : FReg) (rfs : RReg) (xn : XReg) : Statement (.timearr fd rfs xn) := by
  refine ⟨legal_of_row (.of 0x50 [.f, .r, .x]) (by decide) ?_, ?_⟩
  · simp [Instr.raw, Row.of, RawCommand.modeIs, RawCommand.unusedZero, RawCommand.registersInRange, RawCommand.fieldsMeet,
      FieldKind.admits]
  · simp [decode, encode, split_join, Instr.raw, decodeRaw, ops3, Sys2Proof.unusedZero]
    rfl

theorem sps (rd rfs rbaud : RReg) : Statement (.sps rd rfs rbaud) := by
  refine ⟨legal_of_row (.of 0x51 [.r, .r, .r]) (by decide) ?_, ?_⟩
  · simp [Instr.raw, Row.of, RawCommand.modeIs, RawCommand.unusedZero, RawCommand.registersInRange, RawCommand.fieldsMeet,
      FieldKind.admits]
  · simp [decode, encode, split_join, Instr.raw, decodeRaw, ops3, Sys2Proof.unusedZero]
    rfl

theorem shres (fd ft : FReg) (rbaud : RReg) (fv : FReg) : Statement (.shres fd ft rbaud fv) := by
  refine ⟨legal_of_row (.of 0x52 [.f, .f, .r, .f]) (by decide) ?_, ?_⟩
  · simp [Instr.raw, Row.of, RawCommand.modeIs, RawCommand.unusedZero, RawCommand.registersInRange, RawCommand.fieldsMeet,
      FieldKind.admits]
  · simp [decode, encode, split_join, Instr.raw, decodeRaw, ops4, Sys2Proof.unusedZero]
    rfl

theorem gausswin (fd : FReg) (rfs rsigma : RReg) : Statement (.gausswin fd rfs rsigma) := by
  refine ⟨legal_of_row (.of 0x53 [.f, .r, .r]) (by decide) ?_, ?_⟩
  · simp [Instr.raw, Row.of, RawCommand.modeIs, RawCommand.unusedZero, RawCommand.registersInRange, RawCommand.fieldsMeet,
      FieldKind.admits]
  · simp [decode, encode, split_join, Instr.raw, decodeRaw, ops3, Sys2Proof.unusedZero]
    rfl

theorem lpfir (fd : FReg) (rfs rlo rhi : RReg) : Statement (.lpfir fd rfs rlo rhi) := by
  refine ⟨legal_of_row (.of 0x54 [.f, .r, .r, .r]) (by decide) ?_, ?_⟩
  · simp [Instr.raw, Row.of, RawCommand.modeIs, RawCommand.unusedZero, RawCommand.registersInRange, RawCommand.fieldsMeet,
      FieldKind.admits]
  · simp [decode, encode, split_join, Instr.raw, decodeRaw, ops4, Sys2Proof.unusedZero]
    rfl

theorem lpfira (fd : FReg) (rfs rlo rhi ratt : RReg) : Statement (.lpfira fd rfs rlo rhi ratt) := by
  refine ⟨legal_of_row (.of 0x55 [.f, .r, .r, .r, .r]) (by decide) ?_, ?_⟩
  · simp [Instr.raw, Row.of, RawCommand.modeIs, RawCommand.unusedZero, RawCommand.registersInRange, RawCommand.fieldsMeet,
      FieldKind.admits]
  · simp [decode, encode, split_join, Instr.raw, decodeRaw, ops5, Sys2Proof.unusedZero]
    rfl

theorem goertz (zd : ZReg) (fd : FReg) (rfreq rfs : RReg) : Statement (.goertz zd fd rfreq rfs) := by
  refine ⟨legal_of_row (.of 0x56 [.z, .f, .r, .r]) (by decide) ?_, ?_⟩
  · simp [Instr.raw, Row.of, RawCommand.modeIs, RawCommand.unusedZero, RawCommand.registersInRange, RawCommand.fieldsMeet,
      FieldKind.admits]
  · simp [decode, encode, split_join, Instr.raw, decodeRaw, ops4, Sys2Proof.unusedZero]
    rfl

theorem avgint (rd : RReg) (fa : FReg) (rbegin rend : RReg) : Statement (.avgint rd fa rbegin rend) := by
  refine ⟨legal_of_row (.of 0x57 [.r, .f, .r, .r]) (by decide) ?_, ?_⟩
  · simp [Instr.raw, Row.of, RawCommand.modeIs, RawCommand.unusedZero, RawCommand.registersInRange, RawCommand.fieldsMeet,
      FieldKind.admits]
  · simp [decode, encode, split_join, Instr.raw, decodeRaw, ops4, Sys2Proof.unusedZero]
    rfl

theorem conv (fd fa fk : FReg) : Statement (.conv fd fa fk) := by
  refine ⟨legal_of_row (.of 0x58 [.f, .f, .f]) (by decide) ?_, ?_⟩
  · simp [Instr.raw, Row.of, RawCommand.modeIs, RawCommand.unusedZero, RawCommand.registersInRange, RawCommand.fieldsMeet,
      FieldKind.admits]
  · simp [decode, encode, split_join, Instr.raw, decodeRaw, ops3, Sys2Proof.unusedZero]
    rfl

theorem cfgask (rfs rcar rbaud : RReg) (famp : FReg) : Statement (.cfgask rfs rcar rbaud famp) := by
  refine ⟨legal_of_row (.of 0x60 [.r, .r, .r, .f]) (by decide) ?_, ?_⟩
  · simp [Instr.raw, Row.of, RawCommand.modeIs, RawCommand.unusedZero, RawCommand.registersInRange, RawCommand.fieldsMeet,
      FieldKind.admits]
  · simp [decode, encode, split_join, Instr.raw, decodeRaw, ops4, Sys2Proof.unusedZero]
    rfl

theorem cfgfsk (rfs ramp rbaud : RReg) (ffreq : FReg) : Statement (.cfgfsk rfs ramp rbaud ffreq) := by
  refine ⟨legal_of_row (.of 0x61 [.r, .r, .r, .f]) (by decide) ?_, ?_⟩
  · simp [Instr.raw, Row.of, RawCommand.modeIs, RawCommand.unusedZero, RawCommand.registersInRange, RawCommand.fieldsMeet,
      FieldKind.admits]
  · simp [decode, encode, split_join, Instr.raw, decodeRaw, ops4, Sys2Proof.unusedZero]
    rfl

theorem cfgpsk (rfs rcar ramp rbaud : RReg) (fph : FReg) : Statement (.cfgpsk rfs rcar ramp rbaud fph) := by
  refine ⟨legal_of_row (.of 0x62 [.r, .r, .r, .r, .f]) (by decide) ?_, ?_⟩
  · simp [Instr.raw, Row.of, RawCommand.modeIs, RawCommand.unusedZero, RawCommand.registersInRange, RawCommand.fieldsMeet,
      FieldKind.admits]
  · simp [decode, encode, split_join, Instr.raw, decodeRaw, ops5, Sys2Proof.unusedZero]
    rfl

theorem cfgqam (rfs rcar rbaud : RReg) (zcon : ZReg) : Statement (.cfgqam rfs rcar rbaud zcon) := by
  refine ⟨legal_of_row (.of 0x63 [.r, .r, .r, .z]) (by decide) ?_, ?_⟩
  · simp [Instr.raw, Row.of, RawCommand.modeIs, RawCommand.unusedZero, RawCommand.registersInRange, RawCommand.fieldsMeet,
      FieldKind.admits]
  · simp [decode, encode, split_join, Instr.raw, decodeRaw, ops4, Sys2Proof.unusedZero]
    rfl

theorem slice (sd : SReg) (fobs : FReg) : Statement (.slice sd fobs) := by
  refine ⟨legal_of_row (.of 0x68 [.s, .f]) (by decide) ?_, ?_⟩
  · simp [Instr.raw, Row.of, RawCommand.modeIs, RawCommand.unusedZero, RawCommand.registersInRange, RawCommand.fieldsMeet,
      FieldKind.admits]
  · simp [decode, encode, split_join, Instr.raw, decodeRaw, ops2, Sys2Proof.unusedZero]
    rfl

theorem slicez (sd : SReg) (zobs : ZReg) : Statement (.slicez sd zobs) := by
  refine ⟨legal_of_row (.of 0x69 [.s, .z]) (by decide) ?_, ?_⟩
  · simp [Instr.raw, Row.of, RawCommand.modeIs, RawCommand.unusedZero, RawCommand.registersInRange, RawCommand.fieldsMeet,
      FieldKind.admits]
  · simp [decode, encode, split_join, Instr.raw, decodeRaw, ops2, Sys2Proof.unusedZero]
    rfl

theorem modask (fd : FReg) (ss : SReg) : Statement (.modask fd ss) := by
  refine ⟨legal_of_row (.of 0x70 [.f, .s]) (by decide) ?_, ?_⟩
  · simp [Instr.raw, Row.of, RawCommand.modeIs, RawCommand.unusedZero, RawCommand.registersInRange, RawCommand.fieldsMeet,
      FieldKind.admits]
  · simp [decode, encode, split_join, Instr.raw, decodeRaw, ops2, Sys2Proof.unusedZero]
    rfl

theorem modfsk (fd : FReg) (ss : SReg) : Statement (.modfsk fd ss) := by
  refine ⟨legal_of_row (.of 0x71 [.f, .s]) (by decide) ?_, ?_⟩
  · simp [Instr.raw, Row.of, RawCommand.modeIs, RawCommand.unusedZero, RawCommand.registersInRange, RawCommand.fieldsMeet,
      FieldKind.admits]
  · simp [decode, encode, split_join, Instr.raw, decodeRaw, ops2, Sys2Proof.unusedZero]
    rfl

theorem modpsk (fd : FReg) (ss : SReg) : Statement (.modpsk fd ss) := by
  refine ⟨legal_of_row (.of 0x72 [.f, .s]) (by decide) ?_, ?_⟩
  · simp [Instr.raw, Row.of, RawCommand.modeIs, RawCommand.unusedZero, RawCommand.registersInRange, RawCommand.fieldsMeet,
      FieldKind.admits]
  · simp [decode, encode, split_join, Instr.raw, decodeRaw, ops2, Sys2Proof.unusedZero]
    rfl

theorem modqam (fd : FReg) (ss : SReg) : Statement (.modqam fd ss) := by
  refine ⟨legal_of_row (.of 0x73 [.f, .s]) (by decide) ?_, ?_⟩
  · simp [Instr.raw, Row.of, RawCommand.modeIs, RawCommand.unusedZero, RawCommand.registersInRange, RawCommand.fieldsMeet,
      FieldKind.admits]
  · simp [decode, encode, split_join, Instr.raw, decodeRaw, ops2, Sys2Proof.unusedZero]
    rfl

theorem demask (sd : SReg) (fx : FReg) : Statement (.demask sd fx) := by
  refine ⟨legal_of_row (.of 0x78 [.s, .f]) (by decide) ?_, ?_⟩
  · simp [Instr.raw, Row.of, RawCommand.modeIs, RawCommand.unusedZero, RawCommand.registersInRange, RawCommand.fieldsMeet,
      FieldKind.admits]
  · simp [decode, encode, split_join, Instr.raw, decodeRaw, ops2, Sys2Proof.unusedZero]
    rfl

theorem demfsk (sd : SReg) (fx : FReg) : Statement (.demfsk sd fx) := by
  refine ⟨legal_of_row (.of 0x79 [.s, .f]) (by decide) ?_, ?_⟩
  · simp [Instr.raw, Row.of, RawCommand.modeIs, RawCommand.unusedZero, RawCommand.registersInRange, RawCommand.fieldsMeet,
      FieldKind.admits]
  · simp [decode, encode, split_join, Instr.raw, decodeRaw, ops2, Sys2Proof.unusedZero]
    rfl

theorem dempsk (sd : SReg) (fx : FReg) : Statement (.dempsk sd fx) := by
  refine ⟨legal_of_row (.of 0x7A [.s, .f]) (by decide) ?_, ?_⟩
  · simp [Instr.raw, Row.of, RawCommand.modeIs, RawCommand.unusedZero, RawCommand.registersInRange, RawCommand.fieldsMeet,
      FieldKind.admits]
  · simp [decode, encode, split_join, Instr.raw, decodeRaw, ops2, Sys2Proof.unusedZero]
    rfl

theorem demqam (sd : SReg) (fx : FReg) : Statement (.demqam sd fx) := by
  refine ⟨legal_of_row (.of 0x7B [.s, .f]) (by decide) ?_, ?_⟩
  · simp [Instr.raw, Row.of, RawCommand.modeIs, RawCommand.unusedZero, RawCommand.registersInRange, RawCommand.fieldsMeet,
      FieldKind.admits]
  · simp [decode, encode, split_join, Instr.raw, decodeRaw, ops2, Sys2Proof.unusedZero]
    rfl

end Encoding

end Sys2Proof.Laws
end

