-- ==== Sys2Proof/Laws/Real.lean ====
section
/-! SUPPORT. The folding operations of `Sys2Proof/Machine/Real.lean` stand for the real operations; what the
operations of a numeric domain are in each of the two; the answers that the order and the floor fall back on are those of the reals; rationals compare as rationals. -/

namespace Sys2Proof

open XNum

@[simp] theorem toReal_rat (q : ℚ) : (XNum.rat q).toReal = q := rfl
@[simp] theorem toReal_pi : XNum.pi.toReal = Real.pi := rfl
@[simp] theorem toReal_ofInt (i : Int) : (XNum.ofInt i).toReal = i := by simp [XNum.ofInt]
@[simp] theorem toReal_ofNat (n : Nat) : (XNum.ofNat n).toReal = n := by simp [XNum.ofNat]

@[simp] theorem toReal_add (a b : XNum) : (a.add b).toReal = a.toReal + b.toReal := by
  rw [XNum.add.eq_def]
  split
  · simp
  · split
    case isTrue h => simp [h]
    case isFalse => rfl
  · split
    case isTrue h => simp [h]
    case isFalse => rfl
  · rfl

@[simp] theorem toReal_neg (a : XNum) : a.neg.toReal = -a.toReal := by
  rw [XNum.neg.eq_def]
  split
  · simp
  · rfl

@[simp] theorem toReal_sub (a b : XNum) : (a.sub b).toReal = a.toReal - b.toReal := by
  rw [XNum.sub.eq_def]
  split
  · simp
  · split
    case isTrue h => simp [h, XNum.toReal]
    case isFalse => rfl
  · split
    case isTrue h => simp [h]
    case isFalse => rfl
  · rfl

@[simp] theorem toReal_mul (a b : XNum) : (a.mul b).toReal = a.toReal * b.toReal := by
  rw [XNum.mul.eq_def]
  split
  · simp
  · split
    case isTrue h => simp [h]
    case isFalse =>
      split
      case isTrue h => simp [h]
      case isFalse => rfl
  · split
    case isTrue h => simp [h]
    case isFalse =>
      split
      case isTrue h => simp [h]
      case isFalse => rfl
  · rfl

@[simp] theorem toReal_div (a b : XNum) : (a.div b).toReal = a.toReal / b.toReal := by
  rw [XNum.div.eq_def]
  split
  · simp
  · split
    case isTrue h => simp [h]
    case isFalse => rfl
  · split
    case isTrue h => simp [h]
    case isFalse => rfl
  · rfl

theorem ratSq_spec {a : XNum} {q : ℚ} (h : a.ratSq? = some q) : (q : ℝ) = a.toReal * a.toReal := by
  fun_induction XNum.ratSq? a generalizing q with
  | case1 p => cases h; simp
  | case2 p =>
    cases h
    show ((max p 0 : ℚ) : ℝ) = √p * √p
    rcases le_total 0 p with hp | hp
    · rw [max_eq_left hp, Real.mul_self_sqrt (by exact_mod_cast hp)]
    · rw [max_eq_right hp, Real.sqrt_eq_zero_of_nonpos (by exact_mod_cast hp)]; simp
  | case3 a ih => rw [ih h]; simp [XNum.toReal]
  | case4 a b iha ihb =>
    simp only [Option.bind_eq_bind, Option.bind_eq_some_iff] at h
    obtain ⟨x, hx, y, hy, h⟩ := h
    cases h
    rw [Rat.cast_mul, iha hx, ihb hy, XNum.toReal]; ring
  | case5 a b iha ihb =>
    simp only [Option.bind_eq_bind, Option.bind_eq_some_iff] at h
    obtain ⟨x, hx, y, hy, h⟩ := h
    cases h
    rw [Rat.cast_div, iha hx, ihb hy, XNum.toReal, div_mul_div_comm]
  | case6 => cases h

@[simp] theorem toReal_sq (a : XNum) : a.sq.toReal = a.toReal * a.toReal := by
  rw [XNum.sq]
  split
  case h_1 q h => exact ratSq_spec h
  case h_2 => exact toReal_mul a a

theorem halfTurns_spec {a : XNum} {q : ℚ} (h : a.halfTurns? = some q) : a.toReal = q * Real.pi := by
  fun_induction XNum.halfTurns? a generalizing q with
  | case1 => cases h; simp
  | case2 => cases h
  | case3 => cases h; simp
  | case4 p a ih =>
    simp only [Option.bind_eq_bind, Option.bind_eq_some_iff] at h
    obtain ⟨x, hx, h⟩ := h
    cases h
    simp only [XNum.toReal, ih hx]; push_cast; ring
  | case5 a p _ ih =>
    simp only [Option.bind_eq_bind, Option.bind_eq_some_iff] at h
    obtain ⟨x, hx, h⟩ := h
    cases h
    simp only [XNum.toReal, ih hx]; push_cast; ring
  | case6 a p ih =>
    simp only [Option.bind_eq_bind, Option.bind_eq_some_iff] at h
    obtain ⟨x, hx, h⟩ := h
    cases h
    simp only [XNum.toReal, ih hx]; push_cast; ring
  | case7 a b iha ihb =>
    simp only [Option.bind_eq_bind, Option.bind_eq_some_iff] at h
    obtain ⟨x, hx, y, hy, h⟩ := h
    cases h
    simp only [XNum.toReal, iha hx, ihb hy]; push_cast; ring
  | case8 a b iha ihb =>
    simp only [Option.bind_eq_bind, Option.bind_eq_some_iff] at h
    obtain ⟨x, hx, y, hy, h⟩ := h
    cases h
    simp only [XNum.toReal, iha hx, ihb hy]; push_cast; ring
  | case9 a ih =>
    simp only [Option.bind_eq_bind, Option.bind_eq_some_iff] at h
    obtain ⟨x, hx, h⟩ := h
    cases h
    simp only [XNum.toReal, ih hx]; push_cast; ring
  | case10 => cases h

theorem cosOfHalfTurns_spec {q c : ℚ} (h : cosOfHalfTurns? q = some c) : Real.cos (q * Real.pi) = c := by
  have turn : ∀ r : ℚ, q - 2 * (q / 2).floor = r → Real.cos (q * Real.pi) = Real.cos (r * Real.pi) := by
    intro r hr
    rw [show (q : ℝ) * Real.pi = r * Real.pi + (q / 2).floor * (2 * Real.pi) by rw [← hr]; push_cast; ring,
      Real.cos_add_int_mul_two_pi]
  have third : Real.cos (2 / 3 * Real.pi) = -1 / 2 := by
    rw [show 2 / 3 * Real.pi = Real.pi - Real.pi / 3 by ring, Real.cos_pi_sub, Real.cos_pi_div_three]; ring
  simp only [cosOfHalfTurns?] at h
  split_ifs at h with h0 h1 h2 h3 h4 <;> cases h
  · rw [turn _ h0]; simp
  · rcases h1 with h1 | h1
    · rw [turn _ h1]; push_cast
      rw [show (1 / 3 : ℝ) * Real.pi = Real.pi / 3 by ring, Real.cos_pi_div_three]
    · rw [turn _ h1]; push_cast
      rw [show (5 / 3 : ℝ) * Real.pi = 2 * Real.pi - Real.pi / 3 by ring, Real.cos_two_pi_sub, Real.cos_pi_div_three]
  · rcases h2 with h2 | h2
    · rw [turn _ h2]; push_cast
      rw [show (1 / 2 : ℝ) * Real.pi = Real.pi / 2 by ring, Real.cos_pi_div_two]
    · rw [turn _ h2]; push_cast
      rw [show (3 / 2 : ℝ) * Real.pi = 2 * Real.pi - Real.pi / 2 by ring, Real.cos_two_pi_sub, Real.cos_pi_div_two]
  · rcases h3 with h3 | h3
    · rw [turn _ h3]; push_cast; exact third
    · rw [turn _ h3]; push_cast
      rw [show (4 / 3 : ℝ) * Real.pi = 2 * Real.pi - 2 / 3 * Real.pi by ring, Real.cos_two_pi_sub, third]
  · rw [turn _ h4]; simp

@[simp] theorem toReal_cos (a : XNum) : a.cos.toReal = Real.cos a.toReal := by
  rw [XNum.cos]
  split
  case h_1 c h =>
    obtain ⟨q, hq, hc⟩ := Option.bind_eq_some_iff.1 h
    rw [halfTurns_spec hq, cosOfHalfTurns_spec hc]; rfl
  case h_2 => rfl

@[simp] theorem toReal_sin (a : XNum) : a.sin.toReal = Real.sin a.toReal := by
  rw [XNum.sin]
  split
  case h_1 c h =>
    obtain ⟨q, hq, hc⟩ := Option.bind_eq_some_iff.1 h
    rw [halfTurns_spec hq, ← Real.cos_sub_pi_div_two, toReal_rat, ← cosOfHalfTurns_spec hc]
    congr 1; push_cast; ring
  case h_2 => rfl

@[simp] theorem toReal_exp (a : XNum) : a.exp.toReal = Real.exp a.toReal := by
  rw [XNum.exp]
  split
  case isTrue h => simp [h]
  case isFalse => rfl

theorem ratSqrt_spec {q r : ℚ} (h : ratSqrt? q = some r) : 0 ≤ r ∧ r * r = q := by
  simp only [ratSqrt?] at h
  split at h
  case isTrue h' => cases h; exact h'
  case isFalse => cases h

@[simp] theorem toReal_sqrt (a : XNum) : a.sqrt.toReal = Real.sqrt a.toReal := by
  rw [XNum.sqrt.eq_def]
  split
  case h_1 q =>
    split
    case h_1 r h =>
      obtain ⟨h0, hq⟩ := ratSqrt_spec h
      have h0' : (0 : ℝ) ≤ r := by exact_mod_cast h0
      have hq' : (q : ℝ) = r * r := by exact_mod_cast hq.symm
      simp [hq', Real.sqrt_mul_self h0']
    case h_2 => rfl
  case h_2 => rfl

theorem toReal_foldl_add (l : List XNum) (a : XNum) :
    (l.foldl XNum.add a).toReal = a.toReal + (l.map XNum.toReal).sum := by
  induction l generalizing a with
  | nil => simp
  | cons b l ih => rw [List.foldl_cons, ih, toReal_add, List.map_cons, List.sum_cons, add_assoc]

@[simp] theorem toReal_sum (l : List XNum) : (XNum.sum l).toReal = (l.map XNum.toReal).sum := by
  rw [XNum.sum, toReal_foldl_add]; simp

/-! ## The numeric domain -/

section NumDomain

open Config (NumDomain)

variable (a b : XNum)

@[simp] theorem exact_add : NumDomain.exact.add a b = a.add b := rfl
@[simp] theorem exact_sub : NumDomain.exact.sub a b = a.sub b := rfl
@[simp] theorem exact_mul : NumDomain.exact.mul a b = a.mul b := rfl
@[simp] theorem exact_div : NumDomain.exact.div a b = a.div b := rfl
@[simp] theorem exact_sq : NumDomain.exact.sq a = a.sq := rfl
@[simp] theorem exact_neg : NumDomain.exact.neg a = a.neg := rfl
@[simp] theorem exact_cos : NumDomain.exact.cos a = a.cos := rfl
@[simp] theorem exact_sin : NumDomain.exact.sin a = a.sin := rfl
@[simp] theorem exact_exp : NumDomain.exact.exp a = a.exp := rfl
@[simp] theorem exact_sqrt : NumDomain.exact.sqrt a = a.sqrt := rfl
@[simp] theorem exact_pi : NumDomain.exact.pi = .pi := rfl
@[simp] theorem exact_sum (l : List XNum) : NumDomain.exact.sum l = XNum.sum l := rfl
@[simp] theorem exact_dist : NumDomain.exact.dist a b = a.dist b := rfl
@[simp] theorem exact_filterTap (fs lo hi : XNum) (half n : Nat) :
    NumDomain.exact.filterTap fs lo hi half n = .lsqTap fs lo hi half n := rfl

@[simp] theorem toReal_twoPi : NumDomain.exact.twoPi.toReal = 2 * Real.pi := by simp [NumDomain.twoPi]

theorem toReal_abs (c : Cplx) :
    (NumDomain.exact.abs c).toReal = Real.sqrt (c.re.toReal * c.re.toReal + c.im.toReal * c.im.toReal) := by
  simp [NumDomain.abs]

end NumDomain

/-! ## Order and floor -/

/-- The answer where the enclosures give none. -/
theorem decide_exactLe (a b : XNum) : @decide _ (XNum.exactLe a b) = true ↔ a.toReal ≤ b.toReal :=
  @decide_eq_true_iff _ (XNum.exactLe a b)

/-- The floor where the enclosure gives none. -/
theorem exactFloor_eq (a : XNum) : (XNum.exactFloor a).1 = ⌊a.toReal⌋ := (XNum.exactFloor a).2

@[simp] theorem floor_rat (q : ℚ) : (XNum.rat q).floor = ⌊q⌋ := by
  simp only [XNum.floor, XNum.bounds, Enclosure.point, if_true]
  rfl

@[simp] theorem le_rat (p q : ℚ) : (XNum.rat p).le (XNum.rat q) = decide (p ≤ q) := rfl

@[simp] theorem lt_rat (p q : ℚ) : (XNum.rat p).lt (XNum.rat q) = decide (p < q) := by
  simp [XNum.lt, ← not_le]

theorem le_refl_term (a : XNum) : a.le a = true := by
  rw [XNum.le.eq_def]
  split
  · simp
  · simp [XNum.leTerm]

theorem eq_rat (p q : ℚ) : (XNum.rat p).eq (XNum.rat q) = decide (p = q) := by
  simp only [XNum.eq, le_rat]
  rw [← Bool.decide_and]
  exact decide_eq_decide.2 ⟨fun h => le_antisymm h.1 h.2, fun h => ⟨h.le, h.ge⟩⟩

end Sys2Proof
end

