-- ==== Sys2Proof/Laws/Signal.lean ====
section
/-! SUPPORT. What the shared operations of the codecs, the signal utilities and the modems deliver: bits in the
terms of `Safety`, lengths, elements, and the counts they start from. -/

namespace Sys2Proof.Machine

/-! ## The numeric domain -/

section NumDomain

open Config (NumDomain)

variable (d : NumDomain) (a b : XNum) (x y : ℝ)

@[simp] theorem exact_addR : NumDomain.exact.addR x y = x + y := rfl
@[simp] theorem exact_subR : NumDomain.exact.subR x y = x - y := rfl
@[simp] theorem exact_mulR : NumDomain.exact.mulR x y = x * y := rfl
@[simp] theorem exact_divR : NumDomain.exact.divR x y = x / y := rfl
@[simp] theorem exact_negR : NumDomain.exact.negR x = -x := rfl
@[simp] theorem exact_cosR : NumDomain.exact.cosR x = Real.cos x := rfl
@[simp] theorem exact_sinR : NumDomain.exact.sinR x = Real.sin x := rfl
@[simp] theorem exact_sqrtR : NumDomain.exact.sqrtR x = √x := rfl
@[simp] theorem exact_piR : NumDomain.exact.piR = Real.pi := rfl

/-! In either domain a term made by an operation stands for the value of that operation on the reals that the
operands stand for (R12). -/

@[simp] theorem num_add : (d.add a b).toReal = d.addR a.toReal b.toReal := by
  cases d
  · exact toReal_add a b
  · simp [NumDomain.add, NumDomain.result₂, NumDomain.result, XNum.toReal, NumDomain.addR, NumDomain.real]

@[simp] theorem num_sub : (d.sub a b).toReal = d.subR a.toReal b.toReal := by
  cases d
  · exact toReal_sub a b
  · simp [NumDomain.sub, NumDomain.result₂, NumDomain.result, XNum.toReal, NumDomain.subR, NumDomain.real]

@[simp] theorem num_mul : (d.mul a b).toReal = d.mulR a.toReal b.toReal := by
  cases d
  · exact toReal_mul a b
  · simp [NumDomain.mul, NumDomain.result₂, NumDomain.result, XNum.toReal, NumDomain.mulR, NumDomain.real]

@[simp] theorem num_div : (d.div a b).toReal = d.divR a.toReal b.toReal := by
  cases d
  · exact toReal_div a b
  · simp [NumDomain.div, NumDomain.result₂, NumDomain.result, XNum.toReal, NumDomain.divR, NumDomain.real]

@[simp] theorem num_neg : (d.neg a).toReal = d.negR a.toReal := by
  cases d
  · exact toReal_neg a
  · simp [NumDomain.neg, NumDomain.result₁, NumDomain.result, XNum.toReal, NumDomain.negR, NumDomain.real]

@[simp] theorem num_cos : (d.cos a).toReal = d.cosR a.toReal := by
  cases d
  · exact toReal_cos a
  · simp [NumDomain.cos, NumDomain.result₁, NumDomain.result, XNum.toReal, NumDomain.cosR, NumDomain.real]

@[simp] theorem num_sin : (d.sin a).toReal = d.sinR a.toReal := by
  cases d
  · exact toReal_sin a
  · simp [NumDomain.sin, NumDomain.result₁, NumDomain.result, XNum.toReal, NumDomain.sinR, NumDomain.real]

@[simp] theorem num_sqrt : (d.sqrt a).toReal = d.sqrtR a.toReal := by
  cases d
  · exact toReal_sqrt a
  · simp [NumDomain.sqrt, NumDomain.result₁, NumDomain.result, XNum.toReal, NumDomain.sqrtR, NumDomain.real]

@[simp] theorem num_pi : d.pi.toReal = d.piR := by
  cases d
  · rfl
  · simp [NumDomain.pi, NumDomain.result₁, NumDomain.result, XNum.toReal, NumDomain.piR, NumDomain.real]

@[simp] theorem num_sq : (d.sq a).toReal = d.mulR a.toReal a.toReal := by
  cases d
  · exact toReal_sq a
  · simp [NumDomain.sq, NumDomain.result₂, NumDomain.result, XNum.toReal, NumDomain.mulR, NumDomain.real]

@[simp] theorem num_filterTap (fs lo hi : XNum) (half n : Nat) :
    (d.filterTap fs lo hi half n).toReal = d.real (.filterTap half n) fs.toReal lo.toReal hi.toReal := by cases d <;> rfl

@[simp] theorem num_twoPi : d.twoPi.toReal = d.mulR 2 d.piR := by simp [NumDomain.twoPi]

@[simp] theorem num_abs (c : Cplx) : (d.abs c).toReal = modulus d c.re.toReal c.im.toReal := by
  simp [NumDomain.abs, modulus]

end NumDomain

/-! ## Bits -/

/-- The stream bit of R51 is the model's `streamBit`. -/
theorem bitOf_eq_streamBit (v : List Byte) (p : Nat) : bitOf v p = (streamBit v p).toNat := by
  unfold bitOf streamBit
  rw [BitVec.getLsbD, Nat.testBit, Nat.and_comm, Nat.and_one_is_mod, Nat.shiftRight_eq_div_pow]
  rcases Nat.mod_two_eq_zero_or_one ((v.getD (p / 8) 0).toNat / 2 ^ (7 - p % 8)) with h | h <;> rw [h] <;> rfl

/-- A group of bits is the number of its digits. -/
theorem numberOf_eq_groupVal (n p : Nat) (bit : Nat → Bool) (digit : Nat → Nat)
    (h : ∀ j < n, digit j = (bit (p + j)).toNat) : numberOf n digit = groupVal bit p n := by
  rw [groupVal_eq_sum, numberOf]
  exact Finset.sum_congr rfl fun j hj => by rw [h j (Finset.mem_range.1 hj)]

/-! ## Elements and counts -/

theorem realAt_of_lt {l : List XNum} {i : Nat} (h : i < l.length) : realAt l i = (l[i]).toReal := by
  rw [realAt, List.getD_eq_getElem _ _ h]

/-- A count that fits, fits as the length of what is delivered. -/
theorem overMax_toNat {p : Config.Params} {n : Int} (h : overMax p n = false) : overMax p (n.toNat : Nat) = false := by
  rcases le_or_gt 0 n with h0 | h0
  · rwa [Int.toNat_of_nonneg h0]
  · rw [Int.toNat_of_nonpos h0.le]
    unfold overMax
    split <;> simp

/-- The sum of a list of reals made from a range. -/
theorem sum_map_range (f : Nat → ℝ) (n : Nat) : ((List.range n).map f).sum = ∑ m ∈ Finset.range n, f m := by
  induction n with
  | zero => simp
  | succ n ih => simp [List.range_succ, Finset.sum_range_succ, ih]

/-! ## Lengths -/

variable (d : Config.NumDomain)

@[simp] theorem timeGrid_length (fs : XNum) (n : Nat) : (timeGrid d fs n).length = n := by simp [timeGrid]

/-- R141: sample time `i` is `i/fs`. -/
theorem timeGrid_toReal (fs : XNum) (n i : Nat) (h : i < (timeGrid .exact fs n).length) :
    ((timeGrid .exact fs n)[i]).toReal = i / fs.toReal := by
  simp only [timeGrid, List.getElem_map, List.getElem_range]
  split <;> simp [*]

@[simp] theorem resample_length (t : List XNum) (baud : XNum) (v : List XNum) :
    (resample d t baud v).length = t.length := by simp [resample]

@[simp] theorem convSame_length (u w : List XNum) : (convSame d u w).length = u.length := by simp [convSame]

@[simp] theorem gauss_length (fs sigma : XNum) : (gauss d fs sigma).length = (gaussLength d fs sigma).toNat := by
  simp [gauss]

@[simp] theorem lsfir_length (fs lo hi : XNum) (n : Nat) : (lsfir d fs lo hi n).length = n := by simp [lsfir]

@[simp] theorem sampleTimes_length (c : ModemConfig) (n : Nat) :
    (sampleTimes d c n).length = (sampleCount d c n).toNat := by simp [sampleTimes]

@[simp] theorem guarded_length (f : Nat → XNum) (q : List Word) : (guarded f q).length = q.length + 2 := by
  simp [guarded]

@[simp] theorem shaped_length (p : Config.Params) (c : ModemConfig) (vals : List XNum) :
    (shaped p c vals).length = (sampleCount p.num c vals.length).toNat := by simp [shaped]

@[simp] theorem intervalList_length (p : Config.Params) (c : ModemConfig) (n : Nat) :
    (intervalList p c n).length = (intervalCount p.num c n).toNat := by simp [intervalList]

/-! ## Distances -/

/-- R190: the squared Euclidean distance. -/
theorem dist2_toReal (o c : List XNum) :
    (dist2 .exact o c).toReal = (List.zipWith (fun a b => (a.toReal - b.toReal) ^ 2) o c).sum := by
  rw [dist2, exact_sum, toReal_sum, List.map_zipWith]
  congr 2
  funext a b
  rw [exact_sq, exact_sub, toReal_sq, toReal_sub, sq]

/-! ## The codebook -/

theorem codebook_ne_nil (c : ModemConfig) : codebook d c ≠ [] := by unfold codebook; split <;> simp

/-- R191: the null codeword and one codeword for each symbol. -/
theorem codebook_length (c : ModemConfig) (h : c.n = c.alpha.length) : (codebook d c).length = c.n + 1 := by
  unfold codebook
  split <;> simp [h]

end Sys2Proof.Machine
end

