-- ==== Sys2Proof/Tests/Slice0.lean ====
section
/-! SUPPORT. Tests of the model: words written out from spec/30_encoding.md R70 to R73, single commands against the
vectors of spec/95_test_vectors.md (the number stands in each docstring), and, for each statement of
`Certificates/Slice0/Obligations.lean` that has hypotheses, a witness that meets them. -/

set_option Elab.async false

namespace Sys2Proof.Tests

open Sys2Proof.Machine

/-! ## States -/

/-- The next state of an outcome. -/
def after (o : Host.Outcome State Fault Refusal) : Option State :=
  match o with
  | .next t => some t
  | _ => none

/-- The response of a command. -/
def answer (i : Instr) (s : State) : Option Response := (after (exec i s)).map State.response

/-- The state after reset with a one-word program. -/
def started (w : Nat) : State := State.reset.withFetchWord 32 w

/-- The state after reset with bytes in `b0`. -/
def withBytes (v : List Byte) : State := State.reset.setB 0 ⟨v, false⟩

/-- The state after reset with symbols in `s0`. -/
def withSymbols (q : List Int) : State := State.reset.setS 0 (q.map (BitVec.ofInt 32))

/-- Rationals as a sample buffer. -/
def samples (l : List ℚ) : List XNum := l.map XNum.rat

/-- A state with `MAXLEN = 1`. -/
def tight (s : State) : State := { s with params := { s.params with maxLen := some 1 } }

/-- The state after reset with real scalars in `r0` to `r3`. -/
def withReals (a b c d : ℚ) : State :=
  (((State.reset.setR 0 (.rat a)).setR 1 (.rat b)).setR 2 (.rat c)).setR 3 (.rat d)

/-- A bank with rational fields and a real alphabet: 16 samples a symbol. -/
def bankOf (m : Mode) (carrier amp : ℚ) (alpha : List ℚ) : ModemConfig where
  valid := true
  mode := m
  fs := .rat 48
  baud := .rat 3
  carrier := .rat carrier
  amp := .rat amp
  n := alpha.length
  alpha := (samples alpha).map Cplx.ofReal

/-- The state after reset with a bank of the given mode: three amplitudes, two tones, one phase, one point. -/
def configured (m : Mode) : State :=
  { State.reset with
    cfg := match m with
      | .ask => bankOf .ask 12 0 [1 / 4, 1 / 2, 1]
      | .fsk => bankOf .fsk 0 (4 / 5) [8, 14]
      | .psk => bankOf .psk 12 (9 / 10) [0]
      | .qam => bankOf .qam 12 0 [1 / 2] }

/-- The bank of V60 (`CFGASK` with 48000, 1000, 250 and `0.25, 0.5, 1`). -/
def v60 : State := (withReals 48000 1000 250 0).setF 0 (samples [1 / 4, 1 / 2, 1])

/-! ## Well-formedness: a word is refused for each condition of R74 -/

/-- R74 (a), V73, V75: opcode `0x00`, and `0x27` between two listed ones. -/
theorem test_opcode_refused : (splitWord 0x27000000).opListed = false ∧ decode 0x27000000 = .error .opcode
    ∧ decode 0 = .error .opcode ∧ (splitWord 0x27000000).legal = false := ⟨by decide, rfl, rfl, by decide⟩

/-- R74 (b), V75: `ENC16` with `F = 1`. -/
theorem test_unused_field_refused :
    (splitWord 0x24000001).unusedZero (.of 0x24 [.s, .b]) = false ∧ decode 0x24000001 = .error .unusedField
    ∧ (splitWord 0x24000001).legal = false := ⟨by decide, rfl, by decide⟩

/-- R74 (c), V75: `ENC16` with `sd = 4`, with `bs = 4`; `RDBIT` with `xd = 8`, but not with `xd = 7`. -/
theorem test_register_refused :
    (splitWord 0x24400000).registersInRange (.of 0x24 [.s, .b]) = false ∧ decode 0x24400000 = .error .register
    ∧ decode 0x24040000 = .error .register ∧ decode 0x10802000 = .error .register
    ∧ decode 0x10702000 = .ok (.rdbit 7 0 2) ∧ (splitWord 0x24400000).legal = false :=
  ⟨by decide, rfl, rfl, rfl, rfl, by decide⟩

/-- R74 (d), V34: an ECC opcode with mode 3. -/
theorem test_mode_refused :
    (splitWord 0x40100003).modeListed = false ∧ (splitWord 0x40100003).modeIs (.ecc 0x40 2) = false
    ∧ decode 0x40100003 = .error .mode ∧ (splitWord 0x40100003).legal = false := ⟨by decide, by decide, rfl, by decide⟩

/-! ## Decoding: every row of R72, the word written out field by field (`op A B C D E F`) -/

theorem test_decode_bitstream : decode 0x10102000 = .ok (.rdbit 1 0 2) ∧ decode 0x11210000 = .ok (.rdbits 2 1)
    ∧ decode 0x12301000 = .ok (.wrbit 3 0 1) := ⟨rfl, rfl, rfl⟩

theorem test_decode_encoders : decode 0x21120000 = .ok (.enc2 1 2) ∧ decode 0x22120000 = .ok (.enc4 1 2)
    ∧ decode 0x23120000 = .ok (.enc8 1 2) ∧ decode 0x24120000 = .ok (.enc16 1 2) ∧ decode 0x25120000 = .ok (.enc32 1 2)
    ∧ decode 0x26120000 = .ok (.enc64 1 2) ∧ decode 0x28120000 = .ok (.enc256 1 2) :=
  ⟨rfl, rfl, rfl, rfl, rfl, rfl, rfl⟩

theorem test_decode_decoders : decode 0x31120000 = .ok (.dec2 1 2) ∧ decode 0x32120000 = .ok (.dec4 1 2)
    ∧ decode 0x33120000 = .ok (.dec8 1 2) ∧ decode 0x34120000 = .ok (.dec16 1 2) ∧ decode 0x35120000 = .ok (.dec32 1 2)
    ∧ decode 0x36120000 = .ok (.dec64 1 2) ∧ decode 0x38120000 = .ok (.dec256 1 2) :=
  ⟨rfl, rfl, rfl, rfl, rfl, rfl, rfl⟩

theorem test_decode_ecc : decode 0x40120000 = .ok (.eccencNone 1 2) ∧ decode 0x40120001 = .ok (.eccencRaw 1 2)
    ∧ decode 0x40120002 = .ok (.hamenc 1 2) ∧ decode 0x41120000 = .ok (.eccdecNone 1 2)
    ∧ decode 0x41120001 = .ok (.eccdecRaw 1 2) ∧ decode 0x41120002 = .ok (.hamdec 1 2) :=
  ⟨rfl, rfl, rfl, rfl, rfl, rfl⟩

theorem test_decode_signal : decode 0x50123000 = .ok (.timearr 1 2 3) ∧ decode 0x51201000 = .ok (.sps 2 0 1)
    ∧ decode 0x52201300 = .ok (.shres 2 0 1 3) ∧ decode 0x53103000 = .ok (.gausswin 1 0 3)
    ∧ decode 0x54201200 = .ok (.lpfir 2 0 1 2) ∧ decode 0x55701230 = .ok (.lpfira 7 0 1 2 3)
    ∧ decode 0x56376700 = .ok (.goertz 3 7 6 7) ∧ decode 0x57445600 = .ok (.avgint 4 4 5 6)
    ∧ decode 0x58421000 = .ok (.conv 4 2 1) := ⟨rfl, rfl, rfl, rfl, rfl, rfl, rfl, rfl, rfl⟩

theorem test_decode_config : decode 0x60012700 = .ok (.cfgask 0 1 2 7) ∧ decode 0x61012700 = .ok (.cfgfsk 0 1 2 7)
    ∧ decode 0x62012340 = .ok (.cfgpsk 0 1 2 3 4) ∧ decode 0x63012300 = .ok (.cfgqam 0 1 2 3) := ⟨rfl, rfl, rfl, rfl⟩

theorem test_decode_modem : decode 0x68050000 = .ok (.slice 0 5) ∧ decode 0x69120000 = .ok (.slicez 1 2)
    ∧ decode 0x70610000 = .ok (.modask 6 1) ∧ decode 0x71610000 = .ok (.modfsk 6 1)
    ∧ decode 0x72610000 = .ok (.modpsk 6 1) ∧ decode 0x73610000 = .ok (.modqam 6 1)
    ∧ decode 0x78160000 = .ok (.demask 1 6) ∧ decode 0x79160000 = .ok (.demfsk 1 6)
    ∧ decode 0x7A160000 = .ok (.dempsk 1 6) ∧ decode 0x7B160000 = .ok (.demqam 1 6) :=
  ⟨rfl, rfl, rfl, rfl, rfl, rfl, rfl, rfl, rfl, rfl⟩

/-- R78: the assembler's generic spellings stand for these words. -/
theorem test_generic_spellings : Instr.encN 0 0 16 = some (.enc16 0 0) ∧ Instr.decN 0 0 3 = none
    ∧ encode (Instr.eccenc 1 0 .hamming_7_4) = 0x40100002 ∧ encode (Instr.eccdec 1 0 .raw) = 0x41100001 :=
  ⟨rfl, rfl, by decide, by decide⟩

/-! ## Commands -/

/-- V1: stream bit 2 of `A0`. -/
theorem test_rdbit : (after (exec (.rdbit 1 0 2) ((withBytes [0xA0]).setX 2 2))).bind (fun t => t.xReg[1]) = some 1 := by
  decide

/-- V2, V3: positions `-1` and `16` of a two-byte buffer. -/
theorem test_rdbit_range : answer (.rdbit 1 0 2) ((withBytes [0x55, 0x55]).setX 2 (-1)) = some ⟨1, -1, 0⟩
    ∧ answer (.rdbit 1 0 2) ((withBytes [0x55, 0x55]).setX 2 16) = some ⟨1, 16, 0⟩ := by decide

/-- V6b. -/
theorem test_rdbits : (after (exec (.rdbits 2 0) (withBytes [0xA0]))).bind (fun t => t.sReg[2])
    = some [1, 0, 1, 0, 0, 0, 0, 0] := by decide

/-- V4: bit 9 set with the value 7. -/
theorem test_wrbit : (after (exec (.wrbit 0 0 1) (((withBytes [0, 0]).setX 0 9).setX 1 7))).bind (fun t => t.bReg[0])
    = some ⟨[0x00, 0x40], false⟩ := by decide

/-- V5: `Capability` comes before `Range`. -/
theorem test_wrbit_read_only :
    answer (.wrbit 0 0 1) (((State.reset.setB 0 ⟨[0, 0], true⟩).setX 0 99).setX 1 1) = some ⟨2, 0, 0⟩ := by decide

/-- V7, V8, V9, E2, V12, V14, V16. -/
theorem test_encoders :
    (after (exec (.enc2 0 0) (withBytes [0xA5]))).bind (fun t => t.sReg[0]) = some [1, 0, 1, 0, 0, 1, 0, 1]
    ∧ (after (exec (.enc4 0 0) (withBytes [0x1B]))).bind (fun t => t.sReg[0]) = some [0, 1, 2, 3]
    ∧ (after (exec (.enc8 0 0) (withBytes [0xFF]))).bind (fun t => t.sReg[0]) = some [7, 7, 6]
    ∧ (after (exec (.enc16 0 0) (withBytes [0x01, 0x23]))).bind (fun t => t.sReg[0]) = some [0, 1, 2, 3]
    ∧ (after (exec (.enc32 0 0) (withBytes [0x12, 0x34, 0x56, 0x78, 0x9A]))).bind (fun t => t.sReg[0])
      = some [2, 8, 26, 5, 12, 30, 4, 26]
    ∧ (after (exec (.enc64 0 0) (withBytes [0x4D, 0x61, 0x6E]))).bind (fun t => t.sReg[0]) = some [19, 22, 5, 46]
    ∧ (after (exec (.enc256 0 0) (withBytes [0x00, 0xFF, 0x7F]))).bind (fun t => t.sReg[0]) = some [0, 255, 127] := by
  decide

/-- V13, V15: the bits do not divide. -/
theorem test_encoders_length : answer (.enc32 0 0) (withBytes [0x12]) = some ⟨3, 1, 0⟩
    ∧ answer (.enc64 0 0) (withBytes [0x4D, 0x61]) = some ⟨3, 2, 0⟩ := by decide

/-- V22, V17, E2. -/
theorem test_decoders :
    (after (exec (.dec2 0 0) (withSymbols [1, 0, 1, 0, 0, 1, 0, 1]))).bind (fun t => t.bReg[0]) = some ⟨[0xA5], false⟩
    ∧ (after (exec (.dec4 0 0) (withSymbols [0, 1, 2, 3]))).bind (fun t => t.bReg[0]) = some ⟨[0x1B], false⟩
    ∧ (after (exec (.dec8 0 0) (withSymbols [7, 7, 7, 7, 7, 4]))).bind (fun t => t.bReg[0]) = some ⟨[0xFF, 0xFF], false⟩
    ∧ (after (exec (.dec16 0 0) (withSymbols [0, 1, 2, 3]))).bind (fun t => t.bReg[0]) = some ⟨[0x01, 0x23], false⟩
    ∧ (after (exec (.dec32 0 0) (withSymbols [2, 8, 26, 5, 12, 30, 4, 26]))).bind (fun t => t.bReg[0])
      = some ⟨[0x12, 0x34, 0x56, 0x78, 0x9A], false⟩
    ∧ (after (exec (.dec64 0 0) (withSymbols [19, 22, 5, 46]))).bind (fun t => t.bReg[0]) = some ⟨[0x4D, 0x61, 0x6E], false⟩
    ∧ (after (exec (.dec256 0 0) (withSymbols [0, 255, 127]))).bind (fun t => t.bReg[0])
      = some ⟨[0x00, 0xFF, 0x7F], false⟩ := by decide

/-- V18 to V21: a set pad bit, a wrong count, the first symbol outside the radix, the count before the symbol. -/
theorem test_decoders_errors : answer (.dec8 0 0) (withSymbols [7, 7, 7]) = some ⟨3, 3, 0⟩
    ∧ answer (.dec8 0 0) (withSymbols [7, 7, 6, 0]) = some ⟨3, 4, 0⟩
    ∧ answer (.dec8 0 0) (withSymbols [7, 8, 6]) = some ⟨4, 1, 0⟩
    ∧ answer (.dec16 0 0) (withSymbols [1, 2, 16]) = some ⟨3, 3, 0⟩
    ∧ answer (.dec16 0 0) (withSymbols [-1, 2]) = some ⟨4, 0, 0⟩
    ∧ answer (.dec256 0 0) (withSymbols [256]) = some ⟨4, 0, 0⟩ := by decide

/-- V33, with a read-only source: the copy is not read-only (R26). -/
theorem test_ecc_copies : ∀ i ∈ [Instr.eccencNone 1 0, .eccencRaw 1 0, .eccdecNone 1 0, .eccdecRaw 1 0],
    (after (exec i (State.reset.setB 0 ⟨[0xDE, 0xAD], true⟩))).bind (fun t => t.bReg[1]) = some ⟨[0xDE, 0xAD], false⟩ := by
  decide

/-- V24, V25. -/
theorem test_hamenc :
    (after (exec (.hamenc 1 0) (withBytes [0xA5, 0x3C]))).bind (fun t => t.bReg[1]) = some ⟨[0xB4, 0x96, 0x1B, 0xC0], false⟩
    ∧ (after (exec (.hamenc 1 0) (withBytes [0x0F]))).bind (fun t => t.bReg[1]) = some ⟨[0x01, 0xFC], false⟩ := by decide

/-- V30 (a wrong parity bit, a wrong data bit), V31 (two wrong bits), V32 (odd group count). -/
theorem test_hamdec :
    (after (exec (.hamdec 1 0) (withBytes [0x76, 0x00]))).bind (fun t => t.bReg[1]) = some ⟨[0xB0], false⟩
    ∧ (after (exec (.hamdec 1 0) (withBytes [0x46, 0x00]))).bind (fun t => t.bReg[1]) = some ⟨[0xB0], false⟩
    ∧ (after (exec (.hamdec 1 0) (withBytes [0x74, 0x96, 0x1B, 0xC0]))).bind (fun t => t.bReg[1]) = some ⟨[0x25, 0x3C], false⟩
    ∧ answer (.hamdec 1 0) (withBytes [0x66]) = some ⟨3, 1, 0⟩ := by decide

/-- V32: the other two settings of `HAM_ODD`. -/
theorem test_hamdec_odd :
    (after (exec (.hamdec 1 0) { withBytes [0x66] with params := { Config.Params.default with hamOdd := .drop } })).bind
      (fun t => t.bReg[1]) = some ⟨[], false⟩
    ∧ (after (exec (.hamdec 1 0) { withBytes [0x66] with params := { Config.Params.default with hamOdd := .zeroPad } })).bind
      (fun t => t.bReg[1]) = some ⟨[0xB0], false⟩ := by decide

/-- V35. -/
theorem test_timearr : (after (exec (.timearr 0 0 0) ((State.reset.setR 0 (.rat 4)).setX 0 4))).bind (fun t => t.fReg[0])
      = some (samples [0, 1 / 4, 1 / 2, 3 / 4])
    ∧ answer (.timearr 0 0 0) ((State.reset.setR 0 (.rat 4)).setX 0 (-1)) = some ⟨5, 2, 0⟩ := by decide +kernel

/-- V35a. -/
theorem test_sps : (after (exec (.sps 2 0 1) (withReals 44100 300 0 0))).bind (fun t => t.rReg[2]) = some (.rat 147)
    ∧ answer (.sps 2 0 1) (withReals 44100 0 0 0) = some ⟨5, 2, 0⟩ := by decide +kernel

/-- V35b. -/
theorem test_shres :
    (after (exec (.shres 2 0 1 3) (((State.reset.setF 0
      (samples [0, 1 / 10, 1 / 2, 99 / 100, 1, 3 / 2, 2, 201 / 100, -1 / 10])).setR 1 (.rat 1)).setF 3 (samples [5, 6, 7])))).bind
      (fun t => t.fReg[2]) = some (samples [5, 5, 5, 5, 6, 6, 7, 0, 0]) := by decide +kernel

/-- V37: five taps, the middle one near 0.786571. -/
theorem test_gausswin :
    ((after (exec (.gausswin 1 0 3) (withReals 8 0 0 (1 / 16)))).bind (fun t => t.fReg[1])).map (fun l =>
      decide (l.length = 5 ∧ (XNum.rat (786570 / 1000000)).le (l.getD 2 (.rat 0)) = true
        ∧ (l.getD 2 (.rat 0)).le (.rat (786572 / 1000000)) = true)) = some true := by decide +kernel

/-- V38a: 17 taps; V38c: the checks. -/
theorem test_lpfir :
    ((after (exec (.lpfir 2 0 1 2) (withReals 8000 125 1875 0))).bind (fun t => t.fReg[2])).map List.length = some 17
    ∧ answer (.lpfir 2 0 1 2) (withReals 48000 2000 1000 0) = some ⟨5, 2, 0⟩
    ∧ answer (.lpfir 2 0 1 2) (withReals 8000 100 4000 0) = some ⟨5, 4, 0⟩
    ∧ answer (.lpfir 2 0 1 2) (withReals 8000 5000 6000 0) = some ⟨5, 3, 0⟩
    ∧ answer (.lpfir 2 0 1 2) (withReals 8000 (-1) 1000 0) = some ⟨5, 5, 0⟩ := by decide +kernel

/-- V38b: five taps, the second near 0.275054, the middle one near 0.5. -/
theorem test_lpfira :
    ((after (exec (.lpfira 7 0 1 2 3) (withReals 8 1 3 22))).bind (fun t => t.fReg[7])).map (fun l =>
      decide (l.length = 5 ∧ (XNum.rat (275053 / 1000000)).le (l.getD 1 (.rat 0)) = true
        ∧ (l.getD 1 (.rat 0)).le (.rat (275055 / 1000000)) = true
        ∧ (XNum.rat (499999 / 1000000)).le (l.getD 2 (.rat 0)) = true
        ∧ (l.getD 2 (.rat 0)).le (.rat (500001 / 1000000)) = true)) = some true := by decide +kernel

/-- R144, R150: the exact 1 that GOERTZ leaves for a third of the rate is the `sigma` of a window of seven taps. -/
theorem test_goertz_then_gausswin :
    ((after (exec (.goertz 3 7 0 1) (withReals 1 3 0 0))).bind (fun t => t.fReg[7])) = some (samples [1, 1, 1])
    ∧ ((after (exec (.gausswin 1 0 3) (withReals 1 0 0 1))).bind (fun t => t.fReg[1])).map List.length = some 7 := by
  decide +kernel

/-- V39: the middle coefficient near -1.414214, the numerator's second part near -0.707107 and 0.707107. -/
theorem test_goertz :
    (after (exec (.goertz 3 7 0 1) (withReals 1000 8000 0 0))).map (fun t =>
      decide (((t.fReg[7].getD []).getD 1 (.rat 0)).le (.rat (-1414213 / 1000000)) = true
        ∧ (XNum.rat (-1414215 / 1000000)).le ((t.fReg[7].getD []).getD 1 (.rat 0)) = true
        ∧ ((t.zReg[3].getD []).getD 1 Cplx.zero).re.le (.rat (-707106 / 1000000)) = true
        ∧ (XNum.rat (707106 / 1000000)).le ((t.zReg[3].getD []).getD 1 Cplx.zero).im = true)) = some true := by
  decide +kernel

/-- V39b. -/
theorem test_avgint :
    (after (exec (.avgint 4 4 0 1) ((withReals (1 / 2) (5 / 2) 0 0).setF 4 (samples [1, 1, 4, 1])))).bind (fun t => t.rReg[4])
      = some (.rat (23125 / 10000))
    ∧ (after (exec (.avgint 4 4 0 1) ((withReals (3 / 2) (3 / 2) 0 0).setF 4 (samples [1, 1, 4, 1])))).bind (fun t => t.rReg[4])
      = some (.rat (5 / 2))
    ∧ answer (.avgint 4 4 0 1) ((withReals 0 (7 / 2) 0 0).setF 4 (samples [1, 1, 4, 1])) = some ⟨5, 3, 0⟩ := by decide +kernel

/-- V39c: a kernel of three taps, and the even kernel that delays by one. -/
theorem test_conv :
    (after (exec (.conv 4 2 1) ((State.reset.setF 2 (samples [1, 1, 1])).setF 1 (samples [1 / 4, 1 / 2, 1 / 4])))).bind
      (fun t => t.fReg[4]) = some (samples [3 / 4, 1, 3 / 4])
    ∧ (after (exec (.conv 4 2 1) ((State.reset.setF 2 (samples [1, 2, 3])).setF 1 (samples [0, 1])))).bind
      (fun t => t.fReg[4]) = some (samples [0, 1, 2]) := by decide +kernel

/-- V60, V61: the `STATUS` word after a load and after a refused one. -/
theorem test_cfgask : (after (exec (.cfgask 0 1 2 0) v60)).map State.status = some 0x100
    ∧ (after (exec (.cfgask 0 1 2 0) (v60.setR 2 (.rat 500)))).map (fun t => (t.status, t.errInfo)) = some (0x6, 8) := by
  decide +kernel

/-- V64: all three warnings of construction. -/
theorem test_cfgask_warns : (after (exec (.cfgask 0 1 2 0) ((v60.setR 1 (.rat 16000)).setF 0
    (samples [1 / 20, 2 / 25, 1])))).map State.status = some 0x170 := by decide +kernel

/-- V66: a load, and the check of the highest tone. -/
theorem test_cfgfsk :
    (after (exec (.cfgfsk 0 1 2 0) ((withReals 48000 (4 / 5) 250 0).setF 0 (samples [1000, 1500, 2000, 2500])))).map
      State.status = some 0x300
    ∧ answer (.cfgfsk 0 1 2 0) ((withReals 48000 (4 / 5) 250 0).setF 0 (samples [1000, 30000])) = some ⟨6, 11, 0⟩ := by
  decide +kernel

/-- P6: the phases 0 and pi, with two warnings; V67: a phase of 7 radians. -/
theorem test_cfgpsk :
    (after (exec (.cfgpsk 0 1 2 3 4) ((withReals 48000 20000 (1 / 20) 250).setF 4 [.rat 0, .pi]))).map State.status = some 0x550
    ∧ answer (.cfgpsk 0 1 2 3 4) ((withReals 48000 1000 (9 / 10) 250).setF 4 (samples [0, 7])) = some ⟨6, 9, 0⟩ := by
  decide +kernel

/-- V72's configuration; V68: a point outside the unit circle. -/
theorem test_cfgqam :
    (after (exec (.cfgqam 0 1 2 0) ((withReals 48000 2000 500 0).setZ 0
      [⟨.rat (1 / 2), .rat 0⟩, ⟨.rat 0, .rat (1 / 2)⟩, ⟨.rat (-1 / 2), .rat 0⟩, ⟨.rat 0, .rat (-1 / 2)⟩]))).map
      State.status = some 0x700
    ∧ answer (.cfgqam 0 1 2 0) ((withReals 48000 2000 500 0).setZ 0 [⟨.rat (4 / 5), .rat (4 / 5)⟩]) = some ⟨6, 9, 0⟩ := by
  decide +kernel

/-- R174's example: a corner point `(3 + 3j)/(3*sqrt 2)` has modulus exactly 1, and the bank loads with no warning. -/
theorem test_cfgqam_unit_circle :
    answer (.cfgqam 0 1 2 0) ((withReals 48000 2000 500 0).setZ 0 [
      ⟨.ratio (.rat 3) (.times (.rat 3) (.sqrtOf (.rat 2))), .ratio (.rat 3) (.times (.rat 3) (.sqrtOf (.rat 2)))⟩]) =
      some ⟨0, 0, 0⟩ := by
  decide +kernel

/-- V70, V71: the nearest codeword, and the lowest index on a tie. -/
theorem test_slice :
    ((after (exec (.slice 0 5) ((configured .ask).setF 5 (samples [1 / 100, 3 / 10, 7 / 10, 6 / 5, 0])))).map
      fun t => (t.sReg[0], t.response.warn)) = some (some [0, 1, 2], 0)
    ∧ ((after (exec (.slice 0 5) ((configured .ask).setF 5 (samples [1 / 100, 3 / 8, 1 / 10, 3 / 5, 0])))).map
      fun t => (t.sReg[0], t.response.warn)) = some (some [0, -1, 1], 8) := by decide +kernel

/-- The point `0.4 + 0.1j` of V72. -/
theorem test_slicez :
    ((after (exec (.slicez 1 2) ((configured .qam).setZ 2 [Cplx.zero, ⟨.rat (2 / 5), .rat (1 / 10)⟩, Cplx.zero]))).map
      fun t => (t.sReg[1], t.response.warn)) = some (some [0], 0) := by decide +kernel

/-- R190: between the phases 0 and `pi/2` of PSK, the observation `0.7 + 0.7j` takes the lower index. -/
theorem test_slicez_tie :
    ((after (exec (.slicez 1 2) ({ configured .psk with cfg := { (configured .psk).cfg with
        n := 2, alpha := [⟨.rat 0, .rat 0⟩, ⟨.ratio .pi (.rat 2), .rat 0⟩] } }.setZ 2
      [Cplx.zero, ⟨.rat (7 / 10), .rat (7 / 10)⟩, Cplx.zero]))).map
      fun t => (t.sReg[1], t.response.warn)) = some (some [0], 0) := by decide +kernel

/-- The real lies within a millionth of the rational. -/
def near (a : XNum) (q : ℚ) : Bool := (XNum.rat (q - 1 / 1000000)).le a && a.le (.rat (q + 1 / 1000000))

/-- R200: in the middle of a symbol the smoothing window sees one amplitude only and its taps sum to 1, so that
samples 24 and 26, carrier phases `12*pi` and `13*pi`, are the amplitude 1/2 and its negative; V48. -/
theorem test_modask :
    ((after (exec (.modask 1 0) ((configured .ask).setS 0 [1]))).bind (fun t => t.fReg[1])).map
      (fun f => decide (f.length = 48) && near (f.getD 24 (.rat 0)) (1 / 2) && near (f.getD 26 (.rat 0)) (-1 / 2)) = some true
    ∧ answer (.modask 1 0) ((configured .ask).setS 0 [0, 4]) = some ⟨4, 1, 0⟩ := by decide +kernel

/-- R210: silence between guards; V53. -/
theorem test_modfsk :
    (after (exec (.modfsk 1 0) ((configured .fsk).setS 0 []))).bind (fun t => t.fReg[1]) = some (List.replicate 32 (.rat 0))
    ∧ answer (.modfsk 1 0) ((configured .fsk).setS 0 [4]) = some ⟨4, 0, 0⟩ := by decide +kernel

/-- R220: as for ASK, with amplitude 9/10 and phase 0. -/
theorem test_modpsk :
    ((after (exec (.modpsk 1 0) ((configured .psk).setS 0 [0]))).bind (fun t => t.fReg[1])).map
      (fun f => near (f.getD 24 (.rat 0)) (9 / 10) && near (f.getD 26 (.rat 0)) (-9 / 10)) = some true := by decide +kernel

/-- R222: the point `-1/2 j` on the negated sine: at carrier phase `12*pi + pi/2`, sample 25, it is 1/2. -/
theorem test_modqam :
    ((after (exec (.modqam 1 0) ({ configured .qam with cfg := { (configured .qam).cfg with
      alpha := [⟨.rat 0, .rat (-1 / 2)⟩] } }.setS 0 [0]))).bind (fun t => t.fReg[1])).map
      (fun f => near (f.getD 25 (.rat 0)) (1 / 2) && near (f.getD 24 (.rat 0)) 0) = some true := by decide +kernel

/-- V46 at 16 samples a symbol: silence of three and a half intervals gives two nulls and CORRUPT; of one and a
quarter, `Length(1)`. -/
theorem test_demask :
    (after (exec (.demask 1 1) ((configured .ask).setF 1 (List.replicate 56 (.rat 0))))).map
      (fun t => (t.sReg[1], t.response.warn)) = some (some [-1, -1], 8)
    ∧ answer (.demask 1 1) ((configured .ask).setF 1 (List.replicate 20 (.rat 0))) = some ⟨3, 1, 0⟩ := by decide +kernel

/-- The same silence in FSK (E9). -/
theorem test_demfsk :
    (after (exec (.demfsk 1 1) ((configured .fsk).setF 1 (List.replicate 56 (.rat 0))))).map
      (fun t => (t.sReg[1], t.response.warn)) = some (some [-1, -1], 8) := by decide +kernel

/-- The same silence in PSK (E9); V56: the bank holds PSK. -/
theorem test_dempsk :
    (after (exec (.dempsk 1 1) ((configured .psk).setF 1 (List.replicate 56 (.rat 0))))).map
      (fun t => (t.sReg[1], t.response.warn)) = some (some [-1, -1], 8)
    ∧ answer (.demqam 1 1) ((configured .psk).setF 1 []) = some ⟨9, 2, 0⟩ := by decide +kernel

/-- The same silence in QAM (E9). -/
theorem test_demqam :
    (after (exec (.demqam 1 1) ((configured .qam).setF 1 (List.replicate 56 (.rat 0))))).map
      (fun t => (t.sReg[1], t.response.warn)) = some (some [-1, -1], 8) := by decide +kernel

/-- V76, V78: `Uninit` of `b0`, then an illegal word that leaves `STATUS.ERR` and `ERRINFO`. -/
theorem test_first_error_is_sticky :
    (after (step (started 0x24000000))).map (fun t => (t.status, t.errInfo, t.pc)) = some (0x8, 32, 0)
    ∧ ((after (step (started 0x24000000))).bind fun t => after (issue 0 t)).map
      (fun t => (t.response, t.status, t.errInfo)) = some (⟨7, 0, 0⟩, 0x8, 32) := by decide

/-! ## Witnesses: for each statement with hypotheses, values that meet them -/

/-- A computed answer is a next state with that response. -/
theorem next_of_answer {i : Instr} {s : State} {r : Response} (h : answer i s = some r) :
    ∃ t, exec i s = .next t ∧ t.response = r := by
  unfold answer at h
  generalize exec i s = o at h
  cases o with
  | next t => exact ⟨t, rfl, Option.some.inj h⟩
  | fault f => cases h
  | refused r => cases h

/-- The nearest integer, where there is one. -/
theorem roundEven_of_near {x : ℝ} {n : ℤ} (h : |x - n| < 1 / 2) : roundEven x = n := by
  rw [abs_lt] at h
  have h1 := Int.floor_add_fract x
  have h2 := Int.fract_nonneg x
  have h3 := Int.fract_lt_one x
  have h4 : n - 1 ≤ ⌊x⌋ := Int.le_floor.2 (by push_cast; linarith)
  have h5 : ⌊x⌋ < n + 1 := Int.floor_lt.2 (by push_cast; linarith)
  have h6 : ⌊x⌋ = n ∨ ⌊x⌋ = n - 1 := by omega
  unfold roundEven
  rcases h6 with h6 | h6 <;> rw [h6] at h1 ⊢ <;> push_cast at h1
  · rw [if_pos (by linarith)]
  · rw [if_neg (by linarith), if_pos (by linarith)]; ring

/-- Halfway above an odd integer. -/
theorem roundEven_of_tie {x : ℝ} {n : ℤ} (h : x = n + 1 / 2) (hn : n % 2 = 1) : roundEven x = n + 1 := by
  have h1 : ⌊x⌋ = n := Int.floor_eq_iff.2 ⟨by rw [h]; linarith, by rw [h]; linarith⟩
  have h2 : Int.fract x = 1 / 2 := by rw [Int.fract, h1, h]; ring
  unfold roundEven
  rw [h2, h1, if_neg (lt_irrefl _), if_neg (lt_irrefl _), if_neg (by rw [Int.even_iff]; omega)]

/-- The state after reset with one byte in `b0` and the program `ENC16 s0, b0`. -/
def ready : State := (withBytes [0x5A]).withFetchWord 32 0x24000000

/-- `ready` after its one command. -/
def done : State := (ready.setS 0 [5, 10]).retire 0

/-- The state after reset in which a command has failed. -/
def failed : State := (started 0).raise ⟨.uninit, 32⟩

theorem witness_IllegalWordRaisesIllegal : (splitWord 0).legal = false ∧ (started 0).running = true
    ∧ (started 0).program[(started 0).pc]? = some 0 := by decide

theorem witness_StepRunsDecodedCommand : ready.running = true ∧ ready.program[ready.pc]? = some 0x24000000
    ∧ decode 0x24000000 = .ok (.enc16 0 0)
    ∧ decode (BitVec.ofNat 32 (0x24000000 % 2 ^ 32)) = .ok (.enc16 0 0) := ⟨by decide, by decide, rfl, rfl⟩

/-- At the end of the program, and after an error; a reset and a new run. -/
theorem witness_EndedRunsStayEnded : (done.pc ≤ done.program.length ∧ done.runOver)
    ∧ (failed.pc ≤ failed.program.length ∧ failed.runOver) ∧ hostAct .reset ready = .next State.reset
    ∧ hostAct (.run [0x24000000]) State.reset = .next (started 0x24000000) :=
  ⟨⟨by decide, .inr rfl⟩, ⟨by decide, .inl rfl⟩, rfl, rfl⟩

/-- The state of `ready` is one the block can be in. -/
theorem witness_EveryCommandAnswersNext : ready.Inv where
  fit := ⟨within_set (within_empty _ _) (by decide), within_empty _ _, within_empty _ _, within_empty _ _⟩
  cfgChecked := by decide
  cfgCount := by decide
  cfgUnused h := absurd h (by decide)
  errCode := by decide
  errInfoZero := by decide
  pcInProgram := by decide

theorem witness_StepKeepsInv : ready.Inv ∧ step ready = .next done := ⟨witness_EveryCommandAnswersNext, rfl⟩

/-- The invariant of a state with a valid bank. -/
theorem witness_inv_configured : (configured .ask).Inv where
  fit := ⟨within_empty _ _, within_empty _ _, within_empty _ _, within_empty _ _⟩
  cfgChecked := by decide +kernel
  cfgCount := by decide
  cfgUnused _ := ⟨by decide, by decide, by decide⟩
  errCode := by decide
  errInfoZero := by decide
  pcInProgram := by decide

/-- A load of each buffer class at the boundary of `MAXLEN`, and a register beside the one that is loaded. -/
theorem witness_HostActionsKeepInv : ready.Inv ∧ hostAct (.loadX 0 1) ready = .next (ready.setX 0 1)
    ∧ hostAct .reset ready = .next State.reset
    ∧ overMax (tight ready).params 1 = false ∧ overMax (tight ready).params 0 = false
    ∧ hostAct (.loadB 1 ⟨[7], true⟩) (tight ready) = .next ((tight ready).setB 1 ⟨[7], true⟩)
    ∧ hostAct (.loadZ 1 [(.num .pi, .num (.rat 1))]) (tight ready) = .next ((tight ready).setZ 1 [⟨.pi, .rat 1⟩])
    ∧ (HostAction.loadX 0 1).target ≠ none ∧ (HostAction.loadX 0 1).target ≠ some (.x 1) :=
  ⟨witness_EveryCommandAnswersNext, rfl, rfl, rfl, rfl, rfl, rfl, by decide, by decide⟩

/-- The first error since reset, and a later one. -/
theorem witness_ErrorEntryWritesNothing :
    (exec (.enc16 0 1) (started 0) = .next ((started 0).raise ⟨.uninit, 33⟩)
      ∧ ((started 0).raise ⟨.uninit, 33⟩).response.err ≠ 0 ∧ (started 0).err = 0)
    ∧ exec (.enc16 0 1) failed = .next (failed.raise ⟨.uninit, 33⟩) ∧ (failed.raise ⟨.uninit, 33⟩).response.err ≠ 0
    ∧ failed.err ≠ 0 := ⟨⟨rfl, by decide, by decide⟩, rfl, by decide, by decide⟩

theorem witness_CompletionAdvances : exec (.enc16 0 0) ready = .next done ∧ done.response.err = 0 := ⟨rfl, by decide⟩

theorem witness_RunStopsAtFirstError : (started 0).running = true ∧ (started 0).pc < (started 0).program.length
    ∧ step (started 0) = .next ((started 0).raise ⟨.illegal, 0⟩) ∧ ((started 0).raise ⟨.illegal, 0⟩).response.err ≠ 0 :=
  ⟨by decide, by decide, rfl, by decide⟩

/-- A command, a register and a bank that it does not write; and a second state that agrees on its one source. -/
theorem witness_OnlyDestinationChanges :
    let other := { failed with bReg := ready.bReg }
    (exec (.enc16 0 0) ready = .next done ∧ ¬ (Instr.enc16 0 0).dest.has (.s 1) ∧ (Instr.enc16 0 0).dest ≠ .cfg)
    ∧ (∀ o ∈ (Instr.enc16 0 0).sources, ready.SameReg other o) ∧ (Instr.enc16 0 0).modes = none
    ∧ other.params = ready.params ∧ exec (.enc16 0 0) other = .next ((other.setS 0 [5, 10]).retire 0)
    ∧ done.response.err = 0 ∧ (Instr.enc16 0 0).dest.has (.s 0) :=
  ⟨⟨rfl, fun h => Operand.noConfusion h (by decide), by decide⟩, fun _ h => by
    rw [List.mem_singleton.1 h]; rfl, rfl, rfl, rfl, by decide, rfl⟩

theorem witness_WrittenStaysWritten :
    hostAct .reset ready = .next State.reset
    ∧ (exec (.enc16 0 0) ready = .next done ∧ ready.isEmpty (.b 0) = false ∧ done.response.err = 0
      ∧ (Instr.enc16 0 0).dest.has (.s 0))
    ∧ (∃ o ∈ (Instr.rdbit 0 0 1).sources, ready.isEmpty o = true)
    ∧ hostAct (.loadX 0 1) ready = .next (ready.setX 0 1) ∧ (HostAction.loadX 0 1).target = some (.x 0) :=
  ⟨rfl, ⟨rfl, by decide, by decide, rfl⟩, by decide, rfl, rfl⟩

/-- A constructor that completes, one that fails, and a host action. -/
theorem witness_CfgWrittenOnlyByConstructors :
    (∃ t, exec (.cfgask 0 1 2 0) v60 = .next t ∧ t.response = ⟨0, 0, 0⟩) ∧ (Instr.cfgask 0 1 2 0).dest = .cfg
    ∧ (∃ t, exec (.cfgask 0 1 2 0) (v60.setR 2 (.rat 500)) = .next t ∧ t.response = ⟨6, 8, 0⟩)
    ∧ (Instr.enc16 0 0).dest ≠ .cfg ∧ HostAction.loadX 0 1 ≠ .reset :=
  ⟨next_of_answer (by decide +kernel), rfl, next_of_answer (by decide +kernel), by decide, by decide⟩

theorem witness_WarningsOnlyFromTheirCommands :
    ∃ t, exec (.cfgask 0 1 2 0) (v60.setR 1 (.rat 16000)) = .next t ∧ t.response = ⟨0, 0, 1⟩ :=
  next_of_answer (by decide +kernel)

theorem witness_CommandsIgnoreStatus :
    let other := { ready with err := 8, errInfo := 32, warn := 5, pc := 7, running := false }
    State.SameRegs ready other ∧ other.cfg = ready.cfg ∧ other.params = ready.params
    ∧ exec (.enc16 0 0) ready = .next done ∧ exec (.enc16 0 0) other = .next ((other.setS 0 [5, 10]).retire 0) :=
  ⟨⟨rfl, rfl, rfl, rfl, rfl, rfl⟩, rfl, rfl, rfl, rfl⟩

theorem witness_StatusStickyUntilReset : exec (.enc16 0 1) failed = .next (failed.raise ⟨.uninit, 33⟩) ∧ failed.err ≠ 0
    ∧ hostAct .reset failed = .next State.reset ∧ hostAct (.loadX 0 1) failed = .next (failed.setX 0 1) :=
  ⟨rfl, by decide, rfl, rfl⟩

theorem witness_ResetValues : (∃ s, hostAct .reset s = .next State.reset)
    ∧ (ready.cfg.valid = false ∧ ({ (configured .psk).cfg with valid := false } : ModemConfig).valid = false
      ∧ exec (.enc16 0 0) ready = .next done)
    ∧ hostAct (.run [0x24000000]) State.reset = .next (started 0x24000000) := ⟨⟨ready, rfl⟩, ⟨rfl, rfl, rfl⟩, rfl⟩

/-- The second source is the first empty one; and a command whose one source is written. -/
theorem witness_FirstEmptySourceRaisesUninit :
    (Instr.rdbit 0 0 1).sources.find? ready.isEmpty = some (.x 1)
    ∧ ∀ o ∈ (Instr.enc16 3 0).sources, ready.isEmpty o = false := by decide

theorem witness_MissingConfigurationRaisesNoCfg :
    (Instr.modask 1 0).modes = some [.ask]
    ∧ (∀ o ∈ (Instr.modask 1 0).sources, (withSymbols [0]).isEmpty o = false) ∧ (withSymbols [0]).cfg.valid = false
    ∧ (∀ o ∈ (Instr.modask 1 0).sources, ((configured .psk).setS 0 []).isEmpty o = false)
    ∧ (configured .psk).cfg.valid = true ∧ (configured .psk).cfg.mode ∉ [Mode.ask] := by decide

/-- Two bytes, and in `x0` to `x3` the first and last position and those next to them. -/
def accessor (ro : Bool) : State :=
  ((((State.reset.setB 0 ⟨[0x55, 0x55], ro⟩).setX 0 0).setX 1 15).setX 2 (-1)).setX 3 16

theorem witness_RdbitReadsBit : (accessor false).bReg[0] = some ⟨[0x55, 0x55], false⟩
    ∧ (0 ≤ (0 : Word).toInt ∧ (0 : Word).toInt < 16) ∧ (0 ≤ (15 : Word).toInt ∧ (15 : Word).toInt < 16)
    ∧ (-1 : Word).toInt < 0 ∧ 16 ≤ (16 : Word).toInt
    ∧ (accessor false).xReg[0] = some 0 ∧ (accessor false).xReg[1] = some 15 ∧ (accessor false).xReg[2] = some (-1)
    ∧ (accessor false).xReg[3] = some 16 := by decide

/-- The last bit of the buffer, the positions `-1` and `16`, and a read-only buffer. -/
theorem witness_WrbitWritesOneBit :
    ((accessor false).bReg[0] = some ⟨[0x55, 0x55], false⟩ ∧ (accessor false).xReg[1] = some 15
      ∧ 0 ≤ (15 : Word).toInt ∧ (15 : Word).toInt < 16)
    ∧ ((accessor false).xReg[2] = some (-1) ∧ (-1 : Word).toInt < 0)
    ∧ ((accessor false).xReg[3] = some 16 ∧ 16 ≤ (16 : Word).toInt)
    ∧ (accessor true).bReg[0] = some ⟨[0x55, 0x55], true⟩ := by decide

/-- The same and another position read back, the bits as a sequence, and the two positions outside. -/
theorem witness_AccessorLaws :
    (exec (.wrbit 0 0 1) (accessor false) =
        .next (((accessor false).setB 0 ⟨[0xD5, 0x55], false⟩).retire 0)
      ∧ (accessor false).xReg[0] = some 0 ∧ (accessor false).xReg[1] = some 15)
    ∧ (∃ t, exec (.rdbits 0 0) (accessor false) = .next t ∧ t.response = ⟨0, 0, 0⟩)
    ∧ (∃ t, exec (.rdbit 4 0 1) (accessor false) = .next t ∧ t.response = ⟨0, 0, 0⟩)
    ∧ (-1 : Word).toInt = -1 ∧ (16 : Word).toInt = 8 * (2 : Nat) :=
  ⟨⟨rfl, rfl, rfl⟩, next_of_answer (by decide), next_of_answer (by decide), by decide, by decide⟩

theorem witness_RdbitsReadsAllBits : (withBytes [0xA0]).bReg[0] = some ⟨[0xA0], false⟩
    ∧ overMax (withBytes [0xA0]).params 8 = false ∧ overMax (tight (withBytes [0xA0])).params 8 = true := by decide

/-- One byte for radix 32; one byte where `MAXLEN = 1`; fifteen bytes, which every radix divides. -/
theorem witness_EncodersPackBits :
    paddedBits 5 1 % 5 ≠ 0
    ∧ (paddedBits 1 1 % 1 = 0 ∧ overMax (tight State.reset).params (paddedBits 1 1 / 1 : Nat) = true)
    ∧ ∀ c ∈ codecs, paddedBits c.k 15 % c.k = 0
      ∧ overMax State.reset.params (paddedBits c.k 15 / c.k : Nat) = false := by decide

/-- One symbol of radix 16; its second symbol out of range; a set pad bit of radix 8; and a clear one. -/
theorem witness_DecodersUnpackBits :
    (overMax State.reset.params 1 = false ∧ 1 % (8 / Nat.gcd 4 8) ≠ 0)
    ∧ (2 % (8 / Nat.gcd 4 8) = 0 ∧ (0 ≤ (15 : Word).toInt ∧ (15 : Word).toInt < 2 ^ 4) ∧ ¬ (16 : Word).toInt < 2 ^ 4)
    ∧ (3 % 8 = 3 ∧ (0 ≤ (7 : Word).toInt ∧ (7 : Word).toInt < 2 ^ 3) ∧ 8 * (3 * 3 / 8) ≤ 8 ∧ 8 < 3 * 3
      ∧ ((7 : Word).toNat >>> (3 - 1 - 8 % 3)) % 2 = 1)
    ∧ (0 ≤ (6 : Word).toInt ∧ (6 : Word).toInt < 2 ^ 3) ∧ ((6 : Word).toNat >>> (3 - 1 - 8 % 3)) % 2 = 0 := by decide

/-- Fifteen bytes for every radix, and as many zero symbols as every decoder accepts. -/
theorem witness_CodecRoundTrip : ∀ c ∈ codecs,
    ((c.k = 5 → 15 % 5 = 0) ∧ (c.k = 6 → 15 % 3 = 0)
      ∧ overMax State.reset.params (paddedBits c.k 15 / c.k : Nat) = false)
    ∧ overMax State.reset.params 8 = false
    ∧ answer (c.dec 0 0) (withSymbols [0, 0, 0, 0, 0, 0, 0, 0]) = some ⟨0, 0, 0⟩
    ∧ (answer (c.enc 0 1) (withBytes [])).isSome = true := by decide

theorem witness_EccModesCopyBytes : (withBytes [0xDE]).bReg[0] = some ⟨[0xDE], false⟩
    ∧ overMax (withBytes [0xDE]).params 1 = false := by decide

theorem witness_HamencEmitsCodewords : overMax State.reset.params ((14 * 2 + 7) / 8 : Nat) = false
    ∧ overMax (tight State.reset).params ((14 * 1 + 7) / 8 : Nat) = true := by decide

/-- One group with the three settings, and two groups. -/
theorem witness_HamdecCorrectsGroups : (8 * 1 / 7 % 2 = 1 ∧ State.reset.params.hamOdd = .fault) ∧ 8 * 2 / 7 % 2 = 0
    ∧ Config.HamOdd.drop ≠ .fault ∧ Config.HamOdd.zeroPad ≠ .fault
    ∧ overMax State.reset.params 2 = false := by decide

/-- V26: the code of `A5 3C` with the first bit of every group flipped; and with two bits of the first group flipped
(V31). -/
theorem witness_HammingCorrectsOneErrorPerGroup :
    let code : List Byte := [0xB4, 0x96, 0x1B, 0xC0]
    let one : List Byte := [0x35, 0x94, 0x1F, 0xC0]
    let two : List Byte := [0x74, 0x96, 0x1B, 0xC0]
    let coded : State := ((withBytes [0xA5, 0x3C]).setB 1 ⟨code, false⟩).retire 0
    exec (.hamenc 1 0) (withBytes [0xA5, 0x3C]) = .next coded
    ∧ (∃ u, exec (.hamdec 2 1) (coded.setB 1 ⟨one, false⟩) = .next u ∧ u.response = ⟨0, 0, 0⟩)
    ∧ (∀ g < 4, ∀ j < 7, j ≠ 0 → bitOf one (7 * g + j) = bitOf code (7 * g + j))
    ∧ (∃ u, exec (.hamdec 2 1) (coded.setB 1 ⟨two, false⟩) = .next u ∧ u.response = ⟨0, 0, 0⟩)
    ∧ ∀ j < 7, (bitOf two (7 * 0 + j) ≠ bitOf code (7 * 0 + j) ↔ j = 1 ∨ j = 0) :=
  ⟨rfl, next_of_answer (by decide), by decide, next_of_answer (by decide), by decide⟩

/-- The numeric domain after reset, in which the witnesses below evaluate their guards. -/
@[simp] theorem reset_num : State.reset.params.num = .exact := rfl

/-- The same state under `NUM = binary64`. -/
def rounded (s : State) : State := { s with params := { s.params with num := .binary64 } }

/-- R142 under `binary64`: the quotient is the configuration function of the two operands, for two given rates. -/
theorem test_sps_binary64 : exec (.sps 2 0 1) (rounded (withReals 44100 300 0 0)) =
    .next (((rounded (withReals 44100 300 0 0)).setR 2 (.fp .ratio (.rat 44100) (.rat 300) (.rat 0))).retire 0) := rfl

/-- R141 under `binary64`: the first time is 0, the second a quotient. -/
theorem test_timearr_binary64 :
    exec (.timearr 0 0 0) ((rounded (withReals 4 0 0 0)).setX 0 2) =
      .next ((((rounded (withReals 4 0 0 0)).setX 0 2).setF 0 [.rat 0, .fp .ratio (.rat 1) (.rat 4) (.rat 0)]).retire 0) :=
  rfl

/-- R13, U9: a NaN and an infinity are turned away in either domain, by themselves and inside a buffer. -/
theorem test_host_load_not_real : hostAct (.loadR 0 .nan) (rounded State.reset) = .refused .hostLoadNotReal
    ∧ hostAct (.loadZ 0 [(.num (.rat 1), .infinity true)]) State.reset = .refused .hostLoadNotReal
    ∧ hostAct (.loadF 0 [.num (.rat 1), .num (.rat 2)]) State.reset = .next (State.reset.setF 0 [.rat 1, .rat 2]) :=
  ⟨rfl, rfl, rfl⟩

/-- The hypotheses of the `binary64` clauses that ask no value of a rounded result: those of TIMEARR, SPS, SHRES, AVGINT,
CONV and the slicers. -/
theorem witness_binary64 :
    (rounded State.reset).params.num = .binary64
    ∧ ((rounded (withReals 44100 300 0 0)).rReg[0] = some (.rat 44100)
      ∧ (rounded (withReals 44100 300 0 0)).rReg[1] = some (.rat 300))
    ∧ overMax (rounded State.reset).params 3 = false ∧ overMax (rounded (tight State.reset)).params 2 = true
    ∧ ((rounded (configured .psk)).cfg.valid = true ∧ (rounded (configured .psk)).cfg.n < 2 ^ 31)
    ∧ codebook (rounded (configured .psk)).params.num (configured .psk).cfg ≠ [] := by decide

/-- Four samples, and two where `MAXLEN = 1`. -/
theorem witness_TimearrMakesTimeGrid : 0 < (XNum.rat 4).toReal ∧ 0 ≤ (4 : Word).toInt
    ∧ overMax State.reset.params (4 : Word).toInt = false ∧ overMax (tight State.reset).params (2 : Word).toInt = true :=
  ⟨by norm_num, by decide, by decide, by decide⟩

theorem witness_SpsDivides : (withReals 44100 300 0 0).rReg[0] = some (.rat 44100)
    ∧ (withReals 44100 300 0 0).rReg[1] = some (.rat 300) ∧ 0 < (XNum.rat 44100).toReal ∧ 0 < (XNum.rat 300).toReal :=
  ⟨rfl, rfl, by norm_num, by norm_num⟩

/-- Each check at the boundary of its range: rates 0 and 8, `n = -1`, a tone at `fs/2`, an empty span below 0, one
past the end of two samples. -/
theorem witness_SignalGuardsRaiseDomain : (XNum.rat 0).toReal ≤ 0 ∧ 0 < (XNum.rat 8).toReal
    ∧ (-1 : Word).toInt < 0 ∧ State.reset.params.num.divR (XNum.rat 8).toReal 2 ≤ (XNum.rat 4).toReal
    ∧ (XNum.rat 1).toReal < (XNum.rat 2).toReal
    ∧ ((XNum.rat (-1)).toReal ≤ (XNum.rat (-1)).toReal ∧ (XNum.rat (-1)).toReal < 0)
    ∧ ((XNum.rat 0).toReal ≤ (XNum.rat 2).toReal ∧ 0 ≤ (XNum.rat 0).toReal
      ∧ (((samples [1, 2]).length : ℕ) : ℝ) - 1 < (XNum.rat 2).toReal) :=
  ⟨by norm_num, by norm_num, by decide, by norm_num, by norm_num, by norm_num, by norm_num [samples]⟩

/-- Inside, at the last held point, and past it. -/
theorem witness_ShresHoldsPreviousValue : 0 < (XNum.rat 1).toReal ∧ overMax State.reset.params 3 = false
    ∧ (0 ≤ realAt (samples [1 / 2, 2, 201 / 100]) 1 * 1 ∧ realAt (samples [1 / 2, 2, 201 / 100]) 1 * 1 ≤ ((3 : ℕ) : ℝ) - 1)
    ∧ ¬ realAt (samples [1 / 2, 2, 201 / 100]) 2 * 1 ≤ ((3 : ℕ) : ℝ) - 1 :=
  ⟨by norm_num, by decide, by norm_num [realAt, samples], by norm_num [realAt, samples]⟩

/-- Five taps, with and without room. -/
theorem witness_GausswinMakesGaussian : 0 < (XNum.rat 8).toReal ∧ 0 < (XNum.rat (1 / 16)).toReal
    ∧ gaussCount State.reset.params.num (XNum.rat 8).toReal (XNum.rat (1 / 16)).toReal = 5
    ∧ overMax State.reset.params 5 = false ∧ overMax (tight State.reset).params 5 = true :=
  ⟨by norm_num, by norm_num, by norm_num [gaussCount, oddUp], by decide, by decide⟩

/-- Five taps at 22 dB, with and without room; and LPFIR, at `ATT_DEFAULT`. -/
theorem witness_LowpassDesignTaps :
    (0 < (XNum.rat 8).toReal ∧ 0 ≤ (XNum.rat 1).toReal ∧ (XNum.rat 1).toReal < (XNum.rat 3).toReal
      ∧ (XNum.rat 3).toReal < State.reset.params.num.divR (XNum.rat 8).toReal 2 ∧ 0 < (XNum.rat 22).toReal)
    ∧ firCount State.reset.params.num (XNum.rat 8).toReal (XNum.rat 1).toReal (XNum.rat 3).toReal (XNum.rat 22).toReal = 5
    ∧ (overMax State.reset.params 5 = false ∧ overMax (tight State.reset).params 5 = true)
    ∧ (withReals 8 1 3 22).rReg[3] = some (.rat 22) ∧ State.reset.params.attDefault = .rat 80 :=
  ⟨by norm_num, by norm_num [firCount, oddUp], by decide, rfl, by decide +kernel⟩

/-- Each check at its boundary, with `fs = 8`; the sources of both commands. -/
theorem witness_LowpassChecks : State.reset.params.num.divR 8 2 = 4 ∧ (0 : ℝ) ≤ 0 ∧ (0 : ℝ) < 8 ∧ (1 : ℝ) ≤ 1 ∧ ((4 : ℝ) < 5 ∧ (4 : ℝ) ≤ 4)
    ∧ ((3 : ℝ) < 4 ∧ (3 : ℝ) < 4 ∧ (4 : ℝ) ≤ 4) ∧ ((-1 : ℝ) < 3 ∧ (3 : ℝ) < 4 ∧ (-1 : ℝ) < 0)
    ∧ ((0 : ℝ) ≤ 0 ∧ (0 : ℝ) < 3 ∧ (0 : ℝ) ≤ 0) ∧ (withReals 8 0 3 0).rReg[0] = some (.rat 8)
    ∧ (withReals 8 0 3 0).rReg[1] = some (.rat 0) ∧ (withReals 8 0 3 0).rReg[2] = some (.rat 3)
    ∧ (withReals 8 0 3 0).rReg[3] = some (.rat 0) := by
  refine ⟨?_, ?_, ?_, ?_, ?_, ?_, ?_, ?_, rfl, rfl, rfl, rfl⟩ <;> norm_num

theorem witness_GoertzWritesResonator : 0 < (XNum.rat 8000).toReal
    ∧ (XNum.rat 1000).toReal < State.reset.params.num.divR (XNum.rat 8000).toReal 2 ∧ overMax State.reset.params 3 = false :=
  ⟨by norm_num, by norm_num, by decide⟩

/-- Over four samples: a point, a span inside one pair of knots, and one up to the last sample. -/
theorem witness_AvgintAverages : ∀ be ∈ [((3 / 2 : ℚ), (3 / 2 : ℚ)), (0, 1), (1 / 2, 3)],
    (XNum.rat be.1).toReal ≤ (XNum.rat be.2).toReal ∧ 0 ≤ (XNum.rat be.1).toReal
      ∧ (XNum.rat be.2).toReal ≤ (((samples [1, 1, 4, 1]).length : ℕ) : ℝ) - 1 := by
  simp only [List.mem_cons, List.not_mem_nil, or_false, forall_eq_or_imp, forall_eq, toReal_rat, samples, List.map_cons,
    List.map_nil, List.length_cons, List.length_nil]
  norm_num

theorem witness_ConvFilters : samples [1 / 4, 1 / 2, 1 / 4] ≠ [] ∧ overMax State.reset.params 3 = false := by
  decide +kernel

/-- The sources of a CFG* command of each mode: rate 48, symbol rate 3, carrier 12, amplitude 9/10, one symbol. -/
def loaded : State :=
  (((withReals 48 3 12 (9 / 10)).setF 0 [.rat 1]).setF 1 [.rat 8]).setZ 0 [⟨.rat (3 / 5), .rat (4 / 5)⟩]

/-- The four commands on them, with what they ask for. -/
def requests : List (Instr × CfgRequest) :=
  [(.cfgask 0 2 1 0, ⟨.ask, .rat 48, .rat 3, .rat 12, .rat 0, [⟨.rat 1, .rat 0⟩]⟩),
    (.cfgfsk 0 3 1 1, ⟨.fsk, .rat 48, .rat 3, .rat 0, .rat (9 / 10), [⟨.rat 8, .rat 0⟩]⟩),
    (.cfgpsk 0 2 3 1 0, ⟨.psk, .rat 48, .rat 3, .rat 12, .rat (9 / 10), [⟨.rat 1, .rat 0⟩]⟩),
    (.cfgqam 0 2 1 0, ⟨.qam, .rat 48, .rat 3, .rat 12, .rat 0, [⟨.rat (3 / 5), .rat (4 / 5)⟩]⟩)]

/-- For each mode operands that violate no check, a point on the unit circle among them; and `FS = 0`, which violates
the first. -/
theorem witness_ConstructorsLoadOrFail :
    (∀ iq ∈ requests, iq.1.request loaded = some iq.2) ∧ (∀ iq ∈ requests, ∀ k ∈ checksOf iq.2.mode,
      ¬ iq.2.Violates loaded.params k)
    ∧ ∀ iq ∈ requests, 1 ∈ checksOf iq.2.mode ∧ ({ iq.2 with fs := .rat 0 } : CfgRequest).Violates loaded.params 1
      ∧ ∀ j ∈ checksOf iq.2.mode, ¬ j < 1 := by
  have one : ∀ (l : List Cplx) (i j : ℕ) (a b : Cplx), l.length = 1 → i < j → l[i]? = some a → l[j]? ≠ some b := by
    intro l i j a b hl hij _ hb
    obtain ⟨h, -⟩ := List.getElem?_eq_some_iff.1 hb
    omega
  have pi3 := Real.pi_gt_three
  have root : √((3 / 5 : ℝ) ^ 2 + (4 / 5) ^ 2) = 1 := by
    rw [show (3 / 5 : ℝ) ^ 2 + (4 / 5) ^ 2 = 1 by norm_num, Real.sqrt_one]
  refine ⟨by decide +kernel, ?_, ?_⟩
  · simp only [requests, List.mem_cons, List.not_mem_nil, or_false, forall_eq_or_imp, forall_eq, checksOf]
    refine ⟨?_, ?_, ?_, ?_⟩ <;> refine ⟨?_, ?_, ?_, ?_, ?_, ?_, ?_, ?_⟩ <;> try (refine ⟨?_, ?_⟩)
    all_goals try (rintro ⟨i, j, a, b, hij, ha, hb, -⟩; exact one _ i j a b rfl hij ha hb)
    all_goals norm_num [CfgRequest.Violates, loaded, withReals, State.reset, Config.Params.default, modulus, root]
    all_goals first | linarith | (intro h; cases h)
  · simp only [requests, List.mem_cons, List.not_mem_nil, or_false, forall_eq_or_imp, forall_eq, checksOf,
      CfgRequest.Violates]
    norm_num

/-- One of the requests of `requests`, loaded and turned away. -/
theorem witness_ConstructorsLoadExactlyWhen :
    (Instr.cfgask 0 2 1 0).request loaded = some ⟨.ask, .rat 48, .rat 3, .rat 12, .rat 0, [⟨.rat 1, .rat 0⟩]⟩
    ∧ (∃ t, exec (.cfgask 0 2 1 0) loaded = .next t ∧ t.response = ⟨0, 0, 0⟩)
    ∧ ∃ t, exec (.cfgask 0 2 0 0) loaded = .next t ∧ t.response = ⟨6, 8, 0⟩ :=
  ⟨by decide +kernel, next_of_answer (by decide +kernel), next_of_answer (by decide +kernel)⟩

theorem witness_NearestCodeword : codebook (configured .ask).params.num (configured .ask).cfg ≠ [] := by decide

/-- A sequence of two guards, and one with a null inside. -/
theorem witness_FinishDropsGuards : ∀ idx ∈ [[0, 0], [0, 2, 0, 0]], 2 ≤ idx.length ∧ ∀ j ∈ idx, j < 2 ^ 31 := by decide

/-- The bank of each mode, and the counts at the boundary of each clause: FSK with two tones, ASK and the complex modes
with one value an observation. -/
theorem witness_SliceNearestSymbols :
    (∀ m ∈ [Mode.ask, .fsk, .psk, .qam], (configured m).cfg.valid = true ∧ (configured m).cfg.mode = m
      ∧ (configured m).cfg.n = (configured m).cfg.alpha.length ∧ (configured m).cfg.n < 2 ^ 31)
    ∧ overMax (configured .fsk).params 4 = false ∧ (configured .fsk).cfg.n = 2
    ∧ 3 % 2 ≠ 0 ∧ (2 % 2 = 0 ∧ 2 / 2 < 2) ∧ (4 % 2 = 0 ∧ 2 ≤ 4 / 2) ∧ (1 % 1 = 0 ∧ 1 / 1 < 2) ∧ (2 % 1 = 0 ∧ 2 ≤ 2 / 1) := by
  decide

/-- 16 samples a symbol. -/
theorem samples_of_slots (m : Mode) : sampleCountReal .exact (configured m).cfg 3 = 48 := by
  cases m <;> norm_num [sampleCountReal, configured, bankOf]

/-- In each mode: a second symbol at and past the end of the alphabet, and a transmission that does not fit. -/
theorem witness_ModulatorsCheckFirst : ∀ m ∈ [Mode.ask, .fsk, .psk, .qam],
    ((0 ≤ (0 : Word).toInt ∧ (0 : Word).toInt < (configured m).cfg.n)
      ∧ ¬ (0 ≤ (BitVec.ofNat 32 (configured m).cfg.n).toInt
        ∧ (BitVec.ofNat 32 (configured m).cfg.n).toInt < (configured m).cfg.n))
    ∧ overMax (tight (configured m)).params
      (sampleCountReal .exact (configured m).cfg (1 + 2)) = true := by
  intro m hm
  refine ⟨?_, ?_⟩
  · revert m; decide
  · rw [samples_of_slots]
    cases m <;> decide

theorem witness_ModaskMixesEnvelope : ((configured .ask).setS 0 [2]).sReg[0] = some [2]
    ∧ (configured .ask).cfg.valid = true ∧ (configured .ask).cfg.mode = .ask
    ∧ 0 ≤ (2 : Word).toInt ∧ (2 : Word).toInt < (configured .ask).cfg.n
    ∧ overMax (configured .ask).params (sampleCountReal .exact (configured .ask).cfg (1 + 2)) = false := by
  rw [samples_of_slots]; decide

theorem witness_ModfskIntegratesFrequency : ((configured .fsk).setS 0 [1]).sReg[0] = some [1]
    ∧ (configured .fsk).cfg.valid = true ∧ (configured .fsk).cfg.mode = .fsk
    ∧ 0 ≤ (1 : Word).toInt ∧ (1 : Word).toInt < (configured .fsk).cfg.n
    ∧ overMax (configured .fsk).params (sampleCountReal .exact (configured .fsk).cfg (1 + 2)) = false := by
  rw [samples_of_slots]; decide

theorem witness_ModpskShiftsPhase : ((configured .psk).setS 0 [0]).sReg[0] = some [0]
    ∧ (configured .psk).cfg.valid = true ∧ (configured .psk).cfg.mode = .psk
    ∧ 0 ≤ (0 : Word).toInt ∧ (0 : Word).toInt < (configured .psk).cfg.n
    ∧ overMax (configured .psk).params (sampleCountReal .exact (configured .psk).cfg (1 + 2)) = false := by
  rw [samples_of_slots]; decide

theorem witness_ModqamMixesQuadrature : ((configured .qam).setS 0 [0]).sReg[0] = some [0]
    ∧ (configured .qam).cfg.valid = true ∧ (configured .qam).cfg.mode = .qam
    ∧ 0 ≤ (0 : Word).toInt ∧ (0 : Word).toInt < (configured .qam).cfg.n
    ∧ overMax (configured .qam).params (sampleCountReal .exact (configured .qam).cfg (1 + 2)) = false := by
  rw [samples_of_slots]; decide

/-- 23 samples round to one interval, 24 to two. -/
theorem intervals_of_samples (m : Mode) :
    intervalCountReal .exact (configured m).cfg 23 = 1 ∧ intervalCountReal .exact (configured m).cfg 24 = 2 := by
  constructor
  · exact roundEven_of_near (by cases m <;> norm_num [configured, bankOf, abs_lt])
  · exact roundEven_of_tie (n := 1) (by cases m <;> norm_num [configured, bankOf]) rfl

/-- The constants of R179 and R180 as real numbers. -/
theorem pulse_constants :
    State.reset.params.sigmaMultT.toReal = 289 / 100 ∧ State.reset.params.fskCycleFrac.toReal = 1 / 4 := by
  rw [show State.reset.params.sigmaMultT = .rat (289 / 100) by decide +kernel,
    show State.reset.params.fskCycleFrac = .rat (1 / 4) by decide +kernel]
  norm_num

/-- An FSK bank with few samples a symbol: the last window of five samples is empty. -/
def shortFsk : ModemConfig := { bankOf .fsk 0 (4 / 5) [4] with fs := .rat 10 }

/-- The filter of the banks of `configured` passes its checks with nine taps; with a carrier next to half the rate no room
is left for it. -/
theorem filter_of_bank (m : Mode) (hm : m ≠ .fsk) :
    (∀ k, ¬ lowpassViolates .exact (configured m).cfg.fs.toReal (passReal .exact (configured m).cfg) (stopReal .exact (configured m).cfg)
      State.reset.params.attDefault.toReal k)
    ∧ basebandCount State.reset.params (configured m).cfg = 9
    ∧ lowpassViolates .exact (bankOf m (239 / 10) 1 [1]).fs.toReal (passReal .exact (bankOf m (239 / 10) 1 [1]))
      (stopReal .exact (bankOf m (239 / 10) 1 [1])) State.reset.params.attDefault.toReal 2
    ∧ ∀ j < 2, ¬ lowpassViolates .exact (bankOf m (239 / 10) 1 [1]).fs.toReal (passReal .exact (bankOf m (239 / 10) 1 [1]))
      (stopReal .exact (bankOf m (239 / 10) 1 [1])) State.reset.params.attDefault.toReal j := by
  refine ⟨fun k => ?_, ?_, ?_, fun j hj => ?_⟩
  · unfold lowpassViolates
    split <;> cases m <;>
      simp_all [configured, bankOf, passReal, stopReal, State.reset, Config.Params.default] <;> norm_num
  · have h : ⌈(48 : ℝ) / (45 / 2 - 3 / 2) * 80 / 22⌉ = 9 := by rw [Int.ceil_eq_iff]; norm_num
    have hs : stopReal .exact (configured m).cfg = 45 / 2 ∧ passReal .exact (configured m).cfg = 3 / 2
        ∧ (configured m).cfg.fs.toReal = 48 ∧ State.reset.params.attDefault.toReal = 80 := by
      cases m <;> simp_all [configured, bankOf, passReal, stopReal, State.reset, Config.Params.default] <;> norm_num
    rw [basebandCount, firCount, reset_num, hs.1, hs.2.1, hs.2.2.1, hs.2.2.2]
    simp only [exact_divR, exact_mulR, exact_subR, h]
    rfl
  · cases m <;> simp_all [lowpassViolates, bankOf, passReal, stopReal] <;> norm_num
  · interval_cases j <;> cases m <;> simp_all [lowpassViolates, bankOf]

/-- 24 samples are one and a half intervals, which round to two, 23 round to one; a carrier next to half the rate leaves
no room for the filter; a filter that does not fit; an empty FSK window. -/
theorem witness_DemodulatorsCheckFirst :
    (∀ m, intervalCountReal .exact (configured m).cfg 23 < 2 ∧ 2 ≤ intervalCountReal .exact (configured m).cfg 24)
    ∧ (∀ m, m ≠ .fsk → overMax (tight (configured m)).params (basebandCount State.reset.params (configured m).cfg) = true)
    ∧ (∀ m, 2 ≤ intervalCountReal .exact (bankOf m (239 / 10) 1 [1]) 24)
    ∧ intervalCountReal .exact shortFsk 5 = 2
    ∧ roundEven (intervalReal State.reset.params shortFsk 5 2 1).2
      ≤ roundEven (intervalReal State.reset.params shortFsk 5 2 1).1 := by
  have h1 : roundEven (4 : ℝ) = 4 := roundEven_of_near (by norm_num)
  have h2 : roundEven (10 / 3 + 5 / 6 : ℝ) = 4 := roundEven_of_near (by norm_num [abs_lt])
  have hs : sigmaReal State.reset.params shortFsk = 25 / 867 := by
    simp only [sigmaReal, reset_num]
    simp [ shortFsk, bankOf, samples, Cplx.ofReal, pulse_constants]
    norm_num
  refine ⟨fun m => ?_, fun m hm => ?_, fun m => ?_, ?_, ?_⟩
  · rw [(intervals_of_samples m).1, (intervals_of_samples m).2]; decide
  · rw [(filter_of_bank m hm).2.1]; cases m <;> decide
  · exact le_of_eq (roundEven_of_tie (n := 1) (by norm_num [bankOf]) rfl).symm
  · exact roundEven_of_tie (n := 1) (by norm_num [shortFsk, bankOf]) rfl
  · simp only [intervalReal, hs, pulse_constants, reset_num]
    norm_num [shortFsk, bankOf] at h1 h2 ⊢
    rw [h1, h2]

/-- Every mode at two intervals, the fewest; the FSK windows are samples 0 to 13 and 18 to 22. -/
theorem witness_DemodulatorsDeliverSymbols :
    (∀ m, 2 ≤ intervalCountReal .exact (configured m).cfg 24
      ∧ overMax (configured m).params (intervalCountReal .exact (configured m).cfg 24) = false)
    ∧ (∀ m, m ≠ .fsk → overMax (configured m).params (basebandCount State.reset.params (configured m).cfg) = false)
    ∧ ∀ i < 2, roundEven (intervalReal State.reset.params (configured .fsk).cfg 24 2 i).1
      < roundEven (intervalReal State.reset.params (configured .fsk).cfg 24 2 i).2 := by
  have hs : sigmaReal State.reset.params (configured .fsk).cfg = 1 / 56 := by
    have h : WithBot.unbotD 0 (max (8 : WithBot ℝ) 14) = 14 := by
      change WithBot.unbotD 0 (max ((8 : ℝ) : WithBot ℝ) ((14 : ℝ) : WithBot ℝ)) = 14
      rw [max_eq_right (WithBot.coe_le_coe.2 (by norm_num)), WithBot.unbotD_coe]
    simp only [sigmaReal, reset_num]
    simp [ configured, bankOf, samples, Cplx.ofReal, List.maximum_cons, pulse_constants, h]
    norm_num
  have h0 : roundEven (0 : ℝ) = 0 := roundEven_of_near (by norm_num)
  have h1 : roundEven (4733 / 350 : ℝ) = 14 := roundEven_of_near (by norm_num [abs_lt])
  have h2 : roundEven (6467 / 350 : ℝ) = 18 := roundEven_of_near (by norm_num [abs_lt])
  have h3 : roundEven (23 : ℝ) = 23 := roundEven_of_near (by norm_num)
  refine ⟨fun m => ?_, fun m hm => ?_, fun i hi => ?_⟩
  · rw [(intervals_of_samples m).2]; cases m <;> decide
  · rw [(filter_of_bank m hm).2.1]; cases m <;> decide
  · interval_cases i
    · simp only [intervalReal, hs, pulse_constants, reset_num]
      norm_num [configured, bankOf]
      rw [h0, h1]; decide
    · simp only [intervalReal, hs, pulse_constants, reset_num]
      norm_num [configured, bankOf]
      rw [h2, h3]; decide

/-- A cosine, and a least-squares tap. -/
theorem witness_EnclosuresHold : (∃ e, (XNum.cosOf (.rat 1)).bounds = some e)
    ∧ ∃ e, (XNum.lsqTap (.rat 8) (.rat 1) (.rat 3) 2 1).bounds = some e :=
  ⟨Option.isSome_iff_exists.1 (by decide +kernel), Option.isSome_iff_exists.1 (by decide +kernel)⟩



/-- A tie. -/
theorem witness_RoundingsAreExact : |((XNum.rat (5 / 2)).roundHe : ℚ) - 5 / 2| = 1 / 2 := by decide +kernel

end Sys2Proof.Tests
end

section
/-! SUPPORT. The order and the roundings of `Sys2Proof/Machine/Real.lean` are those of the reals: the enclosure of a
term holds its real (R12), and where enclosures settle a comparison or a floor they settle it rightly. -/

namespace Sys2Proof

/-! ## Enclosures of terms -/

/-- An enclosure made from that of one operand. -/
theorem holds_of_unary {x : Option Enclosure} {f : Enclosure → Enclosure} {r y : ℝ} {e : Enclosure}
    (ih : ∀ {g}, x = some g → g.Holds r) (hf : ∀ {g}, g.Holds r → (f g).Holds y)
    (h : (do return f (← x)) = some e) : e.Holds y := by
  simp only [Option.bind_eq_bind, Option.bind_eq_some_iff] at h
  obtain ⟨g, hg, h⟩ := h
  cases h
  exact hf (ih hg)

/-- An enclosure made from those of two operands. -/
theorem holds_of_binary {x x' : Option Enclosure} {f : Enclosure → Enclosure → Enclosure} {r r' y : ℝ} {e : Enclosure}
    (ih : ∀ {g}, x = some g → g.Holds r) (ih' : ∀ {g}, x' = some g → g.Holds r')
    (hf : ∀ {g g'}, g.Holds r → g'.Holds r' → (f g g').Holds y)
    (h : (do return (f (← x) (← x')).widen) = some e) : e.Holds y := by
  simp only [Option.bind_eq_bind, Option.bind_eq_some_iff] at h
  obtain ⟨g, hg, g', hg', h⟩ := h
  cases h
  exact Laws.holds_widen (hf (ih hg) (ih' hg'))

/-- The enclosure of a term holds the real it stands for (R12). -/
theorem holds_bounds {a : XNum} {e : Enclosure} (h : a.bounds = some e) : e.Holds a.toReal := by
  induction a generalizing e with
  | rat q => cases h; exact Laws.holds_point q
  | given | fp => cases h
  | pi => cases h; exact Laws.holds_pi
  | plus a b iha ihb => exact holds_of_binary iha ihb Laws.holds_add h
  | minus a b iha ihb => exact holds_of_binary iha ihb Laws.holds_sub h
  | times a b iha ihb => exact holds_of_binary iha ihb Laws.holds_mul h
  | ratio a b iha ihb =>
    simp only [XNum.bounds, Option.bind_eq_bind, Option.bind_eq_some_iff] at h
    obtain ⟨ea, ha, eb, hb, i, hi, h⟩ := h
    cases h
    rw [XNum.toReal, div_eq_mul_inv]
    exact Laws.holds_widen (Laws.holds_mul (iha ha) (Laws.holds_inv (ihb hb) hi).1)
  | negOf a ih => exact holds_of_unary ih Laws.holds_neg h
  | cosOf a ih => exact holds_of_unary ih Laws.holds_cos h
  | sinOf a ih => exact holds_of_unary ih Laws.holds_sin h
  | expOf a ih => exact holds_of_unary ih Laws.holds_exp h
  | sqrtOf a ih => exact holds_of_unary ih Laws.holds_sqrt h
  | lsqTap fs lo hi half n ihfs ihlo ihhi =>
    simp only [XNum.bounds, Option.bind_eq_bind, Option.bind_eq_some_iff] at h
    obtain ⟨efs, hfs, elo, hlo, ehi, hhi, h⟩ := h
    exact Laws.holds_lsqTap (ihfs hfs) (ihlo hlo) (ihhi hhi) h

/-! ## Order (R12) -/

/-- Two enclosures that do not overlap are ordered as their reals; elsewhere the order of the reals is the answer. -/
theorem leTerm_iff (a b : XNum) : a.leTerm b = true ↔ a.toReal ≤ b.toReal := by
  rw [XNum.leTerm]
  split
  case isTrue hab => simp [hab]
  case isFalse =>
    split
    case h_1 e g he hg =>
      obtain ⟨hlo, hhi⟩ := holds_bounds he
      obtain ⟨hlo', hhi'⟩ := holds_bounds hg
      split
      case isTrue hle =>
        have : (e.hi : ℝ) ≤ g.lo := by exact_mod_cast hle
        simpa using hhi.trans (this.trans hlo')
      case isFalse =>
        split
        case isTrue hlt =>
          have : (g.hi : ℝ) < e.lo := by exact_mod_cast hlt
          simpa using hhi'.trans_lt (this.trans_le hlo)
        case isFalse => exact decide_exactLe a b
    case h_2 => exact decide_exactLe a b

theorem le_iff_toReal (a b : XNum) : a.le b = true ↔ a.toReal ≤ b.toReal := by
  rw [XNum.le.eq_def]
  split
  case h_1 p q => simp
  case h_2 => exact leTerm_iff a b

theorem le_eq_false_iff_toReal (a b : XNum) : a.le b = false ↔ b.toReal < a.toReal := by
  rw [← Bool.not_eq_true, le_iff_toReal, not_le]

theorem lt_iff_toReal (a b : XNum) : a.lt b = true ↔ a.toReal < b.toReal := by
  rw [XNum.lt, Bool.not_eq_true', le_eq_false_iff_toReal]

theorem eq_iff_toReal (a b : XNum) : a.eq b = true ↔ a.toReal = b.toReal := by
  rw [XNum.eq, Bool.and_eq_true, le_iff_toReal, le_iff_toReal, le_antisymm_iff]

theorem toReal_min (a b : XNum) : (XNum.min a b).toReal = min a.toReal b.toReal := by
  rw [XNum.min]
  split
  case isTrue h => exact (min_eq_left ((le_iff_toReal a b).1 h)).symm
  case isFalse h =>
    rw [le_iff_toReal, not_le] at h
    exact (min_eq_right h.le).symm

/-! ## Roundings (R10) -/

/-- An enclosure between two integers has the floor of its real. -/
theorem floor_of_holds {e : Enclosure} {x : ℝ} (h : e.Holds x) (he : e.lo.floor = e.hi.floor) : e.lo.floor = ⌊x⌋ := by
  have hlo : ((e.lo.floor : ℤ) : ℝ) ≤ e.lo := by exact_mod_cast Rat.floor_le e.lo
  have hhi : (e.hi : ℝ) < e.hi.floor + 1 := by exact_mod_cast Rat.lt_floor_add_one e.hi
  rw [← he] at hhi
  exact (Int.floor_eq_iff.2 ⟨hlo.trans h.1, h.2.trans_lt hhi⟩).symm

theorem floor_eq_toReal (a : XNum) : a.floor = ⌊a.toReal⌋ := by
  rw [XNum.floor]
  split
  case h_1 e he =>
    split
    case isTrue h => exact floor_of_holds (holds_bounds he) h
    case isFalse => exact exactFloor_eq a
  case h_2 => exact exactFloor_eq a

theorem ceil_eq_toReal (a : XNum) : a.ceil = ⌈a.toReal⌉ := by
  rw [XNum.ceil, floor_eq_toReal, toReal_neg, Int.floor_neg, neg_neg]

/-- The remainder that the machine's `round_he` looks at is the fractional part. -/
theorem roundHe_eq_roundEven (a : XNum) : a.roundHe = roundEven a.toReal := by
  have half : (XNum.rat (1 / 2)).toReal = 1 / 2 := by simp
  simp only [XNum.roundHe, roundEven, lt_iff_toReal, toReal_sub, toReal_ofInt, half, floor_eq_toReal,
    Int.self_sub_floor, Int.even_iff]

/-- `round_he` goes to an integer at most a half away. -/
theorem abs_roundEven_sub_le (x : ℝ) : |(roundEven x : ℝ) - x| ≤ 1 / 2 := by
  have h0 := Int.fract_nonneg x
  have h1 := Int.fract_lt_one x
  rw [Int.fract] at h0 h1
  rw [roundEven, Int.fract, abs_le]
  split_ifs <;> push_cast <;> constructor <;> linarith

/-- At a tie `round_he` goes to the even integer. -/
theorem roundEven_even_of_tie {x : ℝ} (h : |(roundEven x : ℝ) - x| = 1 / 2) : Even (roundEven x) := by
  have h0 := Int.fract_nonneg x
  have h1 := Int.fract_lt_one x
  rw [roundEven] at h ⊢
  rw [Int.fract] at *
  split_ifs at h ⊢ with hlt hgt he
  · rw [abs_sub_comm, abs_of_nonneg h0] at h; linarith
  · push_cast at h; rw [abs_of_nonneg (by linarith)] at h; linarith
  · exact he
  · exact Int.even_add_one.2 he

end Sys2Proof

namespace Sys2Proof.Machine

/-- Settles O58, by induction on the term, one soundness law of the interval arithmetic for each operation. -/
theorem enclosuresHold : Obligations.EnclosuresHold := fun _ _ h => holds_bounds h

/-- Settles O59: enclosures settle the order rightly, and the order of the reals is the answer elsewhere. -/
theorem orderIsExact : Obligations.OrderIsExact := fun a b =>
  ⟨le_iff_toReal a b, lt_iff_toReal a b, eq_iff_toReal a b, toReal_min a b⟩

/-- Settles O60: the floor is exact, and `round_he` looks at the fractional part that the floor leaves. -/
theorem roundingsAreExact : Obligations.RoundingsAreExact := by
  intro a
  refine ⟨floor_eq_toReal a, ceil_eq_toReal a, ?_, fun h => ?_, roundHe_eq_roundEven a⟩
  · rw [roundHe_eq_roundEven]; exact abs_roundEven_sub_le _
  · rw [roundHe_eq_roundEven] at h ⊢
    exact Int.even_iff.1 (roundEven_even_of_tie h)

end Sys2Proof.Machine
end

section
/-! SUPPORT. TIMEARR, SPS and GOERTZ past their checks (spec/43_signal_utils.md R141, R142, R150). -/

namespace Sys2Proof.Machine

/-! ## Guards and reads that pass -/

/-- The check `fs <= 0` and its like, passed by a positive operand. -/
theorem le_zero_eq_false {a : XNum} (h : 0 < a.toReal) : a.le (.rat 0) = false :=
  (le_eq_false_iff_toReal a _).2 (by simpa using h)

theorem putF_eq_ok {s : State} {i : FReg} {l : List XNum} (h : overMax s.params l.length = false) :
    s.putF i l = .ok (s.setF i l) := putF_ok_iff.2 ⟨h, rfl⟩

theorem putZ_eq_ok {s : State} {i : ZReg} {l : List Cplx} (h : overMax s.params l.length = false) :
    s.putZ i l = .ok (s.setZ i l) := putZ_ok_iff.2 ⟨h, rfl⟩

/-! ## TIMEARR -/

/-- TIMEARR past its checks: the capacity check decides, and the time grid is written (R141). -/
theorem exec_timearr {fd : FReg} {rfs : RReg} {xn : XReg} {s : State} {fs : XNum} {n : Word}
    (hfs : s.rReg[rfs] = some fs) (hn : s.xReg[xn] = some n) (hpos : 0 < fs.toReal) (hn0 : 0 ≤ n.toInt) :
    exec (.timearr fd rfs xn) s =
      if overMax s.params n.toInt then .next (s.raise ⟨.capacity, n.toInt⟩)
      else .next ((s.setF fd (timeGrid s.params.num fs n.toInt.toNat)).retire noWarn) := by
  have hneg : decide (n.toInt < 0) = false := by simpa using hn0
  simp only [exec, execTimearr, readR_ok_iff.2 hfs, readX_ok_iff.2 hn, le_zero_eq_false hpos, hneg, failIf_false, ok_bind]
  split
  case isTrue h => rw [fits_eq_error h, error_bind, complete_error]
  case isFalse h =>
    rw [Bool.not_eq_true] at h
    have hlen : overMax s.params (timeGrid s.params.num fs n.toInt.toNat).length = false := by
      rw [timeGrid_length]; exact overMax_toNat h
    rw [fits_eq_ok h, ok_bind, putF_eq_ok hlen, ok_bind, pure_eq_ok, complete_ok]

/-- R141: the first sample time is exactly 0 in either numeric domain, the others are quotients of that domain. -/
theorem realAt_timeGrid (d : Config.NumDomain) (fs : XNum) {n i : Nat} (h : i < n) :
    realAt (timeGrid d fs n) i = if i = 0 then 0 else d.divR i fs.toReal := by
  rw [realAt_of_lt (by simpa using h)]
  simp only [timeGrid, List.getElem_map, List.getElem_range]
  split <;> simp

theorem timeGrid_first (d : Config.NumDomain) (fs : XNum) {n : Nat} (h : 0 < n) (a : XNum) :
    (timeGrid d fs n).getD 0 a = .rat 0 := by
  rw [List.getD_eq_getElem _ _ (by simpa using h)]
  simp [timeGrid]

/-- Settles O35: the destination receives the time grid, whose elements `realAt_timeGrid` gives. -/
theorem timearrMakesTimeGrid : Obligations.TimearrMakesTimeGrid := by
  intro fd rfs xn s fs n hfs hn hpos hn0
  rw [exec_timearr hfs hn hpos hn0]
  refine ⟨fun h => if_pos h, fun h => ⟨timeGrid s.params.num fs n.toInt.toNat, ?_, ?_, ?_, ?_, ?_⟩⟩
  · rw [h]; rfl
  · rw [timeGrid_length, Int.toNat_of_nonneg hn0]
  · rw [timeGrid_length]; exact fun h0 => timeGrid_first _ _ h0 _
  · rw [timeGrid_length]
    intro hd i hi
    rw [realAt_timeGrid _ _ hi, hd]
    split
    case isTrue h0 => simp [h0]
    case isFalse => rfl
  · rw [timeGrid_length]
    intro hd i hi h0
    rw [realAt_timeGrid _ _ hi, hd, if_neg h0.ne']
    rfl

/-! ## SPS -/

/-- SPS past its checks writes the quotient of the numeric domain (R142). -/
theorem exec_sps {rd rfs rbaud : RReg} {s : State} {fs baud : XNum} (hfs : s.rReg[rfs] = some fs)
    (hbaud : s.rReg[rbaud] = some baud) (hpos : 0 < fs.toReal) (hpos' : 0 < baud.toReal) :
    exec (.sps rd rfs rbaud) s = .next ((s.setR rd (s.params.num.div fs baud)).retire noWarn) := by
  simp only [exec, execSps, readR_ok_iff.2 hfs, readR_ok_iff.2 hbaud, le_zero_eq_false hpos, le_zero_eq_false hpos',
    failIf_false, ok_bind, pure_eq_ok, complete_ok]

/-- Settles O36: the quotient stands for `divR` of the numeric domain. -/
theorem spsDivides : Obligations.SpsDivides := by
  intro rd rfs rbaud s fs baud hfs hbaud hpos hpos'
  refine ⟨_, exec_sps hfs hbaud hpos hpos', fun hd => ?_, fun hd => ?_⟩
  · rw [num_div, hd, exact_divR]
  · rw [num_div, hd]; rfl

/-! ## GOERTZ -/

/-- GOERTZ past its checks writes both coefficient lists of the resonator (R150). -/
theorem exec_goertz {zd : ZReg} {fd : FReg} {rfreq rfs : RReg} {s : State} {freq fs : XNum}
    (hfreq : s.rReg[rfreq] = some freq) (hfs : s.rReg[rfs] = some fs) (hpos : 0 < fs.toReal)
    (hlt : freq.toReal < s.params.num.divR fs.toReal 2) (hfit : overMax s.params 3 = false) :
    exec (.goertz zd fd rfreq rfs) s = .next (((s.setZ zd
        (goertzelNumerator s.params.num (goertzelAngle s.params.num freq fs))).setF fd
        (goertzelDenominator s.params.num (goertzelAngle s.params.num freq fs))).retire noWarn) := by
  have hnyq : (s.params.num.div fs (.rat 2)).le freq = false := by
    rw [le_eq_false_iff_toReal, num_div]; simpa using hlt
  have hnum : overMax s.params (goertzelNumerator s.params.num (goertzelAngle s.params.num freq fs)).length = false :=
    overMax_mono (by simp [goertzelNumerator]) hfit
  simp only [exec, execGoertz, readR_ok_iff.2 hfreq, readR_ok_iff.2 hfs, le_zero_eq_false hpos, hnyq, failIf_false,
    ok_bind, putZ_eq_ok hnum]
  rw [putF_eq_ok hfit, ok_bind, pure_eq_ok, complete_ok]

/-- R150: `w = 2*pi*freq/fs`, each operation that of the numeric domain. -/
theorem toReal_goertzelAngle (d : Config.NumDomain) (freq fs : XNum) :
    (goertzelAngle d freq fs).toReal = d.divR (d.mulR (d.mulR 2 d.piR) freq.toReal) fs.toReal := by
  simp [goertzelAngle]

/-- R150: `[1, -cis(-w)]`, part by part. -/
theorem toReal_goertzelNumerator (d : Config.NumDomain) (w : XNum) :
    (goertzelNumerator d w).map (fun c => (c.re.toReal, c.im.toReal)) =
      [(1, 0), (d.negR (d.cosR (d.negR w.toReal)), d.negR (d.sinR (d.negR w.toReal)))] := by
  simp [goertzelNumerator, Cplx.ofReal, Config.NumDomain.cis]

/-- R150: `[1, -2*cos(w), 1]`. -/
theorem toReal_goertzelDenominator (d : Config.NumDomain) (w : XNum) :
    (goertzelDenominator d w).map XNum.toReal = [1, d.mulR (-2) (d.cosR w.toReal), 1] := by
  simp [goertzelDenominator]

/-- Settles O42: both lists are written, and over the exact reals `-cis(-w)` has the parts `-cos(w)` and `sin(w)`. -/
theorem goertzWritesResonator : Obligations.GoertzWritesResonator := by
  intro zd fd rfreq rfs s freq fs hfreq hfs hpos hlt hfit d w
  have hw : (goertzelAngle d freq fs).toReal = w := toReal_goertzelAngle d freq fs
  have hnum := toReal_goertzelNumerator d (goertzelAngle d freq fs)
  have hden := toReal_goertzelDenominator d (goertzelAngle d freq fs)
  rw [hw] at hnum hden
  refine ⟨_, _, exec_goertz hfreq hfs hpos hlt hfit, hnum, hden, fun hd => ⟨?_, hnum.trans ?_, hden.trans ?_⟩⟩
  · simp only [w, hd, exact_divR, exact_mulR, exact_piR]
  · simp only [hd, exact_negR, exact_cosR, exact_sinR, Real.cos_neg, Real.sin_neg, neg_neg]
  · simp only [hd, exact_mulR, exact_cosR]

end Sys2Proof.Machine
end

section
/-! SUPPORT. What a write leaves unchanged (spec/00_scope.md R11): every register but the destination. -/

namespace Sys2Proof.Machine

variable {s t u : State} {o : Operand}

/-! ## Registers that a write leaves -/

theorem sameReg_refl (s : State) (o : Operand) : s.SameReg s o := by cases o <;> rfl

theorem setX_sameReg {i : XReg} {v : Word} (h : s.SameReg u o) (ho : o ≠ .x i) : s.SameReg (u.setX i v) o := by
  cases o with
  | x j => exact (State.setX_get_ne u v fun hij => ho (by rw [hij])).trans h
  | _ => exact h

theorem setR_sameReg {i : RReg} {v : XNum} (h : s.SameReg u o) (ho : o ≠ .r i) : s.SameReg (u.setR i v) o := by
  cases o with
  | r j => exact (State.setR_get_ne u v fun hij => ho (by rw [hij])).trans h
  | _ => exact h

theorem setB_sameReg {i : BReg} {v : ByteBuf} (h : s.SameReg u o) (ho : o ≠ .b i) : s.SameReg (u.setB i v) o := by
  cases o with
  | b j => exact (State.setB_get_ne u v fun hij => ho (by rw [hij])).trans h
  | _ => exact h

theorem setS_sameReg {i : SReg} {v : List Word} (h : s.SameReg u o) (ho : o ≠ .s i) : s.SameReg (u.setS i v) o := by
  cases o with
  | s j => exact (State.setS_get_ne u v fun hij => ho (by rw [hij])).trans h
  | _ => exact h

theorem setF_sameReg {i : FReg} {v : List XNum} (h : s.SameReg u o) (ho : o ≠ .f i) : s.SameReg (u.setF i v) o := by
  cases o with
  | f j => exact (State.setF_get_ne u v fun hij => ho (by rw [hij])).trans h
  | _ => exact h

theorem setZ_sameReg {i : ZReg} {v : List Cplx} (h : s.SameReg u o) (ho : o ≠ .z i) : s.SameReg (u.setZ i v) o := by
  cases o with
  | z j => exact (State.setZ_get_ne u v fun hij => ho (by rw [hij])).trans h
  | _ => exact h

theorem retire_sameReg_iff {w w' : BitVec 4} : (s.retire w).SameReg (u.retire w') o ↔ s.SameReg u o := by
  cases o <;> exact Iff.rfl

theorem sameReg_retire {w : BitVec 4} (h : s.SameReg u o) : s.SameReg (u.retire w) o := by cases o <;> exact h

theorem sameReg_raise (s : State) (e : CmdError) (o : Operand) : s.SameReg (s.raise e) o := by cases o <;> rfl

/-- R11: a register that is no destination holds what it held. -/
theorem wrote_sameReg {d : Dest} (h : Wrote d s u) (ho : ¬ d.has o) : s.SameReg u o := by
  have base := sameReg_refl s o
  unfold Wrote at h
  split at h
  · obtain ⟨v, rfl⟩ := h; exact setX_sameReg base ho
  · obtain ⟨v, rfl⟩ := h; exact setR_sameReg base ho
  · obtain ⟨v, -, rfl⟩ := h; exact setB_sameReg base ho
  · obtain ⟨v, -, rfl⟩ := h; exact setS_sameReg base ho
  · obtain ⟨v, -, rfl⟩ := h; exact setF_sameReg base ho
  · obtain ⟨v, -, rfl⟩ := h; exact setZ_sameReg base ho
  · obtain ⟨v, w, -, -, rfl⟩ := h
    exact setF_sameReg (setZ_sameReg base fun hz => ho (.inl hz)) fun hf => ho (.inr hf)
  · exact h.elim
  · obtain ⟨q, -, -, rfl⟩ := h; cases o <;> rfl

/-! ## Host actions -/

/-- A host load is a write of the register it names (R61). -/
theorem hostAct_load {a : HostAction} (ho : a.target = some o) (h : hostAct a s = .next t) : Wrote (.reg o) s t := by
  cases a with
  | loadX i v => cases ho; cases h; exact ⟨v, rfl⟩
  | loadR i v =>
    cases ho
    obtain ⟨a, -, h⟩ := hostReals_next_iff.1 h
    cases h
    exact ⟨a, rfl⟩
  | loadB i v =>
    cases ho
    obtain ⟨hl, rfl⟩ := hostLoad_next_iff.1 h
    exact ⟨v, .inl hl, rfl⟩
  | loadS i v =>
    cases ho
    obtain ⟨hl, rfl⟩ := hostLoad_next_iff.1 h
    exact ⟨v, hl, rfl⟩
  | loadF i v =>
    cases ho
    obtain ⟨l, -, h⟩ := hostReals_next_iff.1 h
    obtain ⟨hl, rfl⟩ := hostLoad_next_iff.1 h
    exact ⟨l, hl, rfl⟩
  | loadZ i v =>
    cases ho
    obtain ⟨l, -, h⟩ := hostReals_next_iff.1 h
    obtain ⟨hl, rfl⟩ := hostLoad_next_iff.1 h
    exact ⟨l, hl, rfl⟩
  | run program => cases ho
  | reset => cases ho

/-- A write of registers keeps the invariant: the buffer it writes fits, and the rest of the invariant does not speak
of registers. -/
theorem wrote_keeps_inv {d : Dest} (h : Wrote d s u) (hd : d ≠ .cfg) (hs : s.Inv) : u.Inv := by
  obtain ⟨-, herr, hinfo, hpc, -, hprog, hparams, hcfg⟩ := wrote_rest h
  have hcfg := hcfg hd
  exact {
    fit := wrote_keeps_fit h hs.fit
    cfgChecked := by rw [hcfg, hparams]; exact hs.cfgChecked
    cfgCount := by rw [hcfg]; exact hs.cfgCount
    cfgUnused := by rw [hcfg]; exact hs.cfgUnused
    errCode := by rw [herr]; exact hs.errCode
    errInfoZero := by rw [herr, hinfo]; exact hs.errInfoZero
    pcInProgram := by rw [hpc, hprog]; exact hs.pcInProgram }

/-- The state after a host reset, whatever the parameters are. -/
theorem reset_inv (p : Config.Params) : State.Inv { State.reset with params := p } where
  fit := ⟨within_empty _ _, within_empty _ _, within_empty _ _, within_empty _ _⟩
  cfgChecked := fun h => nomatch h
  cfgCount := fun h => nomatch h
  cfgUnused := fun h => nomatch h
  errCode := Nat.zero_le _
  errInfoZero := fun _ => rfl
  pcInProgram := Nat.zero_le _

theorem run_inv (hs : s.Inv) (program : List CmdWord) :
    State.Inv { s with program := program, pc := 0, running := true } :=
  { hs with fit := ⟨hs.fit.bytes, hs.fit.symbols, hs.fit.samples, hs.fit.complex⟩, pcInProgram := Nat.zero_le _ }

theorem hostAct_keeps_inv {a : HostAction} (hs : s.Inv) (h : hostAct a s = .next t) : t.Inv := by
  cases ha : a.target with
  | some o => exact wrote_keeps_inv (hostAct_load ha h) (by simp) hs
  | none =>
    cases a with
    | run program => cases h; exact run_inv hs program
    | reset => cases h; exact reset_inv _
    | _ => cases ha

/-- A host load changes nothing but the register it names (R61). -/
theorem hostAct_load_frame {a : HostAction} (ha : a.target ≠ none) (h : hostAct a s = .next t) :
    (∀ o : Operand, a.target ≠ some o → s.SameReg t o) ∧ t.cfg = s.cfg ∧ t.status = s.status ∧ t.errInfo = s.errInfo
    ∧ t.program = s.program ∧ t.pc = s.pc ∧ t.running = s.running ∧ t.params = s.params := by
  obtain ⟨p, hp⟩ := Option.ne_none_iff_exists'.1 ha
  have hw := hostAct_load hp h
  obtain ⟨hwarn, herr, hinfo, hpc, hrun, hprog, hparams, hcfg⟩ := wrote_rest hw
  have hcfg := hcfg (by simp)
  refine ⟨fun o ho => wrote_sameReg hw fun hop => ho ?_, hcfg, ?_, hinfo, hprog, hpc, hrun, hparams⟩
  · rw [hp]; exact congrArg some hop.symm
  · simp only [State.status, State.cfgMode, hcfg, hwarn, herr]

/-- A buffer of real numbers is handed over as it is. -/
theorem mapM_map_eq_some {α β : Type} {f : α → Option β} {g : β → α} (h : ∀ b, f (g b) = some b) (l : List β) :
    (l.map g).mapM f = some l := by
  induction l with
  | nil => rfl
  | cons b l ih => simp [h, ih]

theorem hostLoad_next {count : Nat} (h : overMax s.params count = false) : hostLoad s count t = .next t :=
  hostLoad_next_iff.2 ⟨h, rfl⟩

theorem hostAct_loadF {i : FReg} {l : List XNum} (h : overMax s.params l.length = false) :
    hostAct (.loadF i (l.map .num)) s = .next (s.setF i l) :=
  hostReals_next_iff.2 ⟨l, mapM_map_eq_some (f := HostReal.value?) (fun _ => rfl) l, hostLoad_next h⟩

theorem hostAct_loadZ {i : ZReg} {l : List Cplx} (h : overMax s.params l.length = false) :
    hostAct (.loadZ i (l.map fun c => (.num c.re, .num c.im))) s = .next (s.setZ i l) :=
  hostReals_next_iff.2 ⟨l, mapM_map_eq_some (f := hostCplx?) (fun _ => rfl) l, hostLoad_next h⟩

/-- R13: which loads are refused as no number; the length of a buffer is not looked at before. -/
theorem loadR_refused_iff {i : RReg} {v : HostReal} :
    hostAct (.loadR i v) s = .refused .hostLoadNotReal ↔ ∀ a, v ≠ .num a := by
  rw [hostAct, hostReals_refused_iff (by simp), value?_eq_none_iff]

theorem loadF_refused_iff {i : FReg} {v : List HostReal} :
    hostAct (.loadF i v) s = .refused .hostLoadNotReal ↔ ∃ x ∈ v, ∀ a, x ≠ .num a := by
  rw [hostAct, hostReals_refused_iff fun _ => hostLoad_ne, mapM_eq_none_iff]
  simp only [value?_eq_none_iff]

theorem loadZ_refused_iff {i : ZReg} {v : List (HostReal × HostReal)} :
    hostAct (.loadZ i v) s = .refused .hostLoadNotReal ↔ ∃ x ∈ v, (∀ a, x.1 ≠ .num a) ∨ ∀ a, x.2 ≠ .num a := by
  rw [hostAct, hostReals_refused_iff fun _ => hostLoad_ne, mapM_eq_none_iff]
  simp only [hostCplx?_eq_none_iff]

/-- Settles O21: a load is a write of one register, which keeps the invariant and leaves the rest. -/
theorem hostActionsKeepInv : Obligations.HostActionsKeepInv :=
  ⟨fun _ _ _ hs h => hostAct_keeps_inv hs h,
    fun _ => ⟨fun _ _ => rfl, fun _ _ => rfl, fun _ _ h => hostLoad_next h, fun _ _ h => hostLoad_next h,
      fun _ _ h => hostAct_loadF h, fun _ _ h => hostAct_loadZ h⟩,
    fun _ _ _ ha h => hostAct_load_frame ha h,
    fun _ => ⟨fun _ _ => loadR_refused_iff, fun _ _ => loadF_refused_iff, fun _ _ => loadZ_refused_iff⟩⟩

end Sys2Proof.Machine
end

section
/-! SUPPORT. What a command depends on (spec/00_scope.md R11, spec/10_state.md R36): two states that agree on the
sources of a command, on the parameters and, where it needs one, on the bank get the same answer and the same
destinations. -/

namespace Sys2Proof.Machine

/-! ## Computations that end alike -/

/-- The destinations hold the same in both states. -/
def SameDest (d : Dest) (t t' : State) : Prop :=
  (∀ o : Operand, d.has o → t.SameReg t' o) ∧ (d = .cfg → t'.cfg = t.cfg)

/-- Two computations of a command fail with the same error, or succeed with the same warnings and destinations. -/
def EndAlike (d : Dest) : Cmd (State × BitVec 4) → Cmd (State × BitVec 4) → Prop
  | .ok (u, w), .ok (u', w') => w' = w ∧ SameDest d u u'
  | .error e, .error e' => e' = e
  | _, _ => False

/-- Two next states hold the same response and, after a completion, the same destinations. -/
def AnswerAlike (d : Dest) (r r' : Host.Outcome State Fault Refusal) : Prop :=
  ∀ t t', r = .next t → r' = .next t' → t'.response = t.response ∧ (t.response.err = 0 → SameDest d t t')

section

variable {d : Dest} {s s' u u' : State}

theorem sameDest_retire {w w' : BitVec 4} (h : SameDest d u u') : SameDest d (u.retire w) (u'.retire w') :=
  ⟨fun o ho => retire_sameReg_iff.2 (h.1 o ho), h.2⟩

theorem complete_alike {b b' : Cmd (State × BitVec 4)} (h : EndAlike d b b') :
    AnswerAlike d (s.complete b) (s'.complete b') := by
  intro t t' ht ht'
  match b, b', h with
  | .ok (u, w), .ok (u', w'), ⟨hw, hd⟩ =>
    cases ht; cases ht'
    exact ⟨by rw [State.retire_response, State.retire_response, hw], fun _ => sameDest_retire hd⟩
  | .error e, .error e', he =>
    cases ht; cases ht'; cases he
    exact ⟨rfl, fun h0 => absurd h0 (code_ne_zero _)⟩

/-- Two computations that begin alike end alike if what follows does. -/
theorem bind_alike {α : Type} {x : Cmd α} {f f' : α → Cmd (State × BitVec 4)} (h : ∀ a, EndAlike d (f a) (f' a)) :
    EndAlike d (x >>= f) (x >>= f') := by
  cases x with
  | error e => exact rfl
  | ok a => exact h a

theorem return_alike {w : BitVec 4} (h : SameDest d u u') : EndAlike d (pure (u, w)) (pure (u', w)) := ⟨rfl, h⟩

/-! ## The destinations of a write -/

theorem setX_sameDest (s s' : State) (i : XReg) (v : Word) : SameDest (.reg (.x i)) (s.setX i v) (s'.setX i v) :=
  ⟨fun _ ho => by cases ho; exact (s'.setX_get i v).trans (s.setX_get i v).symm, nofun⟩

theorem setR_sameDest (s s' : State) (i : RReg) (v : XNum) : SameDest (.reg (.r i)) (s.setR i v) (s'.setR i v) :=
  ⟨fun _ ho => by cases ho; exact (s'.setR_get i v).trans (s.setR_get i v).symm, nofun⟩

theorem setB_sameDest (s s' : State) (i : BReg) (v : ByteBuf) : SameDest (.reg (.b i)) (s.setB i v) (s'.setB i v) :=
  ⟨fun _ ho => by cases ho; exact (s'.setB_get i v).trans (s.setB_get i v).symm, nofun⟩

theorem setS_sameDest (s s' : State) (i : SReg) (v : List Word) : SameDest (.reg (.s i)) (s.setS i v) (s'.setS i v) :=
  ⟨fun _ ho => by cases ho; exact (s'.setS_get i v).trans (s.setS_get i v).symm, nofun⟩

theorem setF_sameDest (s s' : State) (i : FReg) (v : List XNum) : SameDest (.reg (.f i)) (s.setF i v) (s'.setF i v) :=
  ⟨fun _ ho => by cases ho; exact (s'.setF_get i v).trans (s.setF_get i v).symm, nofun⟩

theorem setZF_sameDest (s s' : State) (i : ZReg) (j : FReg) (v : List Cplx) (w : List XNum) :
    SameDest (.regs (.z i) (.f j)) ((s.setZ i v).setF j w) ((s'.setZ i v).setF j w) := by
  refine ⟨fun o ho => ?_, nofun⟩
  rcases ho with rfl | rfl
  · exact (s'.setZ_get i v).trans (s.setZ_get i v).symm
  · exact ((s'.setZ i v).setF_get j w).trans ((s.setZ i v).setF_get j w).symm

/-- A write that checks its capacity first (R10). -/
theorem fits_then_alike {n : Int} {w : BitVec 4} (hp : s'.params = s.params) (h : SameDest d u u') :
    EndAlike d (do let t ← (do fits s.params n; return u); return (t, w))
      (do let t ← (do fits s'.params n; return u'); return (t, w)) := by
  rw [hp]
  cases fits s.params n with
  | error e => exact rfl
  | ok _ => exact return_alike h

variable (hp : s'.params = s.params)
include hp

theorem putB_alike {i : BReg} {v : List Byte} {w : BitVec 4} :
    EndAlike (.reg (.b i)) (do let t ← s.putB i v; return (t, w)) (do let t ← s'.putB i v; return (t, w)) :=
  fits_then_alike hp (setB_sameDest s s' i _)

theorem putS_alike {i : SReg} {v : List Word} {w : BitVec 4} :
    EndAlike (.reg (.s i)) (do let t ← s.putS i v; return (t, w)) (do let t ← s'.putS i v; return (t, w)) :=
  fits_then_alike hp (setS_sameDest s s' i _)

theorem putF_alike {i : FReg} {v : List XNum} {w : BitVec 4} :
    EndAlike (.reg (.f i)) (do let t ← s.putF i v; return (t, w)) (do let t ← s'.putF i v; return (t, w)) :=
  fits_then_alike hp (setF_sameDest s s' i _)

/-- Both capacity checks of GOERTZ, then both writes (R150). -/
theorem putZF_alike {i : ZReg} {j : FReg} {v : List Cplx} {l : List XNum} {w : BitVec 4} :
    EndAlike (.regs (.z i) (.f j)) (do let t ← s.putZ i v; let t' ← t.putF j l; return (t', w))
      (do let t ← s'.putZ i v; let t' ← t.putF j l; return (t', w)) := by
  rw [State.putZ, State.putZ, hp]
  cases fits s.params v.length with
  | error e => exact rfl
  | ok _ => exact fits_then_alike (s := s.setZ i v) (s' := s'.setZ i v) hp (setZF_sameDest s s' i j v l)

theorem construct_alike {q : CfgRequest} : EndAlike .cfg (construct s q) (construct s' q) := by
  rw [construct, construct, hp]
  cases cfgFailure s.params q with
  | some c => exact rfl
  | none => exact ⟨rfl, fun _ ho => ho.elim, fun _ => rfl⟩

theorem sliceInto_alike {sd : SReg} {obs : List (List XNum)} (hc : s'.cfg = s.cfg) :
    EndAlike (.reg (.s sd)) (sliceInto s sd obs) (sliceInto s' sd obs) := by
  simp only [sliceInto, hp, hc]
  exact putS_alike hp

end

/-! ## What a command reads -/

/-- The states agree on what the command depends on (R11, R36, R185). -/
structure SameInputs (i : Instr) (s s' : State) : Prop where
  sources : ∀ o ∈ i.sources, s.SameReg s' o
  bank : i.modes ≠ none → s'.cfg = s.cfg
  params : s'.params = s.params

namespace SameInputs

variable {i : Instr} {s s' : State} (h : SameInputs i s s')
include h

theorem readX (j : XReg) (hj : .x j ∈ i.sources := by simp [Instr.sources]) : s'.readX j = s.readX j :=
  congrArg (source 0 j.val) (h.sources _ hj)

theorem readR (j : RReg) (hj : .r j ∈ i.sources := by simp [Instr.sources]) : s'.readR j = s.readR j :=
  congrArg (source 1 j.val) (h.sources _ hj)

theorem readB (j : BReg) (hj : .b j ∈ i.sources := by simp [Instr.sources]) : s'.readB j = s.readB j :=
  congrArg (source 2 j.val) (h.sources _ hj)

theorem readS (j : SReg) (hj : .s j ∈ i.sources := by simp [Instr.sources]) : s'.readS j = s.readS j :=
  congrArg (source 3 j.val) (h.sources _ hj)

theorem readF (j : FReg) (hj : .f j ∈ i.sources := by simp [Instr.sources]) : s'.readF j = s.readF j :=
  congrArg (source 4 j.val) (h.sources _ hj)

theorem readZ (j : ZReg) (hj : .z j ∈ i.sources := by simp [Instr.sources]) : s'.readZ j = s.readZ j :=
  congrArg (source 5 j.val) (h.sources _ hj)

/-- The bank is read by the commands of R185 alone. -/
theorem cfg (hm : i.modes ≠ none := by simp [Instr.modes]) : s'.cfg = s.cfg := h.bank hm

end SameInputs

theorem needCfg_congr {s s' : State} (hc : s'.cfg = s.cfg) (modes : List Mode) : s'.needCfg modes = s.needCfg modes := by
  rw [State.needCfg, State.needCfg, hc]

/-! ## Every command -/

section

variable {s s' : State} (hp : s'.params = s.params)
include hp

theorem encodeCommand_alike {k : Nat} {sd : SReg} {bs : BReg} (hbs : s'.readB bs = s.readB bs) :
    AnswerAlike (.reg (.s sd)) (encodeCommand k sd bs s) (encodeCommand k sd bs s') := by
  refine complete_alike ?_
  simp only [hbs]
  exact bind_alike fun _ => bind_alike fun _ => putS_alike hp

theorem decodeCommand_alike {k : Nat} {bd : BReg} {ss : SReg} (hss : s'.readS ss = s.readS ss) :
    AnswerAlike (.reg (.b bd)) (decodeCommand k bd ss s) (decodeCommand k bd ss s') := by
  refine complete_alike ?_
  simp only [hss]
  exact bind_alike fun _ => bind_alike fun _ => putB_alike hp

theorem copyCommand_alike {bd bs : BReg} (hbs : s'.readB bs = s.readB bs) :
    AnswerAlike (.reg (.b bd)) (copyCommand bd bs s) (copyCommand bd bs s') := by
  refine complete_alike ?_
  simp only [hbs]
  exact bind_alike fun _ => putB_alike hp

theorem execHamenc_alike {bd bs : BReg} (hbs : s'.readB bs = s.readB bs) :
    AnswerAlike (.reg (.b bd)) (execHamenc bd bs s) (execHamenc bd bs s') := by
  refine complete_alike ?_
  simp only [hbs]
  exact bind_alike fun _ => putB_alike hp

theorem execHamdec_alike {bd bs : BReg} (hbs : s'.readB bs = s.readB bs) :
    AnswerAlike (.reg (.b bd)) (execHamdec bd bs s) (execHamdec bd bs s') := by
  refine complete_alike ?_
  simp only [hbs, hp]
  exact bind_alike fun _ => bind_alike fun _ => putB_alike hp

omit hp in
theorem execRdbit_alike {xd : XReg} {bs : BReg} {xp : XReg} (hbs : s'.readB bs = s.readB bs)
    (hxp : s'.readX xp = s.readX xp) :
    AnswerAlike (.reg (.x xd)) (execRdbit xd bs xp s) (execRdbit xd bs xp s') := by
  refine complete_alike ?_
  simp only [hbs, hxp]
  exact bind_alike fun _ => bind_alike fun _ => bind_alike fun _ => return_alike (setX_sameDest s s' xd _)

theorem execRdbits_alike {sd : SReg} {bs : BReg} (hbs : s'.readB bs = s.readB bs) :
    AnswerAlike (.reg (.s sd)) (execRdbits sd bs s) (execRdbits sd bs s') := by
  refine complete_alike ?_
  simp only [hbs]
  exact bind_alike fun _ => putS_alike hp

omit hp in
theorem execWrbit_alike {bd : BReg} {xp xv : XReg} (hbd : s'.readB bd = s.readB bd) (hxp : s'.readX xp = s.readX xp)
    (hxv : s'.readX xv = s.readX xv) :
    AnswerAlike (.reg (.b bd)) (execWrbit bd xp xv s) (execWrbit bd xp xv s') := by
  refine complete_alike ?_
  simp only [hbd, hxp, hxv]
  exact bind_alike fun _ => bind_alike fun _ => bind_alike fun _ => bind_alike fun _ => bind_alike fun _ =>
    return_alike (setB_sameDest s s' bd _)

theorem execTimearr_alike {fd : FReg} {rfs : RReg} {xn : XReg} (hrfs : s'.readR rfs = s.readR rfs)
    (hxn : s'.readX xn = s.readX xn) :
    AnswerAlike (.reg (.f fd)) (execTimearr fd rfs xn s) (execTimearr fd rfs xn s') := by
  refine complete_alike ?_
  simp only [hrfs, hxn, hp]
  exact bind_alike fun _ => bind_alike fun _ => bind_alike fun _ => bind_alike fun _ => bind_alike fun _ =>
    putF_alike hp

theorem execSps_alike {rd rfs rbaud : RReg} (hrfs : s'.readR rfs = s.readR rfs)
    (hrbaud : s'.readR rbaud = s.readR rbaud) :
    AnswerAlike (.reg (.r rd)) (execSps rd rfs rbaud s) (execSps rd rfs rbaud s') := by
  refine complete_alike ?_
  simp only [hrfs, hrbaud, hp]
  exact bind_alike fun _ => bind_alike fun _ => bind_alike fun _ => bind_alike fun _ =>
    return_alike (setR_sameDest s s' rd _)

theorem execShres_alike {fd ft : FReg} {rbaud : RReg} {fv : FReg} (hft : s'.readF ft = s.readF ft)
    (hrbaud : s'.readR rbaud = s.readR rbaud) (hfv : s'.readF fv = s.readF fv) :
    AnswerAlike (.reg (.f fd)) (execShres fd ft rbaud fv s) (execShres fd ft rbaud fv s') := by
  refine complete_alike ?_
  simp only [hft, hrbaud, hfv, hp]
  exact bind_alike fun _ => bind_alike fun _ => bind_alike fun _ => bind_alike fun _ => putF_alike hp

theorem execGausswin_alike {fd : FReg} {rfs rsigma : RReg} (hrfs : s'.readR rfs = s.readR rfs)
    (hrsigma : s'.readR rsigma = s.readR rsigma) :
    AnswerAlike (.reg (.f fd)) (execGausswin fd rfs rsigma s) (execGausswin fd rfs rsigma s') := by
  refine complete_alike ?_
  simp only [hrfs, hrsigma, hp]
  exact bind_alike fun _ => bind_alike fun _ => bind_alike fun _ => bind_alike fun _ => bind_alike fun _ =>
    putF_alike hp

theorem execLpfir_alike {fd : FReg} {rfs rlo rhi : RReg} (hrfs : s'.readR rfs = s.readR rfs)
    (hrlo : s'.readR rlo = s.readR rlo) (hrhi : s'.readR rhi = s.readR rhi) :
    AnswerAlike (.reg (.f fd)) (execLpfir fd rfs rlo rhi s) (execLpfir fd rfs rlo rhi s') := by
  refine complete_alike ?_
  simp only [hrfs, hrlo, hrhi, hp]
  exact bind_alike fun _ => bind_alike fun _ => bind_alike fun _ => bind_alike fun _ => putF_alike hp

theorem execLpfira_alike {fd : FReg} {rfs rlo rhi ratt : RReg} (hrfs : s'.readR rfs = s.readR rfs)
    (hrlo : s'.readR rlo = s.readR rlo) (hrhi : s'.readR rhi = s.readR rhi) (hratt : s'.readR ratt = s.readR ratt) :
    AnswerAlike (.reg (.f fd)) (execLpfira fd rfs rlo rhi ratt s) (execLpfira fd rfs rlo rhi ratt s') := by
  refine complete_alike ?_
  simp only [hrfs, hrlo, hrhi, hratt, hp]
  exact bind_alike fun _ => bind_alike fun _ => bind_alike fun _ => bind_alike fun _ => bind_alike fun _ =>
    putF_alike hp

theorem execGoertz_alike {zd : ZReg} {fd : FReg} {rfreq rfs : RReg} (hrfreq : s'.readR rfreq = s.readR rfreq)
    (hrfs : s'.readR rfs = s.readR rfs) :
    AnswerAlike (.regs (.z zd) (.f fd)) (execGoertz zd fd rfreq rfs s) (execGoertz zd fd rfreq rfs s') := by
  refine complete_alike ?_
  simp only [hrfreq, hrfs, hp]
  exact bind_alike fun _ => bind_alike fun _ => bind_alike fun _ => bind_alike fun _ => putZF_alike hp

theorem execAvgint_alike {rd : RReg} {fa : FReg} {rbegin rend : RReg} (hfa : s'.readF fa = s.readF fa)
    (hrbegin : s'.readR rbegin = s.readR rbegin) (hrend : s'.readR rend = s.readR rend) :
    AnswerAlike (.reg (.r rd)) (execAvgint rd fa rbegin rend s) (execAvgint rd fa rbegin rend s') := by
  refine complete_alike ?_
  simp only [hfa, hrbegin, hrend, hp]
  exact bind_alike fun _ => bind_alike fun _ => bind_alike fun _ => bind_alike fun _ => bind_alike fun _ =>
    bind_alike fun _ => return_alike (setR_sameDest s s' rd _)

theorem execConv_alike {fd fa fk : FReg} (hfa : s'.readF fa = s.readF fa) (hfk : s'.readF fk = s.readF fk) :
    AnswerAlike (.reg (.f fd)) (execConv fd fa fk s) (execConv fd fa fk s') := by
  refine complete_alike ?_
  simp only [hfa, hfk, hp]
  exact bind_alike fun _ => bind_alike fun _ => bind_alike fun _ => putF_alike hp

theorem execCfgask_alike {rfs rcar rbaud : RReg} {famp : FReg} (hrfs : s'.readR rfs = s.readR rfs)
    (hrcar : s'.readR rcar = s.readR rcar) (hrbaud : s'.readR rbaud = s.readR rbaud)
    (hfamp : s'.readF famp = s.readF famp) :
    AnswerAlike .cfg (execCfgask rfs rcar rbaud famp s) (execCfgask rfs rcar rbaud famp s') := by
  refine complete_alike ?_
  simp only [hrfs, hrcar, hrbaud, hfamp]
  exact bind_alike fun _ => bind_alike fun _ => bind_alike fun _ => bind_alike fun _ => construct_alike hp

theorem execCfgfsk_alike {rfs ramp rbaud : RReg} {ffreq : FReg} (hrfs : s'.readR rfs = s.readR rfs)
    (hramp : s'.readR ramp = s.readR ramp) (hrbaud : s'.readR rbaud = s.readR rbaud)
    (hffreq : s'.readF ffreq = s.readF ffreq) :
    AnswerAlike .cfg (execCfgfsk rfs ramp rbaud ffreq s) (execCfgfsk rfs ramp rbaud ffreq s') := by
  refine complete_alike ?_
  simp only [hrfs, hramp, hrbaud, hffreq]
  exact bind_alike fun _ => bind_alike fun _ => bind_alike fun _ => bind_alike fun _ => construct_alike hp

theorem execCfgpsk_alike {rfs rcar ramp rbaud : RReg} {fph : FReg} (hrfs : s'.readR rfs = s.readR rfs)
    (hrcar : s'.readR rcar = s.readR rcar) (hramp : s'.readR ramp = s.readR ramp)
    (hrbaud : s'.readR rbaud = s.readR rbaud) (hfph : s'.readF fph = s.readF fph) :
    AnswerAlike .cfg (execCfgpsk rfs rcar ramp rbaud fph s) (execCfgpsk rfs rcar ramp rbaud fph s') := by
  refine complete_alike ?_
  simp only [hrfs, hrcar, hramp, hrbaud, hfph]
  exact bind_alike fun _ => bind_alike fun _ => bind_alike fun _ => bind_alike fun _ => bind_alike fun _ =>
    construct_alike hp

theorem execCfgqam_alike {rfs rcar rbaud : RReg} {zcon : ZReg} (hrfs : s'.readR rfs = s.readR rfs)
    (hrcar : s'.readR rcar = s.readR rcar) (hrbaud : s'.readR rbaud = s.readR rbaud)
    (hzcon : s'.readZ zcon = s.readZ zcon) :
    AnswerAlike .cfg (execCfgqam rfs rcar rbaud zcon s) (execCfgqam rfs rcar rbaud zcon s') := by
  refine complete_alike ?_
  simp only [hrfs, hrcar, hrbaud, hzcon]
  exact bind_alike fun _ => bind_alike fun _ => bind_alike fun _ => bind_alike fun _ => construct_alike hp

theorem execSlice_alike {sd : SReg} {fobs : FReg} (hfobs : s'.readF fobs = s.readF fobs) (hc : s'.cfg = s.cfg) :
    AnswerAlike (.reg (.s sd)) (execSlice sd fobs s) (execSlice sd fobs s') := by
  refine complete_alike ?_
  simp only [hfobs, hc, needCfg_congr hc]
  exact bind_alike fun _ => bind_alike fun _ => bind_alike fun _ => bind_alike fun _ => sliceInto_alike hp hc

theorem execSlicez_alike {sd : SReg} {zobs : ZReg} (hzobs : s'.readZ zobs = s.readZ zobs) (hc : s'.cfg = s.cfg) :
    AnswerAlike (.reg (.s sd)) (execSlicez sd zobs s) (execSlicez sd zobs s') := by
  refine complete_alike ?_
  simp only [hzobs, needCfg_congr hc]
  exact bind_alike fun _ => bind_alike fun _ => bind_alike fun _ => sliceInto_alike hp hc

/-- The common body of MOD* (R200, R210, R220, R222), `samples` being what the mode sends. -/
theorem modulator_alike {modes : List Mode} {samples : Config.Params → ModemConfig → List Word → List XNum} {fd : FReg}
    {ss : SReg} (hss : s'.readS ss = s.readS ss) (hc : s'.cfg = s.cfg) :
    AnswerAlike (.reg (.f fd))
      (s.complete do
        let q ← s.readS ss
        s.needCfg modes
        checkTransmission s.params s.cfg q
        let t ← s.putF fd (samples s.params s.cfg q)
        return (t, noWarn))
      (s'.complete do
        let q ← s'.readS ss
        s'.needCfg modes
        checkTransmission s'.params s'.cfg q
        let t ← s'.putF fd (samples s'.params s'.cfg q)
        return (t, noWarn)) := by
  refine complete_alike ?_
  simp only [hss, hc, needCfg_congr hc, hp]
  exact bind_alike fun _ => bind_alike fun _ => bind_alike fun _ => putF_alike hp

/-- The common body of DEMASK, DEMPSK and DEMQAM (R201, R221, R223), `observe` being what the mode observes. -/
theorem demodulator_alike {modes : List Mode} {sd : SReg} {fx : FReg}
    {observe : Config.NumDomain → ModemConfig → List XNum → List (XNum × XNum) → List XNum → List (List XNum)}
    (hfx : s'.readF fx = s.readF fx) (hc : s'.cfg = s.cfg) :
    AnswerAlike (.reg (.s sd))
      (s.complete do
        let x ← s.readF fx
        s.needCfg modes
        let iv ← intervals s.params s.cfg x.length
        let h ← basebandTaps s.params s.cfg
        sliceInto s sd (observe s.params.num s.cfg x iv h))
      (s'.complete do
        let x ← s'.readF fx
        s'.needCfg modes
        let iv ← intervals s'.params s'.cfg x.length
        let h ← basebandTaps s'.params s'.cfg
        sliceInto s' sd (observe s'.params.num s'.cfg x iv h)) := by
  refine complete_alike ?_
  simp only [hfx, hc, needCfg_congr hc, hp]
  exact bind_alike fun _ => bind_alike fun _ => bind_alike fun _ => bind_alike fun _ => sliceInto_alike hp hc

theorem execDemfsk_alike {sd : SReg} {fx : FReg} (hfx : s'.readF fx = s.readF fx) (hc : s'.cfg = s.cfg) :
    AnswerAlike (.reg (.s sd)) (execDemfsk sd fx s) (execDemfsk sd fx s') := by
  refine complete_alike ?_
  simp only [hfx, hc, needCfg_congr hc, hp]
  exact bind_alike fun _ => bind_alike fun _ => bind_alike fun _ => bind_alike fun _ => sliceInto_alike hp hc

end

/-- R11, R36: what each of the 46 commands answers and writes depends on its inputs alone. -/
theorem exec_alike {i : Instr} {s s' : State} (h : SameInputs i s s') : AnswerAlike i.dest (exec i s) (exec i s') := by
  have hp := h.params
  cases i with
  | rdbit xd bs xp => exact execRdbit_alike (h.readB bs) (h.readX xp)
  | rdbits sd bs => exact execRdbits_alike hp (h.readB bs)
  | wrbit bd xp xv => exact execWrbit_alike (h.readB bd) (h.readX xp) (h.readX xv)
  | enc2 sd bs => exact encodeCommand_alike hp (h.readB bs)
  | enc4 sd bs => exact encodeCommand_alike hp (h.readB bs)
  | enc8 sd bs => exact encodeCommand_alike hp (h.readB bs)
  | enc16 sd bs => exact encodeCommand_alike hp (h.readB bs)
  | enc32 sd bs => exact encodeCommand_alike hp (h.readB bs)
  | enc64 sd bs => exact encodeCommand_alike hp (h.readB bs)
  | enc256 sd bs => exact encodeCommand_alike hp (h.readB bs)
  | dec2 bd ss => exact decodeCommand_alike hp (h.readS ss)
  | dec4 bd ss => exact decodeCommand_alike hp (h.readS ss)
  | dec8 bd ss => exact decodeCommand_alike hp (h.readS ss)
  | dec16 bd ss => exact decodeCommand_alike hp (h.readS ss)
  | dec32 bd ss => exact decodeCommand_alike hp (h.readS ss)
  | dec64 bd ss => exact decodeCommand_alike hp (h.readS ss)
  | dec256 bd ss => exact decodeCommand_alike hp (h.readS ss)
  | eccencNone bd bs => exact copyCommand_alike hp (h.readB bs)
  | eccencRaw bd bs => exact copyCommand_alike hp (h.readB bs)
  | eccdecNone bd bs => exact copyCommand_alike hp (h.readB bs)
  | eccdecRaw bd bs => exact copyCommand_alike hp (h.readB bs)
  | hamenc bd bs => exact execHamenc_alike hp (h.readB bs)
  | hamdec bd bs => exact execHamdec_alike hp (h.readB bs)
  | timearr fd rfs xn => exact execTimearr_alike hp (h.readR rfs) (h.readX xn)
  | sps rd rfs rbaud => exact execSps_alike hp (h.readR rfs) (h.readR rbaud)
  | shres fd ft rbaud fv => exact execShres_alike hp (h.readF ft) (h.readR rbaud) (h.readF fv)
  | gausswin fd rfs rsigma => exact execGausswin_alike hp (h.readR rfs) (h.readR rsigma)
  | lpfir fd rfs rlo rhi => exact execLpfir_alike hp (h.readR rfs) (h.readR rlo) (h.readR rhi)
  | lpfira fd rfs rlo rhi ratt =>
    exact execLpfira_alike hp (h.readR rfs) (h.readR rlo) (h.readR rhi) (h.readR ratt)
  | goertz zd fd rfreq rfs => exact execGoertz_alike hp (h.readR rfreq) (h.readR rfs)
  | avgint rd fa rbegin rend => exact execAvgint_alike hp (h.readF fa) (h.readR rbegin) (h.readR rend)
  | conv fd fa fk => exact execConv_alike hp (h.readF fa) (h.readF fk)
  | cfgask rfs rcar rbaud famp =>
    exact execCfgask_alike hp (h.readR rfs) (h.readR rcar) (h.readR rbaud) (h.readF famp)
  | cfgfsk rfs ramp rbaud ffreq =>
    exact execCfgfsk_alike hp (h.readR rfs) (h.readR ramp) (h.readR rbaud) (h.readF ffreq)
  | cfgpsk rfs rcar ramp rbaud fph =>
    exact execCfgpsk_alike hp (h.readR rfs) (h.readR rcar) (h.readR ramp) (h.readR rbaud) (h.readF fph)
  | cfgqam rfs rcar rbaud zcon =>
    exact execCfgqam_alike hp (h.readR rfs) (h.readR rcar) (h.readR rbaud) (h.readZ zcon)
  | slice sd fobs => exact execSlice_alike hp (h.readF fobs) h.cfg
  | slicez sd zobs => exact execSlicez_alike hp (h.readZ zobs) h.cfg
  | modask fd ss => exact modulator_alike (samples := askSamples) hp (h.readS ss) h.cfg
  | modfsk fd ss => exact modulator_alike (samples := fskSamples) hp (h.readS ss) h.cfg
  | modpsk fd ss => exact modulator_alike (samples := pskSamples) hp (h.readS ss) h.cfg
  | modqam fd ss => exact modulator_alike (samples := qamSamples) hp (h.readS ss) h.cfg
  | demask sd fx => exact demodulator_alike (observe := askObservations) hp (h.readF fx) h.cfg
  | demfsk sd fx => exact execDemfsk_alike hp (h.readF fx) h.cfg
  | dempsk sd fx => exact demodulator_alike (observe := observations2d) hp (h.readF fx) h.cfg
  | demqam sd fx => exact demodulator_alike (observe := observations2d) hp (h.readF fx) h.cfg

/-- R11: a command leaves every register but its destinations, the bank unless it loads it, the program and the
parameters. -/
theorem exec_frame {i : Instr} {s t : State} (h : exec i s = .next t) :
    (∀ o : Operand, ¬ i.dest.has o → s.SameReg t o) ∧ (i.dest ≠ .cfg → t.cfg = s.cfg)
    ∧ t.program = s.program ∧ t.params = s.params := by
  rcases exec_does h with ⟨e, rfl⟩ | ⟨u, w, hu, -, rfl⟩
  · exact ⟨fun o _ => sameReg_raise s e o, fun _ => rfl, rfl, rfl⟩
  · obtain ⟨-, -, -, -, -, hprog, hparams, hcfg⟩ := wrote_rest hu
    exact ⟨fun o ho => sameReg_retire (wrote_sameReg hu ho), hcfg, hprog, hparams⟩

/-- Settles O11: the frame by the inversion of `exec`, the dependence by comparing two runs of the command. -/
theorem onlyDestinationChanges : Obligations.OnlyDestinationChanges :=
  ⟨fun _ _ _ h => exec_frame h, fun _ _ _ t t' hs hc hp h h' => exec_alike ⟨hs, hc, hp⟩ t t' h h'⟩

end Sys2Proof.Machine
end

section
/-! SUPPORT. What a step can do (spec/10_state.md R25): stay idle, enter an error, or complete a command; and what
each of these does to the response, `STATUS`, the sequencer and the invariant. -/

namespace Sys2Proof.Machine

variable {s t : State}

/-! ## The next state of a command -/

/-- R253: a command whose response has no error code completed. -/
theorem exec_completed {i : Instr} (h : exec i s = .next t) (h0 : t.response.err = 0) :
    ∃ u w, Wrote i.dest s u ∧ t = u.retire w := by
  rcases exec_does h with ⟨e, rfl⟩ | ⟨u, w, hu, -, rfl⟩
  · exact absurd h0 (code_ne_zero _)
  · exact ⟨u, w, hu, rfl⟩

/-- R250: a command whose response has an error code entered the error. -/
theorem exec_failed {i : Instr} (h : exec i s = .next t) (h0 : t.response.err ≠ 0) : ∃ e, t = s.raise e := by
  rcases exec_does h with he | ⟨u, w, -, -, rfl⟩
  · exact he
  · exact absurd rfl h0

/-- R250, R253: the warnings of the response are ORed into `STATUS`; an error has none. -/
theorem exec_warn {i : Instr} (h : exec i s = .next t) : t.warn = s.warn ||| t.response.warn := by
  rcases exec_does h with ⟨e, rfl⟩ | ⟨u, w, hu, -, rfl⟩
  · simp
  · simp [(wrote_rest hu).1]

/-- R250: only the first error since reset goes to `STATUS.ERR`. -/
theorem exec_err {i : Instr} (h : exec i s = .next t) : t.err = if s.err = 0 then t.response.err else s.err := by
  rcases exec_does h with ⟨e, rfl⟩ | ⟨u, w, hu, -, rfl⟩
  · rfl
  · obtain ⟨-, herr, -⟩ := wrote_rest hu
    rw [State.retire_err, herr]
    split
    case isTrue h0 => exact h0
    case isFalse => rfl

/-- R250, R31: `ERRINFO` stays with the first error. -/
theorem exec_errInfo {i : Instr} (h : exec i s = .next t) (h0 : s.err ≠ 0) : t.errInfo = s.errInfo := by
  rcases exec_does h with ⟨e, rfl⟩ | ⟨u, w, hu, -, rfl⟩
  · exact if_neg h0
  · obtain ⟨-, -, hinfo, -⟩ := wrote_rest hu
    exact hinfo

/-- Settles O9: a completion is a write of the destination, then `State.retire`. -/
theorem completionAdvances : Obligations.CompletionAdvances := by
  intro i s t h h0
  obtain ⟨u, w, hu, rfl⟩ := exec_completed h h0
  obtain ⟨hwarn, herr, hinfo, hpc, hrun, hprog, hparams, -⟩ := wrote_rest hu
  exact ⟨rfl, congrArg (· + 1) hpc, congrArg (· ||| w) hwarn, herr, hinfo, hrun, hprog, hparams⟩

/-! ## The sequencer -/

theorem fetch_eq_some_iff {w : CmdWord} : s.fetch = some w ↔ s.running = true ∧ s.program[s.pc]? = some w := by
  rw [State.fetch]
  cases s.running <;> simp

theorem pc_lt_of_fetch {w : CmdWord} (h : s.fetch = some w) : s.pc < s.program.length :=
  (List.getElem?_eq_some_iff.1 (fetch_eq_some_iff.1 h).2).1

/-- R25: a word that is fetched is issued. -/
theorem step_fetched {w : CmdWord} (h : s.fetch = some w) : step s = issue w s := by
  rw [step, if_neg (pc_lt_of_fetch h).not_gt, h]

/-- R251, R262: a step with nothing to fetch is idle. -/
theorem step_idle (hpc : s.pc ≤ s.program.length) (h : s.fetch = none) : step s = .next s := by
  rw [step, if_neg hpc.not_gt, h]

theorem issue_legal {w : CmdWord} {i : Instr} (h : decode w = .ok i) (s : State) : issue w s = exec i s := by
  rw [issue, h]

theorem issue_illegal {w : CmdWord} {r : IllegalReason} (h : decode w = .error r) (s : State) :
    issue w s = .next (s.raise ⟨.illegal, w.toInt⟩) := by
  rw [issue, h]
  rfl

/-- The inversion of `step`: it is idle, or it runs a command or the error entry of an illegal word. -/
theorem step_does (h : step s = .next t) : t = s ∨ s.pc < s.program.length ∧ ∃ d m, DoesOnly d m s t := by
  cases hf : s.fetch with
  | none =>
    rw [step, hf] at h
    split at h
    · cases h
    · cases h; exact .inl rfl
  | some w =>
    refine .inr ⟨pc_lt_of_fetch hf, ?_⟩
    rw [step_fetched hf] at h
    cases hd : decode w with
    | ok i => exact ⟨_, _, exec_does (issue_legal hd s ▸ h)⟩
    | error r =>
      rw [issue_illegal hd] at h
      cases h
      exact ⟨.cfg, 0, .inl ⟨_, rfl⟩⟩

/-- Settles O5: the word at `pc` is fetched and decoded; `withFetchWord` puts the given word there. -/
theorem stepRunsDecodedCommand : Obligations.StepRunsDecodedCommand :=
  ⟨fun s _ _ hrun hw hd => (step_fetched (fetch_eq_some_iff.2 ⟨hrun, hw⟩)).trans (issue_legal hd s),
    fun s n _ hd => (step_fetched (s := s.withFetchWord 32 n) rfl).trans (issue_legal hd _)⟩

/-- R251: after an error nothing is fetched. -/
theorem step_raised (e : CmdError) (hpc : s.pc ≤ s.program.length) : step (s.raise e) = .next (s.raise e) :=
  step_idle hpc rfl

/-- Settles O10: the error entry leaves `pc` and the program and ends the run. -/
theorem runStopsAtFirstError : Obligations.RunStopsAtFirstError := by
  intro s t hrun hpc hstep herr
  have hf : s.fetch = some s.program[s.pc] := fetch_eq_some_iff.2 ⟨hrun, List.getElem?_eq_getElem hpc⟩
  have ⟨e, he⟩ : ∃ e, t = s.raise e := by
    rw [step_fetched hf] at hstep
    cases hd : decode s.program[s.pc] with
    | ok i => exact exec_failed (issue_legal hd s ▸ hstep) herr
    | error r =>
      rw [issue_illegal hd] at hstep
      cases hstep
      exact ⟨_, rfl⟩
  subst he
  exact ⟨rfl, rfl, .inl rfl, step_raised e hpc.le⟩

/-! ## The invariant -/

/-- The error entry keeps the invariant: the code it may put into `STATUS.ERR` is one of R240, and `ERRINFO` changes
with it only. -/
theorem raise_keeps_inv (e : CmdError) (hs : s.Inv) : (s.raise e).Inv where
  fit := ⟨hs.fit.bytes, hs.fit.symbols, hs.fit.samples, hs.fit.complex⟩
  cfgChecked := hs.cfgChecked
  cfgCount := hs.cfgCount
  cfgUnused := hs.cfgUnused
  errCode := by
    rw [State.raise_err]
    split
    · exact code_le_ten _
    · exact hs.errCode
  errInfoZero := by
    rw [State.raise_err, State.raise_errInfo]
    split
    · exact fun h => absurd h (code_ne_zero _)
    · exact fun h => absurd h ‹_›
  pcInProgram := hs.pcInProgram

/-- R34, R35: a bank that passed the checks of R175 keeps the invariant. -/
theorem load_keeps_inv {q : CfgRequest} (hq : cfgFailure s.params q = none) (hz : q.bank.UnusedZero) (hs : s.Inv) :
    State.Inv { s with cfg := q.bank } :=
  { hs with
    fit := ⟨hs.fit.bytes, hs.fit.symbols, hs.fit.samples, hs.fit.complex⟩
    cfgChecked := fun _ => hq
    cfgCount := fun _ => rfl
    cfgUnused := fun _ => hz }

theorem retire_keeps_inv (w : BitVec 4) (hs : s.Inv) (hpc : s.pc < s.program.length) : (s.retire w).Inv :=
  { hs with
    fit := ⟨hs.fit.bytes, hs.fit.symbols, hs.fit.samples, hs.fit.complex⟩
    pcInProgram := hpc }

/-- Any command issued inside the program keeps the invariant. -/
theorem doesOnly_keeps_inv {d : Dest} {m : BitVec 4} (h : DoesOnly d m s t) (hs : s.Inv)
    (hpc : s.pc < s.program.length) : t.Inv := by
  rcases h with ⟨e, rfl⟩ | ⟨u, w, hu, -, rfl⟩
  · exact raise_keeps_inv e hs
  · have hu' : u.Inv := by
      by_cases hd : d = .cfg
      · subst hd
        obtain ⟨q, hq, hz, rfl⟩ := hu
        exact load_keeps_inv hq hz hs
      · exact wrote_keeps_inv hu hd hs
    obtain ⟨-, -, -, hupc, -, huprog, -⟩ := wrote_rest hu
    exact retire_keeps_inv w hu' (by rwa [hupc, huprog])

/-- Settles O20, by the inversion of `step`: the error entry, a write of registers, a bank load and completion each keep
the invariant. -/
theorem stepKeepsInv : Obligations.StepKeepsInv := by
  intro s t hs h
  rcases step_does h with rfl | ⟨hpc, _, _, hd⟩
  · exact hs
  · exact doesOnly_keeps_inv hd hs hpc

/-- Settles O19: the state after reset is a reset state with the default parameters. -/
theorem resetSatisfiesInv : Obligations.ResetSatisfiesInv := reset_inv Config.Params.default

/-! ## `STATUS` -/

/-- R32, R61: no host action but reset touches `STATUS.ERR`, `ERRINFO`, the warnings or the bank. -/
theorem hostAct_keeps_status {a : HostAction} (ha : a ≠ .reset) (h : hostAct a s = .next t) :
    t.err = s.err ∧ t.errInfo = s.errInfo ∧ t.warn = s.warn ∧ t.cfg = s.cfg := by
  cases hp : a.target with
  | some o =>
    obtain ⟨hwarn, herr, hinfo, -, -, -, -, hcfg⟩ := wrote_rest (hostAct_load hp h)
    exact ⟨herr, hinfo, hwarn, hcfg nofun⟩
  | none =>
    cases a with
    | run program => cases h; exact ⟨rfl, rfl, rfl, rfl⟩
    | reset => exact absurd rfl ha
    | _ => cases hp

/-- Settles O17: a command adds warnings and never overwrites an error; the host can only reset. -/
theorem statusStickyUntilReset : Obligations.StatusStickyUntilReset := by
  refine ⟨fun i s t h => ⟨fun h0 => ⟨(exec_err h).trans (if_neg h0), exec_errInfo h h0⟩, ?_⟩, fun a s t h => ?_⟩
  · rw [exec_warn h]
    ext j
    simp +contextual
  · split
    case isTrue ha => subst ha; cases h; exact ⟨rfl, rfl, rfl⟩
    case isFalse ha =>
      obtain ⟨herr, hinfo, hwarn, -⟩ := hostAct_keeps_status ha h
      exact ⟨herr, hinfo, hwarn⟩

/-- R30: the `STATUS` word bit by bit. -/
theorem getLsbD_status (s : State) (b : Nat) : s.status.getLsbD b =
    if b < 4 then s.err.getLsbD b
    else if b < 8 then s.warn.getLsbD (b - 4)
    else if b < 9 then s.cfg.valid
    else s.cfgMode.getLsbD (b - 9) := by
  simp only [State.status, BitVec.getLsbD_append]
  split
  case isTrue => rfl
  case isFalse h4 =>
    split
    case isTrue h => rw [if_pos (by omega)]
    case isFalse h =>
      rw [if_neg (by omega : ¬ b < 8)]
      split
      case isTrue h9 =>
        obtain rfl : b = 8 := by omega
        simp
      case isFalse h9 =>
        have hb : b - 4 - 4 - 1 = b - 9 := by omega
        rw [hb, if_neg (by omega : ¬ b < 9)]
        split
        case isTrue => rfl
        case isFalse h11 => simp [BitVec.getLsbD_of_ge _ _ (not_lt.1 h11)]

/-- Settles O16: every field is read off the word bit by bit. -/
theorem statusWordLayout : Obligations.StatusWordLayout := by
  intro s
  refine ⟨?_, ?_, ?_, ?_, fun b hb => ?_⟩
  · ext j hj
    rw [BitVec.getElem_extractLsb', getLsbD_status, if_pos (by omega), Nat.zero_add, BitVec.getLsbD_eq_getElem]
  · ext j hj
    rw [BitVec.getElem_extractLsb', getLsbD_status, if_neg (by omega), if_pos (by omega), Nat.add_sub_cancel_left,
      BitVec.getLsbD_eq_getElem]
  · rw [getLsbD_status]; rfl
  · change _ = s.cfgMode
    ext j hj
    rw [BitVec.getElem_extractLsb', getLsbD_status, if_neg (by omega), if_neg (by omega), if_neg (by omega),
      Nat.add_sub_cancel_left, BitVec.getLsbD_eq_getElem]
  · rw [getLsbD_status, if_neg (by omega), if_neg (by omega), if_neg (by omega), BitVec.getLsbD_of_ge _ _ (by omega)]

end Sys2Proof.Machine
end

section
/-! SUPPORT. Empty and written registers, the bank, and what a command depends on: what a command does while a source is
empty (spec/10_state.md R22, spec/60_exceptions.md R247) or the bank it needs is not valid (R249), which registers and
which bank it writes (R22, R35), and that `STATUS` and an invalid bank play no part in it (R33, R38, R58). -/

namespace Sys2Proof.Machine

variable {s t u : State}

/-! ## Empty sources -/

/-- R247: the error that an empty register raises. -/
def uninitError (o : Operand) : CmdError := ⟨.uninit, 16 * operandClass o + operandIndex o⟩

/-- The computation reads the registers of `l` in order: it ends with `Uninit` of the first that is empty. -/
def ReadsFirst (s : State) (l : List Operand) (body : Cmd (State × BitVec 4)) : Prop :=
  ∀ o, l.find? s.isEmpty = some o → body = .error (uninitError o)

section

variable {l : List Operand} {β : Type}

theorem readsFirst_nil {body : Cmd (State × BitVec 4)} : ReadsFirst s [] body := nofun

/-- One read in front: it fails when its register is empty, and otherwise the rest decides. -/
theorem readsFirst_cons {α : Type} {o : Operand} {v : Option α} {f : α → Cmd (State × BitVec 4)}
    (ho : s.isEmpty o = v.isNone) (h : ∀ a, ReadsFirst s l (f a)) :
    ReadsFirst s (o :: l) (source (operandClass o) (operandIndex o) v >>= f) := by
  intro p hp
  cases v with
  | none =>
    rw [List.find?_cons_of_pos ho] at hp
    cases hp
    rfl
  | some a =>
    rw [List.find?_cons_of_neg (by simp [ho])] at hp
    exact h a p hp

theorem readX_first {i : XReg} {f : Word → Cmd (State × BitVec 4)} (h : ∀ a, ReadsFirst s l (f a)) :
    ReadsFirst s (.x i :: l) (s.readX i >>= f) := readsFirst_cons rfl h
theorem readR_first {i : RReg} {f : XNum → Cmd (State × BitVec 4)} (h : ∀ a, ReadsFirst s l (f a)) :
    ReadsFirst s (.r i :: l) (s.readR i >>= f) := readsFirst_cons rfl h
theorem readB_first {i : BReg} {f : ByteBuf → Cmd (State × BitVec 4)} (h : ∀ a, ReadsFirst s l (f a)) :
    ReadsFirst s (.b i :: l) (s.readB i >>= f) := readsFirst_cons rfl h
theorem readS_first {i : SReg} {f : List Word → Cmd (State × BitVec 4)} (h : ∀ a, ReadsFirst s l (f a)) :
    ReadsFirst s (.s i :: l) (s.readS i >>= f) := readsFirst_cons rfl h
theorem readF_first {i : FReg} {f : List XNum → Cmd (State × BitVec 4)} (h : ∀ a, ReadsFirst s l (f a)) :
    ReadsFirst s (.f i :: l) (s.readF i >>= f) := readsFirst_cons rfl h
theorem readZ_first {i : ZReg} {f : List Cplx → Cmd (State × BitVec 4)} (h : ∀ a, ReadsFirst s l (f a)) :
    ReadsFirst s (.z i :: l) (s.readZ i >>= f) := readsFirst_cons rfl h

end

/-- R247, R252: every command reads its sources, in field order, before anything else. -/
theorem exec_readsFirst (i : Instr) (s : State) :
    ∃ body, exec i s = s.complete body ∧ ReadsFirst s i.sources body := by
  cases i with
  | rdbit xd bs xp => exact ⟨_, rfl, readB_first fun _ => readX_first fun _ => readsFirst_nil⟩
  | wrbit bd xp xv => exact ⟨_, rfl, readB_first fun _ => readX_first fun _ => readX_first fun _ => readsFirst_nil⟩
  | rdbits | enc2 | enc4 | enc8 | enc16 | enc32 | enc64 | enc256 | eccencNone | eccencRaw | eccdecNone | eccdecRaw | hamenc
  | hamdec => exact ⟨_, rfl, readB_first fun _ => readsFirst_nil⟩
  | dec2 | dec4 | dec8 | dec16 | dec32 | dec64 | dec256 | modask | modfsk | modpsk | modqam =>
    exact ⟨_, rfl, readS_first fun _ => readsFirst_nil⟩
  | slice | demask | demfsk | dempsk | demqam => exact ⟨_, rfl, readF_first fun _ => readsFirst_nil⟩
  | slicez => exact ⟨_, rfl, readZ_first fun _ => readsFirst_nil⟩
  | timearr fd rfs xn => exact ⟨_, rfl, readR_first fun _ => readX_first fun _ => readsFirst_nil⟩
  | sps | gausswin | goertz => exact ⟨_, rfl, readR_first fun _ => readR_first fun _ => readsFirst_nil⟩
  | shres => exact ⟨_, rfl, readF_first fun _ => readR_first fun _ => readF_first fun _ => readsFirst_nil⟩
  | lpfir => exact ⟨_, rfl, readR_first fun _ => readR_first fun _ => readR_first fun _ => readsFirst_nil⟩
  | lpfira =>
    exact ⟨_, rfl, readR_first fun _ => readR_first fun _ => readR_first fun _ => readR_first fun _ => readsFirst_nil⟩
  | avgint => exact ⟨_, rfl, readF_first fun _ => readR_first fun _ => readR_first fun _ => readsFirst_nil⟩
  | conv => exact ⟨_, rfl, readF_first fun _ => readF_first fun _ => readsFirst_nil⟩
  | cfgask | cfgfsk =>
    exact ⟨_, rfl, readR_first fun _ => readR_first fun _ => readR_first fun _ => readF_first fun _ => readsFirst_nil⟩
  | cfgpsk => exact ⟨_, rfl, readR_first fun _ => readR_first fun _ => readR_first fun _ => readR_first fun _ =>
      readF_first fun _ => readsFirst_nil⟩
  | cfgqam =>
    exact ⟨_, rfl, readR_first fun _ => readR_first fun _ => readR_first fun _ => readZ_first fun _ => readsFirst_nil⟩

/-- R277: every command answers a next state. -/
theorem exec_next (i : Instr) (s : State) : ∃ t, exec i s = .next t := by
  obtain ⟨body, hb, -⟩ := exec_readsFirst i s
  exact hb ▸ complete_next s body

/-- R247: the first empty source is reported. -/
theorem exec_uninit {i : Instr} {o : Operand} (h : i.sources.find? s.isEmpty = some o) :
    exec i s = .next (s.raise (uninitError o)) := by
  obtain ⟨body, hb, hr⟩ := exec_readsFirst i s
  rw [hb, hr o h, complete_error]

/-! ## The bank a command needs -/

theorem written_of_isEmpty {α : Type} {v : Option α} (h : v.isNone = false) : ∃ a, v = some a :=
  Option.ne_none_iff_exists'.1 fun hv => by simp [hv] at h

/-- R185, R252: a command that needs a bank checks it as soon as it has read its source. -/
theorem exec_needCfg {i : Instr} {ms : List Mode} (hm : i.modes = some ms) (hw : ∀ o ∈ i.sources, s.isEmpty o = false) :
    ∃ f, exec i s = s.complete (s.needCfg ms >>= f) := by
  cases i with
  | modask fd ss | modfsk fd ss | modpsk fd ss | modqam fd ss =>
    obtain ⟨q, hq⟩ := written_of_isEmpty (hw (.s ss) (List.mem_singleton.2 rfl))
    cases hm
    exact ⟨_, congrArg (fun r => s.complete (r >>= _)) (readS_ok_iff.2 hq)⟩
  | slice sd fx | demask sd fx | demfsk sd fx | dempsk sd fx | demqam sd fx =>
    obtain ⟨x, hx⟩ := written_of_isEmpty (hw (.f fx) (List.mem_singleton.2 rfl))
    cases hm
    exact ⟨_, congrArg (fun r => s.complete (r >>= _)) (readF_ok_iff.2 hx)⟩
  | slicez sd zobs =>
    obtain ⟨x, hx⟩ := written_of_isEmpty (hw (.z zobs) (List.mem_singleton.2 rfl))
    cases hm
    exact ⟨_, congrArg (fun r => s.complete (r >>= _)) (readZ_ok_iff.2 hx)⟩
  | _ => cases hm

/-- R249: without a valid bank the command raises `NoCfg(4)`. -/
theorem exec_noCfg {i : Instr} {ms : List Mode} (hm : i.modes = some ms) (hw : ∀ o ∈ i.sources, s.isEmpty o = false)
    (hv : s.cfg.valid = false) : exec i s = .next (s.raise ⟨.noCfg, 4⟩) := by
  obtain ⟨f, hf⟩ := exec_needCfg hm hw
  rw [hf, needCfg_invalid hv, error_bind, complete_error]

/-! ## Registers become written and stay so -/

theorem sameReg_symm {o : Operand} (h : s.SameReg t o) : t.SameReg s o := by cases o <;> exact Eq.symm h

theorem sameReg_trans {o : Operand} (h : s.SameReg t o) (h' : t.SameReg u o) : s.SameReg u o := by
  cases o <;> exact Eq.trans h' h

theorem isEmpty_of_sameReg {o : Operand} (h : s.SameReg t o) : t.isEmpty o = s.isEmpty o := by
  cases o <;> exact congrArg Option.isNone h

theorem setX_written (s : State) (i : XReg) (v : Word) : (s.setX i v).isEmpty (.x i) = false :=
  congrArg Option.isNone (s.setX_get i v)
theorem setR_written (s : State) (i : RReg) (v : XNum) : (s.setR i v).isEmpty (.r i) = false :=
  congrArg Option.isNone (s.setR_get i v)
theorem setB_written (s : State) (i : BReg) (v : ByteBuf) : (s.setB i v).isEmpty (.b i) = false :=
  congrArg Option.isNone (s.setB_get i v)
theorem setS_written (s : State) (i : SReg) (v : List Word) : (s.setS i v).isEmpty (.s i) = false :=
  congrArg Option.isNone (s.setS_get i v)
theorem setF_written (s : State) (i : FReg) (v : List XNum) : (s.setF i v).isEmpty (.f i) = false :=
  congrArg Option.isNone (s.setF_get i v)
theorem setZ_written (s : State) (i : ZReg) (v : List Cplx) : (s.setZ i v).isEmpty (.z i) = false :=
  congrArg Option.isNone (s.setZ_get i v)

/-- R22: a destination is written. -/
theorem wrote_written {d : Dest} {o : Operand} (h : Wrote d s u) (ho : d.has o) : u.isEmpty o = false := by
  unfold Wrote at h
  split at h
  · obtain ⟨v, rfl⟩ := h; cases ho; exact setX_written ..
  · obtain ⟨v, rfl⟩ := h; cases ho; exact setR_written ..
  · obtain ⟨v, -, rfl⟩ := h; cases ho; exact setB_written ..
  · obtain ⟨v, -, rfl⟩ := h; cases ho; exact setS_written ..
  · obtain ⟨v, -, rfl⟩ := h; cases ho; exact setF_written ..
  · obtain ⟨v, -, rfl⟩ := h; cases ho; exact setZ_written ..
  · obtain ⟨v, w, -, -, rfl⟩ := h
    rcases ho with rfl | rfl
    · exact setZ_written s _ v
    · exact setF_written ..
  · exact h.elim
  · exact ho.elim

/-- R22: a write makes no register empty. -/
theorem wrote_keeps_written {d : Dest} {o : Operand} (h : Wrote d s u) (ho : s.isEmpty o = false) :
    u.isEmpty o = false := by
  by_cases hd : d.has o
  · exact wrote_written h hd
  · rwa [isEmpty_of_sameReg (wrote_sameReg h hd)]

theorem retire_isEmpty (s : State) (w : BitVec 4) (o : Operand) : (s.retire w).isEmpty o = s.isEmpty o := by
  cases o <;> rfl

theorem exec_keeps_written {i : Instr} {o : Operand} (h : exec i s = .next t) (ho : s.isEmpty o = false) :
    t.isEmpty o = false := by
  rcases exec_does h with ⟨e, rfl⟩ | ⟨u, w, hu, -, rfl⟩
  · rwa [isEmpty_of_sameReg (sameReg_raise s e o)]
  · rw [retire_isEmpty]; exact wrote_keeps_written hu ho

theorem exec_writes_dest {i : Instr} {o : Operand} (h : exec i s = .next t) (h0 : t.response.err = 0)
    (ho : i.dest.has o) : t.isEmpty o = false := by
  obtain ⟨u, w, hu, rfl⟩ := exec_completed h h0
  rw [retire_isEmpty]; exact wrote_written hu ho

/-- R22, R247: a command with an empty source does nothing but raise `Uninit`. -/
theorem exec_of_empty_source {i : Instr} (h : exec i s = .next t) (he : ∃ o ∈ i.sources, s.isEmpty o = true) :
    t.response.err = ErrorKind.uninit.code ∧ State.SameRegs s t ∧ t.cfg = s.cfg := by
  obtain ⟨o, ho⟩ := Option.isSome_iff_exists.1 (List.find?_isSome.2 he)
  cases (exec_uninit ho).symm.trans h
  exact ⟨rfl, ⟨rfl, rfl, rfl, rfl, rfl, rfl⟩, rfl⟩

/-- R22, R61: a host action other than reset makes no register empty, and a load writes its register. -/
theorem hostAct_written {a : HostAction} {o : Operand} (ha : a ≠ .reset) (h : hostAct a s = .next t)
    (ho : s.isEmpty o = false ∨ a.target = some o) : t.isEmpty o = false := by
  cases hp : a.target with
  | some p =>
    have hw := hostAct_load hp h
    rcases ho with ho | ho
    · exact wrote_keeps_written hw ho
    · exact wrote_written hw (Option.some.inj (ho.symm.trans hp))
  | none =>
    have ho : s.isEmpty o = false := ho.resolve_right fun hc => nomatch hp.symm.trans hc
    cases a with
    | run program => cases h; rwa [isEmpty_of_sameReg (s := s) (by cases o <;> rfl)]
    | reset => exact absurd rfl ha
    | _ => cases hp

/-- R38: after reset every register is empty, whatever the parameters are. -/
theorem reset_isEmpty (p : Config.Params) (o : Operand) : State.isEmpty { State.reset with params := p } o = true := by
  cases o <;> simp [State.isEmpty, State.reset]

/-- Settles O12: a command or a load is a write of its destinations, and a write makes no register empty. -/
theorem writtenStaysWritten : Obligations.WrittenStaysWritten :=
  ⟨fun o _ _ => ⟨reset_isEmpty _ o, fun h => by cases h; exact reset_isEmpty _ o⟩,
    fun _ _ _ h => ⟨fun _ => exec_keeps_written h, fun h0 _ => exec_writes_dest h h0, exec_of_empty_source h⟩,
    fun _ _ _ ha h _ => hostAct_written ha h,
    fun s i j k l ro => ⟨setB_written s i ⟨[], ro⟩, setS_written s j [], setF_written s k [], setZ_written s l []⟩⟩

/-! ## The configuration bank -/

/-- R171 to R174: a constructor whose sources are written constructs what its operands ask for. -/
theorem exec_constructor {i : Instr} (hd : i.dest = .cfg) (hw : ∀ o ∈ i.sources, s.isEmpty o = false) :
    ∃ q, i.request s = some q ∧ exec i s = s.complete (construct s q) := by
  cases i with
  | cfgask rfs rcar rbaud famp =>
    simp only [Instr.sources, List.forall_mem_cons] at hw
    obtain ⟨hfs, hcar, hbaud, hamp, -⟩ := hw
    obtain ⟨fs, hfs⟩ := written_of_isEmpty hfs
    obtain ⟨car, hcar⟩ := written_of_isEmpty hcar
    obtain ⟨baud, hbaud⟩ := written_of_isEmpty hbaud
    obtain ⟨amp, hamp⟩ := written_of_isEmpty hamp
    refine ⟨⟨.ask, fs, baud, car, .rat 0, amp.map Cplx.ofReal⟩, ?_, ?_⟩
    · simp only [Instr.request, hfs, hcar, hbaud, hamp]; rfl
    · simp only [exec, execCfgask, readR_ok_iff.2 hfs, readR_ok_iff.2 hcar, readR_ok_iff.2 hbaud, readF_ok_iff.2 hamp, ok_bind]
  | cfgfsk rfs ramp rbaud ffreq =>
    simp only [Instr.sources, List.forall_mem_cons] at hw
    obtain ⟨hfs, hamp, hbaud, hfreq, -⟩ := hw
    obtain ⟨fs, hfs⟩ := written_of_isEmpty hfs
    obtain ⟨amp, hamp⟩ := written_of_isEmpty hamp
    obtain ⟨baud, hbaud⟩ := written_of_isEmpty hbaud
    obtain ⟨freq, hfreq⟩ := written_of_isEmpty hfreq
    refine ⟨⟨.fsk, fs, baud, .rat 0, amp, freq.map Cplx.ofReal⟩, ?_, ?_⟩
    · simp only [Instr.request, hfs, hamp, hbaud, hfreq]; rfl
    · simp only [exec, execCfgfsk, readR_ok_iff.2 hfs, readR_ok_iff.2 hamp, readR_ok_iff.2 hbaud, readF_ok_iff.2 hfreq,
        ok_bind]
  | cfgpsk rfs rcar ramp rbaud fph =>
    simp only [Instr.sources, List.forall_mem_cons] at hw
    obtain ⟨hfs, hcar, hamp, hbaud, hph, -⟩ := hw
    obtain ⟨fs, hfs⟩ := written_of_isEmpty hfs
    obtain ⟨car, hcar⟩ := written_of_isEmpty hcar
    obtain ⟨amp, hamp⟩ := written_of_isEmpty hamp
    obtain ⟨baud, hbaud⟩ := written_of_isEmpty hbaud
    obtain ⟨ph, hph⟩ := written_of_isEmpty hph
    refine ⟨⟨.psk, fs, baud, car, amp, ph.map Cplx.ofReal⟩, ?_, ?_⟩
    · simp only [Instr.request, hfs, hcar, hamp, hbaud, hph]; rfl
    · simp only [exec, execCfgpsk, readR_ok_iff.2 hfs, readR_ok_iff.2 hcar, readR_ok_iff.2 hamp, readR_ok_iff.2 hbaud,
        readF_ok_iff.2 hph, ok_bind]
  | cfgqam rfs rcar rbaud zcon =>
    simp only [Instr.sources, List.forall_mem_cons] at hw
    obtain ⟨hfs, hcar, hbaud, hcon, -⟩ := hw
    obtain ⟨fs, hfs⟩ := written_of_isEmpty hfs
    obtain ⟨car, hcar⟩ := written_of_isEmpty hcar
    obtain ⟨baud, hbaud⟩ := written_of_isEmpty hbaud
    obtain ⟨con, hcon⟩ := written_of_isEmpty hcon
    refine ⟨⟨.qam, fs, baud, car, .rat 0, con⟩, ?_, ?_⟩
    · simp only [Instr.request, hfs, hcar, hbaud, hcon]; rfl
    · simp only [exec, execCfgqam, readR_ok_iff.2 hfs, readR_ok_iff.2 hcar, readR_ok_iff.2 hbaud, readZ_ok_iff.2 hcon, ok_bind]
  | _ => cases hd

/-- R247: a command that completes has all its sources written. -/
theorem sources_written {i : Instr} (h : exec i s = .next t) (h0 : t.response.err = 0) :
    ∀ o ∈ i.sources, s.isEmpty o = false := by
  intro o ho
  by_contra he
  have hu := (exec_of_empty_source h ⟨o, ho, Bool.of_not_eq_false he⟩).1
  exact code_ne_zero .uninit (hu.symm.trans h0)

/-- R35: a constructor that completes loads the whole bank from its operands. -/
theorem constructor_loads {i : Instr} (hd : i.dest = .cfg) (h : exec i s = .next t) (h0 : t.response.err = 0) :
    ∃ q, i.request s = some q ∧ t.cfg = q.bank := by
  obtain ⟨q, hq, hc⟩ := exec_constructor hd (sources_written h h0)
  rw [hc] at h
  rcases complete_next_iff.1 h with ⟨u, w, hu, rfl⟩ | ⟨e, -, rfl⟩
  · obtain ⟨-, rfl, -⟩ := construct_ok_iff.1 hu
    exact ⟨q, hq, rfl⟩
  · exact absurd h0 (code_ne_zero _)

theorem exec_failed_cfg {i : Instr} (h : exec i s = .next t) (h0 : t.response.err ≠ 0) : t.cfg = s.cfg := by
  obtain ⟨e, rfl⟩ := exec_failed h h0
  rfl

/-- Settles O13: only a bank load writes the bank, and it loads the request of its operands. -/
theorem cfgWrittenOnlyByConstructors : Obligations.CfgWrittenOnlyByConstructors := by
  refine ⟨fun i s t h => ⟨exec_failed_cfg h, ?_, fun hd h0 => constructor_loads hd h h0⟩, fun a s t ha h => ?_⟩
  · obtain ⟨-, hcfg, -⟩ := exec_frame h
    exact hcfg
  · obtain ⟨-, -, -, hcfg⟩ := hostAct_keeps_status ha h
    exact hcfg

/-! ## Independence of `STATUS` and the sequencer -/

theorem sameRegs_iff : State.SameRegs s t ↔ ∀ o, s.SameReg t o := by
  constructor
  · rintro ⟨hx, hr, hb, hs, hf, hz⟩ o
    cases o with
    | x i => exact congrArg (·[i]) hx
    | r i => exact congrArg (·[i]) hr
    | b i => exact congrArg (·[i]) hb
    | s i => exact congrArg (·[i]) hs
    | f i => exact congrArg (·[i]) hf
    | z i => exact congrArg (·[i]) hz
  · intro h
    exact ⟨Vector.ext fun i hi => h (.x ⟨i, hi⟩), Vector.ext fun i hi => h (.r ⟨i, hi⟩),
      Vector.ext fun i hi => h (.b ⟨i, hi⟩), Vector.ext fun i hi => h (.s ⟨i, hi⟩),
      Vector.ext fun i hi => h (.f ⟨i, hi⟩), Vector.ext fun i hi => h (.z ⟨i, hi⟩)⟩

/-- R33, R36, R58: states with the same registers, parameters and needed bank go to states with the same registers and
response; the banks they end with are the same when they were, or when a bank is loaded. -/
theorem exec_agrees {i : Instr} {s' t' : State} (hin : SameInputs i s s') (hregs : State.SameRegs s s')
    (h : exec i s = .next t) (h' : exec i s' = .next t') :
    State.SameRegs t t' ∧ t'.response = t.response ∧ (t'.cfg = t.cfg ∨ t.cfg = s.cfg ∧ t'.cfg = s'.cfg) := by
  obtain ⟨hresp, hdest⟩ := exec_alike hin t t' h h'
  by_cases h0 : t.response.err = 0
  · obtain ⟨hsame, hbank⟩ := hdest h0
    obtain ⟨hframe, hcfg, -, -⟩ := exec_frame h
    obtain ⟨hframe', hcfg', -, -⟩ := exec_frame h'
    refine ⟨sameRegs_iff.2 fun o => ?_, hresp, ?_⟩
    · by_cases ho : i.dest.has o
      · exact hsame o ho
      · exact sameReg_trans (sameReg_symm (hframe o ho)) (sameReg_trans (sameRegs_iff.1 hregs o) (hframe' o ho))
    · by_cases hd : i.dest = .cfg
      · exact .inl (hbank hd)
      · exact .inr ⟨hcfg hd, hcfg' hd⟩
  · obtain ⟨e, rfl⟩ := exec_failed h h0
    obtain ⟨e', rfl⟩ := exec_failed h' (by rwa [hresp])
    exact ⟨hregs, hresp, .inr ⟨rfl, rfl⟩⟩

/-- Settles O15: the two runs of the command agree on its inputs. -/
theorem commandsIgnoreStatus : Obligations.CommandsIgnoreStatus := by
  intro i s s' t t' hregs hcfg hp h h'
  obtain ⟨hr, hresp, hc⟩ := exec_agrees ⟨fun o _ => sameRegs_iff.1 hregs o, fun _ => hcfg, hp⟩ hregs h h'
  refine ⟨hr, ?_, hresp⟩
  rcases hc with hc | ⟨hc, hc'⟩
  · exact hc
  · rw [hc, hc', hcfg]

/-! ## Reset values -/

theorem status_congr (hwarn : t.warn = s.warn) (herr : t.err = s.err) (hvalid : t.cfg.valid = s.cfg.valid)
    (hmode : t.cfgMode = s.cfgMode) : t.status = s.status := by
  simp only [State.status, hwarn, herr, hvalid, hmode]

theorem cfgMode_of_invalid (h : s.cfg.valid = false) : s.cfgMode = 0 := by simp [State.cfgMode, h]

/-- R249: while the bank is not valid, a command that needs one ends in an error that its source registers decide. -/
theorem exec_raises_of_invalid {i : Instr} {s' : State} (hm : i.modes ≠ none) (hv : s.cfg.valid = false)
    (hv' : s'.cfg.valid = false) (hregs : State.SameRegs s s') :
    ∃ e, exec i s = .next (s.raise e) ∧ exec i s' = .next (s'.raise e) := by
  obtain ⟨ms, hm⟩ := Option.ne_none_iff_exists'.1 hm
  have hempty : s'.isEmpty = s.isEmpty := funext fun o => isEmpty_of_sameReg (sameRegs_iff.1 hregs o)
  cases hf : i.sources.find? s.isEmpty with
  | some o => exact ⟨_, exec_uninit hf, exec_uninit (by rw [hempty, hf])⟩
  | none =>
    have hw : ∀ o ∈ i.sources, s.isEmpty o = false := by simpa using hf
    exact ⟨_, exec_noCfg hm hw hv, exec_noCfg hm (by rwa [hempty]) hv'⟩

/-- R38: no command depends on a bank that is not valid. -/
theorem exec_ignores_invalid_bank {i : Instr} {s' t' : State} (hv : s.cfg.valid = false) (hv' : s'.cfg.valid = false)
    (hregs : State.SameRegs s s') (hp : s'.params = s.params) (h : exec i s = .next t) (h' : exec i s' = .next t') :
    State.SameRegs t t' ∧ t'.response = t.response ∧ (t'.cfg = t.cfg ∨ t.cfg = s.cfg ∧ t'.cfg = s'.cfg) := by
  by_cases hm : i.modes = none
  · exact exec_agrees ⟨fun o _ => sameRegs_iff.1 hregs o, fun hm' => absurd hm hm', hp⟩ hregs h h'
  · obtain ⟨e, he, he'⟩ := exec_raises_of_invalid hm hv hv' hregs
    cases he.symm.trans h
    cases he'.symm.trans h'
    exact ⟨hregs, rfl, .inr ⟨rfl, rfl⟩⟩

theorem invalid_bank_unread {i : Instr} {c : ModemConfig} (hv : s.cfg.valid = false) (hc : c.valid = false)
    (h : exec i s = .next t) :
    ∃ t', exec i { s with cfg := c } = .next t' ∧ State.SameRegs t t' ∧ t'.response = t.response
      ∧ t'.status = t.status := by
  obtain ⟨t', h'⟩ := exec_next i { s with cfg := c }
  obtain ⟨hregs, hresp, hcfg⟩ :=
    exec_ignores_invalid_bank (s' := { s with cfg := c }) hv hc ⟨rfl, rfl, rfl, rfl, rfl, rfl⟩ rfl h h'
  have hwarn : t'.warn = t.warn := by rw [exec_warn h, exec_warn h', hresp]
  have herr : t'.err = t.err := by rw [exec_err h, exec_err h', hresp]
  refine ⟨t', h', hregs, hresp, ?_⟩
  rcases hcfg with hcfg | ⟨hcfg, hcfg'⟩
  · exact status_congr hwarn herr (by rw [hcfg]) (by rw [State.cfgMode, State.cfgMode, hcfg])
  · have hv : t.cfg.valid = false := by rw [hcfg, hv]
    have hv' : t'.cfg.valid = false := by rw [hcfg', hc]
    exact status_congr hwarn herr (hv'.trans hv.symm) ((cfgMode_of_invalid hv').trans (cfgMode_of_invalid hv).symm)

theorem reset_status (p : Config.Params) : State.status { State.reset with params := p } = 0 :=
  (status_congr (s := State.reset) rfl rfl rfl rfl).trans (by decide)

/-- Settles O18: reset by evaluation, the bank through `NoCfg`, and a run changes nothing but the sequencer. -/
theorem resetValues : Obligations.ResetValues := by
  refine ⟨fun t ht => ?_, fun i s t c hv hc h => invalid_bank_unread hv hc h, fun prog s t h => ?_⟩
  · obtain ⟨p, rfl⟩ : ∃ p, t = { State.reset with params := p } := by
      rcases ht with rfl | ⟨s, hs⟩
      · exact ⟨_, rfl⟩
      · cases hs; exact ⟨_, rfl⟩
    exact ⟨reset_isEmpty p, rfl, reset_status p, rfl⟩
  · cases h
    exact ⟨rfl, rfl, ⟨rfl, rfl, rfl, rfl, rfl, rfl⟩, rfl, rfl, rfl⟩

end Sys2Proof.Machine
end

section
/-! SUPPORT. A word that decodes is the word of its command, and so is legal (spec/30_encoding.md R70 to R75); an
illegal one raises `Illegal` with the word (spec/60_exceptions.md R246). -/

namespace Sys2Proof.Laws

/-! ## The fields of a word that decodes -/

/-- A register field that is read is the field value of its register (R71). -/
theorem nib_of_readReg {n : Nat} {v : Nibble} {i : Fin n} (h : readReg n v = .ok i) : nib i = v := by
  rw [readReg] at h
  split at h
  · cases h; simp [nib]
  · cases h

theorem except_bind_ok_iff {ε α β : Type} {x : Except ε α} {f : α → Except ε β} {r : β} :
    (x >>= f) = .ok r ↔ ∃ a, x = .ok a ∧ f a = .ok r := by
  cases x with
  | error e => exact ⟨nofun, nofun⟩
  | ok a => exact ⟨fun h => ⟨a, rfl, h⟩, fun ⟨_, h, h'⟩ => by cases h; exact h'⟩

section

variable {c : RawCommand} {i : Instr} {op : BitVec 8} {n₁ n₂ n₃ n₄ n₅ : Nat}

/-- A command of two operands: the fields of the word are those of the command. -/
theorem raw_of_ops2 {k : Fin n₁ → Fin n₂ → Instr} (hop : c.op.toNat = op.toNat)
    (h : ops2 (readReg n₁) (readReg n₂) c k = .ok i) (hk : ∀ a b, (k a b).raw = ⟨op, nib a, nib b, 0, 0, 0, 0⟩) :
    i.raw = c := by
  obtain ⟨cop, fa, fb, fc, fd, fe, ff⟩ := c
  obtain rfl : cop = op := BitVec.eq_of_toNat_eq hop
  simp only [ops2, except_bind_ok_iff, unusedZero_ok_iff, List.forall_mem_cons] at h
  obtain ⟨_, ⟨rfl, rfl, rfl, rfl, -⟩, a, ha, b, hb, h⟩ := h
  cases h
  rw [hk, nib_of_readReg ha, nib_of_readReg hb]

theorem raw_of_ops3 {k : Fin n₁ → Fin n₂ → Fin n₃ → Instr} (hop : c.op.toNat = op.toNat)
    (h : ops3 (readReg n₁) (readReg n₂) (readReg n₃) c k = .ok i)
    (hk : ∀ a b d, (k a b d).raw = ⟨op, nib a, nib b, nib d, 0, 0, 0⟩) : i.raw = c := by
  obtain ⟨cop, fa, fb, fc, fd, fe, ff⟩ := c
  obtain rfl : cop = op := BitVec.eq_of_toNat_eq hop
  simp only [ops3, except_bind_ok_iff, unusedZero_ok_iff, List.forall_mem_cons] at h
  obtain ⟨_, ⟨rfl, rfl, rfl, -⟩, a, ha, b, hb, d, hd, h⟩ := h
  cases h
  rw [hk, nib_of_readReg ha, nib_of_readReg hb, nib_of_readReg hd]

theorem raw_of_ops4 {k : Fin n₁ → Fin n₂ → Fin n₃ → Fin n₄ → Instr} (hop : c.op.toNat = op.toNat)
    (h : ops4 (readReg n₁) (readReg n₂) (readReg n₃) (readReg n₄) c k = .ok i)
    (hk : ∀ a b d e, (k a b d e).raw = ⟨op, nib a, nib b, nib d, nib e, 0, 0⟩) : i.raw = c := by
  obtain ⟨cop, fa, fb, fc, fd, fe, ff⟩ := c
  obtain rfl : cop = op := BitVec.eq_of_toNat_eq hop
  simp only [ops4, except_bind_ok_iff, unusedZero_ok_iff, List.forall_mem_cons] at h
  obtain ⟨_, ⟨rfl, rfl, -⟩, a, ha, b, hb, d, hd, e, he, h⟩ := h
  cases h
  rw [hk, nib_of_readReg ha, nib_of_readReg hb, nib_of_readReg hd, nib_of_readReg he]

theorem raw_of_ops5 {k : Fin n₁ → Fin n₂ → Fin n₃ → Fin n₄ → Fin n₅ → Instr} (hop : c.op.toNat = op.toNat)
    (h : ops5 (readReg n₁) (readReg n₂) (readReg n₃) (readReg n₄) (readReg n₅) c k = .ok i)
    (hk : ∀ a b d e g, (k a b d e g).raw = ⟨op, nib a, nib b, nib d, nib e, nib g, 0⟩) : i.raw = c := by
  obtain ⟨cop, fa, fb, fc, fd, fe, ff⟩ := c
  obtain rfl : cop = op := BitVec.eq_of_toNat_eq hop
  simp only [ops5, except_bind_ok_iff, unusedZero_ok_iff, List.forall_mem_cons] at h
  obtain ⟨_, ⟨rfl, -⟩, a, ha, b, hb, d, hd, e, he, g, hg, h⟩ := h
  cases h
  rw [hk, nib_of_readReg ha, nib_of_readReg hb, nib_of_readReg hd, nib_of_readReg he, nib_of_readReg hg]

/-- An ECC command, its mode in field `F` (R73). -/
theorem raw_of_opsEcc {m : Nibble} {k : BReg → BReg → Instr} (hop : c.op.toNat = op.toNat) (hm : c.ff.toNat = m.toNat)
    (h : opsEcc c k = .ok i) (hk : ∀ a b, (k a b).raw = ⟨op, nib a, nib b, 0, 0, 0, m⟩) : i.raw = c := by
  obtain ⟨cop, fa, fb, fc, fd, fe, ff⟩ := c
  obtain rfl : cop = op := BitVec.eq_of_toNat_eq hop
  obtain rfl : ff = m := BitVec.eq_of_toNat_eq hm
  simp only [opsEcc, except_bind_ok_iff, unusedZero_ok_iff, List.forall_mem_cons] at h
  obtain ⟨_, ⟨rfl, rfl, rfl, -⟩, a, ha, b, hb, h⟩ := h
  cases h
  rw [hk, nib_of_readReg ha, nib_of_readReg hb]

end

/-- R75: the fields of a word that decodes are those of the command, row by row of R72. -/
theorem raw_of_decodeRaw {c : RawCommand} {i : Instr} (h : decodeRaw c = .ok i) : i.raw = c := by
  unfold decodeRaw at h
  split at h
  case h_1 hop => exact raw_of_ops3 (op := 0x10) hop h fun _ _ _ => rfl
  case h_2 hop => exact raw_of_ops2 (op := 0x11) hop h fun _ _ => rfl
  case h_3 hop => exact raw_of_ops3 (op := 0x12) hop h fun _ _ _ => rfl
  case h_4 hop => exact raw_of_ops2 (op := 0x21) hop h fun _ _ => rfl
  case h_5 hop => exact raw_of_ops2 (op := 0x22) hop h fun _ _ => rfl
  case h_6 hop => exact raw_of_ops2 (op := 0x23) hop h fun _ _ => rfl
  case h_7 hop => exact raw_of_ops2 (op := 0x24) hop h fun _ _ => rfl
  case h_8 hop => exact raw_of_ops2 (op := 0x25) hop h fun _ _ => rfl
  case h_9 hop => exact raw_of_ops2 (op := 0x26) hop h fun _ _ => rfl
  case h_10 hop => exact raw_of_ops2 (op := 0x28) hop h fun _ _ => rfl
  case h_11 hop => exact raw_of_ops2 (op := 0x31) hop h fun _ _ => rfl
  case h_12 hop => exact raw_of_ops2 (op := 0x32) hop h fun _ _ => rfl
  case h_13 hop => exact raw_of_ops2 (op := 0x33) hop h fun _ _ => rfl
  case h_14 hop => exact raw_of_ops2 (op := 0x34) hop h fun _ _ => rfl
  case h_15 hop => exact raw_of_ops2 (op := 0x35) hop h fun _ _ => rfl
  case h_16 hop => exact raw_of_ops2 (op := 0x36) hop h fun _ _ => rfl
  case h_17 hop => exact raw_of_ops2 (op := 0x38) hop h fun _ _ => rfl
  case h_18 hop =>
    split at h
    case h_1 hm => exact raw_of_opsEcc (op := 0x40) (m := 0) hop hm h fun _ _ => rfl
    case h_2 hm => exact raw_of_opsEcc (op := 0x40) (m := 1) hop hm h fun _ _ => rfl
    case h_3 hm => exact raw_of_opsEcc (op := 0x40) (m := 2) hop hm h fun _ _ => rfl
    case h_4 => cases h
  case h_19 hop =>
    split at h
    case h_1 hm => exact raw_of_opsEcc (op := 0x41) (m := 0) hop hm h fun _ _ => rfl
    case h_2 hm => exact raw_of_opsEcc (op := 0x41) (m := 1) hop hm h fun _ _ => rfl
    case h_3 hm => exact raw_of_opsEcc (op := 0x41) (m := 2) hop hm h fun _ _ => rfl
    case h_4 => cases h
  case h_20 hop => exact raw_of_ops3 (op := 0x50) hop h fun _ _ _ => rfl
  case h_21 hop => exact raw_of_ops3 (op := 0x51) hop h fun _ _ _ => rfl
  case h_22 hop => exact raw_of_ops4 (op := 0x52) hop h fun _ _ _ _ => rfl
  case h_23 hop => exact raw_of_ops3 (op := 0x53) hop h fun _ _ _ => rfl
  case h_24 hop => exact raw_of_ops4 (op := 0x54) hop h fun _ _ _ _ => rfl
  case h_25 hop => exact raw_of_ops5 (op := 0x55) hop h fun _ _ _ _ _ => rfl
  case h_26 hop => exact raw_of_ops4 (op := 0x56) hop h fun _ _ _ _ => rfl
  case h_27 hop => exact raw_of_ops4 (op := 0x57) hop h fun _ _ _ _ => rfl
  case h_28 hop => exact raw_of_ops3 (op := 0x58) hop h fun _ _ _ => rfl
  case h_29 hop => exact raw_of_ops4 (op := 0x60) hop h fun _ _ _ _ => rfl
  case h_30 hop => exact raw_of_ops4 (op := 0x61) hop h fun _ _ _ _ => rfl
  case h_31 hop => exact raw_of_ops5 (op := 0x62) hop h fun _ _ _ _ _ => rfl
  case h_32 hop => exact raw_of_ops4 (op := 0x63) hop h fun _ _ _ _ => rfl
  case h_33 hop => exact raw_of_ops2 (op := 0x68) hop h fun _ _ => rfl
  case h_34 hop => exact raw_of_ops2 (op := 0x69) hop h fun _ _ => rfl
  case h_35 hop => exact raw_of_ops2 (op := 0x70) hop h fun _ _ => rfl
  case h_36 hop => exact raw_of_ops2 (op := 0x71) hop h fun _ _ => rfl
  case h_37 hop => exact raw_of_ops2 (op := 0x72) hop h fun _ _ => rfl
  case h_38 hop => exact raw_of_ops2 (op := 0x73) hop h fun _ _ => rfl
  case h_39 hop => exact raw_of_ops2 (op := 0x78) hop h fun _ _ => rfl
  case h_40 hop => exact raw_of_ops2 (op := 0x79) hop h fun _ _ => rfl
  case h_41 hop => exact raw_of_ops2 (op := 0x7A) hop h fun _ _ => rfl
  case h_42 hop => exact raw_of_ops2 (op := 0x7B) hop h fun _ _ => rfl
  case h_43 => cases h

/-- R75: a word that decodes is the word of its command. -/
theorem encode_of_decode {w : CmdWord} {i : Instr} (h : decode w = .ok i) : encode i = w := by
  rw [encode, raw_of_decodeRaw h, join_split]

/-- Every command is well formed, and its word decodes to it. -/
theorem encoding_statement (i : Instr) : Encoding.Statement i := by
  cases i with
  | rdbit xd bs xp => exact Encoding.rdbit xd bs xp
  | rdbits sd bs => exact Encoding.rdbits sd bs
  | wrbit bd xp xv => exact Encoding.wrbit bd xp xv
  | enc2 sd bs => exact Encoding.enc2 sd bs
  | enc4 sd bs => exact Encoding.enc4 sd bs
  | enc8 sd bs => exact Encoding.enc8 sd bs
  | enc16 sd bs => exact Encoding.enc16 sd bs
  | enc32 sd bs => exact Encoding.enc32 sd bs
  | enc64 sd bs => exact Encoding.enc64 sd bs
  | enc256 sd bs => exact Encoding.enc256 sd bs
  | dec2 bd ss => exact Encoding.dec2 bd ss
  | dec4 bd ss => exact Encoding.dec4 bd ss
  | dec8 bd ss => exact Encoding.dec8 bd ss
  | dec16 bd ss => exact Encoding.dec16 bd ss
  | dec32 bd ss => exact Encoding.dec32 bd ss
  | dec64 bd ss => exact Encoding.dec64 bd ss
  | dec256 bd ss => exact Encoding.dec256 bd ss
  | eccencNone bd bs => exact Encoding.eccencNone bd bs
  | eccencRaw bd bs => exact Encoding.eccencRaw bd bs
  | hamenc bd bs => exact Encoding.hamenc bd bs
  | eccdecNone bd bs => exact Encoding.eccdecNone bd bs
  | eccdecRaw bd bs => exact Encoding.eccdecRaw bd bs
  | hamdec bd bs => exact Encoding.hamdec bd bs
  | timearr fd rfs xn => exact Encoding.timearr fd rfs xn
  | sps rd rfs rbaud => exact Encoding.sps rd rfs rbaud
  | shres fd ft rbaud fv => exact Encoding.shres fd ft rbaud fv
  | gausswin fd rfs rsigma => exact Encoding.gausswin fd rfs rsigma
  | lpfir fd rfs rlo rhi => exact Encoding.lpfir fd rfs rlo rhi
  | lpfira fd rfs rlo rhi ratt => exact Encoding.lpfira fd rfs rlo rhi ratt
  | goertz zd fd rfreq rfs => exact Encoding.goertz zd fd rfreq rfs
  | avgint rd fa rbegin rend => exact Encoding.avgint rd fa rbegin rend
  | conv fd fa fk => exact Encoding.conv fd fa fk
  | cfgask rfs rcar rbaud famp => exact Encoding.cfgask rfs rcar rbaud famp
  | cfgfsk rfs ramp rbaud ffreq => exact Encoding.cfgfsk rfs ramp rbaud ffreq
  | cfgpsk rfs rcar ramp rbaud fph => exact Encoding.cfgpsk rfs rcar ramp rbaud fph
  | cfgqam rfs rcar rbaud zcon => exact Encoding.cfgqam rfs rcar rbaud zcon
  | slice sd fobs => exact Encoding.slice sd fobs
  | slicez sd zobs => exact Encoding.slicez sd zobs
  | modask fd ss => exact Encoding.modask fd ss
  | modfsk fd ss => exact Encoding.modfsk fd ss
  | modpsk fd ss => exact Encoding.modpsk fd ss
  | modqam fd ss => exact Encoding.modqam fd ss
  | demask sd fx => exact Encoding.demask sd fx
  | demfsk sd fx => exact Encoding.demfsk sd fx
  | dempsk sd fx => exact Encoding.dempsk sd fx
  | demqam sd fx => exact Encoding.demqam sd fx

/-- R74: a word that decodes is legal. -/
theorem legal_of_decode {w : CmdWord} {i : Instr} (h : decode w = .ok i) : (splitWord w).legal = true := by
  have hw : i.wellFormed = true := (encoding_statement i).1
  rwa [Instr.wellFormed, raw_of_decodeRaw h] at hw

end Sys2Proof.Laws

namespace Sys2Proof.Machine

/-- R15: a word, read as a signed number, is within the range that an info value is clamped to. -/
theorem clampInfo_toInt (w : Word) : clampInfo w.toInt = w := by
  have hlo : -2 ^ (Config.xlen - 1) ≤ w.toInt := BitVec.le_toInt w
  have hhi : w.toInt < 2 ^ (Config.xlen - 1) := BitVec.toInt_lt
  rw [clampInfo, min_eq_left (by omega), max_eq_right hlo, BitVec.ofInt_toInt]

/-- R246: issuing an illegal word is the error entry with the word. -/
theorem issue_of_not_legal {w : CmdWord} (h : (splitWord w).legal = false) (s : State) :
    issue w s = .next (s.raise ⟨.illegal, w.toInt⟩) := by
  cases hd : decode w with
  | error r => exact issue_illegal hd s
  | ok i => exact absurd (Laws.legal_of_decode hd) (by simp [h])

/-- Settles O3: an illegal word does not decode, so issuing it is the error entry, in any state. -/
theorem illegalWordRaisesIllegal : Obligations.IllegalWordRaisesIllegal := by
  refine ⟨fun w s h => ⟨issue_of_not_legal h s, clampInfo_toInt w, fun hrun hw => ?_⟩, by decide, by decide⟩
  rw [step_fetched (fetch_eq_some_iff.2 ⟨hrun, hw⟩), issue_of_not_legal h s]

end Sys2Proof.Machine
end

section
/-! SUPPORT. RDBIT and WRBIT on written operands (spec/40_bitstream.md R90, R92): at a position inside the buffer, at
one outside it, and on a read-only buffer. -/

namespace Sys2Proof.Machine

/-! ## Positions -/

/-- A position inside the buffer passes the check of R90 and R92. -/
theorem bitIndex_inside {l : List Byte} {p : Int} (h0 : 0 ≤ p) (h : p < 8 * l.length) :
    bitIndex l p = .ok p.toNat := bitIndex_ok_iff.2 ⟨h0, h, rfl⟩

/-- A position outside the buffer is reported as it is. -/
theorem bitIndex_outside {l : List Byte} {p : Int} (h : p < 0 ∨ 8 * l.length ≤ p) :
    bitIndex l p = .error ⟨.range, p⟩ := bitIndex_error_iff.2 ⟨h, rfl⟩

/-! ## RDBIT -/

/-- `MemRead` of one bit is the stream bit of R51. -/
theorem memRead_one_eq_bitOf (l : List Byte) (p : Nat) : memRead l p 1 = bitOf l p := by
  rw [memRead_one, bitOf_eq_streamBit]

section
variable {xd : XReg} {bs : BReg} {xp : XReg} {s : State} {v : ByteBuf} {p : Word}

/-- RDBIT with its sources written: the check of the position decides. -/
theorem exec_rdbit (hv : s.bReg[bs] = some v) (hp : s.xReg[xp] = some p) :
    exec (.rdbit xd bs xp) s = s.complete do
      let i ← bitIndex v.bytes p.toInt
      return (s.setX xd (BitVec.ofNat Config.xlen (bitOf v.bytes i)), noWarn) := by
  simp only [exec, execRdbit, readB_ok_iff.2 hv, readX_ok_iff.2 hp, ok_bind, memRead_one_eq_bitOf]

theorem exec_rdbit_inside (hv : s.bReg[bs] = some v) (hp : s.xReg[xp] = some p) (h0 : 0 ≤ p.toInt)
    (h : p.toInt < 8 * v.bytes.length) :
    exec (.rdbit xd bs xp) s =
      .next ((s.setX xd (BitVec.ofNat Config.xlen (bitOf v.bytes p.toInt.toNat))).retire noWarn) := by
  rw [exec_rdbit hv hp, bitIndex_inside h0 h, ok_bind, pure_eq_ok, complete_ok]

theorem exec_rdbit_outside (hv : s.bReg[bs] = some v) (hp : s.xReg[xp] = some p)
    (h : p.toInt < 0 ∨ 8 * v.bytes.length ≤ p.toInt) :
    exec (.rdbit xd bs xp) s = .next (s.raise ⟨.range, p.toInt⟩) := by
  rw [exec_rdbit hv hp, bitIndex_outside h, error_bind, complete_error]

end

/-- Settles O24: the position is inside the buffer or it is not. -/
theorem rdbitReadsBit : Obligations.RdbitReadsBit :=
  fun _ _ _ _ _ _ hv hp => ⟨exec_rdbit_inside hv hp, exec_rdbit_outside hv hp⟩

/-! ## WRBIT -/

section
variable {bd : BReg} {xp xv : XReg} {s : State} {v : ByteBuf} {p val : Word}

/-- WRBIT with its sources written: `ro` is checked first, then the position (R92). -/
theorem exec_wrbit (hv : s.bReg[bd] = some v) (hp : s.xReg[xp] = some p) (hval : s.xReg[xv] = some val) :
    exec (.wrbit bd xp xv) s = s.complete do
      failIf v.ro .capability bd.val
      let i ← bitIndex v.bytes p.toInt
      return (s.setB bd ⟨memWrite v.bytes i 1 (if val = 0 then 0 else 1), v.ro⟩, noWarn) := by
  simp only [exec, execWrbit, readB_ok_iff.2 hv, readX_ok_iff.2 hp, readX_ok_iff.2 hval, ok_bind]

theorem exec_wrbit_readOnly (hv : s.bReg[bd] = some v) (hp : s.xReg[xp] = some p) (hval : s.xReg[xv] = some val)
    (hro : v.ro = true) : exec (.wrbit bd xp xv) s = .next (s.raise ⟨.capability, bd.val⟩) := by
  rw [exec_wrbit hv hp hval, hro, failIf_true, error_bind, complete_error]

theorem exec_wrbit_outside (hv : s.bReg[bd] = some v) (hp : s.xReg[xp] = some p) (hval : s.xReg[xv] = some val)
    (hro : v.ro = false) (h : p.toInt < 0 ∨ 8 * v.bytes.length ≤ p.toInt) :
    exec (.wrbit bd xp xv) s = .next (s.raise ⟨.range, p.toInt⟩) := by
  rw [exec_wrbit hv hp hval, hro, failIf_false, ok_bind, bitIndex_outside h, error_bind, complete_error]

theorem exec_wrbit_inside (hv : s.bReg[bd] = some v) (hp : s.xReg[xp] = some p) (hval : s.xReg[xv] = some val)
    (hro : v.ro = false) (h0 : 0 ≤ p.toInt) (h : p.toInt < 8 * v.bytes.length) :
    exec (.wrbit bd xp xv) s =
      .next ((s.setB bd ⟨memWrite v.bytes p.toInt.toNat 1 (if val = 0 then 0 else 1), false⟩).retire noWarn) := by
  rw [exec_wrbit hv hp hval, hro, failIf_false, ok_bind, bitIndex_inside h0 h, ok_bind, pure_eq_ok, complete_ok]

end

/-- R54: writing a bit changes the stream bit at its position and no other. -/
theorem bitOf_memWrite_one {l : List Byte} {i x q : Nat} (hx : x < 2) (hq : q < 8 * l.length) :
    bitOf (memWrite l i 1 x) q = if q = i then x else bitOf l q := by
  rw [bitOf_eq_streamBit, streamBit_memWrite hq]
  by_cases hqi : q = i
  case pos =>
    have hbit : (x.testBit 0).toNat = x := by interval_cases x <;> rfl
    rw [if_pos (by omega), if_pos hqi, hqi, Nat.sub_self, Nat.zero_sub, hbit]
  case neg => rw [if_neg (by omega), if_neg hqi, bitOf_eq_streamBit]

/-- Settles O26: `Capability`, then `Range`, then `MemWrite` of one bit, whose bits `bitOf_memWrite_one` gives. -/
theorem wrbitWritesOneBit : Obligations.WrbitWritesOneBit := by
  intro bd xp xv s v p val hv hp hval
  refine ⟨exec_wrbit_readOnly hv hp hval, exec_wrbit_outside hv hp hval, fun hro h0 h =>
    ⟨_, exec_wrbit_inside hv hp hval hro h0 h, memWrite_length _ _ _ _, fun q hq => ?_⟩⟩
  have hx : (if val = 0 then 0 else 1) < 2 := by split <;> decide
  have hpos : q = p.toInt.toNat ↔ (q : Int) = p.toInt := by omega
  rw [bitOf_memWrite_one hx hq]
  simp only [hpos]

end Sys2Proof.Machine
end

section
/-! SUPPORT. The words of the commands are the words that decode and the words that match a row of R72
(spec/30_encoding.md R70 to R75); the example words of R77. -/

namespace Sys2Proof.Laws

/-! ## Words that match a row -/

/-- A bound on the values of a field of a row (R70, R71, R73): the size of a register class, 1 for an unused field, and
that of a nibble for the mode. -/
def fieldBound : FieldKind → Nat
  | .x => Config.nx
  | .r => Config.nr
  | .b => Config.nb
  | .s => Config.ns
  | .f => Config.nf
  | .z => Config.nz
  | .unused => 1
  | .mode _ => 16

theorem lt_fieldBound_of_admits {k : FieldKind} {v : Nibble} (h : k.admits v = true) : v.toNat < fieldBound k := by
  cases k with
  | unused => obtain rfl : v = 0 := of_decide_eq_true h; decide
  | mode m => exact v.isLt
  | _ => exact of_decide_eq_true h

/-- R71: a field value that the row admits is that of an index within its bound. -/
theorem exists_nib_of_admits {k : FieldKind} {v : Nibble} (h : k.admits v = true) : ∃ i : Fin (fieldBound k), nib i = v :=
  ⟨⟨v.toNat, lt_fieldBound_of_admits h⟩, by simp [nib]⟩

theorem eq_zero_of_admits {v : Nibble} (h : FieldKind.unused.admits v = true) : v = 0 := of_decide_eq_true h

theorem eq_of_mode_admits {m v : Nibble} (h : (FieldKind.mode m).admits v = true) : v = m := of_decide_eq_true h

/-- The word has the row's opcode, and each of its fields holds what the row puts there (R70 to R73). -/
structure Fits (c : RawCommand) (row : Row) : Prop where
  op : row.op = c.op
  fa : row.ka.admits c.fa = true
  fb : row.kb.admits c.fb = true
  fc : row.kc.admits c.fc = true
  fd : row.kd.admits c.fd = true
  fe : row.ke.admits c.fe = true
  ff : row.kf.admits c.ff = true

/-- Three selections of fields that leave no kind out check every field. -/
theorem fits_of_fieldsMeet {c : RawCommand} {row : Row} {p q r : FieldKind → Bool}
    (hcover : ∀ k, (p k || q k || r k) = true) (hop : row.op = c.op) (hp : c.fieldsMeet p row = true)
    (hq : c.fieldsMeet q row = true) (hr : c.fieldsMeet r row = true) : Fits c row := by
  have holdsAny : ∀ {k : FieldKind} {v : Nibble}, (!p k || k.admits v) = true → (!q k || k.admits v) = true →
      (!r k || k.admits v) = true → k.admits v = true := by
    intro k v h₁ h₂ h₃
    have hk := hcover k
    grind
  simp only [RawCommand.fieldsMeet, List.all_cons, List.all_nil, Bool.and_true, Bool.and_eq_true] at hp hq hr
  obtain ⟨pa, pb, pc, pd, pe, pf⟩ := hp
  obtain ⟨qa, qb, qc, qd, qe, qf⟩ := hq
  obtain ⟨ra, rb, rc, rd, re, rf⟩ := hr
  exact ⟨hop, holdsAny pa qa ra, holdsAny pb qb rb, holdsAny pc qc rc, holdsAny pd qd rd, holdsAny pe qe re,
    holdsAny pf qf rf⟩

/-- R74, R75: a legal word fits a row of R72, since the mode, the unused and the register fields are all its fields. -/
theorem exists_fits_of_legal {c : RawCommand} (h : c.legal = true) : ∃ row ∈ opcodeMap, Fits c row := by
  obtain ⟨row, hmem, hrow⟩ := List.any_eq_true.1 h
  simp only [Bool.and_eq_true, decide_eq_true_eq] at hrow
  obtain ⟨⟨⟨hop, hmode⟩, hunused⟩, hregs⟩ := hrow
  exact ⟨row, hmem, fits_of_fieldsMeet (fun k => by cases k <;> rfl) hop hmode hunused hregs⟩

/-! ## Every row is the row of a command -/

/-- Every word that fits the row holds the fields of a command. -/
def Covered (row : Row) : Prop := ∀ c : RawCommand, Fits c row → ∃ i : Instr, i.raw = c

section

variable {op : BitVec 8} {ka kb kc kd ke : FieldKind}

/-- A row of two operands is covered by the command with these operands. -/
theorem covered_two (k : Fin (fieldBound ka) → Fin (fieldBound kb) → Instr)
    (hk : ∀ a b, (k a b).raw = ⟨op, nib a, nib b, 0, 0, 0, 0⟩) : Covered (.of op [ka, kb]) := by
  rintro ⟨cop, fa, fb, fc, fd, fe, ff⟩ ⟨hop, ha, hb, hc, hd, he, hf⟩
  obtain ⟨a, rfl⟩ := exists_nib_of_admits ha
  obtain ⟨b, rfl⟩ := exists_nib_of_admits hb
  obtain rfl : op = cop := hop
  obtain rfl := eq_zero_of_admits hc
  obtain rfl := eq_zero_of_admits hd
  obtain rfl := eq_zero_of_admits he
  obtain rfl := eq_zero_of_admits hf
  exact ⟨k a b, hk a b⟩

theorem covered_three (k : Fin (fieldBound ka) → Fin (fieldBound kb) → Fin (fieldBound kc) → Instr)
    (hk : ∀ a b d, (k a b d).raw = ⟨op, nib a, nib b, nib d, 0, 0, 0⟩) : Covered (.of op [ka, kb, kc]) := by
  rintro ⟨cop, fa, fb, fc, fd, fe, ff⟩ ⟨hop, ha, hb, hc, hd, he, hf⟩
  obtain ⟨a, rfl⟩ := exists_nib_of_admits ha
  obtain ⟨b, rfl⟩ := exists_nib_of_admits hb
  obtain ⟨d, rfl⟩ := exists_nib_of_admits hc
  obtain rfl : op = cop := hop
  obtain rfl := eq_zero_of_admits hd
  obtain rfl := eq_zero_of_admits he
  obtain rfl := eq_zero_of_admits hf
  exact ⟨k a b d, hk a b d⟩

theorem covered_four (k : Fin (fieldBound ka) → Fin (fieldBound kb) → Fin (fieldBound kc) → Fin (fieldBound kd) → Instr)
    (hk : ∀ a b d e, (k a b d e).raw = ⟨op, nib a, nib b, nib d, nib e, 0, 0⟩) : Covered (.of op [ka, kb, kc, kd]) := by
  rintro ⟨cop, fa, fb, fc, fd, fe, ff⟩ ⟨hop, ha, hb, hc, hd, he, hf⟩
  obtain ⟨a, rfl⟩ := exists_nib_of_admits ha
  obtain ⟨b, rfl⟩ := exists_nib_of_admits hb
  obtain ⟨d, rfl⟩ := exists_nib_of_admits hc
  obtain ⟨e, rfl⟩ := exists_nib_of_admits hd
  obtain rfl : op = cop := hop
  obtain rfl := eq_zero_of_admits he
  obtain rfl := eq_zero_of_admits hf
  exact ⟨k a b d e, hk a b d e⟩

theorem covered_five
    (k : Fin (fieldBound ka) → Fin (fieldBound kb) → Fin (fieldBound kc) → Fin (fieldBound kd) → Fin (fieldBound ke) → Instr)
    (hk : ∀ a b d e g, (k a b d e g).raw = ⟨op, nib a, nib b, nib d, nib e, nib g, 0⟩) :
    Covered (.of op [ka, kb, kc, kd, ke]) := by
  rintro ⟨cop, fa, fb, fc, fd, fe, ff⟩ ⟨hop, ha, hb, hc, hd, he, hf⟩
  obtain ⟨a, rfl⟩ := exists_nib_of_admits ha
  obtain ⟨b, rfl⟩ := exists_nib_of_admits hb
  obtain ⟨d, rfl⟩ := exists_nib_of_admits hc
  obtain ⟨e, rfl⟩ := exists_nib_of_admits hd
  obtain ⟨g, rfl⟩ := exists_nib_of_admits he
  obtain rfl : op = cop := hop
  obtain rfl := eq_zero_of_admits hf
  exact ⟨k a b d e g, hk a b d e g⟩

/-- An ECC row is covered by the command of its mode (R73). -/
theorem covered_ecc {m : Nibble} (k : BReg → BReg → Instr)
    (hk : ∀ a b, (k a b).raw = ⟨op, nib a, nib b, 0, 0, 0, m⟩) : Covered (.ecc op m) := by
  rintro ⟨cop, fa, fb, fc, fd, fe, ff⟩ ⟨hop, ha, hb, hc, hd, he, hf⟩
  obtain ⟨a, rfl⟩ := exists_nib_of_admits ha
  obtain ⟨b, rfl⟩ := exists_nib_of_admits hb
  obtain rfl : op = cop := hop
  obtain rfl := eq_zero_of_admits hc
  obtain rfl := eq_zero_of_admits hd
  obtain rfl := eq_zero_of_admits he
  obtain rfl : ff = m := eq_of_mode_admits hf
  exact ⟨k a b, hk a b⟩

end

/-- R72: row by row, the command of the row. -/
theorem covered_of_mem_opcodeMap : ∀ row ∈ opcodeMap, Covered row := by
  simp only [opcodeMap, List.forall_mem_cons]
  exact ⟨covered_three Instr.rdbit fun _ _ _ => rfl, covered_two Instr.rdbits fun _ _ => rfl,
    covered_three Instr.wrbit fun _ _ _ => rfl,
    covered_two Instr.enc2 fun _ _ => rfl, covered_two Instr.enc4 fun _ _ => rfl,
    covered_two Instr.enc8 fun _ _ => rfl, covered_two Instr.enc16 fun _ _ => rfl,
    covered_two Instr.enc32 fun _ _ => rfl, covered_two Instr.enc64 fun _ _ => rfl,
    covered_two Instr.enc256 fun _ _ => rfl,
    covered_two Instr.dec2 fun _ _ => rfl, covered_two Instr.dec4 fun _ _ => rfl,
    covered_two Instr.dec8 fun _ _ => rfl, covered_two Instr.dec16 fun _ _ => rfl,
    covered_two Instr.dec32 fun _ _ => rfl, covered_two Instr.dec64 fun _ _ => rfl,
    covered_two Instr.dec256 fun _ _ => rfl,
    covered_ecc Instr.eccencNone fun _ _ => rfl, covered_ecc Instr.eccencRaw fun _ _ => rfl,
    covered_ecc Instr.hamenc fun _ _ => rfl,
    covered_ecc Instr.eccdecNone fun _ _ => rfl, covered_ecc Instr.eccdecRaw fun _ _ => rfl,
    covered_ecc Instr.hamdec fun _ _ => rfl,
    covered_three Instr.timearr fun _ _ _ => rfl, covered_three Instr.sps fun _ _ _ => rfl,
    covered_four Instr.shres fun _ _ _ _ => rfl, covered_three Instr.gausswin fun _ _ _ => rfl,
    covered_four Instr.lpfir fun _ _ _ _ => rfl, covered_five Instr.lpfira fun _ _ _ _ _ => rfl,
    covered_four Instr.goertz fun _ _ _ _ => rfl, covered_four Instr.avgint fun _ _ _ _ => rfl,
    covered_three Instr.conv fun _ _ _ => rfl,
    covered_four Instr.cfgask fun _ _ _ _ => rfl, covered_four Instr.cfgfsk fun _ _ _ _ => rfl,
    covered_five Instr.cfgpsk fun _ _ _ _ _ => rfl, covered_four Instr.cfgqam fun _ _ _ _ => rfl,
    covered_two Instr.slice fun _ _ => rfl, covered_two Instr.slicez fun _ _ => rfl,
    covered_two Instr.modask fun _ _ => rfl, covered_two Instr.modfsk fun _ _ => rfl,
    covered_two Instr.modpsk fun _ _ => rfl, covered_two Instr.modqam fun _ _ => rfl,
    covered_two Instr.demask fun _ _ => rfl, covered_two Instr.demfsk fun _ _ => rfl,
    covered_two Instr.dempsk fun _ _ => rfl, covered_two Instr.demqam fun _ _ => rfl, List.forall_mem_nil _⟩

/-- R74, R75: a legal word is the word of a command. -/
theorem exists_encode_of_legal {w : CmdWord} (h : (splitWord w).legal = true) : ∃ i : Instr, encode i = w := by
  obtain ⟨row, hmem, hfits⟩ := exists_fits_of_legal h
  obtain ⟨i, hi⟩ := covered_of_mem_opcodeMap row hmem _ hfits
  exact ⟨i, by rw [encode, hi, join_split]⟩

/-! ## The statements -/

/-- The word of a command decodes to it. -/
theorem decode_encode (i : Instr) : decode (encode i) = .ok i := (encoding_statement i).2

/-- Settles O1: a word that decodes is its command's word, by the rows of the decoder, and that word decodes to the
command, by the rows of the encoder. -/
theorem decodeIffEncode : Obligations.DecodeIffEncode := by
  refine fun w i => ⟨encode_of_decode, ?_⟩
  rintro rfl
  exact decode_encode i

/-- Settles O2: the row that a legal word fits has a command, and the word of a command decodes, so it is legal. -/
theorem legalWordsAreCommands : Obligations.LegalWordsAreCommands := by
  refine fun w => ⟨exists_encode_of_legal, ?_⟩
  rintro ⟨i, rfl⟩
  exact legal_of_decode (decode_encode i)

/-- Settles O4: each example word is the word of its command, so it decodes to it; the spellings by evaluation. -/
theorem specExampleWordsDecode : Obligations.SpecExampleWordsDecode :=
  ⟨(decodeIffEncode _ _).2 rfl, rfl, (decodeIffEncode _ _).2 rfl, rfl, (decodeIffEncode _ _).2 rfl, rfl⟩

end Sys2Proof.Laws
end

section
/-! SUPPORT. RDBITS on a written operand (spec/40_bitstream.md R91), and what the commands of the accessor return after
one another (R93). -/

namespace Sys2Proof.Machine

/-! ## RDBITS -/

theorem putS_eq_ok {s : State} {i : SReg} {l : List Word} (h : overMax s.params l.length = false) :
    s.putS i l = .ok (s.setS i l) := putS_ok_iff.2 ⟨h, rfl⟩

theorem putS_eq_error {s : State} {i : SReg} {l : List Word} (h : overMax s.params l.length = true) :
    s.putS i l = .error ⟨.capacity, l.length⟩ := by
  rw [State.putS, fits_eq_error h, error_bind]

/-- `allBits` lists the stream bits of R51 in order. -/
theorem allBits_eq_map_bitOf (l : List Byte) :
    allBits l = (List.range (8 * l.length)).map fun p => BitVec.ofNat Config.xlen (bitOf l p) := by
  simp only [allBits, memRead_one_eq_bitOf]

@[simp] theorem allBits_length (l : List Byte) : (allBits l).length = 8 * l.length := by simp [allBits]

theorem allBits_getElem? {l : List Byte} {p : Nat} (h : p < 8 * l.length) :
    (allBits l)[p]? = some (BitVec.ofNat Config.xlen (bitOf l p)) := by
  rw [allBits_eq_map_bitOf, List.getElem?_map, List.getElem?_range h, Option.map_some]

section
variable {sd : SReg} {bs : BReg} {s : State} {v : ByteBuf}

/-- RDBITS with its source written: the capacity check of the write decides. -/
theorem exec_rdbits (hv : s.bReg[bs] = some v) :
    exec (.rdbits sd bs) s = s.complete do
      let t ← s.putS sd (allBits v.bytes)
      return (t, noWarn) := by
  simp only [exec, execRdbits, readB_ok_iff.2 hv, ok_bind]

theorem exec_rdbits_fits (hv : s.bReg[bs] = some v) (h : overMax s.params (8 * v.bytes.length) = false) :
    exec (.rdbits sd bs) s = .next ((s.setS sd (allBits v.bytes)).retire noWarn) := by
  have hfits : overMax s.params (allBits v.bytes).length = false := by rw [allBits_length]; exact_mod_cast h
  rw [exec_rdbits hv, putS_eq_ok hfits, ok_bind, pure_eq_ok, complete_ok]

theorem exec_rdbits_overMax (hv : s.bReg[bs] = some v) (h : overMax s.params (8 * v.bytes.length) = true) :
    exec (.rdbits sd bs) s = .next (s.raise ⟨.capacity, 8 * v.bytes.length⟩) := by
  have hover : overMax s.params (allBits v.bytes).length = true := by rw [allBits_length]; exact_mod_cast h
  rw [exec_rdbits hv, putS_eq_error hover, error_bind, complete_error, allBits_length, Nat.cast_mul, Nat.cast_ofNat]

/-- RDBITS without an error delivers all bits. -/
theorem rdbits_completed {t : State} (hv : s.bReg[bs] = some v) (h : exec (.rdbits sd bs) s = .next t)
    (herr : t.response.err = 0) : t.sReg[sd] = some (allBits v.bytes) := by
  cases hmax : overMax s.params (8 * v.bytes.length) with
  | false =>
    obtain rfl := Host.Outcome.next.inj ((exec_rdbits_fits hv hmax).symm.trans h)
    exact State.setS_get s sd _
  | true =>
    obtain rfl := Host.Outcome.next.inj ((exec_rdbits_overMax hv hmax).symm.trans h)
    exact absurd herr (code_ne_zero .capacity)

end

/-- Settles O25: the bits fit the destination or they do not. -/
theorem rdbitsReadsAllBits : Obligations.RdbitsReadsAllBits := by
  intro sd bs s v hv
  rw [← allBits_eq_map_bitOf]
  split
  case isTrue h => exact exec_rdbits_overMax hv h
  case isFalse h => exact exec_rdbits_fits hv (Bool.eq_false_of_not_eq_true h)

/-! ## One command after another (R93) -/

/-- RDBIT inside the buffer completes with the stream bit in its destination, which may be the position's register. -/
theorem rdbit_reads {xd : XReg} {bs : BReg} {xp : XReg} {s : State} {v : ByteBuf} {p : Word}
    (hv : s.bReg[bs] = some v) (hp : s.xReg[xp] = some p) (h0 : 0 ≤ p.toInt) (h : p.toInt < 8 * v.bytes.length) :
    ∃ t, exec (.rdbit xd bs xp) s = .next t
      ∧ t.xReg[xd] = some (BitVec.ofNat Config.xlen (bitOf v.bytes p.toInt.toNat)) :=
  ⟨_, exec_rdbit_inside hv hp h0 h, State.setX_get s xd _⟩

/-- RDBIT changes no buffer, whether it completes or not. -/
theorem rdbit_bReg {xd : XReg} {bs : BReg} {xp : XReg} {s t : State} (h : exec (.rdbit xd bs xp) s = .next t) :
    t.bReg = s.bReg := by
  rcases exec_does h with ⟨e, rfl⟩ | ⟨u, w, ⟨value, rfl⟩, -, rfl⟩
  · exact State.raise_bReg s e
  · rw [State.retire_bReg, State.setX_bReg]

/-- WRBIT inside a mutable buffer keeps the scalar registers and leaves in the buffer as many bytes, with the bit written
at its position and the other bits as they were. -/
theorem wrbit_writes {bd : BReg} {xp xv : XReg} {s t : State} {v : ByteBuf} {p val : Word} (hv : s.bReg[bd] = some v)
    (hp : s.xReg[xp] = some p) (hval : s.xReg[xv] = some val) (hro : v.ro = false) (h0 : 0 ≤ p.toInt)
    (h : p.toInt < 8 * v.bytes.length) (ht : exec (.wrbit bd xp xv) s = .next t) :
    t.xReg = s.xReg ∧ ∃ out : List Byte, t.bReg[bd] = some ⟨out, false⟩ ∧ out.length = v.bytes.length
      ∧ ∀ q : Word, 0 ≤ q.toInt → q.toInt < 8 * v.bytes.length →
        bitOf out q.toInt.toNat = if q = p then (if val = 0 then 0 else 1) else bitOf v.bytes q.toInt.toNat := by
  obtain ⟨-, -, hwrites⟩ := wrbitWritesOneBit bd xp xv s v p val hv hp hval
  obtain ⟨out, hexec, hlen, hbits⟩ := hwrites hro h0 h
  obtain rfl := Host.Outcome.next.inj (hexec.symm.trans ht)
  refine ⟨rfl, out, State.setB_get s bd _, hlen, fun q hq0 hq => ?_⟩
  rw [hbits _ (by omega), Int.toNat_of_nonneg hq0]
  simp only [BitVec.toInt_inj]

/-- Settles O27: RDBIT before and after the WRBIT, by the bits that the WRBIT leaves; the frame of RDBIT; the elements of
`allBits`; the checks of the two commands. -/
theorem accessorLaws : Obligations.AccessorLaws := by
  refine ⟨?readBack, fun _ _ _ _ _ => rdbit_bReg, ?element, ?errors⟩
  case readBack =>
    intro bd xp xv xd xq s t v p val q hv hp hval hq hro hp0 hpl hq0 hql ht
    obtain ⟨hx, out, hout, hlen, hbits⟩ := wrbit_writes hv hp hval hro hp0 hpl ht
    obtain ⟨before, hbefore, hread⟩ := rdbit_reads (xd := xd) hv hq hq0 hql
    obtain ⟨after, hafter, hread'⟩ := rdbit_reads (xd := xd) hout (hx ▸ hq) hq0 (hlen ▸ hql)
    rw [hbits q hq0 hql] at hread'
    refine ⟨before, after, hbefore, hafter, fun hqp => ?_, fun hqp => ?_⟩
    · rw [hread', if_pos hqp]
      split <;> rfl
    · rw [hread', if_neg hqp, hread]
  case element =>
    intro xd sd bs xp s t u v p l hv hp h0 h ht herr hl hu
    obtain ⟨u', hu', hread⟩ := rdbit_reads (xd := xd) hv hp h0 h
    obtain rfl := Host.Outcome.next.inj (hu'.symm.trans hu)
    obtain rfl := Option.some.inj ((rdbits_completed hv ht herr).symm.trans hl)
    rw [hread, allBits_getElem? (by omega)]
  case errors =>
    intro xd bs xp xv s v p val hv hp hval
    refine ⟨fun hpos => ?_, exec_wrbit_readOnly hv hp hval⟩
    have hout : p.toInt < 0 ∨ 8 * (v.bytes.length : Int) ≤ p.toInt := by omega
    exact ⟨exec_rdbit_outside hv hp hout, fun hro => exec_wrbit_outside hv hp hval hro hout⟩

end Sys2Proof.Machine
end

section
/-! SUPPORT. What the seven radices have in common, the counts and the bits of the symbol codec, and the encoders on a
written operand (spec/41_symbol_codec.md R100): the error of each check and the symbols when both pass. -/

namespace Sys2Proof.Machine

/-! ## The seven radices -/

section
variable {c : Codec}

/-- The bits per symbol of R100. -/
theorem k_of_mem_codecs (hc : c ∈ codecs) :
    c.k = 1 ∨ c.k = 2 ∨ c.k = 3 ∨ c.k = 4 ∨ c.k = 5 ∨ c.k = 6 ∨ c.k = 8 := by
  simp only [codecs, List.mem_cons, List.not_mem_nil, or_false] at hc
  rcases hc with rfl | rfl | rfl | rfl | rfl | rfl | rfl <;> decide

theorem k_pos (hc : c ∈ codecs) : 0 < c.k := by have := k_of_mem_codecs hc; omega

theorem k_le_eight (hc : c ∈ codecs) : c.k ≤ 8 := by have := k_of_mem_codecs hc; omega

/-- R102 to R108: the encoder of a radix is the shared encoder at its bits per symbol. -/
theorem exec_enc (hc : c ∈ codecs) (sd : SReg) (bs : BReg) (s : State) :
    exec (c.enc sd bs) s = encodeCommand c.k sd bs s := by
  simp only [codecs, List.mem_cons, List.not_mem_nil, or_false] at hc
  rcases hc with rfl | rfl | rfl | rfl | rfl | rfl | rfl <;> rfl

/-- R109 to R115: the decoder of a radix is the shared decoder at its bits per symbol. -/
theorem exec_dec (hc : c ∈ codecs) (bd : BReg) (ss : SReg) (s : State) :
    exec (c.dec bd ss) s = decodeCommand c.k bd ss s := by
  simp only [codecs, List.mem_cons, List.not_mem_nil, or_false] at hc
  rcases hc with rfl | rfl | rfl | rfl | rfl | rfl | rfl <;> rfl

end

/-! ## Counts -/

/-- The pad is less than a byte, so it adds no whole byte. -/
theorem paddedBits_div_eight (k len : Nat) : paddedBits k len / 8 = len := by
  unfold paddedBits
  split <;> omega

theorem le_paddedBits (k len : Nat) : 8 * len ≤ paddedBits k len := Nat.le_add_right _ _

/-- R100: only radices 32 and 64 refuse a length. -/
theorem paddedBits_mod {c : Codec} (hc : c ∈ codecs) {len : Nat} (h5 : c.k = 5 → len % 5 = 0)
    (h6 : c.k = 6 → len % 3 = 0) : paddedBits c.k len % c.k = 0 := by
  unfold paddedBits
  split
  case isTrue h3 => rw [h3]; omega
  case isFalse h3 =>
    rcases k_of_mem_codecs hc with hk | hk | hk | hk | hk | hk | hk <;> rw [hk] at h3 h5 h6 ⊢ <;> omega

/-- The whole group of R101: `n` symbols fill whole bytes exactly when `n` is a multiple of `8 / gcd(k, 8)`. -/
theorem mod_group_eq_zero_iff (k n : Nat) : n % (8 / Nat.gcd k 8) = 0 ↔ 8 ∣ k * n := by
  rw [← Nat.dvd_iff_mod_eq_zero, Nat.div_dvd_iff_dvd_mul (Nat.gcd_dvd_right k 8) (Nat.gcd_pos_of_pos_right k (by decide)),
    Nat.gcd_comm, Nat.dvd_gcd_mul_iff_dvd_mul]

/-- R101: the count that a decoder accepts is one that the encoder makes of the decoder's whole bytes. -/
theorem decodeLengthOk_iff (k n : Nat) : decodeLengthOk k n = true ↔ paddedBits k (k * n / 8) = k * n := by
  unfold decodeLengthOk paddedBits
  split
  case isTrue hk =>
    subst hk
    simp only [Bool.or_eq_true, decide_eq_true_eq]
    have hr : n % 8 < 8 := Nat.mod_lt n (by decide)
    interval_cases h : n % 8 <;> omega
  case isFalse =>
    rw [decide_eq_true_eq, mod_group_eq_zero_iff]
    omega

/-- Every count that an encoder makes suits the decoder. -/
theorem decodeLengthOk_of_encoded {k len : Nat} (h : paddedBits k len % k = 0) :
    decodeLengthOk k (paddedBits k len / k) = true := by
  rw [decodeLengthOk_iff, Nat.mul_div_cancel' (Nat.dvd_of_mod_eq_zero h), paddedBits_div_eight]

/-- A symbol has at most the bits of a byte, so a decoder delivers no more bytes than it reads symbols. -/
theorem overMax_decoded {p : Config.Params} {k n : Nat} (hk : k ≤ 8) (h : overMax p n = false) :
    overMax p (k * n / 8 : Nat) = false := by
  have hle : k * n ≤ 8 * n := Nat.mul_le_mul_right n hk
  exact overMax_mono (by omega) h

/-! ## Bits -/

theorem toNat_getLsbD {w : Nat} (x : BitVec w) (i : Nat) : (x.getLsbD i).toNat = (x.toNat >>> i) % 2 := by
  rw [BitVec.getLsbD, Nat.toNat_testBit, Nat.shiftRight_eq_div_pow]

/-- R100: the bits an encoder reads are the stream's, then zeros. -/
theorem paddedBit_toNat (l : List Byte) (p : Nat) :
    (paddedBit l p).toNat = if p < 8 * l.length then bitOf l p else 0 := by
  rw [paddedBit, bitOf_eq_streamBit]
  by_cases h : p < 8 * l.length <;> simp [h]

theorem paddedBit_of_lt {l : List Byte} {p : Nat} (h : p < 8 * l.length) : paddedBit l p = streamBit l p := by
  simp [paddedBit, h]

theorem paddedBit_of_ge {l : List Byte} {p : Nat} (h : 8 * l.length ≤ p) : paddedBit l p = false := by
  simp [paddedBit, h]

/-- R101: the bits of a symbol sequence are the digits of its symbols, most significant first. -/
theorem symbolBit_toNat (k : Nat) (q : List Word) (p : Nat) :
    (symbolBit k q p).toNat = ((q.getD (p / k) 0).toNat >>> (k - 1 - p % k)) % 2 := toNat_getLsbD _ _

/-- Bit `j` of symbol `i` stands at `k*i + j`. -/
theorem symbolBit_mul_add {k i j : Nat} (q : List Word) (hj : j < k) :
    symbolBit k q (k * i + j) = (q.getD i 0).getLsbD (k - 1 - j) := by
  rw [symbolBit, Nat.mul_add_div (by omega), Nat.mul_add_mod, Nat.div_eq_of_lt hj, Nat.mod_eq_of_lt hj, Nat.add_zero]

/-- R101: byte `m` of the bytes packed from a stream is the number of its eight bits. -/
theorem packBytes_getD_toNat {n m : Nat} (bit : Nat → Bool) (h : m < n) :
    ((packBytes n bit).getD m 0).toNat = groupVal bit (8 * m) 8 := by
  have hlt : groupVal bit (8 * m) 8 < 2 ^ 8 := groupVal_lt bit (8 * m) 8
  rw [packBytes, List.getD_eq_getElem?_getD, List.getElem?_map, List.getElem?_range h, Option.map_some, Option.getD_some,
    BitVec.toNat_ofNat, Nat.mod_eq_of_lt hlt]

/-! ## Encoders -/

/-- The symbols of `encode_k` when the bits divide (R100). -/
def packedSymbols (k : Nat) (l : List Byte) : List Word :=
  (List.range (paddedBits k l.length / k)).map fun i => BitVec.ofNat Config.xlen (groupVal (paddedBit l) (k * i) k)

@[simp] theorem packedSymbols_length (k : Nat) (l : List Byte) :
    (packedSymbols k l).length = paddedBits k l.length / k := by simp [packedSymbols]

theorem packedSymbols_getD {k i : Nat} {l : List Byte} (h : i < paddedBits k l.length / k) :
    (packedSymbols k l).getD i 0 = BitVec.ofNat Config.xlen (groupVal (paddedBit l) (k * i) k) := by
  rw [packedSymbols, List.getD_eq_getElem?_getD, List.getElem?_map, List.getElem?_range h, Option.map_some,
    Option.getD_some]

theorem encodeK_eq_ok {k : Nat} {l : List Byte} (h : paddedBits k l.length % k = 0) :
    encodeK k l = .ok (packedSymbols k l) := encodeK_ok_iff.2 ⟨h, rfl⟩

theorem encodeK_eq_error {k : Nat} {l : List Byte} (h : paddedBits k l.length % k ≠ 0) :
    encodeK k l = .error ⟨.length, l.length⟩ := by
  have hc : decide (paddedBits k l.length % k ≠ 0) = true := decide_eq_true h
  change (failIf (decide (paddedBits k l.length % k ≠ 0)) .length l.length >>= _) = _
  rw [hc, failIf_true, error_bind]

section
variable {c : Codec} {sd : SReg} {bs : BReg} {s : State} {v : ByteBuf}

theorem exec_enc_length (hc : c ∈ codecs) (hv : s.bReg[bs] = some v) (h : paddedBits c.k v.bytes.length % c.k ≠ 0) :
    exec (c.enc sd bs) s = .next (s.raise ⟨.length, v.bytes.length⟩) := by
  rw [exec_enc hc, encodeCommand, readB_ok_iff.2 hv, ok_bind, encodeK_eq_error h, error_bind, complete_error]

theorem exec_enc_capacity (hc : c ∈ codecs) (hv : s.bReg[bs] = some v) (h : paddedBits c.k v.bytes.length % c.k = 0)
    (hover : overMax s.params (paddedBits c.k v.bytes.length / c.k : Nat) = true) :
    exec (c.enc sd bs) s = .next (s.raise ⟨.capacity, (paddedBits c.k v.bytes.length / c.k : Nat)⟩) := by
  rw [← packedSymbols_length] at hover ⊢
  rw [exec_enc hc, encodeCommand, readB_ok_iff.2 hv, ok_bind, encodeK_eq_ok h, ok_bind, putS_eq_error hover, error_bind,
    complete_error]

theorem exec_enc_fits (hc : c ∈ codecs) (hv : s.bReg[bs] = some v) (h : paddedBits c.k v.bytes.length % c.k = 0)
    (hfits : overMax s.params (paddedBits c.k v.bytes.length / c.k : Nat) = false) :
    exec (c.enc sd bs) s = .next ((s.setS sd (packedSymbols c.k v.bytes)).retire noWarn) := by
  rw [← packedSymbols_length] at hfits
  rw [exec_enc hc, encodeCommand, readB_ok_iff.2 hv, ok_bind, encodeK_eq_ok h, ok_bind, putS_eq_ok hfits, ok_bind,
    pure_eq_ok, complete_ok]

end

/-- R100: a symbol is the number of its `k` bits, a bit past the buffer counting 0. -/
theorem packedSymbols_toNat {k i : Nat} {l : List Byte} (hk : k ≤ 8) (h : i < paddedBits k l.length / k) :
    ((packedSymbols k l).getD i 0).toNat =
      numberOf k fun j => if k * i + j < 8 * l.length then bitOf l (k * i + j) else 0 := by
  rw [packedSymbols_getD h, symbol_toNat hk]
  exact (numberOf_eq_groupVal k (k * i) (paddedBit l) _ fun j _ => (paddedBit_toNat l (k * i + j)).symm).symm

/-- Settles O28: the bits divide or they do not, the symbols fit or they do not; the result is `packedSymbols`. -/
theorem encodersPackBits : Obligations.EncodersPackBits :=
  fun _ hc _ _ _ _ hv => ⟨exec_enc_length hc hv, exec_enc_capacity hc hv, fun hdiv hfits =>
    ⟨_, exec_enc_fits hc hv hdiv hfits, packedSymbols_length _ _, fun _ => packedSymbols_toNat (k_le_eight hc)⟩⟩

end Sys2Proof.Machine
end

section
/-! SUPPORT. The decoders on a written operand (spec/41_symbol_codec.md R101): the error of each check, in the order of the
checks, and the bytes when all pass. -/

namespace Sys2Proof.Machine

/-! ## The checks -/

/-- R101: the count suits the radix. -/
theorem decodeLengthOk_eq_true_iff (k n : Nat) : decodeLengthOk k n = true ↔
    if k = 3 then n % 8 = 0 ∨ n % 8 = 3 ∨ n % 8 = 6 else n % (8 / Nat.gcd k 8) = 0 := by
  unfold decodeLengthOk
  split
  case isTrue => simp only [Bool.or_eq_true, decide_eq_true_eq, or_assoc]
  case isFalse => exact decide_eq_true_iff

theorem symbolOutside_eq_false_iff {k : Nat} {w : Word} :
    symbolOutside (2 ^ k) w = false ↔ 0 ≤ w.toInt ∧ w.toInt < 2 ^ k := by
  simp [symbolOutside]

/-- The first symbol out of range is the one reported. -/
theorem checkSymbols_first {bound i : Nat} {q : List Word} (hi : i < q.length)
    (hbefore : ∀ j < i, symbolOutside bound (q.getD j 0) = false) (hout : symbolOutside bound (q.getD i 0) = true) :
    checkSymbols bound q = .error ⟨.symbol, i⟩ := by
  refine checkSymbols_error_iff.2 ⟨i, List.findIdx?_eq_some_iff_getElem.2 ⟨hi, ?_, fun j hj => ?_⟩, rfl⟩
  · rwa [List.getD_eq_getElem _ _ hi] at hout
  · have hj' := hbefore j hj
    rw [List.getD_eq_getElem _ _ (hj.trans hi)] at hj'
    simp [hj']

theorem checkSymbols_all {bound : Nat} {q : List Word} (h : ∀ i < q.length, symbolOutside bound (q.getD i 0) = false) :
    checkSymbols bound q = .ok () := by
  refine checkSymbols_ok_iff.2 fun w hw => ?_
  obtain ⟨i, hi, rfl⟩ := List.mem_iff_getElem.1 hw
  rw [← List.getD_eq_getElem _ 0 hi]
  exact h i hi

/-- R101: the pad bits are those past the last whole byte. -/
theorem padBitSet_eq_true_iff {k : Nat} {q : List Word} :
    padBitSet k q = true ↔ ∃ p, 8 * (k * q.length / 8) ≤ p ∧ p < k * q.length ∧ symbolBit k q p = true := by
  simp only [padBitSet, List.any_eq_true, List.mem_range]
  constructor
  · rintro ⟨d, hd, hbit⟩
    exact ⟨_, Nat.le_add_right _ d, by omega, hbit⟩
  · rintro ⟨p, hle, hlt, hbit⟩
    exact ⟨p - 8 * (k * q.length / 8), by omega, by rwa [Nat.add_sub_cancel' hle]⟩

theorem padBitSet_eq_false_iff {k : Nat} {q : List Word} :
    padBitSet k q = false ↔ ∀ p, 8 * (k * q.length / 8) ≤ p → p < k * q.length → symbolBit k q p = false := by
  rw [← Bool.not_eq_true, padBitSet_eq_true_iff]
  simp only [not_exists, not_and, Bool.not_eq_true]

/-! ## The shared decoder -/

section
variable {k : Nat} {q : List Word}

theorem decodeK_length (h : decodeLengthOk k q.length = false) : decodeK k q = .error ⟨.length, q.length⟩ := by
  rw [decodeK, h, Bool.not_false, failIf_true, error_bind]

/-- With a count that suits, the symbols decide next. -/
theorem decodeK_of_lengthOk (h : decodeLengthOk k q.length = true) : decodeK k q = do
    checkSymbols (2 ^ k) q
    failIf (padBitSet k q) .length q.length
    return packBytes (k * q.length / 8) (symbolBit k q) := by
  rw [decodeK, h, Bool.not_true, failIf_false, ok_bind]

theorem decodeK_symbol {i : Nat} (h : decodeLengthOk k q.length = true) (hi : i < q.length)
    (hbefore : ∀ j < i, symbolOutside (2 ^ k) (q.getD j 0) = false) (hout : symbolOutside (2 ^ k) (q.getD i 0) = true) :
    decodeK k q = .error ⟨.symbol, i⟩ := by
  rw [decodeK_of_lengthOk h, checkSymbols_first hi hbefore hout, error_bind]

theorem decodeK_pad (h : decodeLengthOk k q.length = true)
    (hin : ∀ i < q.length, symbolOutside (2 ^ k) (q.getD i 0) = false) (hpad : padBitSet k q = true) :
    decodeK k q = .error ⟨.length, q.length⟩ := by
  rw [decodeK_of_lengthOk h, checkSymbols_all hin, ok_bind, hpad, failIf_true, error_bind]

theorem decodeK_eq_ok (h : decodeLengthOk k q.length = true)
    (hin : ∀ i < q.length, symbolOutside (2 ^ k) (q.getD i 0) = false) (hpad : padBitSet k q = false) :
    decodeK k q = .ok (packBytes (k * q.length / 8) (symbolBit k q)) := by
  rw [decodeK_of_lengthOk h, checkSymbols_all hin, ok_bind, hpad, failIf_false, ok_bind, pure_eq_ok]

end

/-! ## The commands -/

section
variable {c : Codec} {bd : BReg} {ss : SReg} {s : State} {q : List Word}

theorem exec_dec_error {e : CmdError} (hc : c ∈ codecs) (hq : s.sReg[ss] = some q) (h : decodeK c.k q = .error e) :
    exec (c.dec bd ss) s = .next (s.raise e) := by
  rw [exec_dec hc, decodeCommand, readS_ok_iff.2 hq, ok_bind, h, error_bind, complete_error]

/-- A decoder raises no `Capacity` (R101). -/
theorem exec_dec_ok {l : List Byte} (hc : c ∈ codecs) (hq : s.sReg[ss] = some q)
    (hfits : overMax s.params q.length = false) (h : decodeK c.k q = .ok l) :
    exec (c.dec bd ss) s = .next ((s.setB bd ⟨l, false⟩).retire noWarn) := by
  obtain ⟨-, -, -, rfl⟩ := decodeK_ok_iff.1 h
  have hbytes : overMax s.params (packBytes (c.k * q.length / 8) (symbolBit c.k q)).length = false := by
    rw [packBytes_length]
    exact overMax_decoded (k_le_eight hc) hfits
  rw [exec_dec hc, decodeCommand, readS_ok_iff.2 hq, ok_bind, h, ok_bind, putB_ok_iff.2 ⟨hbytes, rfl⟩, ok_bind, pure_eq_ok,
    complete_ok]

/-- A decoder that answers without an error has passed all its checks. -/
theorem exec_dec_completed {t : State} (hc : c ∈ codecs) (hq : s.sReg[ss] = some q)
    (hfits : overMax s.params q.length = false) (ht : exec (c.dec bd ss) s = .next t) (herr : t.response.err = 0) :
    ∃ l, decodeK c.k q = .ok l ∧ t = (s.setB bd ⟨l, false⟩).retire noWarn := by
  cases h : decodeK c.k q with
  | error e =>
    obtain rfl := Host.Outcome.next.inj ((exec_dec_error hc hq h).symm.trans ht)
    exact absurd herr (code_ne_zero e.kind)
  | ok l => exact ⟨l, rfl, (Host.Outcome.next.inj ((exec_dec_ok hc hq hfits h).symm.trans ht)).symm⟩

end

/-- Settles O29: the checks of `decode_k` in their order, each by the lemma of the check that fails; the bytes are the
numbers of their eight symbol bits. -/
theorem decodersUnpackBits : Obligations.DecodersUnpackBits := by
  intro c hc bd ss s q hq hfits
  simp only [← decodeLengthOk_eq_true_iff, ← symbolOutside_eq_false_iff, ← symbolBit_toNat, Bool.not_eq_true,
    Bool.not_eq_false, Bool.toNat_eq_one, Bool.toNat_eq_zero, ← padBitSet_eq_true_iff, ← padBitSet_eq_false_iff]
  refine ⟨fun hcount => exec_dec_error hc hq (decodeK_length hcount),
    fun hcount i hi hbefore hout => exec_dec_error hc hq (decodeK_symbol hcount hi hbefore hout),
    fun hcount hin hpad => exec_dec_error hc hq (decodeK_pad hcount hin hpad), fun hcount hin hpad => ?_⟩
  refine ⟨_, exec_dec_ok hc hq hfits (decodeK_eq_ok hcount hin hpad), packBytes_length _ _, fun m hm => ?_⟩
  rw [packBytes_getD_toNat _ hm]
  exact (numberOf_eq_groupVal 8 (8 * m) (symbolBit c.k q) _ fun _ _ => rfl).symm

end Sys2Proof.Machine
end

section
/-! SUPPORT. The encoders and the decoders are inverse to one another (spec/41_symbol_codec.md R116). -/

namespace Sys2Proof.Machine

/-! ## Decoding what was encoded -/

/-- The bits of the encoder's symbols are the bits it read. -/
theorem symbolBit_packedSymbols {k p : Nat} {l : List Byte} (hk : k ≤ 8) (h : p < k * (paddedBits k l.length / k)) :
    symbolBit k (packedSymbols k l) p = paddedBit l p := by
  have hk0 : 0 < k := Nat.pos_of_mul_pos_right (Nat.zero_lt_of_lt h)
  have hj : p % k < k := Nat.mod_lt p hk0
  have hwidth : k - 1 - p % k < Config.xlen := by rw [xlen_eq]; omega
  have hpos : k * (p / k) + (k - 1 - (k - 1 - p % k)) = p := by have := Nat.div_add_mod p k; omega
  rw [symbolBit, packedSymbols_getD (Nat.div_lt_of_lt_mul h), BitVec.getLsbD_ofNat, testBit_groupVal, hpos,
    decide_eq_true hwidth, decide_eq_true (by omega : k - 1 - p % k < k), Bool.true_and, Bool.true_and]

/-- R116: what an encoder makes of a buffer, the decoder gives back. -/
theorem decodeK_packedSymbols {k : Nat} {l : List Byte} (hk : k ≤ 8) (hdiv : paddedBits k l.length % k = 0) :
    decodeK k (packedSymbols k l) = .ok l := by
  have hbits : k * (paddedBits k l.length / k) = paddedBits k l.length := Nat.mul_div_cancel' (Nat.dvd_of_mod_eq_zero hdiv)
  have hbytes : k * (packedSymbols k l).length / 8 = l.length := by rw [packedSymbols_length, hbits, paddedBits_div_eight]
  have hin : ∀ i < (packedSymbols k l).length, symbolOutside (2 ^ k) ((packedSymbols k l).getD i 0) = false := by
    intro i hi
    rw [packedSymbols_length] at hi
    rw [packedSymbols_getD hi]
    exact symbolOutside_group hk
  have hpad : padBitSet k (packedSymbols k l) = false := by
    refine padBitSet_eq_false_iff.2 fun p hle hlt => ?_
    rw [hbytes] at hle
    rw [packedSymbols_length] at hlt
    rw [symbolBit_packedSymbols hk hlt, paddedBit_of_ge hle]
  have hcount : decodeLengthOk k (packedSymbols k l).length = true := by
    rw [packedSymbols_length]; exact decodeLengthOk_of_encoded hdiv
  rw [decodeK_eq_ok hcount hin hpad, hbytes]
  refine congrArg Except.ok (bytes_ext (packBytes_length _ _) fun p hp => ?_)
  rw [packBytes_length] at hp
  have hp' : p < k * (paddedBits k l.length / k) := by have := le_paddedBits k l.length; omega
  rw [streamBit_packBytes _ hp, symbolBit_packedSymbols hk hp', paddedBit_of_lt hp]

/-! ## Encoding what was decoded -/

/-- The `k` bits of a symbol below the radix are the symbol. -/
theorem group_symbolBit {k i : Nat} {q : List Word} (hin : symbolOutside (2 ^ k) (q.getD i 0) = false) :
    BitVec.ofNat Config.xlen (groupVal (symbolBit k q) (k * i) k) = q.getD i 0 := by
  obtain ⟨h0, hlt⟩ := symbolOutside_eq_false_iff.1 hin
  refine BitVec.eq_of_getLsbD_eq fun j hj => ?_
  rw [BitVec.getLsbD_ofNat, testBit_groupVal, decide_eq_true hj, Bool.true_and]
  by_cases hjk : j < k
  case pos => rw [decide_eq_true hjk, Bool.true_and, symbolBit_mul_add q (by omega), show k - 1 - (k - 1 - j) = j by omega]
  case neg =>
    have hnat : (q.getD i 0).toNat < 2 ^ k := by
      rw [BitVec.toInt_eq_toNat_of_lt (BitVec.toInt_pos_iff.1 h0)] at hlt
      exact_mod_cast hlt
    rw [decide_eq_false hjk, Bool.false_and]
    exact (Nat.testBit_lt_two_pow (hnat.trans_le (Nat.pow_le_pow_right (by decide) (Nat.le_of_not_lt hjk)))).symm

/-- R116: what a decoder makes of a symbol sequence, the encoder gives back. -/
theorem packedSymbols_decoded {k : Nat} {q : List Word} {l : List Byte} (hk : 0 < k) (h : decodeK k q = .ok l) :
    paddedBits k l.length = k * q.length ∧ packedSymbols k l = q := by
  obtain ⟨hcount, hin, hpad, rfl⟩ := decodeK_ok_iff.1 h
  have hbits : paddedBits k (packBytes (k * q.length / 8) (symbolBit k q)).length = k * q.length := by
    rw [packBytes_length]; exact (decodeLengthOk_iff k q.length).1 hcount
  have hbit : ∀ p < k * q.length, paddedBit (packBytes (k * q.length / 8) (symbolBit k q)) p = symbolBit k q p := by
    intro p hp
    rcases Nat.lt_or_ge p (8 * (k * q.length / 8)) with hlt | hge
    · rw [paddedBit_of_lt (by rwa [packBytes_length]), streamBit_packBytes _ hlt]
    · rw [paddedBit_of_ge (by rwa [packBytes_length]), padBitSet_eq_false_iff.1 hpad p hge hp]
  have hcountEq : paddedBits k (packBytes (k * q.length / 8) (symbolBit k q)).length / k = q.length := by
    rw [hbits, Nat.mul_div_cancel_left _ hk]
  refine ⟨hbits, List.ext_getElem (by rw [packedSymbols_length, hcountEq]) fun i hi hi' => ?_⟩
  have hgroup : groupVal (paddedBit (packBytes (k * q.length / 8) (symbolBit k q))) (k * i) k =
      groupVal (symbolBit k q) (k * i) k := by
    refine groupVal_congr fun j hj => hbit _ ?_
    calc k * i + j < k * (i + 1) := by rw [Nat.mul_succ]; omega
      _ ≤ k * q.length := Nat.mul_le_mul_left k hi'
  rw [← List.getD_eq_getElem _ 0 hi, ← List.getD_eq_getElem _ 0 hi', packedSymbols_getD (by rwa [hcountEq]), hgroup]
  exact group_symbolBit (by rw [List.getD_eq_getElem _ _ hi']; exact hin _ (List.getElem_mem hi'))

/-! ## The commands -/

/-- Settles O30: the accepted buffer divides, so its encoder completes and `decodeK_packedSymbols` is the decoder's answer;
a decoder without an error has passed its checks, so `packedSymbols_decoded` is the encoder's. -/
theorem codecRoundTrip : Obligations.CodecRoundTrip := by
  intro c hc sd bs bd s
  refine ⟨fun v hv _ h5 h6 hfits => ?encodeDecode, fun q t u hq hfits ht herr hu => ?decodeEncode⟩
  case encodeDecode =>
    have hdiv := paddedBits_mod hc h5 h6
    refine ⟨_, _, exec_enc_fits hc hv hdiv hfits, exec_dec_ok hc (State.setS_get s sd _) ?_
      (decodeK_packedSymbols (k_le_eight hc) hdiv), rfl, State.setB_get _ bd _⟩
    rwa [packedSymbols_length]
  case decodeEncode =>
    obtain ⟨l, hl, rfl⟩ := exec_dec_completed hc hq hfits ht herr
    obtain ⟨hbits, hback⟩ := packedSymbols_decoded (k_pos hc) hl
    have hdiv : paddedBits c.k l.length % c.k = 0 := by rw [hbits, Nat.mul_mod_right]
    have hcount : overMax s.params (paddedBits c.k l.length / c.k : Nat) = false := by
      rwa [hbits, Nat.mul_div_cancel_left _ (k_pos hc)]
    have hexec := exec_enc_fits (sd := sd) (s := (s.setB bd ⟨l, false⟩).retire noWarn) hc (State.setB_get s bd _) hdiv
      hcount
    obtain rfl := Host.Outcome.next.inj (hexec.symm.trans hu)
    exact ⟨rfl, hback ▸ State.setS_get _ sd _⟩

end Sys2Proof.Machine
end

section
/-! SUPPORT. The commands of the ECC layer on a written operand (spec/42_hamming.md R131 to R137): each ends in the write
of a byte buffer. The commands of the modes `none` and `raw` are one copy. -/

namespace Sys2Proof.Machine

/-! ## A command that ends in the write of a byte buffer -/

section
variable {s : State} {i : BReg} {l : List Byte}

theorem putB_eq_ok (h : overMax s.params l.length = false) : s.putB i l = .ok (s.setB i ⟨l, false⟩) :=
  putB_ok_iff.2 ⟨h, rfl⟩

theorem putB_eq_error (h : overMax s.params l.length = true) : s.putB i l = .error ⟨.capacity, l.length⟩ := by
  rw [State.putB, fits_eq_error h, error_bind]

/-- A command without warnings whose result is the byte sequence `l` for `b[i]`. -/
def deliverB (i : BReg) (l : List Byte) (s : State) : Host.Outcome State Fault Refusal :=
  s.complete do
    let t ← s.putB i l
    return (t, noWarn)

theorem deliverB_fits (h : overMax s.params l.length = false) :
    deliverB i l s = .next ((s.setB i ⟨l, false⟩).retire noWarn) := by
  rw [deliverB, putB_eq_ok h, ok_bind, pure_eq_ok, complete_ok]

theorem deliverB_overMax (h : overMax s.params l.length = true) :
    deliverB i l s = .next (s.raise ⟨.capacity, l.length⟩) := by
  rw [deliverB, putB_eq_error h, error_bind, complete_error]

/-- Without an error in the response the result fitted and was written. -/
theorem deliverB_completed {t : State} (h : deliverB i l s = .next t) (herr : t.response.err = 0) :
    overMax s.params l.length = false ∧ t = (s.setB i ⟨l, false⟩).retire noWarn := by
  cases hmax : overMax s.params l.length with
  | false => exact ⟨rfl, Host.Outcome.next.inj (h.symm.trans (deliverB_fits hmax))⟩
  | true =>
    obtain rfl := Host.Outcome.next.inj ((deliverB_overMax hmax).symm.trans h)
    exact absurd herr (code_ne_zero .capacity)

end

/-! ## The commands -/

section
variable {bd bs : BReg} {s : State} {v : ByteBuf}

/-- R131, R132, R134, R135: the four commands of the modes `none` and `raw` deliver the bytes they read. -/
theorem exec_eccCopy {i : Instr} (hv : s.bReg[bs] = some v)
    (hi : i ∈ [Instr.eccencNone bd bs, .eccencRaw bd bs, .eccdecNone bd bs, .eccdecRaw bd bs]) :
    exec i s = deliverB bd v.bytes s := by
  have hcopy : copyCommand bd bs s = deliverB bd v.bytes s := by
    rw [copyCommand, readB_ok_iff.2 hv, ok_bind, deliverB]
  simp only [List.mem_cons, List.not_mem_nil, or_false] at hi
  rcases hi with rfl | rfl | rfl | rfl <;> exact hcopy

theorem exec_hamenc (hv : s.bReg[bs] = some v) : exec (.hamenc bd bs) s = deliverB bd (hamEncode v.bytes) s := by
  rw [exec, execHamenc, readB_ok_iff.2 hv, ok_bind, deliverB]

theorem exec_hamdec_error {e : CmdError} (hv : s.bReg[bs] = some v) (h : hamDecode s.params.hamOdd v.bytes = .error e) :
    exec (.hamdec bd bs) s = .next (s.raise e) := by
  rw [exec, execHamdec, readB_ok_iff.2 hv, ok_bind, h, error_bind, complete_error]

theorem exec_hamdec_ok {l : List Byte} (hv : s.bReg[bs] = some v) (h : hamDecode s.params.hamOdd v.bytes = .ok l) :
    exec (.hamdec bd bs) s = deliverB bd l s := by
  rw [exec, execHamdec, readB_ok_iff.2 hv, ok_bind, h, ok_bind, deliverB]

end

/-- Settles O31: a copy of what fits, fits. -/
theorem eccModesCopyBytes : Obligations.EccModesCopyBytes := by
  intro bd bs s v hv hfits i hi
  rw [exec_eccCopy hv hi]
  exact deliverB_fits hfits

end Sys2Proof.Machine
end

section
/-! SUPPORT. The Hamming (7,4) code bit by bit (spec/42_hamming.md R130 to R138): the codewords that HAMENC emits, the
groups that HAMDEC reads, and the bits that it delivers. -/

namespace Sys2Proof.Machine

theorem xor_toNat (a b : Bool) : (a ^^ b).toNat = (a.toNat + b.toNat) % 2 := by
  cases a <;> cases b <;> rfl

/-! ## The encoder -/

/-- The codeword of nibble `g` of a byte sequence, by position 1 to 7 (R130, R133). -/
def codeword (l : List Byte) (g : Nat) : Nat → Bool :=
  codewordBit (streamBit l (4 * g)) (streamBit l (4 * g + 1)) (streamBit l (4 * g + 2)) (streamBit l (4 * g + 3))

@[simp] theorem hamEncode_length (l : List Byte) : (hamEncode l).length = (14 * l.length + 7) / 8 := packBytes_length _ _

/-- R133: position `j + 1` of codeword `g` is stream bit `7*g + j`. -/
theorem streamBit_hamEncode {l : List Byte} {g j : Nat} (hg : g < 2 * l.length) (hj : j < 7) :
    streamBit (hamEncode l) (7 * g + j) = codeword l g (j + 1) := by
  have hdiv : (7 * g + j) / 7 = g := by omega
  have hmod : (7 * g + j) % 7 = j := by omega
  rw [hamEncode, streamBit_packBytes _ (by omega), hamEncodeBit, hdiv, hmod, decide_eq_true hg, Bool.true_and, codeword]

/-- R133: the bits past the last codeword are zeros. -/
theorem streamBit_hamEncode_pad {l : List Byte} {p : Nat} (hp : 14 * l.length ≤ p)
    (hlt : p < 8 * ((14 * l.length + 7) / 8)) : streamBit (hamEncode l) p = false := by
  have hge : ¬ p / 7 < 2 * l.length := by omega
  rw [hamEncode, streamBit_packBytes _ hlt, hamEncodeBit, decide_eq_false hge, Bool.false_and]

/-- R130: the seven positions as sums of the data bits modulo 2. -/
theorem codewordBit_toNat (d₁ d₂ d₃ d₄ : Bool) :
    (List.range 7).map (fun j => (codewordBit d₁ d₂ d₃ d₄ (j + 1)).toNat) =
      [(d₁.toNat + d₂.toNat + d₄.toNat) % 2, (d₁.toNat + d₃.toNat + d₄.toNat) % 2, d₁.toNat,
        (d₂.toNat + d₃.toNat + d₄.toNat) % 2, d₂.toNat, d₃.toNat, d₄.toNat] := by
  simp [List.range_succ, codewordBit, xor_toNat, Nat.add_assoc]

/-- Settles O32: the codewords fit the destination or they do not; the bits are those of `hamEncode`. -/
theorem hamencEmitsCodewords : Obligations.HamencEmitsCodewords := by
  intro bd bs s v hv count
  have hlen : (hamEncode v.bytes).length = count := hamEncode_length v.bytes
  rw [exec_hamenc hv, ← hlen]
  refine ⟨deliverB_overMax, fun hfits => ⟨_, deliverB_fits hfits, rfl, fun g hg => ?codewords, fun p hp hlt => ?pad⟩⟩
  case codewords =>
    intro d
    have hbits : (List.range 7).map (fun j => bitOf (hamEncode v.bytes) (7 * g + j)) =
        (List.range 7).map (fun j => (codeword v.bytes g (j + 1)).toNat) :=
      List.map_congr_left fun j hj => by
        rw [bitOf_eq_streamBit, streamBit_hamEncode hg (List.mem_range.1 hj)]
    rw [hbits, codeword, codewordBit_toNat]
    simp only [← bitOf_eq_streamBit]
    rfl
  case pad =>
    rw [hlen] at hlt
    rw [bitOf_eq_streamBit, streamBit_hamEncode_pad hp hlt, Bool.toNat_false]

/-! ## The decoder -/

/-- Group `g` of a byte sequence as HAMDEC reads it, by position 1 to 7 (R137). -/
def receivedGroup (l : List Byte) (g pos : Nat) : Bool := streamBit l (7 * g + (pos - 1))

theorem receivedGroup_toNat (l : List Byte) (g : Nat) {pos : Nat} (h : 0 < pos) :
    (receivedGroup l g pos).toNat = bitOf l (7 * g + pos - 1) := by
  rw [receivedGroup, bitOf_eq_streamBit, Nat.add_sub_assoc h]

/-- R137: stream bit `4*g + j` of HAMDEC's output is data bit `j` of group `g`, corrected. -/
theorem hamDecodeBit_eq_correctedBit {l : List Byte} {g j : Nat} (hg : g < hamGroups l) (hj : j < 4) :
    hamDecodeBit l (4 * g + j) = correctedBit (receivedGroup l g) (dataPosition j) := by
  have hdiv : (4 * g + j) / 4 = g := by omega
  have hmod : (4 * g + j) % 4 = j := by omega
  rw [hamDecodeBit, hdiv, hmod, decide_eq_true hg, Bool.true_and]
  rfl

theorem hamDecodeBit_beyond {l : List Byte} {p : Nat} (h : 4 * hamGroups l ≤ p) : hamDecodeBit l p = false := by
  have hge : ¬ p / 4 < hamGroups l := by omega
  rw [hamDecodeBit, decide_eq_false hge, Bool.false_and]

/-- R137: the syndrome with sums modulo 2. -/
theorem syndrome_eq (c : Nat → Bool) :
    syndrome c = ((c 1).toNat + (c 3).toNat + (c 5).toNat + (c 7).toNat) % 2
      + 2 * (((c 2).toNat + (c 3).toNat + (c 6).toNat + (c 7).toNat) % 2)
      + 4 * (((c 4).toNat + (c 5).toNat + (c 6).toNat + (c 7).toNat) % 2) := by
  simp [syndrome, xor_toNat, Nat.add_assoc]

/-- R137, R138: the syndrome flips the data bit it names. -/
theorem correctedBit_dataPosition_toNat (c : Nat → Bool) {j : Nat} (hj : j < 4) :
    (correctedBit c (dataPosition j)).toNat =
      ((c (dataPosition j)).toNat + if syndrome c = dataPosition j then 1 else 0) % 2 := by
  have hdata : ∀ j < 4, (decide (dataPosition j = 3) || decide (dataPosition j = 5) || decide (dataPosition j = 6)
      || decide (dataPosition j = 7)) = true := by decide
  rw [correctedBit, hdata j hj, Bool.and_true, xor_toNat]
  by_cases h : syndrome c = dataPosition j
  · rw [if_pos h, h, decide_eq_true rfl, Bool.toNat_true]
  · rw [if_neg h, decide_eq_false (Ne.symm h), Bool.toNat_false]

/-- The bytes of HAMDEC's output for a number of groups, where `HAM_ODD` lets it deliver them (R136). -/
def hamOutLength (odd : Config.HamOdd) (groups : Nat) : Nat :=
  groups / 2 + if groups % 2 = 1 ∧ odd = .zeroPad then 1 else 0

theorem hamDecode_fault {l : List Byte} (h : hamGroups l % 2 = 1) :
    hamDecode .fault l = .error ⟨.length, hamGroups l⟩ := by
  have hodd : hamGroups l % 2 ≠ 0 := by omega
  rw [hamDecode, if_neg hodd]

theorem hamDecode_eq_ok {odd : Config.HamOdd} {l : List Byte} (h : hamGroups l % 2 = 0 ∨ odd ≠ .fault) :
    hamDecode odd l = .ok (packBytes (hamOutLength odd (hamGroups l)) (hamDecodeBit l)) := by
  rcases Nat.mod_two_eq_zero_or_one (hamGroups l) with heven | hodd
  · simp [hamDecode, hamOutLength, heven]
  · cases odd with
    | fault => simp [hodd] at h
    | drop => simp [hamDecode, hamOutLength, hodd]
    | zeroPad => simp [hamDecode, hamOutLength, hodd]

theorem hamOutLength_le (odd : Config.HamOdd) (l : List Byte) : hamOutLength odd (hamGroups l) ≤ l.length := by
  rw [hamOutLength, hamGroups]
  split <;> omega

/-- HAMDEC raises no `Capacity`: it delivers no more bytes than it reads. -/
theorem exec_hamdec_fits {bd bs : BReg} {s : State} {v : ByteBuf} (hv : s.bReg[bs] = some v)
    (hfits : overMax s.params v.bytes.length = false) (h : hamGroups v.bytes % 2 = 0 ∨ s.params.hamOdd ≠ .fault) :
    exec (.hamdec bd bs) s = .next ((s.setB bd
      ⟨packBytes (hamOutLength s.params.hamOdd (hamGroups v.bytes)) (hamDecodeBit v.bytes), false⟩).retire noWarn) := by
  have hle := hamOutLength_le s.params.hamOdd v.bytes
  rw [exec_hamdec_ok hv (hamDecode_eq_ok h), deliverB_fits]
  rw [packBytes_length]
  exact overMax_mono (by omega) hfits

/-- Settles O33: the setting of `HAM_ODD` by `hamDecode_fault` and `hamDecode_eq_ok`, the bits by
`hamDecodeBit_eq_correctedBit`. -/
theorem hamdecCorrectsGroups : Obligations.HamdecCorrectsGroups := by
  intro bd bs s v hv hfits groups c syn data
  have hsyn (g : Nat) : syndrome (receivedGroup v.bytes g) = syn g := by
    simp (disch := decide) only [syndrome_eq, receivedGroup_toNat]
    rfl
  have hdata (g j : Nat) (hj : j < 4) :
      (correctedBit (receivedGroup v.bytes g) (dataPosition j)).toNat = data g (dataPosition j) := by
    have hpos : 0 < dataPosition j := by unfold dataPosition; split <;> omega
    rw [correctedBit_dataPosition_toNat _ hj, hsyn, receivedGroup_toNat _ _ hpos]
  refine ⟨fun hodd hfault => ?fault, fun h => ⟨_, exec_hamdec_fits hv hfits h, packBytes_length _ _,
    fun g hg => ?group, fun p hp hlt => ?beyond⟩⟩
  case fault =>
    refine exec_hamdec_error hv ?_
    rw [hfault]
    exact hamDecode_fault hodd
  case group =>
    rw [packBytes_length, or_iff_not_imp_left, not_le]
    intro hin
    calc (List.range 4).map (fun j => bitOf (packBytes _ (hamDecodeBit v.bytes)) (4 * g + j))
      _ = (List.range 4).map (fun j => data g (dataPosition j)) := List.map_congr_left fun j hj => by
          have hj := List.mem_range.1 hj
          rw [bitOf_eq_streamBit, streamBit_packBytes _ (by omega), hamDecodeBit_eq_correctedBit hg hj, hdata g j hj]
      _ = [data g 3, data g 5, data g 6, data g 7] := rfl
  case beyond =>
    rw [packBytes_length] at hlt
    rw [bitOf_eq_streamBit, streamBit_packBytes _ hlt, hamDecodeBit_beyond hp, Bool.toNat_false]

end Sys2Proof.Machine
end

section
/-! SUPPORT. HAMDEC on what HAMENC emitted, with wrong bits (spec/42_hamming.md R139). The code is linear: a codeword has
syndrome 0, so what HAMDEC does to a group depends on its wrong bits alone. -/

namespace Sys2Proof.Machine

/-! ## Wrong bits of one group -/

/-- Each of the three checks sums to 0 over a codeword. -/
theorem syndrome_codeword_xor (d₁ d₂ d₃ d₄ : Bool) (e : Nat → Bool) :
    syndrome (fun pos => codewordBit d₁ d₂ d₃ d₄ pos ^^ e pos) = syndrome e := by
  simp [syndrome, codewordBit, Bool.xor_left_comm, Bool.xor_comm]

/-- The correction adds to the codeword what it makes of the wrong bits `e`. -/
theorem correctedBit_codeword_xor (d₁ d₂ d₃ d₄ : Bool) (e : Nat → Bool) (pos : Nat) :
    correctedBit (fun pos => codewordBit d₁ d₂ d₃ d₄ pos ^^ e pos) pos =
      (codewordBit d₁ d₂ d₃ d₄ pos ^^ correctedBit e pos) := by
  rw [correctedBit, syndrome_codeword_xor, Bool.xor_assoc, correctedBit]

theorem syndrome_congr {c c' : Nat → Bool} (h : ∀ i < 7, c (i + 1) = c' (i + 1)) : syndrome c = syndrome c' := by
  have h1 : c 1 = c' 1 := h 0 (by decide)
  have h2 : c 2 = c' 2 := h 1 (by decide)
  have h3 : c 3 = c' 3 := h 2 (by decide)
  have h4 : c 4 = c' 4 := h 3 (by decide)
  have h5 : c 5 = c' 5 := h 4 (by decide)
  have h6 : c 6 = c' 6 := h 5 (by decide)
  have h7 : c 7 = c' 7 := h 6 (by decide)
  simp only [syndrome, h1, h2, h3, h4, h5, h6, h7]

/-- The data bits that HAMDEC delivers depend on the seven positions alone. -/
theorem correctedBit_congr {c c' : Nat → Bool} {j : Nat} (h : ∀ i < 7, c (i + 1) = c' (i + 1)) (hj : j < 4) :
    correctedBit c (dataPosition j) = correctedBit c' (dataPosition j) := by
  have hpos : ∀ j < 4, dataPosition j - 1 < 7 ∧ dataPosition j - 1 + 1 = dataPosition j := by decide
  obtain ⟨hlt, hadd⟩ := hpos j hj
  have hbit := h _ hlt
  rw [hadd] at hbit
  rw [correctedBit, correctedBit, syndrome_congr h, hbit]

/-- One wrong bit, or none, leaves every data bit right. -/
theorem correctedBit_of_one_wrong {e : Nat → Bool} {w j : Nat} (h : ∀ i < 7, i ≠ w → e (i + 1) = false) (hj : j < 4) :
    correctedBit e (dataPosition j) = false := by
  have hone : ∀ i < 7, e (i + 1) = (e (w + 1) && decide (i + 1 = w + 1)) := by
    intro i hi
    by_cases hiw : i = w
    · simp [hiw]
    · simp [hiw, h i hi hiw]
  have hcases : ∀ x : Bool, ∀ w < 7, ∀ j < 4,
      correctedBit (fun pos => x && decide (pos = w + 1)) (dataPosition j) = false := by decide
  by_cases hw : w < 7
  case pos => rw [correctedBit_congr (c' := fun pos => e (w + 1) && decide (pos = w + 1)) hone hj, hcases _ w hw j hj]
  case neg =>
    have hnone : ∀ i < 7, e (i + 1) = false := fun i hi => h i hi (by omega)
    rw [correctedBit_congr (c' := fun pos => false && decide (pos = 0 + 1)) hnone hj, hcases _ 0 (by decide) j hj]

/-- Two wrong bits leave a data bit wrong: the syndrome names a third position. -/
theorem exists_correctedBit_of_two_wrong {e : Nat → Bool} {a b : Nat} (ha : a < 7) (hb : b < a)
    (h : ∀ i < 7, (e (i + 1) = true ↔ i = a ∨ i = b)) : ∃ j < 4, correctedBit e (dataPosition j) = true := by
  have hcases : ∀ a < 7, ∀ b < a, ∃ j < 4,
      correctedBit (fun pos => decide (pos = a + 1 ∨ pos = b + 1)) (dataPosition j) = true := by decide
  obtain ⟨j, hj, hwrong⟩ := hcases a ha b hb
  have htwo : ∀ i < 7, e (i + 1) = decide (i + 1 = a + 1 ∨ i + 1 = b + 1) := by
    intro i hi
    simp only [Nat.add_right_cancel_iff, ← h i hi, Bool.decide_eq_true]
  exact ⟨j, hj, (correctedBit_congr htwo hj).trans hwrong⟩

/-! ## HAMDEC on the output of HAMENC -/

/-- The wrong bits of group `g` of `r`, received in place of the code of `l`, by position 1 to 7. -/
def wrongBits (l r : List Byte) (g pos : Nat) : Bool := codeword l g pos ^^ receivedGroup r g pos

/-- A position is wrong where the received bit is not HAMENC's. -/
theorem wrongBits_eq_true_iff {l r : List Byte} {g j : Nat} (hg : g < 2 * l.length) (hj : j < 7) :
    wrongBits l r g (j + 1) = true ↔ bitOf r (7 * g + j) ≠ bitOf (hamEncode l) (7 * g + j) := by
  rw [wrongBits, receivedGroup, Nat.add_sub_cancel, ← streamBit_hamEncode hg hj, bitOf_eq_streamBit, bitOf_eq_streamBit,
    bne_iff_ne, ne_comm]
  exact (Function.LeftInverse.injective Bool.ofNat_toNat).ne_iff.symm

/-- The data positions of a codeword hold the nibble (R130). -/
theorem codeword_dataPosition (l : List Byte) (g : Nat) {j : Nat} (hj : j < 4) :
    codeword l g (dataPosition j) = streamBit l (4 * g + j) := by
  interval_cases j <;> rfl

/-- A whole number of codewords and less than seven pad bits: two groups a byte (R133, R136). -/
theorem hamGroups_of_encoded {l r : List Byte} (h : r.length = (hamEncode l).length) : hamGroups r = 2 * l.length := by
  rw [hamGroups, h, hamEncode_length]
  omega

/-- A data bit that HAMDEC delivers is wrong where the correction leaves its group's wrong bits wrong. -/
theorem hamDecodeBit_of_wrongBits {l r : List Byte} {g j : Nat} (h : r.length = (hamEncode l).length)
    (hg : g < 2 * l.length) (hj : j < 4) :
    hamDecodeBit r (4 * g + j) = (streamBit l (4 * g + j) ^^ correctedBit (wrongBits l r g) (dataPosition j)) := by
  have hgroup : receivedGroup r g = fun pos => codeword l g pos ^^ wrongBits l r g pos := by
    funext pos
    rw [wrongBits, ← Bool.xor_assoc, Bool.xor_self, Bool.false_xor]
  rw [hamDecodeBit_eq_correctedBit (by rwa [hamGroups_of_encoded h]) hj, hgroup, ← codeword_dataPosition l g hj]
  exact correctedBit_codeword_xor _ _ _ _ _ _

/-- R139 (a) to (c): at most one wrong bit in each group, and any pad bits, are corrected. -/
theorem packBytes_hamDecodeBit_of_one_wrong {l r : List Byte} (h : r.length = (hamEncode l).length) {wrong : Nat → Nat}
    (hone : ∀ g < 2 * l.length, ∀ j < 7, j ≠ wrong g → bitOf r (7 * g + j) = bitOf (hamEncode l) (7 * g + j)) :
    packBytes l.length (hamDecodeBit r) = l := by
  refine bytes_ext (packBytes_length _ _) fun p hp => ?_
  rw [packBytes_length] at hp
  have hg : p / 4 < 2 * l.length := by omega
  have hj : p % 4 < 4 := Nat.mod_lt p (by decide)
  have hright : ∀ i < 7, i ≠ wrong (p / 4) → wrongBits l r (p / 4) (i + 1) = false := fun i hi hne =>
    Bool.eq_false_of_not_eq_true fun hbad => (wrongBits_eq_true_iff hg hi).1 hbad (hone _ hg i hi hne)
  rw [streamBit_packBytes _ hp, ← Nat.div_add_mod p 4, hamDecodeBit_of_wrongBits h hg hj,
    correctedBit_of_one_wrong hright hj, Bool.xor_false]

/-- R139 (d): two wrong bits in one group are not corrected. -/
theorem packBytes_hamDecodeBit_of_two_wrong {l r : List Byte} (h : r.length = (hamEncode l).length) {g a b : Nat}
    (hg : g < 2 * l.length) (ha : a < 7) (hb : b < a)
    (htwo : ∀ j < 7, (bitOf r (7 * g + j) ≠ bitOf (hamEncode l) (7 * g + j) ↔ j = a ∨ j = b)) :
    packBytes l.length (hamDecodeBit r) ≠ l := by
  intro heq
  obtain ⟨j, hj, hwrong⟩ := exists_correctedBit_of_two_wrong (e := wrongBits l r g) ha hb fun i hi =>
    (wrongBits_eq_true_iff hg hi).trans (htwo i hi)
  have hbit := streamBit_packBytes (n := l.length) (p := 4 * g + j) (hamDecodeBit r) (by omega)
  rw [heq, hamDecodeBit_of_wrongBits h hg hj, hwrong, Bool.xor_true] at hbit
  exact Bool.not_ne_self _ hbit.symm

/-- HAMDEC of as many bytes as HAMENC emits for `l` delivers as many bytes as `l` has. -/
theorem exec_hamdec_of_encoded {bd bs : BReg} {s : State} {l r : List Byte} {ro : Bool} (hr : s.bReg[bs] = some ⟨r, ro⟩)
    (h : r.length = (hamEncode l).length) (hfits : overMax s.params r.length = false) :
    exec (.hamdec bd bs) s = .next ((s.setB bd ⟨packBytes l.length (hamDecodeBit r), false⟩).retire noWarn) := by
  have hgroups := hamGroups_of_encoded h
  have heven : hamGroups r % 2 = 0 := by omega
  have hlen : hamOutLength s.params.hamOdd (hamGroups r) = l.length := by
    rw [hamOutLength, hgroups, if_neg (by omega)]
    omega
  have hexec := exec_hamdec_fits (bd := bd) hr hfits (.inl heven)
  rwa [hlen] at hexec

/-- HAMENC without an error delivers `hamEncode`; HAMDEC then delivers the bits it makes of what was received. -/
theorem hamdec_after_hamenc {bd bs be : BReg} {s t u : State} {v : ByteBuf} {code r : List Byte} {ro : Bool}
    (hv : s.bReg[bs] = some v) (ht : exec (.hamenc bd bs) s = .next t) (herr : t.response.err = 0)
    (hcode : t.bReg[bd] = some ⟨code, false⟩) (hlen : r.length = code.length)
    (hu : exec (.hamdec be bd) (t.setB bd ⟨r, ro⟩) = .next u) :
    code = hamEncode v.bytes ∧ u.response.err = 0
      ∧ u.bReg[be] = some ⟨packBytes v.bytes.length (hamDecodeBit r), false⟩ := by
  rw [exec_hamenc hv] at ht
  obtain ⟨hfits, rfl⟩ := deliverB_completed ht herr
  have hread := (State.setB_get s bd _).symm.trans hcode
  obtain rfl : hamEncode v.bytes = code := (ByteBuf.mk.inj (Option.some.inj hread)).1
  rw [← hlen] at hfits
  have hexec := exec_hamdec_of_encoded (bd := be)
    (State.setB_get ((s.setB bd ⟨hamEncode v.bytes, false⟩).retire noWarn) bd ⟨r, ro⟩) hlen hfits
  obtain rfl := Host.Outcome.next.inj (hexec.symm.trans hu)
  exact ⟨rfl, rfl, State.setB_get _ be _⟩

/-- Settles O34: the bytes that HAMDEC delivers are right or wrong by the wrong bits of each group; the copies deliver what
they read. -/
theorem hammingCorrectsOneErrorPerGroup : Obligations.HammingCorrectsOneErrorPerGroup := by
  refine ⟨?hamming, ?copies⟩
  case hamming =>
    intro bd bs be s t u v code received ro hv _ ht herr hcode hlen hu
    obtain ⟨rfl, hok, hout⟩ := hamdec_after_hamenc hv ht herr hcode hlen hu
    refine ⟨fun wrong hone => ⟨hok, ?_⟩, fun g hg a ha b hb htwo hback => ?_⟩
    · rw [hout, packBytes_hamDecodeBit_of_one_wrong hlen hone]
    · have hsame := ByteBuf.mk.inj (Option.some.inj (hout.symm.trans hback))
      exact packBytes_hamDecodeBit_of_two_wrong hlen hg ha hb htwo hsame.1
  case copies =>
    intro bd bs s t v hv i hi ht herr
    rw [exec_eccCopy hv hi] at ht
    obtain ⟨-, rfl⟩ := deliverB_completed ht herr
    exact State.setB_get s bd _

end Sys2Proof.Machine
end

section
/-! SUPPORT. The Domain checks of the signal utilities (spec/43_signal_utils.md R141 to R155), and SHRES and CONV past
theirs. -/

namespace Sys2Proof.Machine

/-! ## Checks that fail, and the last steps of a command -/

/-- The check `fs <= 0` and its like, failed by an operand that is not positive. -/
theorem le_zero_eq_true {a : XNum} (h : a.toReal ≤ 0) : a.le (.rat 0) = true :=
  (le_iff_toReal a _).2 (by simpa using h)

theorem lt_eq_false_iff_toReal (a b : XNum) : a.lt b = false ↔ b.toReal ≤ a.toReal := by
  rw [← Bool.not_eq_true, lt_iff_toReal, not_lt]

/-- A command without warnings whose result is the real sequence `l` for `f[i]`. -/
def deliverF (i : FReg) (l : List XNum) (s : State) : Host.Outcome State Fault Refusal :=
  s.complete do
    let t ← s.putF i l
    return (t, noWarn)

theorem deliverF_fits {s : State} {i : FReg} {l : List XNum} (h : overMax s.params l.length = false) :
    deliverF i l s = .next ((s.setF i l).retire noWarn) := by
  rw [deliverF, putF_eq_ok h, ok_bind, pure_eq_ok, complete_ok]

/-! ## The checks, command by command -/

section
variable {s : State} {fd ft fv fa fk : FReg} {rd r1 r2 : RReg} {xn : XReg} {zd : ZReg} {a b : XNum}

/-- A command that first checks that `a` is positive, and then that `c` does not hold. -/
theorem complete_positive_then {c : Bool} {body : Unit → Cmd (State × BitVec 4)} :
    (a.toReal ≤ 0 → s.complete (failIf (a.le (.rat 0)) .domain 1 >>= fun _ => failIf c .domain 2 >>= body) =
      .next (s.raise ⟨.domain, 1⟩))
    ∧ (0 < a.toReal → c = true → s.complete (failIf (a.le (.rat 0)) .domain 1 >>= fun _ => failIf c .domain 2 >>= body) =
      .next (s.raise ⟨.domain, 2⟩)) := by
  refine ⟨fun h => ?_, fun h h' => ?_⟩
  · rw [le_zero_eq_true h, failIf_true, error_bind, complete_error]
  · rw [le_zero_eq_false h, failIf_false, ok_bind, h', failIf_true, error_bind, complete_error]

theorem exec_timearr_domain {n : Word} (ha : s.rReg[r1] = some a) (hn : s.xReg[xn] = some n) :
    (a.toReal ≤ 0 → exec (.timearr fd r1 xn) s = .next (s.raise ⟨.domain, 1⟩))
    ∧ (0 < a.toReal → n.toInt < 0 → exec (.timearr fd r1 xn) s = .next (s.raise ⟨.domain, 2⟩)) := by
  simp only [exec, execTimearr, readR_ok_iff.2 ha, readX_ok_iff.2 hn, ok_bind]
  exact complete_positive_then.imp_right fun second h h' => second h (decide_eq_true h')

theorem exec_sps_domain (ha : s.rReg[r1] = some a) (hb : s.rReg[r2] = some b) :
    (a.toReal ≤ 0 → exec (.sps rd r1 r2) s = .next (s.raise ⟨.domain, 1⟩))
    ∧ (0 < a.toReal → b.toReal ≤ 0 → exec (.sps rd r1 r2) s = .next (s.raise ⟨.domain, 2⟩)) := by
  simp only [exec, execSps, readR_ok_iff.2 ha, readR_ok_iff.2 hb, ok_bind]
  exact complete_positive_then.imp_right fun second h h' => second h (le_zero_eq_true h')

theorem exec_gausswin_domain (ha : s.rReg[r1] = some a) (hb : s.rReg[r2] = some b) :
    (a.toReal ≤ 0 → exec (.gausswin fd r1 r2) s = .next (s.raise ⟨.domain, 1⟩))
    ∧ (0 < a.toReal → b.toReal ≤ 0 → exec (.gausswin fd r1 r2) s = .next (s.raise ⟨.domain, 2⟩)) := by
  simp only [exec, execGausswin, readR_ok_iff.2 ha, readR_ok_iff.2 hb, ok_bind]
  exact complete_positive_then.imp_right fun second h h' => second h (le_zero_eq_true h')

/-- R150: the frequency, here the second register's, must lie below half the sample rate. -/
theorem exec_goertz_domain (ha : s.rReg[r1] = some a) (hb : s.rReg[r2] = some b) :
    (a.toReal ≤ 0 → exec (.goertz zd fd r2 r1) s = .next (s.raise ⟨.domain, 1⟩))
    ∧ (0 < a.toReal → s.params.num.divR a.toReal 2 ≤ b.toReal →
      exec (.goertz zd fd r2 r1) s = .next (s.raise ⟨.domain, 2⟩)) := by
  simp only [exec, execGoertz, readR_ok_iff.2 ha, readR_ok_iff.2 hb, ok_bind]
  refine complete_positive_then.imp_right fun second h h' => second h ?_
  rw [le_iff_toReal, num_div]
  simpa using h'

theorem exec_shres_domain {t v : List XNum} (ht : s.fReg[ft] = some t) (ha : s.rReg[r1] = some a)
    (hv : s.fReg[fv] = some v) (h : a.toReal ≤ 0) :
    exec (.shres fd ft r1 fv) s = .next (s.raise ⟨.domain, 1⟩) := by
  simp only [exec, execShres, readF_ok_iff.2 ht, readR_ok_iff.2 ha, readF_ok_iff.2 hv, ok_bind, le_zero_eq_true h,
    failIf_true, error_bind, complete_error]

/-- The last index of a sequence, as the bound of R143 and R153. -/
theorem toReal_lastIndex (v : List XNum) : (XNum.ofInt ((v.length : Int) - 1)).toReal = (v.length : ℝ) - 1 := by simp

theorem exec_avgint_domain {v : List XNum} (hv : s.fReg[fa] = some v) (ha : s.rReg[r1] = some a)
    (hb : s.rReg[r2] = some b) :
    (b.toReal < a.toReal → exec (.avgint rd fa r1 r2) s = .next (s.raise ⟨.domain, 1⟩))
    ∧ (a.toReal ≤ b.toReal → a.toReal < 0 → exec (.avgint rd fa r1 r2) s = .next (s.raise ⟨.domain, 2⟩))
    ∧ (a.toReal ≤ b.toReal → 0 ≤ a.toReal → (v.length : ℝ) - 1 < b.toReal →
      exec (.avgint rd fa r1 r2) s = .next (s.raise ⟨.domain, 3⟩)) := by
  have hzero : (XNum.rat 0).toReal = 0 := by simp
  simp only [exec, execAvgint, readF_ok_iff.2 hv, readR_ok_iff.2 ha, readR_ok_iff.2 hb, ok_bind]
  refine ⟨fun h => ?_, fun h h' => ?_, fun h h' h'' => ?_⟩
  · rw [(lt_iff_toReal b a).2 h, failIf_true, error_bind, complete_error]
  · rw [(lt_eq_false_iff_toReal b a).2 h, failIf_false, ok_bind, (lt_iff_toReal a _).2 (hzero ▸ h'), failIf_true,
      error_bind, complete_error]
  · rw [(lt_eq_false_iff_toReal b a).2 h, failIf_false, ok_bind, (lt_eq_false_iff_toReal a _).2 (hzero ▸ h'),
      failIf_false, ok_bind, (lt_iff_toReal _ b).2 (by rwa [toReal_lastIndex]), failIf_true, error_bind, complete_error]

theorem exec_conv_domain {u : List XNum} (hu : s.fReg[fa] = some u) (hw : s.fReg[fk] = some []) :
    exec (.conv fd fa fk) s = .next (s.raise ⟨.domain, 1⟩) := by
  simp only [exec, execConv, readF_ok_iff.2 hu, readF_ok_iff.2 hw, ok_bind, List.isEmpty_nil, failIf_true, error_bind,
    complete_error]

end

/-- Settles O37, command by command. -/
theorem signalGuardsRaiseDomain : Obligations.SignalGuardsRaiseDomain := by
  refine fun s => ⟨?timearr, ?pairs, ?shres, ?avgint, ?conv⟩
  case timearr => exact fun fd r1 xn fs n hfs hn => exec_timearr_domain hfs hn
  case pairs =>
    intro rd r1 r2 fd zd a b ha hb
    obtain ⟨sps1, sps2⟩ := exec_sps_domain (rd := rd) ha hb
    obtain ⟨gauss1, gauss2⟩ := exec_gausswin_domain (fd := fd) ha hb
    obtain ⟨goertz1, goertz2⟩ := exec_goertz_domain (zd := zd) (fd := fd) ha hb
    exact ⟨fun h => ⟨sps1 h, gauss1 h, goertz1 h⟩, fun h h' => ⟨sps2 h h', gauss2 h h'⟩, goertz2⟩
  case shres => exact fun fd ft fv r1 t v baud ht hbaud hv h => exec_shres_domain ht hbaud hv h
  case avgint => exact fun rd r1 r2 fa d b e hd hb he => exec_avgint_domain hd hb he
  case conv => exact fun fd fa fk u hu hw => exec_conv_domain hu hw

/-! ## SHRES -/

/-- R143: `hold`, with the bounds and the index those of the real that `u` stands for. -/
theorem hold_eq (v : List XNum) (u : XNum) : hold v u =
    if 1 ≤ v.length ∧ 0 ≤ u.toReal ∧ u.toReal ≤ (v.length : ℝ) - 1 then v.getD ⌊u.toReal⌋.toNat (.rat 0) else .rat 0 := by
  simp only [hold, Bool.and_eq_true, decide_eq_true_eq, le_iff_toReal, toReal_lastIndex, toReal_rat, Rat.cast_zero, and_assoc,
    floor_eq_toReal]

theorem toReal_hold (v : List XNum) (u : XNum) : (hold v u).toReal = holdReal v u.toReal := by
  rw [hold_eq, holdReal, apply_ite XNum.toReal, toReal_rat, Rat.cast_zero]
  rfl

theorem resample_getD (d : Config.NumDomain) {t : List XNum} (baud : XNum) (v : List XNum) {j : ℕ} (h : j < t.length) :
    (resample d t baud v).getD j (.rat 0) = hold v (d.mul (t.getD j (.rat 0)) baud) := by
  rw [List.getD_eq_getElem _ _ (by simpa using h), List.getD_eq_getElem _ _ h]
  simp [resample]

/-- SHRES past its check delivers the resampled sequence. -/
theorem exec_shres {fd ft fv : FReg} {rbaud : RReg} {s : State} {t v : List XNum} {baud : XNum}
    (ht : s.fReg[ft] = some t) (hbaud : s.rReg[rbaud] = some baud) (hv : s.fReg[fv] = some v) (hpos : 0 < baud.toReal) :
    exec (.shres fd ft rbaud fv) s = deliverF fd (resample s.params.num t baud v) s := by
  simp only [exec, execShres, readF_ok_iff.2 ht, readR_ok_iff.2 hbaud, readF_ok_iff.2 hv, ok_bind, le_zero_eq_false hpos,
    failIf_false, deliverF]

/-- Settles O38: each element is `hold` at the product of the numeric domain. -/
theorem shresHoldsPreviousValue : Obligations.ShresHoldsPreviousValue := by
  intro fd ft rbaud fv s t v baud ht hbaud hv hpos hfits
  refine ⟨resample s.params.num t baud v, ?_, resample_length _ _ _ _, fun j hj => ?_⟩
  · rw [exec_shres ht hbaud hv hpos]
    exact deliverF_fits (by rwa [resample_length])
  · rw [resample_getD _ _ _ hj, hold_eq, num_mul]
    rfl

/-! ## CONV -/

/-- The sum over the elements of a range that meet a condition. -/
theorem sum_map_filter_range (q : ℕ → Bool) (f : ℕ → ℝ) (n : ℕ) :
    (((List.range n).filter q).map f).sum = ∑ j ∈ Finset.range n, if q j = true then f j else 0 := by
  induction n with
  | zero => simp
  | succ n ih =>
    rw [List.range_succ, List.filter_append, List.map_append, List.sum_append, ih, Finset.sum_range_succ]
    cases h : q n <;> simp [h]

/-- R154: over the exact reals each element is that of the centred linear convolution. -/
theorem realAt_convSame (u w : List XNum) {i : ℕ} (h : i < u.length) :
    realAt (convSame .exact u w) i = convReal (realAt u) u.length (realAt w) w.length i := by
  rw [realAt_of_lt (by simpa using h)]
  simp only [convSame, List.getElem_map, List.getElem_range, exact_sum, toReal_sum, List.map_map]
  rw [sum_map_filter_range, convReal]
  simp [realAt]

/-- CONV with a kernel delivers the convolution. -/
theorem exec_conv {fd fa fk : FReg} {s : State} {u w : List XNum} (hu : s.fReg[fa] = some u) (hw : s.fReg[fk] = some w)
    (hne : w ≠ []) : exec (.conv fd fa fk) s = deliverF fd (convSame s.params.num u w) s := by
  simp only [exec, execConv, readF_ok_iff.2 hu, readF_ok_iff.2 hw, ok_bind, List.isEmpty_eq_false_iff.2 hne, failIf_false,
    deliverF]

/-- Settles O45: the delivered sequence is as long as the signal, and `realAt_convSame` gives its elements. -/
theorem convFilters : Obligations.ConvFilters := by
  intro fd fa fk s u w hu hw hne hfits
  refine ⟨convSame s.params.num u w, ?_, convSame_length _ _ _, fun hd i hi => ?_⟩
  · rw [exec_conv hu hw hne]
    exact deliverF_fits (by rwa [convSame_length])
  · rw [hd, realAt_convSame u w hi]

end Sys2Proof.Machine
end

section
/-! SUPPORT. The Gaussian window of GAUSSWIN (spec/43_signal_utils.md R144, R145). -/

namespace Sys2Proof.Machine

/-! ## Its length -/

theorem oddUp_odd (n : ℤ) : oddUp n % 2 = 1 := by
  unfold oddUp
  split <;> omega

theorem le_oddUp (n : ℤ) : n ≤ oddUp n := by
  unfold oddUp
  split <;> omega

theorem gaussLength_eq (d : Config.NumDomain) (fs sigma : XNum) :
    gaussLength d fs sigma = gaussCount d fs.toReal sigma.toReal := by
  simp [gaussLength, gaussCount, ceil_eq_toReal]

theorem gaussCount_odd (d : Config.NumDomain) (fs sigma : ℝ) : gaussCount d fs sigma % 2 = 1 := oddUp_odd _

theorem gaussCount_exact (fs sigma : ℝ) : gaussCount .exact fs sigma = oddUp ⌈6 * (sigma * fs) + 1⌉ := rfl

/-- R144: a window of positive width has a tap on each side of the middle one. -/
theorem three_le_gaussCount {fs sigma : ℝ} (hfs : 0 < fs) (hsigma : 0 < sigma) : 3 ≤ gaussCount .exact fs sigma := by
  have hwidth : 1 < ⌈6 * (sigma * fs) + 1⌉ := by
    rw [Int.lt_ceil]
    have := mul_pos hsigma hfs
    push_cast
    linarith
  have hodd := gaussCount_odd .exact fs sigma
  have hle := le_oddUp ⌈6 * (sigma * fs) + 1⌉
  rw [gaussCount_exact] at *
  omega

/-! ## Its taps -/

/-- R144: the unnormalised tap over the exact reals. -/
theorem toReal_gaussTap (s : XNum) (c i : ℕ) :
    (gaussTap .exact s c i).toReal = Real.exp (-(((i : ℝ) - c) / s.toReal) ^ 2 / 2) := by
  simp [gaussTap, sq, neg_div]

/-- R144: the taps are those of the normalised Gaussian. -/
theorem realAt_gauss (fs sigma : XNum) {i : ℕ} (h : i < (gauss .exact fs sigma).length) :
    realAt (gauss .exact fs sigma) i =
      gaussReal (sigma.toReal * fs.toReal) (gauss .exact fs sigma).length i := by
  rw [realAt_of_lt h]
  simp only [gauss_length]
  simp only [gauss, List.getElem_map, List.getElem_range, exact_div, toReal_div, exact_sum, toReal_sum, List.map_map,
    Function.comp_def, toReal_gaussTap, sum_map_range, exact_mul, toReal_mul]
  rfl

section
variable {s : ℝ} {n i : ℕ}

theorem gaussReal_pos (h : i < n) : 0 < gaussReal s n i :=
  div_pos (Real.exp_pos _) (Finset.sum_pos (fun _ _ => Real.exp_pos _) ⟨i, Finset.mem_range.2 h⟩)

/-- Places equally far from the middle of an odd window have equal squares. -/
theorem gaussReal_symm (hodd : n % 2 = 1) (h : i < n) : gaussReal s n i = gaussReal s n (n - 1 - i) := by
  have hplace : ((n - 1 - i : ℕ) : ℝ) - ((n - 1) / 2 : ℕ) = -((i : ℝ) - ((n - 1) / 2 : ℕ)) := by
    have hsum : (n - 1 - i) + i = (n - 1) / 2 + (n - 1) / 2 := by omega
    have hcast : ((n - 1 - i : ℕ) : ℝ) + i = ((n - 1) / 2 : ℕ) + ((n - 1) / 2 : ℕ) := by exact_mod_cast hsum
    linarith
  simp only [gaussReal, hplace, neg_div, neg_sq]

theorem sum_gaussReal (h : 0 < n) : ∑ j ∈ Finset.range n, gaussReal s n j = 1 := by
  simp only [gaussReal]
  rw [← Finset.sum_div]
  exact div_self (Finset.sum_pos (fun _ _ => Real.exp_pos _) ⟨0, Finset.mem_range.2 h⟩).ne'

end

/-! ## The command -/

/-- GAUSSWIN past its Domain checks: the capacity check decides, and the window is written (R145). -/
theorem exec_gausswin {fd : FReg} {rfs rsigma : RReg} {s : State} {fs sigma : XNum} (hfs : s.rReg[rfs] = some fs)
    (hsigma : s.rReg[rsigma] = some sigma) (hpos : 0 < fs.toReal) (hpos' : 0 < sigma.toReal) :
    exec (.gausswin fd rfs rsigma) s =
      if overMax s.params (gaussCount s.params.num fs.toReal sigma.toReal) then
        .next (s.raise ⟨.capacity, gaussCount s.params.num fs.toReal sigma.toReal⟩)
      else .next ((s.setF fd (gauss s.params.num fs sigma)).retire noWarn) := by
  simp only [exec, execGausswin, readR_ok_iff.2 hfs, readR_ok_iff.2 hsigma, le_zero_eq_false hpos,
    le_zero_eq_false hpos', failIf_false, ok_bind, gaussLength_eq]
  split
  case isTrue h => rw [fits_eq_error h, error_bind, complete_error]
  case isFalse h =>
    rw [Bool.not_eq_true] at h
    rw [fits_eq_ok h, ok_bind]
    exact deliverF_fits (by rw [gauss_length, gaussLength_eq]; exact overMax_toNat h)

/-- Settles O39: the taps are `gaussReal`, which is positive, symmetric and of sum 1. -/
theorem gausswinMakesGaussian : Obligations.GausswinMakesGaussian := by
  intro fd rfs rsigma s fs sigma hfs hsigma hpos hpos' count
  rw [exec_gausswin hfs hsigma hpos hpos']
  refine ⟨fun h => if_pos h, fun h => ⟨gauss s.params.num fs sigma, ?_, ?_, gaussCount_odd _ _ _, fun hd => ?_⟩⟩
  · exact if_neg (by simp [count, h])
  · rw [gauss_length, gaussLength_eq]
  · have hodd : count % 2 = 1 := gaussCount_odd _ _ _
    have hthree : 3 ≤ count := by simp only [count, hd]; exact three_le_gaussCount hpos hpos'
    have hlen : (gauss .exact fs sigma).length = count.toNat := by rw [gauss_length, gaussLength_eq, ← hd]
    have htap : ∀ i < (gauss .exact fs sigma).length, realAt (gauss .exact fs sigma) i =
        gaussReal (sigma.toReal * fs.toReal) (gauss .exact fs sigma).length i := fun i hi => realAt_gauss fs sigma hi
    rw [hd]
    refine ⟨by simp only [count, hd, gaussCount_exact], hthree, htap, fun i hi => ?_, ?_⟩
    · rw [htap i hi, htap _ (by omega)]
      exact ⟨gaussReal_pos hi, gaussReal_symm (by omega) hi⟩
    · rw [Finset.sum_congr rfl fun i hi => htap i (Finset.mem_range.1 hi)]
      exact sum_gaussReal (by omega)

end Sys2Proof.Machine
end

section
/-! SUPPORT. The low-pass designers LPFIR and LPFIRA (spec/43_signal_utils.md R146 to R149): their checks, their count and
their taps. The demodulators' filter (spec/44_modulator_config.md R184) is the same design. -/

namespace Sys2Proof.Machine

/-! ## The checks -/

/-- The machine's check fails exactly when the condition of R149 is met. -/
theorem lowpassCheckFails_iff (d : Config.NumDomain) (fs lo hi att : XNum) (c : ℕ) :
    lowpassCheckFails d fs lo hi att c = true ↔ lowpassViolates d fs.toReal lo.toReal hi.toReal att.toReal c := by
  unfold lowpassCheckFails
  split <;> simp [lowpassViolates, le_iff_toReal, lt_iff_toReal]

/-- Only the checks 1 to 6 can be violated. -/
theorem lowpassViolates_range {d : Config.NumDomain} {fs lo hi att : ℝ} {c : ℕ} (h : lowpassViolates d fs lo hi att c) :
    1 ≤ c ∧ c < 7 := by
  unfold lowpassViolates at h
  split at h
  case h_7 => exact h.elim
  all_goals omega

/-- The operands pass the checks of R149 exactly when they stand in the order `0 <= lo < hi < fs/2`, with `fs` and `att`
positive. -/
theorem lowpassViolates_none_iff {d : Config.NumDomain} {fs lo hi att : ℝ} :
    (∀ c, ¬ lowpassViolates d fs lo hi att c) ↔ 0 < fs ∧ 0 ≤ lo ∧ lo < hi ∧ hi < d.divR fs 2 ∧ 0 < att := by
  constructor
  · intro h
    exact ⟨not_le.1 (h 1), not_lt.1 (h 5), not_le.1 (h 2), not_le.1 (h 4), not_le.1 (h 6)⟩
  · rintro ⟨hfs, hlo, hlt, hnyq, hatt⟩ c hc
    unfold lowpassViolates at hc
    split at hc
    case h_1 => exact hfs.not_ge hc
    case h_2 => exact hlt.not_ge hc
    case h_3 => exact (hlt.trans hnyq).not_ge hc
    case h_4 => exact hnyq.not_ge hc
    case h_5 => exact hlo.not_gt hc
    case h_6 => exact hatt.not_ge hc
    case h_7 => exact hc

section
variable {p : Config.Params} {fs lo hi att : XNum}

theorem lowpassFailure_eq_some {k : ℕ} (h : lowpassViolates p.num fs.toReal lo.toReal hi.toReal att.toReal k)
    (hbefore : ∀ j < k, ¬ lowpassViolates p.num fs.toReal lo.toReal hi.toReal att.toReal j) :
    lowpassFailure p.num fs lo hi att = some k := by
  obtain ⟨h1, h7⟩ := lowpassViolates_range h
  have hlist : lowpassFailure p.num fs lo hi att = (List.range' 1 6).find? (lowpassCheckFails p.num fs lo hi att) := rfl
  rw [hlist, List.find?_range'_eq_some]
  refine ⟨(lowpassCheckFails_iff ..).2 h, ?_, fun j _ hj => ?_⟩
  · exact List.mem_range'_1.2 ⟨h1, h7⟩
  · rw [Bool.not_eq_true', ← Bool.not_eq_true, lowpassCheckFails_iff]
    exact hbefore j hj

theorem lowpassFailure_eq_none (h : ∀ k, ¬ lowpassViolates p.num fs.toReal lo.toReal hi.toReal att.toReal k) :
    lowpassFailure p.num fs lo hi att = none :=
  List.find?_eq_none.2 fun k _ hk => h k ((lowpassCheckFails_iff ..).1 hk)

/-! ## The design -/

theorem firLength_eq (d : Config.NumDomain) (fs lo hi att : XNum) :
    firLength d fs lo hi att = firCount d fs.toReal lo.toReal hi.toReal att.toReal := by
  simp [firLength, firCount, ceil_eq_toReal]

/-- R149: the first violated check is the error. -/
theorem lowpass_domain {k : ℕ} (h : lowpassViolates p.num fs.toReal lo.toReal hi.toReal att.toReal k)
    (hbefore : ∀ j < k, ¬ lowpassViolates p.num fs.toReal lo.toReal hi.toReal att.toReal j) :
    lowpass p fs lo hi att = .error ⟨.domain, k⟩ := by
  rw [lowpass, lowpassFailure_eq_some h hbefore]

theorem lowpass_capacity (h : ∀ k, ¬ lowpassViolates p.num fs.toReal lo.toReal hi.toReal att.toReal k)
    (hmax : overMax p (firCount p.num fs.toReal lo.toReal hi.toReal att.toReal) = true) :
    lowpass p fs lo hi att = .error ⟨.capacity, firCount p.num fs.toReal lo.toReal hi.toReal att.toReal⟩ := by
  rw [← firLength_eq] at *
  rw [lowpass, lowpassFailure_eq_none h]
  simp only [fits_eq_error hmax, error_bind]

theorem lowpass_design (h : ∀ k, ¬ lowpassViolates p.num fs.toReal lo.toReal hi.toReal att.toReal k)
    (hmax : overMax p (firCount p.num fs.toReal lo.toReal hi.toReal att.toReal) = false) :
    lowpass p fs lo hi att =
      .ok (lsfir p.num fs lo hi (firCount p.num fs.toReal lo.toReal hi.toReal att.toReal).toNat) := by
  rw [← firLength_eq] at *
  exact lowpass_ok_iff.2 ⟨lowpassFailure_eq_none h, hmax, rfl⟩

end

/-! ## The count and the taps -/

theorem firCount_odd (d : Config.NumDomain) (fs lo hi att : ℝ) : firCount d fs lo hi att % 2 = 1 := oddUp_odd _

theorem firCount_exact (fs lo hi att : ℝ) : firCount .exact fs lo hi att = oddUp ⌈fs / (hi - lo) * att / 22⌉ := rfl

theorem one_le_firCount {fs lo hi att : ℝ} (hfs : 0 < fs) (hlt : lo < hi) (hatt : 0 < att) :
    1 ≤ firCount .exact fs lo hi att := by
  have hpos : 0 < ⌈fs / (hi - lo) * att / 22⌉ :=
    Int.ceil_pos.2 (div_pos (mul_pos (div_pos hfs (sub_pos.2 hlt)) hatt) (by norm_num))
  rw [firCount_exact]
  exact hpos.trans_le (le_oddUp _)

/-- R147: tap `i` is the one `|i - half|` places from the centre. -/
theorem realAt_lsfir (d : Config.NumDomain) (fs lo hi : XNum) {n i : ℕ} (h : i < n) :
    realAt (lsfir d fs lo hi n) i =
      d.real (.filterTap ((n - 1) / 2) ((i : ℤ) - ((n - 1) / 2 : ℕ)).natAbs) fs.toReal lo.toReal hi.toReal := by
  have hplace : (if i ≤ (n - 1) / 2 then (n - 1) / 2 - i else i - (n - 1) / 2) =
      ((i : ℤ) - ((n - 1) / 2 : ℕ)).natAbs := by
    split <;> omega
  rw [realAt_of_lt (by simpa using h)]
  simp only [lsfir, List.getElem_map, List.getElem_range, num_filterTap, hplace]

/-- Mirrored places of an odd count are equally far from the centre. -/
theorem place_symm {n i : ℕ} (hodd : n % 2 = 1) (h : i < n) :
    (((n - 1 - i : ℕ) : ℤ) - ((n - 1) / 2 : ℕ)).natAbs = ((i : ℤ) - ((n - 1) / 2 : ℕ)).natAbs := by omega

/-! ## The commands -/

/-- What LPFIR and LPFIRA do with their operands: design, then deliver. -/
def deliverLowpass (fd : FReg) (fs lo hi att : XNum) (s : State) : Host.Outcome State Fault Refusal :=
  s.complete do
    let h ← lowpass s.params fs lo hi att
    let t ← s.putF fd h
    return (t, noWarn)

section
variable {i : Instr} {fd : FReg} {rfs rlo rhi : RReg} {s : State} {fs lo hi att : XNum}

/-- R148, R149: LPFIR is LPFIRA with `ATT_DEFAULT`. -/
theorem exec_lowpass (hfs : s.rReg[rfs] = some fs) (hlo : s.rReg[rlo] = some lo) (hhi : s.rReg[rhi] = some hi)
    (hcmd : i = .lpfir fd rfs rlo rhi ∧ att = s.params.attDefault
      ∨ ∃ ratt, i = .lpfira fd rfs rlo rhi ratt ∧ s.rReg[ratt] = some att) :
    exec i s = deliverLowpass fd fs lo hi att s := by
  rcases hcmd with ⟨rfl, rfl⟩ | ⟨ratt, rfl, hatt⟩
  · simp only [exec, execLpfir, readR_ok_iff.2 hfs, readR_ok_iff.2 hlo, readR_ok_iff.2 hhi, ok_bind, deliverLowpass]
  · simp only [exec, execLpfira, readR_ok_iff.2 hfs, readR_ok_iff.2 hlo, readR_ok_iff.2 hhi, readR_ok_iff.2 hatt, ok_bind,
      deliverLowpass]

theorem deliverLowpass_domain {k : ℕ} (h : lowpassViolates s.params.num fs.toReal lo.toReal hi.toReal att.toReal k)
    (hbefore : ∀ j < k, ¬ lowpassViolates s.params.num fs.toReal lo.toReal hi.toReal att.toReal j) :
    deliverLowpass fd fs lo hi att s = .next (s.raise ⟨.domain, k⟩) := by
  rw [deliverLowpass, lowpass_domain h hbefore, error_bind, complete_error]

end

/-- Settles O41: a check that is the first violated one is the error, for each of the six. -/
theorem lowpassChecks : Obligations.LowpassChecks := by
  intro i fd rfs rlo rhi s fs lo hi att hfs hlo hhi hcmd nyquist
  rw [exec_lowpass hfs hlo hhi hcmd]
  have first (k : ℕ) (h : lowpassViolates s.params.num fs.toReal lo.toReal hi.toReal att.toReal k)
      (hbefore : ∀ j, 1 ≤ j → j < k → ¬ lowpassViolates s.params.num fs.toReal lo.toReal hi.toReal att.toReal j) :
      deliverLowpass fd fs lo hi att s = .next (s.raise ⟨.domain, k⟩) :=
    deliverLowpass_domain h fun j hj hv => hbefore j (lowpassViolates_range hv).1 hj hv
  refine ⟨fun h => first 1 h ?_, fun h1 h => first 2 h ?_, fun h1 h2 h => first 3 h ?_, fun h1 h2 h3 h => first 4 h ?_,
    fun h1 h2 h4 h => first 5 h ?_, fun h1 h5 h2 h4 h => first 6 h ?_⟩
  · omega
  · intro j hj hj'
    interval_cases j
    exact h1.not_ge
  · intro j hj hj'
    interval_cases j
    exacts [h1.not_ge, h2.not_ge]
  · intro j hj hj'
    interval_cases j
    exacts [h1.not_ge, h2.not_ge, h3.not_ge]
  · intro j hj hj'
    interval_cases j
    exacts [h1.not_ge, h2.not_ge, (h2.trans h4).not_ge, h4.not_ge]
  · intro j hj hj'
    interval_cases j
    exacts [h1.not_ge, h2.not_ge, (h2.trans h4).not_ge, h4.not_ge, h5.not_gt]

/-- Settles O40: the operands pass the checks, and `realAt_lsfir` gives each tap by its distance from the centre. -/
theorem lowpassDesignTaps : Obligations.LowpassDesignTaps := by
  intro i fd rfs rlo rhi s fs lo hi att hfs hlo hhi hcmd hfspos hlo0 hlt hnyq hatt count
  have hpass := lowpassViolates_none_iff.2 ⟨hfspos, hlo0, hlt, hnyq, hatt⟩
  rw [exec_lowpass hfs hlo hhi hcmd, deliverLowpass]
  refine ⟨fun h => ?_, fun h => ⟨lsfir s.params.num fs lo hi count.toNat, ?_, lsfir_length .., firCount_odd .., ?_, ?_, ?_⟩⟩
  · rw [lowpass_capacity hpass h, error_bind, complete_error]
  · rw [lowpass_design hpass h, ok_bind]
    exact deliverF_fits (by rw [lsfir_length]; exact overMax_toNat h)
  · intro hd
    simp only [count, hd]
    exact ⟨firCount_exact .., one_le_firCount hfspos hlt hatt⟩
  · rw [lsfir_length]
    intro j hj place
    rw [realAt_lsfir _ _ _ _ hj]
    cases s.params.num <;> rfl
  · rw [lsfir_length]
    intro j hj
    have hodd : count % 2 = 1 := firCount_odd ..
    rw [realAt_lsfir _ _ _ _ hj, realAt_lsfir _ _ _ _ (show count.toNat - 1 - j < count.toNat by omega),
      place_symm (by omega) hj]

end Sys2Proof.Machine
end

section
/-! SUPPORT. The Goertzel resonator run from rest (spec/43_signal_utils.md R151) and the single-bin transform that DEMFSK
uses (spec/47_fsk.md R211). -/

namespace Sys2Proof.Machine

/-! ## The resonator -/

/-- R151: the output `y[n] = q[n] - cis(-w)*q[n-1]` of the resonator run from rest. -/
noncomputable def resonatorOutput (w : ℝ) (x : ℕ → ℝ) (n : ℕ) : ℂ :=
  ((resonator w x n).1 : ℂ) - Complex.exp (-(w * Complex.I)) * ((resonator w x n).2 : ℂ)

theorem resonatorOutput_zero (w : ℝ) (x : ℕ → ℝ) : resonatorOutput w x 0 = x 0 := by
  simp [resonatorOutput, resonator]

/-- The two poles of the resonator are `cis(w)` and `cis(-w)`; the numerator takes the second away, so that each output is
the input and the output before it, turned by `w`. -/
theorem resonatorOutput_succ (w : ℝ) (x : ℕ → ℝ) (n : ℕ) :
    resonatorOutput w x (n + 1) = x (n + 1) + Complex.exp (w * Complex.I) * resonatorOutput w x n := by
  have hpoles : (2 : ℂ) * Complex.cos w = Complex.exp (w * Complex.I) + Complex.exp (-(w * Complex.I)) := by
    rw [Complex.two_cos, neg_mul]
  have hinv : Complex.exp (w * Complex.I) * Complex.exp (-(w * Complex.I)) = 1 := by
    rw [← Complex.exp_add, add_neg_cancel, Complex.exp_zero]
  simp only [resonatorOutput, resonator]
  push_cast
  rw [hpoles]
  linear_combination (resonator w x n).2 * hinv

/-- R151: the output is the sum of the inputs, each turned by `w` for every sample since. -/
theorem resonatorOutput_eq_sum (w : ℝ) (x : ℕ → ℝ) (n : ℕ) :
    resonatorOutput w x n = ∑ m ∈ Finset.range (n + 1), (x m : ℂ) * Complex.exp (w * ((n : ℂ) - m) * Complex.I) := by
  induction n with
  | zero => simp [resonatorOutput_zero]
  | succ n ih =>
    rw [resonatorOutput_succ, ih, Finset.sum_range_succ _ (n + 1), Finset.mul_sum, add_comm]
    congr 1
    · refine Finset.sum_congr rfl fun m _ => ?_
      rw [mul_left_comm, ← Complex.exp_add]
      congr 2
      push_cast
      ring
    · simp

/-! ## The single-bin transform -/

/-- The transform of the window of `n` samples `x` at the angle `w` (R151). -/
noncomputable def singleBin (w : ℝ) (x : ℕ → ℝ) (n : ℕ) : ℂ :=
  ∑ m ∈ Finset.range n, (x m : ℂ) * Complex.exp (-(w * m * Complex.I))

/-- Both sums run over the same window, one turned against the other by `w*n`. -/
theorem resonatorOutput_eq_singleBin (w : ℝ) (x : ℕ → ℝ) (n : ℕ) :
    resonatorOutput w x n = Complex.exp ((w * n : ℝ) * Complex.I) * singleBin w x (n + 1) := by
  rw [resonatorOutput_eq_sum, singleBin, Finset.mul_sum]
  refine Finset.sum_congr rfl fun m _ => ?_
  rw [mul_left_comm, ← Complex.exp_add]
  congr 2
  push_cast
  ring

theorem norm_resonatorOutput (w : ℝ) (x : ℕ → ℝ) (n : ℕ) : ‖resonatorOutput w x n‖ = ‖singleBin w x (n + 1)‖ := by
  rw [resonatorOutput_eq_singleBin, norm_mul, Complex.norm_exp_ofReal_mul_I, one_mul]

/-- The transform part by part, as the machine computes it. -/
theorem singleBin_eq_parts (w : ℝ) (x : ℕ → ℝ) (n : ℕ) :
    singleBin w x n = ⟨∑ m ∈ Finset.range n, x m * Real.cos (-w * m), ∑ m ∈ Finset.range n, x m * Real.sin (-w * m)⟩ := by
  have hterm (m : ℕ) : (x m : ℂ) * Complex.exp (-(w * m * Complex.I)) =
      ⟨x m * Real.cos (-w * m), x m * Real.sin (-w * m)⟩ := by
    rw [show -((w : ℂ) * m * Complex.I) = ((-w * m : ℝ) : ℂ) * Complex.I by push_cast; ring]
    apply Complex.ext
    · rw [Complex.re_ofReal_mul, Complex.exp_ofReal_mul_I_re]
    · rw [Complex.im_ofReal_mul, Complex.exp_ofReal_mul_I_im]
  simp only [singleBin, hterm]
  apply Complex.ext
  · exact Complex.re_sum _ _
  · exact Complex.im_sum _ _

/-- R151, R211: the machine's magnitude is the modulus of the single-bin transform of the window. -/
theorem toReal_goertzelMag (x : List XNum) (first n : ℕ) (w : XNum) :
    (goertzelMag .exact x first n w).toReal = ‖singleBin w.toReal (fun m => realAt x (first + m)) n‖ := by
  rw [singleBin_eq_parts, Complex.norm_eq_sqrt_sq_add_sq, goertzelMag, toReal_abs]
  simp only [exact_sum, toReal_sum, List.map_map, Function.comp_def, exact_mul, toReal_mul, Config.NumDomain.cis, exact_cos,
    exact_sin, toReal_cos, toReal_sin, exact_neg, toReal_neg, toReal_ofNat, sum_map_range, sq]
  rfl

/-- Settles O43: the resonator's output is the transform turned by an angle, and the machine computes its modulus. -/
theorem goertzelClosedForm : Obligations.GoertzelClosedForm := by
  refine ⟨resonatorOutput_eq_sum, fun x first n w => ⟨toReal_goertzelMag x first (n + 1) w, ?_⟩⟩
  rw [toReal_goertzelMag, ← norm_resonatorOutput]
  rfl

end Sys2Proof.Machine
end

section
/-! SUPPORT. The interval averager of AVGINT and the demodulators (spec/43_signal_utils.md R152, R153). -/

namespace Sys2Proof.Machine

/-! ## The line and the trapezoids over the reals -/

/-- The piecewise-linear line of R152 through the values `d 0, ..., d (n-1)`. -/
noncomputable def lineReal (d : ℕ → ℝ) (n : ℕ) (u : ℝ) : ℝ :=
  if u < (n : ℝ) - 1 then d ⌊u⌋.toNat + (u - ⌊u⌋) * (d (⌊u⌋.toNat + 1) - d ⌊u⌋.toNat) else d (n - 1)

/-- The trapezoid of the line from `u` to `v` (R152). -/
noncomputable def areaReal (d : ℕ → ℝ) (n : ℕ) (u v : ℝ) : ℝ := (lineReal d n u + lineReal d n v) / 2 * (v - u)

theorem averageReal_eq (d : ℕ → ℝ) (n : ℕ) (b e : ℝ) : averageReal d n b e =
    if b = e then lineReal d n b
    else if e ≤ ⌊b⌋ + 1 then areaReal d n b e / (e - b)
    else (areaReal d n b (⌊b⌋ + 1 : ℤ)
      + ∑ j ∈ Finset.range (⌈e⌉ - ⌊b⌋ - 2).toNat, areaReal d n (⌊b⌋ + 1 + j : ℤ) (⌊b⌋ + 2 + j : ℤ)
      + areaReal d n (⌈e⌉ - 1 : ℤ) e) / (e - b) := rfl

/-- With two values or more, the line looks at no other value than those it is drawn through. -/
theorem lineReal_congr {d d' : ℕ → ℝ} {n : ℕ} (hn : 2 ≤ n) (h : ∀ i < n, d i = d' i) : lineReal d n = lineReal d' n := by
  funext u
  rw [lineReal, lineReal]
  split
  case isTrue hu =>
    have hfloor : ⌊u⌋.toNat + 1 < n := by
      have : ⌊u⌋ < (n : ℤ) - 1 := Int.floor_lt.2 (by push_cast; exact hu)
      omega
    rw [h _ hfloor, h _ (Nat.lt_of_succ_lt hfloor)]
  case isFalse => exact h _ (by omega)

theorem averageReal_congr {d d' : ℕ → ℝ} {n : ℕ} (hn : 2 ≤ n) (h : ∀ i < n, d i = d' i) :
    averageReal d n = averageReal d' n := by
  have harea : areaReal d n = areaReal d' n := by
    funext u v
    rw [areaReal, areaReal, lineReal_congr hn h]
  funext b e
  rw [averageReal_eq, averageReal_eq, lineReal_congr hn h, harea]

/-! ## Sums over neighbours -/

/-- The sum of `area` over the neighbours in a list. -/
noncomputable def overNeighbours (area : ℝ → ℝ → ℝ) (l : List ℝ) : ℝ := ((l.zip l.tail).map fun uv => area uv.1 uv.2).sum

theorem overNeighbours_cons (area : ℝ → ℝ → ℝ) (a b : ℝ) (l : List ℝ) :
    overNeighbours area (a :: b :: l) = area a b + overNeighbours area (b :: l) := by
  simp [overNeighbours]

theorem overNeighbours_pair (area : ℝ → ℝ → ℝ) (a b : ℝ) : overNeighbours area [a, b] = area a b := by
  simp [overNeighbours]

/-- From a start over `m + 1` inner places to an end: the first step, the inner steps, and the last one. -/
theorem overNeighbours_inner (area : ℝ → ℝ → ℝ) (a : ℝ) (place : ℕ → ℝ) (e : ℝ) (m : ℕ) :
    overNeighbours area (a :: ((List.range (m + 1)).map place ++ [e])) =
      area a (place 0) + ∑ j ∈ Finset.range m, area (place j) (place (j + 1)) + area (place m) e := by
  induction m generalizing a place with
  | zero => simp [overNeighbours]
  | succ m ih =>
    have htail := ih (place 0) fun j => place (j + 1)
    rw [List.range_succ_eq_map, List.map_cons, List.map_map, List.cons_append, overNeighbours_cons,
      Finset.sum_range_succ']
    exact (congrArg _ htail).trans (by ring)

/-! ## The machine's average -/

theorem toReal_lin (v : List XNum) (u : XNum) : (lin .exact v u).toReal = lineReal (realAt v) v.length u.toReal := by
  simp only [lin, lt_iff_toReal, lineReal, apply_ite XNum.toReal, exact_add, toReal_add, exact_mul, toReal_mul, exact_sub,
    toReal_sub, toReal_ofInt, floor_eq_toReal, Int.cast_sub, Int.cast_natCast, Int.cast_one]
  rfl

theorem toReal_trapezoid (v : List XNum) (u u' : XNum) :
    (trapezoid .exact v u u').toReal = areaReal (realAt v) v.length u.toReal u'.toReal := by
  simp [trapezoid, areaReal, toReal_lin]

/-- R152: the knots are `begin`, the integers strictly between, and `end`. -/
theorem toReal_knots (b e : XNum) : (knots b e).map XNum.toReal =
    b.toReal :: ((List.range (⌈e.toReal⌉ - ⌊b.toReal⌋ - 1).toNat).map (fun j : ℕ => ((⌊b.toReal⌋ + 1 + j : ℤ) : ℝ))
      ++ [e.toReal]) := by
  have hcount : ⌈e.toReal⌉ - 1 - (⌊b.toReal⌋ + 1) + 1 = ⌈e.toReal⌉ - ⌊b.toReal⌋ - 1 := by ring
  simp only [knots, floor_eq_toReal, ceil_eq_toReal, hcount, List.map_append, List.map_cons, List.map_nil, List.map_map,
    Function.comp_def, toReal_ofInt, List.nil_append, List.cons_append]

theorem toReal_sum_trapezoids (v k : List XNum) :
    (Config.NumDomain.exact.sum ((k.zip k.tail).map fun uu => trapezoid .exact v uu.1 uu.2)).toReal =
      overNeighbours (areaReal (realAt v) v.length) (k.map XNum.toReal) := by
  simp only [exact_sum, toReal_sum, List.map_map, Function.comp_def, toReal_trapezoid, overNeighbours, ← List.map_tail,
    List.zip_map, Prod.map]

/-- R152: over the exact reals the average is the trapezoid rule over the knots, divided by the span. -/
theorem toReal_avg (v : List XNum) (b e : XNum) :
    (avg .exact v b e).toReal = averageReal (realAt v) v.length b.toReal e.toReal := by
  rw [averageReal_eq, avg]
  simp only [eq_iff_toReal, apply_ite XNum.toReal, toReal_lin, exact_div, toReal_div, exact_sub, toReal_sub,
    toReal_sum_trapezoids, toReal_knots]
  generalize b.toReal = x, e.toReal = y
  congr 1
  split
  case isTrue h =>
    have hnone : (⌈y⌉ - ⌊x⌋ - 1).toNat = 0 := by
      have : ⌈y⌉ ≤ ⌊x⌋ + 1 := Int.ceil_le.2 (by exact_mod_cast h)
      omega
    rw [hnone, List.range_zero, List.map_nil, List.nil_append, overNeighbours_pair]
  case isFalse h =>
    have hlt : ⌊x⌋ + 1 < ⌈y⌉ := Int.lt_ceil.2 (by push_cast; exact not_le.1 h)
    have hcount : (⌈y⌉ - ⌊x⌋ - 1).toNat = (⌈y⌉ - ⌊x⌋ - 2).toNat + 1 := by omega
    have hlast : ⌊x⌋ + 1 + ((⌈y⌉ - ⌊x⌋ - 2).toNat : ℤ) = ⌈y⌉ - 1 := by omega
    rw [hcount, overNeighbours_inner, hlast]
    simp only [Nat.cast_zero, add_zero, Nat.cast_add, Nat.cast_one]
    congr 3
    refine Finset.sum_congr rfl fun j _ => ?_
    congr 2
    ring

/-- AVGINT past its checks delivers the average. -/
theorem exec_avgint {rd r1 r2 : RReg} {fa : FReg} {s : State} {v : List XNum} {a b : XNum} (hv : s.fReg[fa] = some v)
    (ha : s.rReg[r1] = some a) (hb : s.rReg[r2] = some b) (hle : a.toReal ≤ b.toReal) (h0 : 0 ≤ a.toReal)
    (hlast : b.toReal ≤ (v.length : ℝ) - 1) :
    exec (.avgint rd fa r1 r2) s = .next ((s.setR rd (avg s.params.num v a b)).retire noWarn) := by
  have hcheck1 : b.lt a = false := (lt_eq_false_iff_toReal b a).2 hle
  have hcheck2 : a.lt (.rat 0) = false := (lt_eq_false_iff_toReal a _).2 (by simpa using h0)
  have hcheck3 : (XNum.ofInt ((v.length : Int) - 1)).lt b = false :=
    (lt_eq_false_iff_toReal _ b).2 (by rwa [toReal_lastIndex])
  simp only [exec, execAvgint, readF_ok_iff.2 hv, readR_ok_iff.2 ha, readR_ok_iff.2 hb, ok_bind, hcheck1, hcheck2, hcheck3,
    failIf_false, pure_eq_ok, complete_ok]

/-- Settles O44: the machine's average stands for the average over the reals. -/
theorem avgintAverages : Obligations.AvgintAverages := by
  intro rd fa rb re s d b e hd hb he hle h0 hlast
  exact ⟨_, exec_avgint hd hb he hle h0 hlast, fun hnum => hnum ▸ toReal_avg d b e⟩

end Sys2Proof.Machine
end

section
/-! SUPPORT. The pulse shaping that the modulators share (spec/44_modulator_config.md R179 to R181) over the real numbers. -/

namespace Sys2Proof.Machine

/-! ## The width of the pulse (R179) -/

theorem toReal_max (a b : XNum) : (XNum.max a b).toReal = max a.toReal b.toReal := by
  rw [XNum.max]
  split
  case isTrue h => exact (max_eq_right ((le_iff_toReal a b).1 h)).symm
  case isFalse h =>
    rw [le_iff_toReal, not_le] at h
    exact (max_eq_left h.le).symm

theorem toReal_maxFrom (a : XNum) (l : List XNum) :
    ((XNum.maxFrom a l).toReal : WithBot ℝ) = ((a :: l).map XNum.toReal).maximum := by
  induction l generalizing a with
  | nil => simp [XNum.maxFrom]
  | cons b l ih =>
    have hstep : XNum.maxFrom a (b :: l) = XNum.maxFrom (XNum.max a b) l := rfl
    rw [hstep, ih]
    simp only [List.map_cons, List.maximum_cons, toReal_max, WithBot.coe_max, max_assoc]

theorem toReal_maxOf (l : List XNum) : (maxOf l).toReal = (l.map XNum.toReal).maximum.unbotD 0 := by
  cases l with
  | nil => simp [maxOf]
  | cons a l => rw [maxOf, ← toReal_maxFrom, WithBot.unbotD_coe]

theorem toReal_pulseSigma (p : Config.Params) (c : ModemConfig) : (pulseSigma p c).toReal = sigmaReal p c := by
  unfold pulseSigma sigmaReal
  cases hmode : c.mode <;> simp [toReal_min, toReal_maxOf, realAlpha, Function.comp_def]

/-! ## The sample times (R181) -/

theorem toReal_samplesPerSymbol (d : Config.NumDomain) (c : ModemConfig) :
    (samplesPerSymbol d c).toReal = d.divR c.fs.toReal c.baud.toReal := num_div ..

theorem sampleCount_eq (d : Config.NumDomain) (c : ModemConfig) (slots : ℕ) :
    sampleCount d c slots = sampleCountReal d c slots := by
  simp [sampleCount, sampleCountReal, ceil_eq_toReal, toReal_samplesPerSymbol]

/-- R141, R181: over the exact reals sample `i` stands at `i/FS`. -/
theorem toReal_sampleTimes (c : ModemConfig) (slots : ℕ) {i : ℕ} (h : i < (sampleTimes .exact c slots).length) :
    ((sampleTimes .exact c slots)[i]).toReal = i / c.fs.toReal := timeGrid_toReal _ _ _ h

/-! ## The shaped sequence (R181) -/

/-- The convolution looks at the signal and the kernel inside their lengths only. -/
theorem convReal_congr {u u' w w' : ℕ → ℝ} {n k : ℕ} (hu : ∀ i < n, u i = u' i) (hw : ∀ j < k, w j = w' j) (i : ℕ) :
    convReal u n w k i = convReal u' n w' k i := by
  refine Finset.sum_congr rfl fun j hj => ?_
  split
  case isTrue h => rw [hu _ h.2, hw _ (Finset.mem_range.1 hj)]
  case isFalse => rfl

theorem realAt_resample {t : List XNum} (baud : XNum) (v : List XNum) {j : ℕ} (h : j < t.length) :
    realAt (resample .exact t baud v) j = holdReal v (realAt t j * baud.toReal) := by
  rw [realAt, resample_getD _ _ _ h, toReal_hold, exact_mul, toReal_mul, realAt]

theorem realAt_shaped {p : Config.Params} (hd : p.num = .exact) (c : ModemConfig) (vals : List XNum) {i : ℕ}
    (h : i < (shaped p c vals).length) : realAt (shaped p c vals) i = shapedReal p c vals i := by
  have hcount : (gauss .exact c.fs (pulseSigma p c)).length =
      (gaussCount p.num c.fs.toReal (sigmaReal p c)).toNat := by
    rw [gauss_length, gaussLength_eq, toReal_pulseSigma, hd]
  have htimes : (sampleTimes .exact c vals.length).length = (sampleCountReal p.num c vals.length).toNat := by
    rw [sampleTimes_length, sampleCount_eq, hd]
  have hi : i < (resample .exact (sampleTimes .exact c vals.length) c.baud vals).length := by
    rwa [shaped_length, hd, ← sampleTimes_length, ← resample_length .exact _ c.baud vals] at h
  have hshaped : shaped p c vals = convSame .exact
      (resample .exact (sampleTimes .exact c vals.length) c.baud vals) (gauss .exact c.fs (pulseSigma p c)) := by
    rw [shaped, hd]
  rw [hshaped, realAt_convSame _ _ hi, shapedReal, hcount, resample_length, htimes]
  refine convReal_congr (fun j hj => ?_) (fun j hj => ?_) i
  · rw [← htimes] at hj
    rw [realAt_resample _ _ hj, realAt_of_lt hj, toReal_sampleTimes]
  · rw [realAt_gauss _ _ (hcount ▸ hj), toReal_pulseSigma, hcount]

/-- R181: `guarded` gives the values of a transmission. -/
theorem guarded_eq_slotValues (value : Cplx → XNum) (c : ModemConfig) (q : List Word) :
    guarded (fun j => value (c.alpha.getD j Cplx.zero)) q = slotValues value c q := rfl

end Sys2Proof.Machine
end

section
/-! SUPPORT. The four modulators past their checks (spec/46_ask.md R200, spec/47_fsk.md R210, spec/48_psk_qam.md R220,
R222). -/

namespace Sys2Proof.Machine

/-! ## What the modulators have in common -/

/-- A MOD* command of a mode (R181): the checks of the transmission, then the samples that the mode makes of it. -/
def transmit (mode : Mode) (samples : Config.Params → ModemConfig → List Word → List XNum) (fd : FReg) (ss : SReg)
    (s : State) : Host.Outcome State Fault Refusal :=
  s.complete do
    let q ← s.readS ss
    s.needCfg [mode]
    checkTransmission s.params s.cfg q
    let t ← s.putF fd (samples s.params s.cfg q)
    return (t, noWarn)

theorem exec_modask (fd : FReg) (ss : SReg) (s : State) : exec (.modask fd ss) s = transmit .ask askSamples fd ss s := rfl
theorem exec_modfsk (fd : FReg) (ss : SReg) (s : State) : exec (.modfsk fd ss) s = transmit .fsk fskSamples fd ss s := rfl
theorem exec_modpsk (fd : FReg) (ss : SReg) (s : State) : exec (.modpsk fd ss) s = transmit .psk pskSamples fd ss s := rfl
theorem exec_modqam (fd : FReg) (ss : SReg) (s : State) : exec (.modqam fd ss) s = transmit .qam qamSamples fd ss s := rfl

theorem needCfg_eq_ok {s : State} {mode : Mode} (hvalid : s.cfg.valid = true) (hmode : s.cfg.mode = mode) :
    s.needCfg [mode] = .ok () := needCfg_ok_iff.2 ⟨hvalid, by simp [hmode]⟩

theorem symbolOutside_eq_false {bound : ℕ} {w : Word} (h : 0 ≤ w.toInt ∧ w.toInt < bound) :
    symbolOutside bound w = false := by
  simpa [symbolOutside] using h

/-- Past its checks a MOD* command delivers the samples. -/
theorem transmit_delivers {mode : Mode} {samples : Config.Params → ModemConfig → List Word → List XNum} {fd : FReg}
    {ss : SReg} {s : State} {q : List Word} (hq : s.sReg[ss] = some q) (hvalid : s.cfg.valid = true)
    (hmode : s.cfg.mode = mode) (hsym : ∀ w ∈ q, 0 ≤ w.toInt ∧ w.toInt < s.cfg.n)
    (hfits : overMax s.params (sampleCountReal s.params.num s.cfg (q.length + 2)) = false)
    (hlen : (samples s.params s.cfg q).length = (sampleCountReal s.params.num s.cfg (q.length + 2)).toNat) :
    transmit mode samples fd ss s = .next ((s.setF fd (samples s.params s.cfg q)).retire 0) := by
  have hcheck : checkTransmission s.params s.cfg q = .ok () :=
    checkTransmission_ok_iff.2 ⟨fun w hw => symbolOutside_eq_false (hsym w hw), by rwa [sampleCount_eq]⟩
  rw [transmit, readS_ok_iff.2 hq, ok_bind, needCfg_eq_ok hvalid hmode, ok_bind, hcheck, ok_bind]
  exact deliverF_fits (by rw [hlen]; exact overMax_toNat hfits)

/-- R200, R220, R222: over the exact reals the carrier's phase at sample `i`. -/
theorem toReal_carrierPhase (c : ModemConfig) (t : XNum) :
    (carrierPhase .exact c t).toReal = 2 * Real.pi * c.carrier.toReal * t.toReal := by
  simp [carrierPhase]

section
variable {p : Config.Params} {c : ModemConfig} {q : List Word} {i : ℕ}

/-- The shaped values of a transmission, as many as its samples. -/
theorem shaped_guarded_length (value : ℕ → XNum) :
    (shaped p c (guarded value q)).length = (sampleCountReal p.num c (q.length + 2)).toNat := by
  rw [shaped_length, guarded_length, sampleCount_eq]

theorem sampleTimes_length_eq (d : Config.NumDomain) (slots : ℕ) :
    (sampleTimes d c slots).length = (sampleCountReal d c slots).toNat := by rw [sampleTimes_length, sampleCount_eq]

/-- Element `i` of the shaped values of a transmission, over the exact reals. -/
theorem toReal_shaped_guarded (hd : p.num = .exact) (value : Cplx → XNum)
    (h : i < (shaped p c (guarded (fun j => value (c.alpha.getD j Cplx.zero)) q)).length) :
    ((shaped p c (guarded (fun j => value (c.alpha.getD j Cplx.zero)) q))[i]).toReal =
      shapedReal p c (slotValues value c q) i := by
  rw [← realAt_of_lt h]
  exact realAt_shaped hd c _ h

/-! ## MODASK -/

theorem askSamples_length : (askSamples p c q).length = (sampleCountReal p.num c (q.length + 2)).toNat := by
  rw [askSamples, List.length_zipWith, sampleTimes_length_eq, shaped_guarded_length, min_self]

/-- R200: the envelope on the carrier's cosine. -/
theorem realAt_askSamples (hd : p.num = .exact) (h : i < (askSamples p c q).length) : realAt (askSamples p c q) i =
    shapedReal p c (slotValues Cplx.re c q) i * Real.cos (2 * Real.pi * c.carrier.toReal * (i / c.fs.toReal)) := by
  rw [realAt_of_lt h]
  simp only [askSamples, List.getElem_zipWith, hd, exact_mul, toReal_mul, exact_cos, toReal_cos, toReal_carrierPhase,
    toReal_sampleTimes]
  rw [← toReal_shaped_guarded hd Cplx.re]
  rfl

/-! ## MODFSK -/

theorem phasesFrom_length (d : Config.NumDomain) (fs ph prev : XNum) (l : List XNum) :
    (phasesFrom d fs ph prev l).length = l.length := by
  induction l generalizing ph prev with
  | nil => rfl
  | cons f l ih => simp [phasesFrom, ih]

@[simp] theorem phases_length (d : Config.NumDomain) (fs : XNum) (l : List XNum) : (phases d fs l).length = l.length := by
  cases l <;> simp [phases, phasesFrom_length]

/-- One step of the trapezoid rule from the phase `ph` over the frequencies before and after (R210). -/
noncomputable def nextPhase (fs ph before after : ℝ) : ℝ := ph + 2 * Real.pi * (before + after) / (2 * fs)

theorem realAt_phasesFrom (fs ph prev : XNum) (l : List XNum) {j : ℕ} (h : j < l.length) :
    realAt (phasesFrom .exact fs ph prev l) j =
      nextPhase fs.toReal (realAt (ph :: phasesFrom .exact fs ph prev l) j) (realAt (prev :: l) j) (realAt l j) := by
  induction l generalizing ph prev j with
  | nil => simp at h
  | cons f l ih =>
    cases j with
    | zero => simp [realAt, phasesFrom, nextPhase]
    | succ j => exact ih _ f (by simpa using h)

theorem realAt_phases_zero (fs : XNum) (l : List XNum) : realAt (phases .exact fs l) 0 = 0 := by
  cases l <;> simp [realAt, phases]

/-- R210: the phases follow the running trapezoid integral of the frequency. -/
theorem realAt_phases_succ (fs : XNum) {l : List XNum} {j : ℕ} (h : j + 1 < l.length) :
    realAt (phases .exact fs l) (j + 1) =
      nextPhase fs.toReal (realAt (phases .exact fs l) j) (realAt l j) (realAt l (j + 1)) := by
  cases l with
  | nil => simp at h
  | cons f l => exact realAt_phasesFrom fs _ f l (by simpa using h)

theorem fskSamples_length : (fskSamples p c q).length = (sampleCountReal p.num c (q.length + 2)).toNat := by
  rw [fskSamples, List.length_zipWith, phases_length, shaped_guarded_length, shaped_guarded_length, min_self]

/-- R210: the envelope on the cosine of the phase. -/
theorem realAt_fskSamples (hd : p.num = .exact) (h : i < (fskSamples p c q).length) : realAt (fskSamples p c q) i =
    shapedReal p c (slotValues (fun _ => c.amp) c q) i
      * Real.cos (realAt (phases .exact c.fs (shaped p c (guarded (alphaRe c) q))) i) := by
  have hphase : i < (phases .exact c.fs (shaped p c (guarded (alphaRe c) q))).length := by
    rwa [phases_length, shaped_guarded_length, ← fskSamples_length]
  rw [realAt_of_lt h, realAt_of_lt hphase]
  simp only [fskSamples, List.getElem_zipWith, hd, exact_mul, toReal_mul, exact_cos, toReal_cos]
  rw [← toReal_shaped_guarded hd fun _ => c.amp]

/-! ## MODPSK -/

theorem pskSamples_length : (pskSamples p c q).length = (sampleCountReal p.num c (q.length + 2)).toNat := by
  simp only [pskSamples, List.length_zipWith, sampleTimes_length_eq, shaped_guarded_length, min_self]

/-- R220: the phase inside the cosine. -/
theorem realAt_pskSamples (hd : p.num = .exact) (h : i < (pskSamples p c q).length) : realAt (pskSamples p c q) i =
    shapedReal p c (slotValues (fun _ => c.amp) c q) i
      * Real.cos (2 * Real.pi * c.carrier.toReal * (i / c.fs.toReal) + shapedReal p c (slotValues Cplx.re c q) i) := by
  rw [realAt_of_lt h]
  simp only [pskSamples, List.getElem_zipWith, hd, exact_mul, toReal_mul, exact_cos, toReal_cos, exact_add, toReal_add,
    toReal_carrierPhase, toReal_sampleTimes]
  rw [← toReal_shaped_guarded hd fun _ => c.amp, ← toReal_shaped_guarded hd Cplx.re]
  rfl

/-! ## MODQAM -/

theorem qamSamples_length : (qamSamples p c q).length = (sampleCountReal p.num c (q.length + 2)).toNat := by
  simp only [qamSamples, List.length_zipWith, List.length_zip, sampleTimes_length_eq, shaped_guarded_length, min_self]

/-- R222: the real part on the cosine, the imaginary part on the negated sine. -/
theorem realAt_qamSamples (hd : p.num = .exact) (h : i < (qamSamples p c q).length) : realAt (qamSamples p c q) i =
    shapedReal p c (slotValues Cplx.re c q) i * Real.cos (2 * Real.pi * c.carrier.toReal * (i / c.fs.toReal))
      - shapedReal p c (slotValues Cplx.im c q) i * Real.sin (2 * Real.pi * c.carrier.toReal * (i / c.fs.toReal)) := by
  rw [realAt_of_lt h]
  simp only [qamSamples, List.getElem_zipWith, List.getElem_zip, hd, exact_mul, toReal_mul, exact_cos, toReal_cos, exact_sin,
    toReal_sin, exact_sub, toReal_sub, toReal_carrierPhase, toReal_sampleTimes]
  rw [← toReal_shaped_guarded hd Cplx.re, ← toReal_shaped_guarded hd Cplx.im]
  rfl

end

/-! ## The statements -/

/-- Settles O52. -/
theorem modaskMixesEnvelope : Obligations.ModaskMixesEnvelope := by
  intro fd ss s q hq hvalid hmode hsym hfits
  exact ⟨_, (exec_modask fd ss s).trans (transmit_delivers hq hvalid hmode hsym hfits askSamples_length),
    askSamples_length, fun hd i hi => realAt_askSamples hd hi⟩

/-- Settles O53: the phase is the machine's phase sequence, which `realAt_phases_succ` ties to the frequency. -/
theorem modfskIntegratesFrequency : Obligations.ModfskIntegratesFrequency := by
  intro fd ss s q hq hvalid hmode hsym hfits frequency envelope
  refine ⟨_, realAt (phases .exact s.cfg.fs (shaped s.params s.cfg (guarded (alphaRe s.cfg) q))),
    (exec_modfsk fd ss s).trans (transmit_delivers hq hvalid hmode hsym hfits fskSamples_length), fskSamples_length,
    fun hd => ⟨realAt_phases_zero _ _, fun i hi => ?_, fun i hi => realAt_fskSamples hd hi⟩⟩
  have hlt : i + 1 < (shaped s.params s.cfg (guarded (alphaRe s.cfg) q)).length := by
    rwa [shaped_guarded_length, ← fskSamples_length]
  have hfreq : ∀ j < (shaped s.params s.cfg (guarded (alphaRe s.cfg) q)).length,
      realAt (shaped s.params s.cfg (guarded (alphaRe s.cfg) q)) j = frequency j := fun j hj => realAt_shaped hd _ _ hj
  rw [realAt_phases_succ _ hlt, hfreq _ hlt, hfreq i (Nat.lt_of_succ_lt hlt)]
  rfl

/-- Settles O54. -/
theorem modpskShiftsPhase : Obligations.ModpskShiftsPhase := by
  intro fd ss s q hq hvalid hmode hsym hfits
  exact ⟨_, (exec_modpsk fd ss s).trans (transmit_delivers hq hvalid hmode hsym hfits pskSamples_length),
    pskSamples_length, fun hd i hi => realAt_pskSamples hd hi⟩

/-- Settles O55. -/
theorem modqamMixesQuadrature : Obligations.ModqamMixesQuadrature := by
  intro fd ss s q hq hvalid hmode hsym hfits
  exact ⟨_, (exec_modqam fd ss s).trans (transmit_delivers hq hvalid hmode hsym hfits qamSamples_length),
    qamSamples_length, fun hd i hi => realAt_qamSamples hd hi⟩

end Sys2Proof.Machine
end

section
/-! SUPPORT. The symbol slicer (spec/45_slicer.md R190, R191; spec/44_modulator_config.md R183): the nearest codeword, the
finishing step, and what the two deliver together. -/

namespace Sys2Proof.Machine

/-! ## The first smallest value -/

/-- `j` is the first of the places below `n` at which `f` is smallest. -/
def IsFirstMin (f : ℕ → ℝ) (n j : ℕ) : Prop := j < n ∧ (∀ m < n, f j ≤ f m) ∧ ∀ m < j, f j < f m

section
variable {f : ℕ → ℝ} {n j : ℕ}

theorem isFirstMin_one : IsFirstMin f 1 0 :=
  ⟨one_pos, fun _ hm => by rw [Nat.lt_one_iff.1 hm], fun _ hm => absurd hm (Nat.not_lt_zero _)⟩

/-- A later value that is no smaller leaves the place as it is. -/
theorem IsFirstMin.keep (h : IsFirstMin f n j) (hle : f j ≤ f n) : IsFirstMin f (n + 1) j := by
  obtain ⟨hlt, hmin, hfirst⟩ := h
  refine ⟨hlt.trans (Nat.lt_succ_self n), fun m hm => ?_, hfirst⟩
  rcases Nat.lt_succ_iff_lt_or_eq.1 hm with hm | rfl
  · exact hmin m hm
  · exact hle

/-- A later value that is smaller takes over. -/
theorem IsFirstMin.take (h : IsFirstMin f n j) (hlt : f n < f j) : IsFirstMin f (n + 1) n := by
  obtain ⟨-, hmin, -⟩ := h
  have hbefore : ∀ m < n, f n < f m := fun m hm => hlt.trans_le (hmin m hm)
  refine ⟨Nat.lt_succ_self n, fun m hm => ?_, hbefore⟩
  rcases Nat.lt_succ_iff_lt_or_eq.1 hm with hm | rfl
  · exact (hbefore m hm).le
  · exact le_rfl

end

/-! ## The nearest codeword (R190) -/

/-- The squared distance of the observation to codeword `m`, as the numeric domain computes it. -/
noncomputable def codeDist (d : Config.NumDomain) (code : List (List XNum)) (o : List XNum) (m : ℕ) : ℝ :=
  (dist2 d o (code.getD m [])).toReal

/-- Going through the codewords after those of `seen`. -/
theorem nearestFrom_isFirstMin {d : Config.NumDomain} {code : List (List XNum)} {o : List XNum} {rest : List (List XNum)}
    {seen : List (List XNum)} {j n : ℕ} (hcode : code = seen ++ rest) (hn : seen.length = n)
    (h : IsFirstMin (codeDist d code o) n j) :
    IsFirstMin (codeDist d code o) code.length (nearestFrom d o (dist2 d o (code.getD j [])) j n rest) := by
  induction rest generalizing seen j n with
  | nil =>
    obtain rfl : code.length = n := by rw [hcode, List.append_nil, hn]
    exact h
  | cons c rest ih =>
    have hc : c = code.getD n [] := by simp [hcode, ← hn]
    have hcode' : code = (seen ++ [c]) ++ rest := by simp [hcode]
    have hn' : (seen ++ [c]).length = n + 1 := by simp [hn]
    rw [nearestFrom]
    split
    case isTrue hle =>
      rw [hc, le_iff_toReal] at hle
      exact ih hcode' hn' (h.keep hle)
    case isFalse hgt =>
      rw [hc, le_iff_toReal, not_le] at hgt
      rw [hc]
      exact ih hcode' hn' (h.take hgt)

/-- R190: the nearest codeword's index is the first with the smallest distance, in either numeric domain. -/
theorem nearest_isFirstMin (d : Config.NumDomain) {code : List (List XNum)} (o : List XNum) (h : code ≠ []) :
    IsFirstMin (codeDist d code o) code.length (nearest d code o) := by
  cases code with
  | nil => exact absurd rfl h
  | cons c rest => exact nearestFrom_isFirstMin (seen := [c]) rfl rfl isFirstMin_one

/-- R190: over the exact reals the distance is the squared Euclidean one. -/
theorem nearest_isNearest {code : List (List XNum)} (o : List XNum) (h : code ≠ []) :
    IsNearest (code.map (List.map XNum.toReal)) (o.map XNum.toReal) (nearest .exact code o) := by
  have hdist (m : ℕ) : (List.zipWith (fun a b => (a - b) ^ 2) (o.map XNum.toReal)
      ((code.map (List.map XNum.toReal)).getD m [])).sum = codeDist .exact code o m := by
    rw [codeDist, dist2_toReal, ← List.map_nil (f := XNum.toReal), List.getD_map, List.zipWith_map]
  simp only [IsNearest, hdist, List.length_map]
  exact nearest_isFirstMin .exact o h

/-! ## The finishing step (R183) -/

theorem corruptOnly_eq_iff (c : Bool) : corruptOnly c = 0b1000 ↔ c = true := by cases c <;> decide

theorem corruptOnly_or (c : Bool) : corruptOnly c = 0b1000 ∨ corruptOnly c = 0 := by cases c <;> decide

theorem toInt_ofInt_symbol {j : ℕ} (h : j < 2 ^ 31) : (BitVec.ofInt Config.xlen ((j : ℤ) - 1)).toInt = (j : ℤ) - 1 := by
  rw [BitVec.toInt_ofInt]
  exact Int.bmod_eq_of_le (by norm_num [xlen_eq]; omega) (by norm_num [xlen_eq]; omega)

section
variable {idx : List ℕ}

@[simp] theorem finish_length : (finish idx).1.length = idx.length - 2 := by simp [finish]; omega

/-- R183: symbol `i` is index `i + 1`, less 1. -/
theorem toInt_finish {i : ℕ} (hidx : ∀ j ∈ idx, j < 2 ^ 31) (h : i < (finish idx).1.length) :
    ((finish idx).1.getD i 0).toInt = (idx.getD (i + 1) 0 : ℤ) - 1 := by
  have hlt : i + 1 < idx.length := by rw [finish_length] at h; omega
  rw [List.getD_eq_getElem _ _ h, List.getD_eq_getElem _ _ hlt]
  simp only [finish, List.getElem_map, List.getElem_dropLast, List.getElem_tail]
  exact toInt_ofInt_symbol (hidx _ (List.getElem_mem hlt))

/-- R183: the warning is raised exactly when a guard is not null or an inner symbol is. -/
theorem finish_warns_iff (h : 2 ≤ idx.length) : (finish idx).2 = 0b1000 ↔
    idx.getD 0 0 ≠ 0 ∨ idx.getD (idx.length - 1) 0 ≠ 0 ∨ ∃ i, 1 ≤ i ∧ i < idx.length - 1 ∧ idx.getD i 0 = 0 := by
  have hnull (j : ℕ) : (j : ℤ) - 1 = -1 ↔ j = 0 := by omega
  have hinner : (∃ v ∈ (idx.map fun j : ℕ => (j : ℤ) - 1).tail.dropLast, v = -1) ↔
      ∃ i, 1 ≤ i ∧ i < idx.length - 1 ∧ idx.getD i 0 = 0 := by
    constructor
    · rintro ⟨v, hv, hnullv⟩
      obtain ⟨i, hi, rfl⟩ := List.mem_iff_getElem.1 hv
      simp only [List.length_dropLast, List.length_tail, List.length_map] at hi
      simp only [List.getElem_dropLast, List.getElem_tail, List.getElem_map, hnull] at hnullv
      exact ⟨i + 1, by omega, by omega, by rwa [List.getD_eq_getElem _ _ (by omega)]⟩
    · rintro ⟨i, hi, hi', hnulli⟩
      obtain ⟨i, rfl⟩ := Nat.exists_eq_succ_of_ne_zero (Nat.one_le_iff_ne_zero.1 hi)
      refine ⟨_, List.getElem_mem (n := i) (by simp; omega), ?_⟩
      rw [List.getD_eq_getElem _ _ (by omega)] at hnulli
      simpa only [List.getElem_dropLast, List.getElem_tail, List.getElem_map, hnull] using hnulli
  have hfirst : (idx.map fun j : ℕ => (j : ℤ) - 1).head? ≠ some (-1) ↔ idx.getD 0 0 ≠ 0 := by
    rw [List.head?_eq_getElem?, List.getElem?_eq_getElem (by simp; omega), List.getD_eq_getElem _ _ (by omega)]
    simp [hnull]
  have hlast : (idx.map fun j : ℕ => (j : ℤ) - 1).getLast? ≠ some (-1) ↔ idx.getD (idx.length - 1) 0 ≠ 0 := by
    rw [List.getLast?_eq_getElem?, List.getElem?_eq_getElem (by simp; omega), List.getD_eq_getElem _ _ (by omega)]
    simp [hnull]
  simp only [finish, corruptOnly_eq_iff, Bool.or_eq_true, List.any_eq_true, decide_eq_true_eq]
  rw [hfirst, hlast, hinner, or_assoc]

theorem finish_isFinished (h : 2 ≤ idx.length) (hidx : ∀ j ∈ idx, j < 2 ^ 31) :
    IsFinished idx (finish idx).1 (finish idx).2 :=
  ⟨finish_length, fun _ hi => toInt_finish hidx hi, corruptOnly_or _, finish_warns_iff h⟩

end

/-! ## Slicing -/

/-- R191: the machine's codebook stands for that of the mode. -/
theorem codebookReal_eq (c : ModemConfig) : codebookReal c = (codebook .exact c).map (List.map XNum.toReal) := by
  unfold codebookReal codebook
  cases c.mode <;> simp [Function.comp_def, apply_ite XNum.toReal]

/-- What slicing the observations and finishing gives. -/
def sliced (d : Config.NumDomain) (c : ModemConfig) (obs : List (List XNum)) : List Word × BitVec 4 :=
  finish (vq d obs (codebook d c))

section
variable {d : Config.NumDomain} {c : ModemConfig} {obs : List (List XNum)}

@[simp] theorem vq_length (code : List (List XNum)) : (vq d obs code).length = obs.length := by simp [vq]

theorem sliced_length : (sliced d c obs).1.length = obs.length - 2 := by rw [sliced, finish_length, vq_length]

theorem sliced_warn : (sliced d c obs).2 = 0b1000 ∨ (sliced d c obs).2 = 0 := corruptOnly_or _

/-- Each index is that of a codeword: the null, or one for each symbol. -/
theorem le_of_mem_vq (hn : c.n = c.alpha.length) {j : ℕ} (hj : j ∈ vq d obs (codebook d c)) : j ≤ c.n := by
  obtain ⟨o, -, rfl⟩ := List.mem_map.1 hj
  have hlt := (nearest_isFirstMin d o (codebook_ne_nil d c)).1
  rw [codebook_length d c hn] at hlt
  omega

theorem sliced_range (hn : c.n = c.alpha.length) (hmax : c.n < 2 ^ 31) {a : Word} (ha : a ∈ (sliced d c obs).1) :
    -1 ≤ a.toInt ∧ a.toInt < c.n := by
  rw [sliced] at ha
  obtain ⟨i, hi, rfl⟩ := List.mem_iff_getElem.1 ha
  have hidx : ∀ j ∈ vq d obs (codebook d c), j < 2 ^ 31 := fun j hj => (le_of_mem_vq hn hj).trans_lt hmax
  have hlt : i + 1 < (vq d obs (codebook d c)).length := by
    rw [finish_length] at hi
    omega
  have hsym := toInt_finish hidx hi
  rw [List.getD_eq_getElem _ _ hi, List.getD_eq_getElem _ _ hlt] at hsym
  have hle := le_of_mem_vq hn (List.getElem_mem hlt)
  omega

/-- R183, R190, R191: over the exact reals the indices are those of the nearest codewords, finished. -/
theorem sliced_isSliced (hn : c.n = c.alpha.length) (hmax : c.n < 2 ^ 31) (hobs : 2 ≤ obs.length) :
    IsSliced c (obs.map (List.map XNum.toReal)) (sliced .exact c obs).1 (sliced .exact c obs).2 := by
  refine ⟨vq .exact obs (codebook .exact c), by simp, fun i hi => ?_, ?_⟩
  · have hi' : i < obs.length := by simpa using hi
    rw [List.getD_eq_getElem _ _ hi, List.getD_eq_getElem _ _ (by simpa using hi'), List.getElem_map, codebookReal_eq]
    simp only [vq, List.getElem_map]
    exact nearest_isNearest _ (codebook_ne_nil _ c)
  · exact finish_isFinished (by simpa using hobs) fun j hj => (le_of_mem_vq hn hj).trans_lt hmax

end

/-- R183: the symbols are written and the warning raised. -/
theorem sliceInto_eq_ok {s : State} (sd : SReg) {obs : List (List XNum)} (h : overMax s.params obs.length = false) :
    sliceInto s sd obs = .ok (s.setS sd (sliced s.params.num s.cfg obs).1, (sliced s.params.num s.cfg obs).2) :=
  sliceInto_ok_iff.2 ⟨overMax_mono (by rw [finish_length, vq_length]; omega) h, rfl, rfl⟩

end Sys2Proof.Machine
end

section
/-! SUPPORT. What the four demodulators share (spec/44_modulator_config.md R180, R182, R184): the averaging windows, the
filter, and the order of the checks. -/

namespace Sys2Proof.Machine

/-! ## The averaging windows (R182) -/

theorem intervalCount_eq (d : Config.NumDomain) (c : ModemConfig) (n : ℕ) :
    intervalCount d c n = intervalCountReal d c n := by
  simp [intervalCount, intervalCountReal, roundHe_eq_roundEven, toReal_samplesPerSymbol]

theorem toReal_transitionWidth (p : Config.Params) (c : ModemConfig) : (transitionWidth p c).toReal =
    p.num.mulR (p.num.mulR p.sigmaMultT.toReal (sigmaReal p c)) c.fs.toReal := by
  simp [transitionWidth, toReal_pulseSigma]

theorem toReal_interval (p : Config.Params) (c : ModemConfig) (n count i : ℕ) :
    ((interval p c n count i).1.toReal, (interval p c n count i).2.toReal) = intervalReal p c n count i := by
  simp [interval, intervalReal, toReal_min, toReal_samplesPerSymbol, toReal_transitionWidth, apply_ite XNum.toReal]

theorem toReal_interval_fst (p : Config.Params) (c : ModemConfig) (n count i : ℕ) :
    (interval p c n count i).1.toReal = (intervalReal p c n count i).1 := by rw [← toReal_interval]

theorem toReal_interval_snd (p : Config.Params) (c : ModemConfig) (n count i : ℕ) :
    (interval p c n count i).2.toReal = (intervalReal p c n count i).2 := by rw [← toReal_interval]

theorem intervalList_eq (p : Config.Params) (c : ModemConfig) (n : ℕ) : intervalList p c n =
    (List.range (intervalCountReal p.num c n).toNat).map (interval p c n (intervalCountReal p.num c n).toNat) := by
  rw [intervalList, intervalCount_eq]

theorem intervals_eq_error {p : Config.Params} {c : ModemConfig} {n : ℕ} (h : intervalCountReal p.num c n < 2) :
    intervals p c n = .error ⟨.length, intervalCountReal p.num c n⟩ := by
  rw [intervals, intervalCount_eq, decide_eq_true h, failIf_true, error_bind]

theorem intervals_eq_ok {p : Config.Params} {c : ModemConfig} {n : ℕ} (h : 2 ≤ intervalCountReal p.num c n) :
    intervals p c n = .ok (intervalList p c n) := intervals_ok_iff.2 ⟨by rwa [intervalCount_eq], rfl⟩

/-! ## The filter (R184) -/

theorem toReal_passEdge (d : Config.NumDomain) (c : ModemConfig) : (passEdge d c).toReal = passReal d c := by
  simp [passEdge, passReal]

theorem toReal_stopEdge (d : Config.NumDomain) (c : ModemConfig) : (stopEdge d c).toReal = stopReal d c := by
  simp [stopEdge, stopReal, toReal_min]

/-- The condition that fails check `k` of the demodulators' filter design (R149, R184). -/
def BasebandViolates (p : Config.Params) (c : ModemConfig) (k : ℕ) : Prop :=
  lowpassViolates p.num c.fs.toReal (passReal p.num c) (stopReal p.num c) p.attDefault.toReal k

/-- The taps of a filter design that passes its checks (R184). -/
def basebandDesign (p : Config.Params) (c : ModemConfig) : List XNum :=
  lsfir p.num c.fs (passEdge p.num c) (stopEdge p.num c)
    (firLength p.num c.fs (passEdge p.num c) (stopEdge p.num c) p.attDefault).toNat

section
variable {p : Config.Params} {c : ModemConfig}

theorem basebandViolates_iff (k : ℕ) : BasebandViolates p c k ↔ lowpassViolates p.num c.fs.toReal
    (passEdge p.num c).toReal (stopEdge p.num c).toReal p.attDefault.toReal k := by
  rw [BasebandViolates, toReal_passEdge, toReal_stopEdge]

theorem basebandCount_eq : basebandCount p c = firCount p.num c.fs.toReal (passEdge p.num c).toReal
    (stopEdge p.num c).toReal p.attDefault.toReal := by
  rw [basebandCount, toReal_passEdge, toReal_stopEdge]

theorem basebandTaps_domain {k : ℕ} (h : BasebandViolates p c k) (hbefore : ∀ j < k, ¬ BasebandViolates p c j) :
    basebandTaps p c = .error ⟨.domain, k⟩ :=
  lowpass_domain ((basebandViolates_iff k).1 h) fun j hj => mt (basebandViolates_iff j).2 (hbefore j hj)

theorem basebandTaps_capacity (h : ∀ k, ¬ BasebandViolates p c k) (hmax : overMax p (basebandCount p c) = true) :
    basebandTaps p c = .error ⟨.capacity, basebandCount p c⟩ := by
  rw [basebandCount_eq] at *
  exact lowpass_capacity (fun k => mt (basebandViolates_iff k).2 (h k)) hmax

theorem basebandTaps_design (h : ∀ k, ¬ BasebandViolates p c k) (hmax : overMax p (basebandCount p c) = false) :
    basebandTaps p c = .ok (basebandDesign p c) := by
  rw [basebandCount_eq] at hmax
  rw [basebandDesign, firLength_eq]
  exact lowpass_design (fun k => mt (basebandViolates_iff k).2 (h k)) hmax

theorem basebandDesign_length : (basebandDesign p c).length = (basebandCount p c).toNat := by
  rw [basebandDesign, lsfir_length, firLength_eq, basebandCount_eq]

/-- R147, R184: the taps over the exact reals. -/
theorem realAt_basebandDesign (hd : p.num = .exact) {i : ℕ} (h : i < (basebandCount p c).toNat) :
    realAt (basebandDesign p c) i =
      firReal c.fs.toReal (passReal p.num c) (stopReal p.num c) (basebandCount p c).toNat i := by
  rw [basebandDesign, firLength_eq, ← basebandCount_eq, realAt_lsfir _ _ _ _ h, toReal_passEdge, toReal_stopEdge, hd]
  rfl

end

/-! ## The commands -/

/-- A DEM* command of a mode: the intervals, the observations that the mode makes of them, or its error, and their
slicing. -/
def demodulate (mode : Mode)
    (observe : Config.Params → ModemConfig → List XNum → List (XNum × XNum) → Cmd (List (List XNum))) (sd : SReg)
    (fx : FReg) (s : State) : Host.Outcome State Fault Refusal :=
  s.complete do
    let x ← s.readF fx
    s.needCfg [mode]
    let iv ← intervals s.params s.cfg x.length
    let obs ← observe s.params s.cfg x iv
    sliceInto s sd obs

/-- The observations of ASK, PSK and QAM, made with the taps of the filter. -/
def observeFiltered
    (observe : Config.NumDomain → ModemConfig → List XNum → List (XNum × XNum) → List XNum → List (List XNum))
    (p : Config.Params) (c : ModemConfig) (x : List XNum) (iv : List (XNum × XNum)) : Cmd (List (List XNum)) := do
  let h ← basebandTaps p c
  return observe p.num c x iv h

/-- The observations of FSK, made where no window is empty. -/
def observeTones (p : Config.Params) (c : ModemConfig) (x : List XNum) (iv : List (XNum × XNum)) :
    Cmd (List (List XNum)) := do
  checkWindows iv
  return iv.map (toneMagnitudes p.num c x)

section
variable (sd : SReg) (fx : FReg) (s : State)

theorem exec_demask : exec (.demask sd fx) s = demodulate .ask (observeFiltered askObservations) sd fx s := by
  simp only [exec, execDemask, demodulate, observeFiltered, bind_assoc, pure_bind]

theorem exec_demfsk : exec (.demfsk sd fx) s = demodulate .fsk observeTones sd fx s := by
  simp only [exec, execDemfsk, demodulate, observeTones, bind_assoc, pure_bind]

theorem exec_dempsk : exec (.dempsk sd fx) s = demodulate .psk (observeFiltered observations2d) sd fx s := by
  simp only [exec, execDempsk, demodulate, observeFiltered, bind_assoc, pure_bind]

theorem exec_demqam : exec (.demqam sd fx) s = demodulate .qam (observeFiltered observations2d) sd fx s := by
  simp only [exec, execDemqam, demodulate, observeFiltered, bind_assoc, pure_bind]

end

section
variable {mode : Mode} {observe : Config.Params → ModemConfig → List XNum → List (XNum × XNum) → Cmd (List (List XNum))}
  {sd : SReg} {fx : FReg} {s : State} {x : List XNum}

theorem demodulate_length (hx : s.fReg[fx] = some x) (hvalid : s.cfg.valid = true) (hmode : s.cfg.mode = mode)
    (hcount : intervalCountReal s.params.num s.cfg x.length < 2) :
    demodulate mode observe sd fx s = .next (s.raise ⟨.length, intervalCountReal s.params.num s.cfg x.length⟩) := by
  rw [demodulate, readF_ok_iff.2 hx, ok_bind, needCfg_eq_ok hvalid hmode, ok_bind, intervals_eq_error hcount, error_bind,
    complete_error]

theorem demodulate_error (hx : s.fReg[fx] = some x) (hvalid : s.cfg.valid = true) (hmode : s.cfg.mode = mode)
    (hcount : 2 ≤ intervalCountReal s.params.num s.cfg x.length) {e : CmdError}
    (hobs : observe s.params s.cfg x (intervalList s.params s.cfg x.length) = .error e) :
    demodulate mode observe sd fx s = .next (s.raise e) := by
  rw [demodulate, readF_ok_iff.2 hx, ok_bind, needCfg_eq_ok hvalid hmode, ok_bind, intervals_eq_ok hcount, ok_bind, hobs,
    error_bind, complete_error]

theorem demodulate_ok (hx : s.fReg[fx] = some x) (hvalid : s.cfg.valid = true) (hmode : s.cfg.mode = mode)
    (hcount : 2 ≤ intervalCountReal s.params.num s.cfg x.length) {obs : List (List XNum)}
    (hobs : observe s.params s.cfg x (intervalList s.params s.cfg x.length) = .ok obs)
    (hfits : overMax s.params obs.length = false) : demodulate mode observe sd fx s =
      .next ((s.setS sd (sliced s.params.num s.cfg obs).1).retire (sliced s.params.num s.cfg obs).2) := by
  rw [demodulate, readF_ok_iff.2 hx, ok_bind, needCfg_eq_ok hvalid hmode, ok_bind, intervals_eq_ok hcount, ok_bind, hobs,
    ok_bind, sliceInto_eq_ok sd hfits, complete_ok]

end

section
variable {observe : Config.NumDomain → ModemConfig → List XNum → List (XNum × XNum) → List XNum → List (List XNum)}
  {p : Config.Params} {c : ModemConfig} {x : List XNum} {iv : List (XNum × XNum)}

theorem observeFiltered_error {e : CmdError} (h : basebandTaps p c = .error e) :
    observeFiltered observe p c x iv = .error e := by rw [observeFiltered, h, error_bind]

theorem observeFiltered_design (h : ∀ k, ¬ BasebandViolates p c k) (hmax : overMax p (basebandCount p c) = false) :
    observeFiltered observe p c x iv = .ok (observe p.num c x iv (basebandDesign p c)) := by
  rw [observeFiltered, basebandTaps_design h hmax, ok_bind, pure_eq_ok]

theorem windowLength_eq (be : XNum × XNum) :
    windowLength be = roundEven be.2.toReal - roundEven be.1.toReal := by
  rw [windowLength, roundHe_eq_roundEven, roundHe_eq_roundEven]

/-- R211: the window of interval `i` is empty. -/
theorem windowLength_interval_le_iff (n count i : ℕ) : windowLength (interval p c n count i) ≤ 0 ↔
    roundEven (intervalReal p c n count i).2 ≤ roundEven (intervalReal p c n count i).1 := by
  rw [windowLength_eq, toReal_interval_fst, toReal_interval_snd, sub_nonpos]

theorem observeTones_error {n : ℕ} (h : ∃ i < (intervalCountReal p.num c n).toNat,
      windowLength (interval p c n (intervalCountReal p.num c n).toNat i) ≤ 0) :
    observeTones p c x (intervalList p c n) = .error ⟨.domain, 1⟩ := by
  obtain ⟨i, hi, hempty⟩ := h
  have hany : ((intervalList p c n).any fun be => decide (windowLength be ≤ 0)) = true := by
    rw [intervalList_eq, List.any_map, List.any_eq_true]
    exact ⟨i, List.mem_range.2 hi, decide_eq_true hempty⟩
  rw [observeTones, checkWindows, hany, failIf_true, error_bind]

theorem observeTones_ok {n : ℕ} (h : ∀ i < (intervalCountReal p.num c n).toNat,
      ¬ windowLength (interval p c n (intervalCountReal p.num c n).toNat i) ≤ 0) :
    observeTones p c x (intervalList p c n) = .ok ((intervalList p c n).map (toneMagnitudes p.num c x)) := by
  have hany : ((intervalList p c n).any fun be => decide (windowLength be ≤ 0)) = false := by
    rw [intervalList_eq, List.any_map, List.any_eq_false]
    exact fun i hi => by simpa using h i (List.mem_range.1 hi)
  rw [observeTones, checkWindows, hany, failIf_false, ok_bind, pure_eq_ok]

end

/-- Settles O56: the intervals are checked first, then the filter or the windows. -/
theorem demodulatorsCheckFirst : Obligations.DemodulatorsCheckFirst := by
  intro sd fx s x hx hvalid count violates
  have filtered {mode : Mode} {observe} (hmode : s.cfg.mode = mode) (hcount : 2 ≤ count) :
      (∀ k, violates k → (∀ j < k, ¬ violates j) →
        demodulate mode (observeFiltered observe) sd fx s = .next (s.raise ⟨.domain, k⟩))
      ∧ ((∀ k, ¬ violates k) → overMax s.params (basebandCount s.params s.cfg) = true →
        demodulate mode (observeFiltered observe) sd fx s =
          .next (s.raise ⟨.capacity, basebandCount s.params s.cfg⟩)) :=
    ⟨fun _ hk hbefore =>
        demodulate_error hx hvalid hmode hcount (observeFiltered_error (basebandTaps_domain hk hbefore)),
      fun hpass hmax => demodulate_error hx hvalid hmode hcount (observeFiltered_error (basebandTaps_capacity hpass hmax))⟩
  simp only [List.forall_mem_cons, List.not_mem_nil, false_imp_iff, implies_true, and_true, exec_demask, exec_demfsk,
    exec_dempsk, exec_demqam]
  refine ⟨?short, ⟨filtered, filtered, filtered⟩, ?empty⟩
  case short =>
    exact ⟨demodulate_length hx hvalid, demodulate_length hx hvalid, demodulate_length hx hvalid,
      demodulate_length hx hvalid⟩
  case empty =>
    intro hmode hcount ⟨i, hi, hempty⟩
    exact demodulate_error hx hvalid hmode hcount
      (observeTones_error ⟨i, hi, (windowLength_interval_le_iff _ _ _).2 hempty⟩)

end Sys2Proof.Machine
end

section
/-! SUPPORT. The observations of the four demodulators over the real numbers (spec/46_ask.md R201, spec/47_fsk.md R211,
spec/48_psk_qam.md R221, R223), and what the demodulators deliver past their checks. -/

namespace Sys2Proof.Machine

/-! ## The baseband signal (R184) -/

section
variable {p : Config.Params} {c : ModemConfig} {x : List XNum}

@[simp] theorem baseband_length (d : Config.NumDomain) (sign : ℤ) (h : List XNum) (part : Cplx → XNum) :
    (baseband d c x sign h part).length = x.length := by simp [baseband, mixed]

theorem toReal_mixAngle (sign : ℤ) (i : ℕ) : (mixAngle .exact c sign i).toReal =
    sign * 2 * Real.pi * c.carrier.toReal * i / c.fs.toReal := by
  simp [mixAngle]

/-- R184: the mixed signal, filtered. -/
theorem realAt_baseband (hd : p.num = .exact) {sign : ℤ} {part : Cplx → XNum} {partReal : ℝ → ℝ}
    (hpart : ∀ a, (part (Config.NumDomain.exact.cis a)).toReal = partReal a.toReal) {i : ℕ} (hi : i < x.length) :
    realAt (baseband .exact c x sign (basebandDesign p c) part) i = basebandReal p c x sign partReal i := by
  have hlen : (mixed .exact c x sign part).length = x.length := by simp [mixed]
  rw [baseband, realAt_convSame _ _ (by rwa [hlen]), basebandReal, hlen, basebandDesign_length]
  refine convReal_congr (fun j hj => ?_) (fun j hj => realAt_basebandDesign hd hj) i
  rw [realAt_of_lt (by rwa [hlen])]
  simp only [mixed, List.getElem_map, List.getElem_range, exact_mul, toReal_mul, hpart, toReal_mixAngle, toReal_rat]
  simp [realAt]

/-- The real part of the mixed signal is on the cosine. -/
theorem toReal_cis_re (a : XNum) : (Config.NumDomain.exact.cis a).re.toReal = Real.cos a.toReal := toReal_cos a

/-- The imaginary part is on the sine. -/
theorem toReal_cis_im (a : XNum) : (Config.NumDomain.exact.cis a).im.toReal = Real.sin a.toReal := toReal_sin a

/-- R182, R184: two intervals of a design that passes its checks hold two samples at least, since a symbol is longer than
one. -/
theorem two_le_samples (hd : p.num = .exact) {n : ℕ} (hpass : ∀ k, ¬ BasebandViolates p c k)
    (hcount : 2 ≤ intervalCountReal p.num c n) : 2 ≤ n := by
  obtain ⟨hfs, hpass0, hlt, hnyq, -⟩ := lowpassViolates_none_iff.1 hpass
  simp only [hd, passReal, exact_divR] at hpass0 hlt hnyq
  have hbaud : c.baud.toReal < c.fs.toReal := by linarith
  by_contra hn
  have hsamples : (n : ℝ) ≤ 1 := by exact_mod_cast (by omega : n ≤ 1)
  have hratio : (n : ℝ) / (c.fs.toReal / c.baud.toReal) ≤ 1 := by
    rw [div_div_eq_mul_div, div_le_one hfs]
    nlinarith
  have hround := (abs_le.1 (abs_roundEven_sub_le ((n : ℝ) / (c.fs.toReal / c.baud.toReal)))).2
  have htwo : (2 : ℝ) ≤ roundEven ((n : ℝ) / (c.fs.toReal / c.baud.toReal)) := by
    simp only [intervalCountReal, hd, exact_divR] at hcount
    exact_mod_cast hcount
  linarith

/-- R152: the average of a sequence as long as the samples, from what its elements are. -/
theorem toReal_avg_of_realAt {v : List XNum} {f : ℕ → ℝ} (hx : 2 ≤ x.length) (hlen : v.length = x.length)
    (hv : ∀ i < x.length, realAt v i = f i) (b e : XNum) :
    (avg .exact v b e).toReal = averageReal f x.length b.toReal e.toReal := by
  rw [toReal_avg, hlen, averageReal_congr hx hv]

/-! ## One interval -/

/-- The observation of a window, by its reals. -/
theorem toReal_askObservation (hd : p.num = .exact) (hmode : c.mode = .ask) (hx : 2 ≤ x.length) (be : XNum × XNum) :
    [avg .exact (askMagnitude .exact c x (basebandDesign p c)) be.1 be.2].map XNum.toReal =
      observationReal p c x (be.1.toReal, be.2.toReal) := by
  have hlen : (askMagnitude .exact c x (basebandDesign p c)).length = x.length := by simp [askMagnitude]
  have hmag : ∀ i < x.length, realAt (askMagnitude .exact c x (basebandDesign p c)) i =
      √(basebandReal p c x 1 Real.cos i ^ 2 + basebandReal p c x 1 Real.sin i ^ 2) := by
    intro i hi
    have hre := realAt_baseband (p := p) (c := c) (sign := 1) hd toReal_cis_re hi
    have him := realAt_baseband (p := p) (c := c) (sign := 1) hd toReal_cis_im hi
    rw [realAt_of_lt (by simpa using hi), Int.cast_one] at hre him
    rw [realAt_of_lt (by rwa [hlen])]
    simp only [askMagnitude, List.getElem_zipWith, toReal_abs, hre, him, sq]
  simp only [List.map_cons, List.map_nil, toReal_avg_of_realAt hx hlen hmag, observationReal, hmode]

theorem toReal_observation2d (hd : p.num = .exact) (hmode : c.mode = .psk ∨ c.mode = .qam) (hx : 2 ≤ x.length)
    (be : XNum × XNum) :
    [avg .exact (baseband .exact c x (-1) (basebandDesign p c) Cplx.re) be.1 be.2,
      avg .exact (baseband .exact c x (-1) (basebandDesign p c) Cplx.im) be.1 be.2].map XNum.toReal =
      observationReal p c x (be.1.toReal, be.2.toReal) := by
  have part {part : Cplx → XNum} {partReal : ℝ → ℝ}
      (hpart : ∀ a, (part (Config.NumDomain.exact.cis a)).toReal = partReal a.toReal) :
      (avg .exact (baseband .exact c x (-1) (basebandDesign p c) part) be.1 be.2).toReal =
        averageReal (basebandReal p c x (-1) partReal) x.length be.1.toReal be.2.toReal := by
    refine toReal_avg_of_realAt hx (baseband_length ..) (fun i hi => ?_) _ _
    rw [realAt_baseband hd hpart hi, Int.cast_neg, Int.cast_one]
  simp only [List.map_cons, List.map_nil, part toReal_cis_re, part toReal_cis_im]
  rcases hmode with hmode | hmode <;> simp only [observationReal, hmode]

/-- R211: the magnitude of a tone over the window. -/
theorem toReal_toneMagnitudes (hmode : c.mode = .fsk) (be : XNum × XNum) :
    (toneMagnitudes .exact c x be).map XNum.toReal = observationReal p c x (be.1.toReal, be.2.toReal) := by
  have hangle (k : ℕ) : (goertzelAngle .exact (alphaRe c k) c.fs).toReal =
      2 * Real.pi * (c.alpha.getD k ⟨.rat 0, .rat 0⟩).re.toReal / c.fs.toReal := toReal_goertzelAngle .exact _ _
  simp only [toneMagnitudes, List.map_map, Function.comp_def, exact_div, toReal_div, exact_mul, toReal_mul, toReal_rat,
    toReal_goertzelMag, hangle, toReal_ofInt, windowLength_eq, roundHe_eq_roundEven, observationReal, hmode, singleBin]
  push_cast
  rfl

/-- One observation for each interval, over the reals. -/
theorem map_intervalList {g : XNum × XNum → List XNum} {n : ℕ}
    (hg : ∀ be, (g be).map XNum.toReal = observationReal p c x (be.1.toReal, be.2.toReal)) :
    ((intervalList p c n).map g).map (List.map XNum.toReal) = (List.range (intervalCountReal p.num c n).toNat).map
      fun i => observationReal p c x (intervalReal p c n (intervalCountReal p.num c n).toNat i) := by
  simp only [intervalList_eq, List.map_map, Function.comp_def, hg, toReal_interval]

end

/-! ## What the demodulators deliver -/

/-- What O57 says of a command `i` that has passed its checks. -/
def DeliversSymbols (i : Instr) (sd : SReg) (s : State) (x : List XNum) : Prop :=
  ∃ (out : List Word) (w : BitVec 4), exec i s = .next ((s.setS sd out).retire w)
    ∧ (out.length : ℤ) = intervalCountReal s.params.num s.cfg x.length - 2
    ∧ (w = 0b1000 ∨ w = 0)
    ∧ (s.params.num = .exact →
      IsSliced s.cfg ((List.range (intervalCountReal s.params.num s.cfg x.length).toNat).map fun i =>
        observationReal s.params s.cfg x
          (intervalReal s.params s.cfg x.length (intervalCountReal s.params.num s.cfg x.length).toNat i)) out w)
    ∧ ∀ a ∈ out, -1 ≤ a.toInt ∧ a.toInt < s.cfg.n

/-- From the observations of the mode, one for each interval: `g` makes one of them from its window. -/
theorem demodulate_delivers {mode : Mode}
    {observe : Config.Params → ModemConfig → List XNum → List (XNum × XNum) → Cmd (List (List XNum))} {i : Instr}
    {sd : SReg} {fx : FReg} {s : State} {x : List XNum} {g : XNum × XNum → List XNum}
    (hi : exec i s = demodulate mode observe sd fx s) (hx : s.fReg[fx] = some x) (hvalid : s.cfg.valid = true)
    (hmode : s.cfg.mode = mode) (hn : s.cfg.n = s.cfg.alpha.length) (hmax : s.cfg.n < 2 ^ 31)
    (hcount : 2 ≤ intervalCountReal s.params.num s.cfg x.length)
    (hfits : overMax s.params (intervalCountReal s.params.num s.cfg x.length) = false)
    (hobs : observe s.params s.cfg x (intervalList s.params s.cfg x.length) =
      .ok ((intervalList s.params s.cfg x.length).map g))
    (hg : s.params.num = .exact →
      ∀ be, (g be).map XNum.toReal = observationReal s.params s.cfg x (be.1.toReal, be.2.toReal)) :
    DeliversSymbols i sd s x := by
  have hlen : ((intervalList s.params s.cfg x.length).map g).length =
      (intervalCountReal s.params.num s.cfg x.length).toNat := by
    rw [List.length_map, intervalList_length, intervalCount_eq]
  refine ⟨_, _, hi.trans (demodulate_ok hx hvalid hmode hcount hobs (by rw [hlen]; exact overMax_toNat hfits)), ?_,
    sliced_warn, fun hd => ?_, fun a ha => sliced_range hn hmax ha⟩
  · rw [sliced_length, hlen]
    omega
  · rw [← map_intervalList (hg hd)]
    have hsliced := sliced_isSliced hn hmax (show 2 ≤ ((intervalList s.params s.cfg x.length).map g).length by omega)
    rwa [← hd] at hsliced

/-- The demodulators with a filter, past their checks: `g` makes one observation from its window. -/
theorem demodulate_filtered_delivers {mode : Mode}
    {observe : Config.NumDomain → ModemConfig → List XNum → List (XNum × XNum) → List XNum → List (List XNum)} {i : Instr}
    {sd : SReg} {fx : FReg} {s : State} {x : List XNum} {g : XNum × XNum → List XNum}
    (hi : exec i s = demodulate mode (observeFiltered observe) sd fx s) (hx : s.fReg[fx] = some x)
    (hvalid : s.cfg.valid = true) (hmode : s.cfg.mode = mode) (hn : s.cfg.n = s.cfg.alpha.length)
    (hmax : s.cfg.n < 2 ^ 31) (hcount : 2 ≤ intervalCountReal s.params.num s.cfg x.length)
    (hfits : overMax s.params (intervalCountReal s.params.num s.cfg x.length) = false)
    (hchecks : (∀ k, ¬ BasebandViolates s.params s.cfg k) ∧ overMax s.params (basebandCount s.params s.cfg) = false)
    (hobs : ∀ iv, observe s.params.num s.cfg x iv (basebandDesign s.params s.cfg) = iv.map g)
    (hg : s.params.num = .exact → 2 ≤ x.length →
      ∀ be, (g be).map XNum.toReal = observationReal s.params s.cfg x (be.1.toReal, be.2.toReal)) :
    DeliversSymbols i sd s x := by
  obtain ⟨hpass, hdesign⟩ := hchecks
  refine demodulate_delivers hi hx hvalid hmode hn hmax hcount hfits ?_ fun hd => hg hd (two_le_samples hd hpass hcount)
  rw [observeFiltered_design hpass hdesign, hobs]

/-- Settles O57: each mode's observations are those of R201, R211, R221 and R223, sliced and finished. -/
theorem demodulatorsDeliverSymbols : Obligations.DemodulatorsDeliverSymbols := by
  intro sd fx s x hx hvalid hn hmax count window hcount hfits
  simp only [List.forall_mem_cons, List.not_mem_nil, false_imp_iff, implies_true, and_true]
  refine ⟨?ask, ?fsk, ?psk, ?qam⟩
  case ask =>
    intro hmode hchecks
    rw [if_neg (by simp [hmode])] at hchecks
    refine demodulate_filtered_delivers (exec_demask sd fx s) hx hvalid hmode hn hmax hcount hfits hchecks
      (fun _ => rfl) fun hd hlen be => ?_
    rw [hd]
    exact toReal_askObservation hd hmode hlen be
  case fsk =>
    intro hmode hwindows
    rw [if_pos hmode] at hwindows
    refine demodulate_delivers (exec_demfsk sd fx s) hx hvalid hmode hn hmax hcount hfits (observeTones_ok fun i hi => ?_)
      fun hd be => ?_
    · rw [windowLength_interval_le_iff, not_le]
      exact hwindows i hi
    · rw [hd]
      exact toReal_toneMagnitudes hmode be
  case psk =>
    intro hmode hchecks
    rw [if_neg (by simp [hmode])] at hchecks
    refine demodulate_filtered_delivers (exec_dempsk sd fx s) hx hvalid hmode hn hmax hcount hfits hchecks
      (fun _ => rfl) fun hd hlen be => ?_
    rw [hd]
    exact toReal_observation2d hd (.inl hmode) hlen be
  case qam =>
    intro hmode hchecks
    rw [if_neg (by simp [hmode])] at hchecks
    refine demodulate_filtered_delivers (exec_demqam sd fx s) hx hvalid hmode hn hmax hcount hfits hchecks
      (fun _ => rfl) fun hd hlen be => ?_
    rw [hd]
    exact toReal_observation2d hd (.inr hmode) hlen be

end Sys2Proof.Machine
end

section
/-! SUPPORT. SLICE and SLICEZ with a bank of their modes (spec/45_slicer.md R192, R193): their checks, the observations they cut
their source into, and what they deliver. -/

namespace Sys2Proof.Machine

/-! ## The finishing step (R183) -/

/-- Settles O49: the lemmas on `finish`, one for each clause. -/
theorem finishDropsGuards : Obligations.FinishDropsGuards := fun _ h hidx =>
  ⟨finish_length, fun _ hi => toInt_finish hidx (by rwa [finish_length]), corruptOnly_or _, finish_warns_iff h⟩

/-! ## The observations -/

/-- R192: the elements of the pieces, as long as none reaches past the end. -/
theorem toReal_chunks {d count : ℕ} {o : List XNum} (h : count * d ≤ o.length) :
    (chunks d count o).map (List.map XNum.toReal) =
      (List.range count).map fun i => (List.range d).map fun k => realAt o (i * d + k) := by
  rw [chunks, List.map_map]
  refine List.map_congr_left fun i hi => ?_
  have hend : i * d + d ≤ o.length := by
    rw [← Nat.succ_mul]
    exact (Nat.mul_le_mul_right d (List.mem_range.1 hi)).trans h
  refine List.ext_getElem (by simp; omega) fun k hk hk' => ?_
  have hk : k < d := by simpa using hk'
  simp [realAt_of_lt (show i * d + k < o.length by omega)]

@[simp] theorem chunks_length {α : Type} (d count : ℕ) (l : List α) : (chunks d count l).length = count := by
  simp [chunks]

/-! ## The commands -/

/-- What O50 says of a slicer whose observations are `obs`. -/
theorem sliceInto_delivers {s : State} {obs : List (List XNum)} (sd : SReg) (hn : s.cfg.n = s.cfg.alpha.length)
    (hmax : s.cfg.n < 2 ^ 31) (hcount : 2 ≤ obs.length) (hfits : overMax s.params obs.length = false) :
    ∃ (out : List Word) (w : BitVec 4), s.complete (sliceInto s sd obs) = .next ((s.setS sd out).retire w)
      ∧ out.length = obs.length - 2 ∧ (w = 0b1000 ∨ w = 0)
      ∧ (s.params.num = .exact → IsSliced s.cfg (obs.map (List.map XNum.toReal)) out w)
      ∧ ∀ a ∈ out, -1 ≤ a.toInt ∧ a.toInt < s.cfg.n := by
  refine ⟨_, _, by rw [sliceInto_eq_ok sd hfits, complete_ok], sliced_length, sliced_warn, fun hd => ?_,
    fun a ha => sliced_range hn hmax ha⟩
  rw [hd]
  exact sliced_isSliced hn hmax hcount

section
variable {s : State} {sd : SReg}

/-- SLICE with its source written and a bank of one of its modes: the two checks, then the pieces are sliced (R192). -/
theorem exec_slice {fobs : FReg} {o : List XNum} {d : ℕ} (ho : s.fReg[fobs] = some o) (hvalid : s.cfg.valid = true)
    (hmode : s.cfg.mode = .ask ∨ s.cfg.mode = .fsk) (hd : d = if s.cfg.mode = .ask then 1 else s.cfg.n) :
    exec (.slice sd fobs) s = s.complete (do
      failIf (decide (o.length % d ≠ 0)) .length o.length
      failIf (decide (o.length / d < 2)) .length (o.length / d : ℕ)
      sliceInto s sd (chunks d (o.length / d) o)) := by
  have hcfg : s.needCfg [.ask, .fsk] = .ok () := needCfg_ok_iff.2 ⟨hvalid, by simpa using hmode⟩
  rw [exec, execSlice, readF_ok_iff.2 ho, ok_bind, hcfg, ok_bind, hd]

/-- SLICEZ with its source written and a bank of one of its modes: the check, then the points are sliced (R193). -/
theorem exec_slicez {zobs : ZReg} {o : List Cplx} (ho : s.zReg[zobs] = some o) (hvalid : s.cfg.valid = true)
    (hmode : s.cfg.mode = .psk ∨ s.cfg.mode = .qam) :
    exec (.slicez sd zobs) s = s.complete (do
      failIf (decide (o.length < 2)) .length o.length
      sliceInto s sd (o.map fun a => [a.re, a.im])) := by
  have hcfg : s.needCfg [.psk, .qam] = .ok () := needCfg_ok_iff.2 ⟨hvalid, by simpa using hmode⟩
  rw [exec, execSlicez, readZ_ok_iff.2 ho, ok_bind, hcfg, ok_bind]

end

/-- Settles O50: past the checks each command slices the observations that its source holds. -/
theorem sliceNearestSymbols : Obligations.SliceNearestSymbols := by
  refine ⟨?slice, ?slicez⟩
  case slice =>
    intro sd fobs s o ho hvalid hmode hn hmax hfits d
    rw [exec_slice ho hvalid hmode (d := d) rfl]
    refine ⟨fun hrag => ?_, fun hwhole hfew => ?_, fun hwhole hcount => ?_⟩
    · rw [decide_eq_true hrag, failIf_true, error_bind, complete_error]
    · rw [hwhole, decide_eq_true hfew]
      rfl
    · rw [hwhole, decide_eq_false (not_lt.2 hcount), ← toReal_chunks (Nat.div_mul_le_self _ _)]
      have hpieces := sliceInto_delivers sd hn hmax (obs := chunks d (o.length / d) o) (by rwa [chunks_length])
        (overMax_mono (by rw [chunks_length]; exact_mod_cast Nat.div_le_self _ _) hfits)
      rw [chunks_length] at hpieces
      exact hpieces
  case slicez =>
    intro sd zobs s o ho hvalid hmode hn hmax hfits
    rw [exec_slicez ho hvalid hmode]
    refine ⟨fun hfew => ?_, fun hcount => ?_⟩
    · rw [decide_eq_true hfew, failIf_true, error_bind, complete_error]
    · rw [decide_eq_false (not_lt.2 hcount)]
      have hpoints := sliceInto_delivers sd hn hmax (obs := o.map fun a => [a.re, a.im]) (by rwa [List.length_map])
        (by rwa [List.length_map])
      rw [List.length_map, List.map_map] at hpoints
      exact hpoints

end Sys2Proof.Machine
end

section
/-! SUPPORT. The checks that the four modulators share (spec/44_modulator_config.md R181). -/

namespace Sys2Proof.Machine

theorem symbolOutside_eq_true {bound : ℕ} {w : Word} (h : ¬ (0 ≤ w.toInt ∧ w.toInt < bound)) :
    symbolOutside bound w = true := by
  rw [not_and_or, not_le, not_lt] at h
  simpa [symbolOutside] using h

section
variable {p : Config.Params} {c : ModemConfig} {q : List Word}

/-- R181: the first symbol outside the alphabet is the error, whatever the sample count. -/
theorem checkTransmission_symbol {i : ℕ} (hi : i < q.length)
    (hbefore : ∀ j < i, 0 ≤ (q.getD j 0).toInt ∧ (q.getD j 0).toInt < c.n)
    (hout : ¬ (0 ≤ (q.getD i 0).toInt ∧ (q.getD i 0).toInt < c.n)) :
    checkTransmission p c q = .error ⟨.symbol, i⟩ := by
  rw [checkTransmission, checkSymbols_first hi (fun j hj => symbolOutside_eq_false (hbefore j hj))
    (symbolOutside_eq_true hout), error_bind]

/-- R181: with every symbol in the alphabet the sample count is checked. -/
theorem checkTransmission_capacity (hsym : ∀ w ∈ q, 0 ≤ w.toInt ∧ w.toInt < c.n)
    (hmax : overMax p (sampleCountReal p.num c (q.length + 2)) = true) :
    checkTransmission p c q = .error ⟨.capacity, sampleCountReal p.num c (q.length + 2)⟩ := by
  have hsymbols : checkSymbols c.n q = .ok () :=
    checkSymbols_ok_iff.2 fun w hw => symbolOutside_eq_false (hsym w hw)
  rw [checkTransmission, hsymbols, ok_bind, sampleCount_eq, fits_eq_error hmax]

end

/-- A MOD* command with a bank of its mode reports the error of the checks. -/
theorem transmit_error {mode : Mode} {samples : Config.Params → ModemConfig → List Word → List XNum} {fd : FReg}
    {ss : SReg} {s : State} {q : List Word} {e : CmdError} (hq : s.sReg[ss] = some q) (hvalid : s.cfg.valid = true)
    (hmode : s.cfg.mode = mode) (he : checkTransmission s.params s.cfg q = .error e) :
    transmit mode samples fd ss s = .next (s.raise e) := by
  rw [transmit, readS_ok_iff.2 hq, ok_bind, needCfg_eq_ok hvalid hmode, ok_bind, he, error_bind, complete_error]

/-- Settles O51: the four commands share their checks. -/
theorem modulatorsCheckFirst : Obligations.ModulatorsCheckFirst := by
  intro fd ss s q hq hvalid
  have checked {mode : Mode} {samples} (hmode : s.cfg.mode = mode) :
      (∀ i < q.length, (∀ j < i, 0 ≤ (q.getD j 0).toInt ∧ (q.getD j 0).toInt < s.cfg.n) →
        ¬ (0 ≤ (q.getD i 0).toInt ∧ (q.getD i 0).toInt < s.cfg.n) →
        transmit mode samples fd ss s = .next (s.raise ⟨.symbol, i⟩))
      ∧ ((∀ w ∈ q, 0 ≤ w.toInt ∧ w.toInt < s.cfg.n) →
        overMax s.params (sampleCountReal s.params.num s.cfg (q.length + 2)) = true →
        transmit mode samples fd ss s =
          .next (s.raise ⟨.capacity, sampleCountReal s.params.num s.cfg (q.length + 2)⟩)) :=
    ⟨fun _ hi hbefore hout => transmit_error hq hvalid hmode (checkTransmission_symbol hi hbefore hout),
      fun hsym hmax => transmit_error hq hvalid hmode (checkTransmission_capacity hsym hmax)⟩
  simp only [List.forall_mem_cons, List.not_mem_nil, false_imp_iff, implies_true, and_true, exec_modask, exec_modfsk,
    exec_modpsk, exec_modqam]
  exact ⟨checked, checked, checked, checked⟩

end Sys2Proof.Machine
end

section
/-! SUPPORT. The CFG* commands (spec/44_modulator_config.md R170 to R178): the machine's checks and warnings against the rules
over the reals, what a command does with a request, and which requests pass over the exact reals. -/

namespace Sys2Proof.Machine

/-! ## Pairs and first elements of a list -/

/-- Two different places of a list meet a relation exactly when it is not free of such pairs. -/
theorem exists_pair_iff_not_pairwise {α : Type} {rel : α → α → Prop} {l : List α} :
    (∃ (i j : ℕ) (a b : α), i < j ∧ l[i]? = some a ∧ l[j]? = some b ∧ rel a b) ↔ ¬ l.Pairwise fun a b => ¬ rel a b := by
  rw [List.pairwise_iff_getElem]
  push Not
  constructor
  · rintro ⟨i, j, a, b, hij, ha, hb, hrel⟩
    obtain ⟨hi, rfl⟩ := List.getElem?_eq_some_iff.1 ha
    obtain ⟨hj, rfl⟩ := List.getElem?_eq_some_iff.1 hb
    exact ⟨i, j, hi, hj, hij, hrel⟩
  · rintro ⟨i, j, hi, hj, hij, hrel⟩
    exact ⟨i, j, _, _, hij, List.getElem?_eq_getElem hi, List.getElem?_eq_getElem hj, hrel⟩

theorem anyPair_eq_false_iff {α : Type} {rel : α → α → Bool} {l : List α} :
    anyPair rel l = false ↔ l.Pairwise fun a b => ¬ rel a b = true := by
  induction l with
  | nil => simp [anyPair]
  | cons a l ih => simp [anyPair, ih]

/-- The machine's search over pairs, in the words of R175 and R178. -/
theorem anyPair_iff {α : Type} {rel : α → α → Bool} {l : List α} : anyPair rel l = true ↔
    ∃ (i j : ℕ) (a b : α), i < j ∧ l[i]? = some a ∧ l[j]? = some b ∧ rel a b = true := by
  rw [exists_pair_iff_not_pairwise, ← anyPair_eq_false_iff, Bool.not_eq_false]

/-- In an ascending list the first element that passes a test is the smallest that does. -/
theorem find?_eq_some_of_sorted {l : List ℕ} {test : ℕ → Bool} {k : ℕ} (hl : l.Pairwise (· < ·)) (hk : k ∈ l)
    (htest : test k = true) (hbefore : ∀ j ∈ l, j < k → test j = false) : l.find? test = some k := by
  obtain ⟨before, after, rfl⟩ := List.append_of_mem hk
  refine List.find?_eq_some_iff_append.2 ⟨htest, before, after, rfl, fun j hj => ?_⟩
  obtain ⟨-, -, hcross⟩ := List.pairwise_append.1 hl
  have hlt : j < k := hcross j hj k List.mem_cons_self
  simp [hbefore j (List.mem_append_left _ hj) hlt]

/-! ## The checks (R175) -/

theorem cfgChecks_eq_checksOf (m : Mode) : cfgChecks m = checksOf m := by cases m <;> rfl

theorem checksOf_sorted (m : Mode) : (checksOf m).Pairwise (· < ·) := by cases m <;> decide

theorem outsideUnit_iff (a : XNum) : outsideUnit a = true ↔ a.toReal ≤ 0 ∨ 1 < a.toReal := by
  simp [outsideUnit, le_iff_toReal, lt_iff_toReal]

theorem cplxEq_iff (a b : Cplx) : a.eq b = true ↔ a.re.toReal = b.re.toReal ∧ a.im.toReal = b.im.toReal := by
  simp [Cplx.eq, eq_iff_toReal]

/-- The machine's check fails exactly when the condition of R175 is met. -/
theorem cfgCheckFails_iff (p : Config.Params) (q : CfgRequest) (k : ℕ) :
    cfgCheckFails p q k = true ↔ q.Violates p k := by
  unfold cfgCheckFails CfgRequest.Violates
  split
  case h_5 => simp only [anyPair_iff, cplxEq_iff]
  case h_8 => cases q.mode <;> simp [realAlpha, le_iff_toReal]
  case h_9 => cases q.mode <;> simp [alphaOutside, outsideUnit_iff, le_iff_toReal, lt_iff_toReal]
  all_goals simp [realAlpha, outsideUnit_iff, le_iff_toReal]

theorem cfgFailure_eq_some {p : Config.Params} {q : CfgRequest} {k : ℕ} (hk : k ∈ checksOf q.mode)
    (hviolates : q.Violates p k) (hbefore : ∀ j ∈ checksOf q.mode, j < k → ¬ q.Violates p j) :
    cfgFailure p q = some k := by
  rw [cfgFailure, cfgChecks_eq_checksOf]
  refine find?_eq_some_of_sorted (checksOf_sorted _) hk ((cfgCheckFails_iff p q k).2 hviolates) fun j hj hlt => ?_
  rw [← Bool.not_eq_true, cfgCheckFails_iff]
  exact hbefore j hj hlt

theorem cfgFailure_eq_none_iff {p : Config.Params} {q : CfgRequest} :
    cfgFailure p q = none ↔ ∀ k ∈ checksOf q.mode, ¬ q.Violates p k := by
  simp only [cfgFailure, cfgChecks_eq_checksOf, List.find?_eq_none, cfgCheckFails_iff]

/-! ## The warnings (R176 to R178) -/

theorem getLsbD_warnSet (carrier separation lowAmp corrupt : Bool) :
    (warnSet carrier separation lowAmp corrupt).getLsbD 0 = carrier
    ∧ (warnSet carrier separation lowAmp corrupt).getLsbD 1 = separation
    ∧ (warnSet carrier separation lowAmp corrupt).getLsbD 2 = lowAmp
    ∧ (warnSet carrier separation lowAmp corrupt).getLsbD 3 = corrupt := by
  revert carrier separation lowAmp corrupt
  decide

/-- `abs(a - b)` is the magnitude of the difference that the numeric domain computes. -/
theorem toReal_dist (d : Config.NumDomain) (a b : XNum) : (d.dist a b).toReal = |d.subR a.toReal b.toReal| := by
  cases d with
  | exact =>
    rw [exact_dist, XNum.dist, exact_subR]
    split
    case isTrue h => rw [toReal_sub, abs_of_nonneg (sub_nonneg.2 ((le_iff_toReal b a).1 h))]
    case isFalse h =>
      rw [le_iff_toReal, not_le] at h
      rw [toReal_sub, abs_sub_comm, abs_of_pos (sub_pos.2 h)]
  | binary64 => rw [Config.NumDomain.dist, toReal_max, toReal_neg, num_sub, abs_eq_max_neg]

theorem tooClose_iff (p : Config.Params) (q : CfgRequest) (a b : Cplx) :
    tooClose p q a b = true ↔ separation p.num q.mode a b < separationMin p q := by
  unfold tooClose separation separationMin
  cases q.mode <;> simp [circBelow, lt_iff_toReal, toReal_dist, Config.NumDomain.cplxSub]

theorem carrierWarns_iff (p : Config.Params) (q : CfgRequest) :
    carrierWarns p q = true ↔ q.mode ≠ .fsk ∧ p.num.mulR p.carrierWarnFrac.toReal q.fs.toReal ≤ q.carrier.toReal := by
  unfold carrierWarns
  cases q.mode <;> simp [le_iff_toReal]

theorem lowAmpWarns_iff (p : Config.Params) (q : CfgRequest) : lowAmpWarns p q = true ↔ q.Warns p 2 := by
  unfold lowAmpWarns CfgRequest.Warns
  cases q.mode <;> simp [realAlpha, lt_iff_toReal]

/-- Each bit of the response is its warning (R254). -/
theorem getLsbD_cfgWarnings_iff (p : Config.Params) (q : CfgRequest) {b : ℕ} (hb : b < 4) :
    (cfgWarnings p q).getLsbD b = true ↔ q.Warns p b := by
  obtain ⟨hcarrier, hsep, hlow, hcorrupt⟩ :=
    getLsbD_warnSet (carrierWarns p q) (anyPair (tooClose p q) q.alpha) (lowAmpWarns p q) false
  rw [cfgWarnings]
  interval_cases b
  · rw [hcarrier]
    exact carrierWarns_iff p q
  · rw [hsep, anyPair_iff]
    simp only [tooClose_iff]
    rfl
  · rw [hlow]
    exact lowAmpWarns_iff p q
  · rw [hcorrupt]
    exact iff_of_false Bool.false_ne_true not_false

/-! ## The commands -/

section
variable {i : Instr} {s : State} {q : CfgRequest}

/-- R171 to R174: only a CFG* command with all its sources written has a request. -/
theorem sources_written_of_request (h : i.request s = some q) :
    i.dest = .cfg ∧ ∀ o ∈ i.sources, s.isEmpty o = false := by
  cases i with
  | cfgask | cfgfsk | cfgqam =>
    simp only [Instr.request, Option.bind_eq_bind, Option.bind_eq_some_iff] at h
    obtain ⟨fs, hfs, baud, hbaud, real, hreal, alpha, halpha, -⟩ := h
    exact ⟨rfl, by
      simp only [Instr.sources, List.forall_mem_cons, State.isEmpty, hfs, hbaud, hreal, halpha]
      simp⟩
  | cfgpsk =>
    simp only [Instr.request, Option.bind_eq_bind, Option.bind_eq_some_iff] at h
    obtain ⟨fs, hfs, baud, hbaud, car, hcar, amp, hamp, alpha, halpha, -⟩ := h
    exact ⟨rfl, by
      simp only [Instr.sources, List.forall_mem_cons, State.isEmpty, hfs, hbaud, hcar, hamp, halpha]
      simp⟩
  | _ => cases h

theorem exec_of_request (h : i.request s = some q) : exec i s = s.complete (construct s q) := by
  obtain ⟨hdest, hsources⟩ := sources_written_of_request h
  obtain ⟨q', hq', hexec⟩ := exec_constructor hdest hsources
  rw [hexec, Option.some.inj (hq'.symm.trans h)]

theorem exec_of_failure {k : ℕ} (h : i.request s = some q) (hk : cfgFailure s.params q = some k) :
    exec i s = .next (s.raise ⟨.config, k⟩) := by
  rw [exec_of_request h, construct_error_iff.2 ⟨k, hk, rfl⟩, complete_error]

theorem exec_of_no_failure (h : i.request s = some q) (hnone : cfgFailure s.params q = none) :
    exec i s = .next ({ s with cfg := q.bank }.retire (cfgWarnings s.params q)) := by
  rw [exec_of_request h, construct_ok_iff.2 ⟨hnone, rfl, rfl⟩, complete_ok]

/-- A constructor reports no error exactly when its operands pass the checks of its mode. -/
theorem exec_no_error_iff {t : State} (h : i.request s = some q) (ht : exec i s = .next t) :
    t.response.err = 0 ↔ ∀ k ∈ checksOf q.mode, ¬ q.Violates s.params k := by
  rw [← cfgFailure_eq_none_iff]
  cases hfail : cfgFailure s.params q with
  | some k =>
    obtain rfl := Host.Outcome.next.inj (ht.symm.trans (exec_of_failure h hfail))
    exact iff_of_false (code_ne_zero .config) (by simp)
  | none =>
    obtain rfl := Host.Outcome.next.inj (ht.symm.trans (exec_of_no_failure h hfail))
    simp

end

/-- Settles O46: the first check that fails is the error, and with none the bank is loaded with its warnings. -/
theorem constructorsLoadOrFail : Obligations.ConstructorsLoadOrFail := by
  intro i s q h
  refine ⟨fun k hk hviolates hbefore => exec_of_failure h (cfgFailure_eq_some hk hviolates hbefore), fun hpass => ?_⟩
  exact ⟨_, exec_of_no_failure h (cfgFailure_eq_none_iff.2 hpass), fun b hb => getLsbD_cfgWarnings_iff _ _ hb⟩

/-! ## The operands that pass over the exact reals (R170) -/

section
variable {p : Config.Params} {q : CfgRequest}

/-- The checks of every mode: the rates, the size of the alphabet, and that its values differ. -/
theorem passes_common_iff : (∀ k ∈ [1, 2, 3, 4, 5], ¬ q.Violates p k) ↔
    0 < q.fs.toReal ∧ 0 < q.baud.toReal ∧ q.alpha ≠ [] ∧ q.alpha.length ≤ p.nMax
      ∧ q.alpha.Pairwise (fun a b => a.re.toReal ≠ b.re.toReal ∨ a.im.toReal ≠ b.im.toReal) := by
  simp only [List.forall_mem_cons, List.not_mem_nil, false_imp_iff, implies_true, and_true, CfgRequest.Violates, not_le, not_lt,
    exists_pair_iff_not_pairwise, not_not, not_and_or, ne_eq]

/-- The checks of the modes that have a carrier. -/
theorem passes_carrier_iff (hd : p.num = .exact) (hmode : q.mode ≠ .fsk) : (∀ k ∈ [6, 7, 8], ¬ q.Violates p k) ↔
    0 < q.carrier.toReal ∧ q.carrier.toReal < q.fs.toReal / 2 ∧ q.baud.toReal < q.carrier.toReal / 2 := by
  simp only [List.forall_mem_cons, List.not_mem_nil, false_imp_iff, implies_true, and_true, CfgRequest.Violates, hd, exact_divR,
    if_neg hmode, not_le]

/-- The check of the modes that have a base amplitude. -/
theorem passes_amplitude_iff : ¬ q.Violates p 10 ↔ 0 < q.amp.toReal ∧ q.amp.toReal ≤ 1 := by
  simp only [CfgRequest.Violates, not_or, not_le, not_lt]

/-- A modulus lies in `(0, 1]` exactly when its square does. -/
theorem modulus_mem_unit_iff (x y : ℝ) :
    (0 < modulus .exact x y ∧ modulus .exact x y ≤ 1) ↔ 0 < x ^ 2 + y ^ 2 ∧ x ^ 2 + y ^ 2 ≤ 1 := by
  simp only [modulus, exact_sqrtR, exact_addR, exact_mulR, ← sq, Real.sqrt_pos, Real.sqrt_le_one]

/-- The values that an alphabet of the mode may hold, over the exact reals (R170, R175). -/
def CfgRequest.Admits (q : CfgRequest) (a : Cplx) : Prop :=
  match q.mode with
  | .ask => 0 < a.re.toReal ∧ a.re.toReal ≤ 1
  | .fsk => q.baud.toReal < a.re.toReal ∧ a.re.toReal < q.fs.toReal / 2
  | .psk => 0 ≤ a.re.toReal ∧ a.re.toReal < 2 * Real.pi
  | .qam => 0 < a.re.toReal ^ 2 + a.im.toReal ^ 2 ∧ a.re.toReal ^ 2 + a.im.toReal ^ 2 ≤ 1

/-- The checks of the alphabet's values. A tone above a positive `baud` passes check 9 of fsk of itself. -/
theorem passes_alphabet_iff (hd : p.num = .exact) (hbaud : 0 < q.baud.toReal) :
    (¬ q.Violates p 9 ∧ (q.mode = .fsk → ¬ q.Violates p 8 ∧ ¬ q.Violates p 11)) ↔ ∀ a ∈ q.alpha, q.Admits a := by
  cases hmode : q.mode with
  | ask => simp [CfgRequest.Violates, CfgRequest.Admits, hmode]
  | psk => simp [CfgRequest.Violates, CfgRequest.Admits, hmode, hd]
  | qam => simp [CfgRequest.Violates, CfgRequest.Admits, hmode, hd, ← modulus_mem_unit_iff]
  | fsk =>
    simp only [CfgRequest.Violates, CfgRequest.Admits, hmode, hd, exact_divR, if_true, forall_const, not_exists, not_and, not_le]
    exact ⟨fun ⟨_, hlow, hhigh⟩ a ha => ⟨hlow a ha, hhigh a ha⟩,
      fun h => ⟨fun a ha => hbaud.trans (h a ha).1, fun a ha => (h a ha).1, fun a ha => (h a ha).2⟩⟩

/-- The checks of a mode by what they look at: those of every mode, the carrier, the base amplitude, the alphabet. -/
theorem passes_iff : (∀ k ∈ checksOf q.mode, ¬ q.Violates p k) ↔
    (∀ k ∈ [1, 2, 3, 4, 5], ¬ q.Violates p k) ∧ (q.mode ≠ .fsk → ∀ k ∈ [6, 7, 8], ¬ q.Violates p k)
      ∧ (q.mode = .fsk ∨ q.mode = .psk → ¬ q.Violates p 10)
      ∧ ¬ q.Violates p 9 ∧ (q.mode = .fsk → ¬ q.Violates p 8 ∧ ¬ q.Violates p 11) := by
  cases q.mode <;> simp only [checksOf, List.forall_mem_cons] <;> tauto

end

/-- Settles O47: in each mode the operands are those that pass its checks. -/
theorem constructorsLoadExactlyWhen : Obligations.ConstructorsLoadExactlyWhen := by
  intro i s t q h hd ht
  rw [exec_no_error_iff h ht, passes_iff, passes_common_iff, passes_amplitude_iff]
  constructor
  · rintro ⟨⟨hfs, hbaud, hne, hcount, hdistinct⟩, hcarrier, hamp, halpha⟩
    exact ⟨hfs, hbaud, hne, hcount, hdistinct, fun hmode => (passes_carrier_iff hd hmode).1 (hcarrier hmode), hamp,
      (passes_alphabet_iff hd hbaud).1 halpha⟩
  · rintro ⟨hfs, hbaud, hne, hcount, hdistinct, hcarrier, hamp, halpha⟩
    exact ⟨⟨hfs, hbaud, hne, hcount, hdistinct⟩, fun hmode => (passes_carrier_iff hd hmode).2 (hcarrier hmode), hamp,
      (passes_alphabet_iff hd hbaud).2 halpha⟩

end Sys2Proof.Machine
end

section
/-! SUPPORT. The statement about the nearest codeword (spec/45_slicer.md R190). -/

namespace Sys2Proof.Machine

/-- Settles O48: the search keeps the first smallest distance seen so far, so its result is the first smallest of all. -/
theorem nearestCodeword : Obligations.NearestCodeword := by
  intro code o hne
  exact ⟨fun d => nearest_isFirstMin d o hne, nearest_isNearest o hne⟩

end Sys2Proof.Machine
end

section
/-! SUPPORT. The error entry, the warnings of a command and the checks common to all commands (spec/60_exceptions.md R247
to R254): the statements about them, and that `Uninit` comes from reading a source and from nothing else. -/

namespace Sys2Proof.Machine

variable {s t u : State}

/-! ## The error entry -/

/-- R250: the error entry leaves every register. -/
theorem sameRegs_raise (s : State) (e : CmdError) : State.SameRegs s (s.raise e) := sameRegs_iff.2 (sameReg_raise s e)

/-- Settles O8: a command that fails goes to `State.raise`, which differs from the state before it only in what no command
reads. -/
theorem errorEntryWritesNothing : Obligations.ErrorEntryWritesNothing := by
  intro i s t h h0
  obtain ⟨e, rfl⟩ := exec_failed h h0
  exact ⟨sameRegs_raise s e, rfl, rfl, rfl, rfl, fun herr => ⟨if_pos herr, if_pos herr⟩,
    fun herr => ⟨if_neg herr, if_neg herr⟩, rfl, rfl, .inl rfl,
    fun j u u' => commandsIgnoreStatus j s (s.raise e) u u' (sameRegs_raise s e) rfl rfl⟩

/-! ## Warnings -/

/-- Settles O14: an error carries no warning, and a completion those that its command may raise. -/
theorem warningsOnlyFromTheirCommands : Obligations.WarningsOnlyFromTheirCommands := by
  intro i s t h
  rcases exec_does h with ⟨e, rfl⟩ | ⟨u, w, -, hw, rfl⟩
  · exact BitVec.zero_and
  · exact hw

/-! ## The bank a command needs -/

/-- R249: with a bank of another mode the command raises `NoCfg` with the mode found. -/
theorem exec_noCfg_other {i : Instr} {ms : List Mode} (hm : i.modes = some ms)
    (hw : ∀ o ∈ i.sources, s.isEmpty o = false) (hv : s.cfg.valid = true) (hmode : s.cfg.mode ∉ ms) :
    exec i s = .next (s.raise ⟨.noCfg, s.cfg.mode.code.toNat⟩) := by
  obtain ⟨f, hf⟩ := exec_needCfg hm hw
  rw [hf, needCfg_other hv hmode, error_bind, complete_error]

/-- Settles O23: the bank is checked as soon as the source is read. -/
theorem missingConfigurationRaisesNoCfg : Obligations.MissingConfigurationRaisesNoCfg :=
  fun _ _ _ hm hw => ⟨exec_noCfg hm hw, exec_noCfg_other hm hw⟩

/-! ## Computations that do not raise `Uninit` -/

/-- The computation ends with a value or with an error of another kind than `Uninit`. -/
def NoUninit {α : Type} (x : Cmd α) : Prop := ∀ e, x = .error e → e.kind ≠ .uninit

section

variable {α β : Type}

theorem noUninit_ok (a : α) : NoUninit (.ok a : Cmd α) := nofun

theorem noUninit_error {k : ErrorKind} {n : Int} (hk : k ≠ .uninit) : NoUninit (.error ⟨k, n⟩ : Cmd α) := by
  rintro _ ⟨⟩
  exact hk

theorem NoUninit.bind {x : Cmd α} {f : α → Cmd β} (hx : NoUninit x) (hf : ∀ a, NoUninit (f a)) :
    NoUninit (x >>= f) := by
  intro e he
  rcases bind_error_iff.1 he with hxe | ⟨a, -, hfe⟩
  · exact hx e hxe
  · exact hf a e hfe

theorem noUninit_failIf {c : Bool} {k : ErrorKind} {n : Int} (hk : k ≠ .uninit := by decide) :
    NoUninit (failIf c k n) := by
  cases c with
  | false => exact noUninit_ok ()
  | true => exact noUninit_error hk

/-- A check in front, with an error of another kind. -/
theorem NoUninit.check {c : Bool} {k : ErrorKind} {n : Int} {f : Unit → Cmd β} (hf : ∀ a, NoUninit (f a))
    (hk : k ≠ .uninit := by decide) : NoUninit (failIf c k n >>= f) := (noUninit_failIf hk).bind hf

theorem noUninit_source {c j : Nat} {v : Option α} (hv : v.isNone = false) : NoUninit (source c j v) := by
  obtain ⟨a, rfl⟩ := written_of_isEmpty hv
  exact noUninit_ok a

end

theorem noUninit_fits {p : Config.Params} {n : Int} : NoUninit (fits p n) := noUninit_failIf

/-- A buffer write, with which most commands end (R10). -/
theorem noUninit_fits_then {α : Type} {p : Config.Params} {n : Int} {a : α} {w : BitVec 4} :
    NoUninit (do let t ← (do fits p n; return a); return (t, w)) :=
  (noUninit_fits.bind fun _ => noUninit_ok _).bind fun _ => noUninit_ok _

theorem noUninit_needCfg {modes : List Mode} : NoUninit (s.needCfg modes) := by
  unfold State.needCfg
  split
  · exact noUninit_failIf
  · exact noUninit_error nofun

/-! ## The parts of the commands -/

theorem noUninit_bitIndex {l : List Byte} {p : Int} : NoUninit (bitIndex l p) :=
  NoUninit.check fun _ => noUninit_ok _

theorem noUninit_encodeK {k : Nat} {l : List Byte} : NoUninit (encodeK k l) :=
  NoUninit.check fun _ => noUninit_ok _

theorem noUninit_checkSymbols {bound : Nat} {q : List Word} : NoUninit (checkSymbols bound q) := by
  intro e he
  obtain ⟨i, -, rfl⟩ := checkSymbols_error_iff.1 he
  exact nofun

theorem noUninit_decodeK {k : Nat} {q : List Word} : NoUninit (decodeK k q) :=
  NoUninit.check fun _ => noUninit_checkSymbols.bind fun _ => NoUninit.check fun _ => noUninit_ok _

theorem noUninit_hamDecode {odd : Config.HamOdd} {l : List Byte} : NoUninit (hamDecode odd l) := by
  by_cases h : hamGroups l % 2 = 0 ∨ odd ≠ .fault
  · rw [hamDecode_eq_ok h]
    exact noUninit_ok _
  · obtain ⟨hodd, rfl⟩ : hamGroups l % 2 ≠ 0 ∧ odd = .fault := by simpa using h
    rw [hamDecode_fault (Nat.mod_two_ne_zero.1 hodd)]
    exact noUninit_error nofun

theorem noUninit_lowpass {p : Config.Params} {fs lo hi att : XNum} : NoUninit (lowpass p fs lo hi att) := by
  unfold lowpass
  split
  · exact noUninit_error nofun
  · exact noUninit_fits.bind fun _ => noUninit_ok _

theorem noUninit_construct {q : CfgRequest} : NoUninit (construct s q) := by
  intro e he
  obtain ⟨c, -, rfl⟩ := construct_error_iff.1 he
  exact nofun

theorem noUninit_checkTransmission {p : Config.Params} {c : ModemConfig} {q : List Word} :
    NoUninit (checkTransmission p c q) := noUninit_checkSymbols.bind fun _ => noUninit_fits

theorem noUninit_intervals {p : Config.Params} {c : ModemConfig} {n : Nat} : NoUninit (intervals p c n) :=
  NoUninit.check fun _ => noUninit_ok _

theorem noUninit_sliceInto {sd : SReg} {obs : List (List XNum)} : NoUninit (sliceInto s sd obs) := noUninit_fits_then

/-! ## Every command -/

/-- Every source of the command is written. -/
def SourcesWritten (i : Instr) (s : State) : Prop := ∀ o ∈ i.sources, s.isEmpty o = false

namespace SourcesWritten

variable {i : Instr} (h : SourcesWritten i s)
include h

theorem readX (j : XReg) (hj : .x j ∈ i.sources := by simp [Instr.sources]) : NoUninit (s.readX j) :=
  noUninit_source (h _ hj)

theorem readR (j : RReg) (hj : .r j ∈ i.sources := by simp [Instr.sources]) : NoUninit (s.readR j) :=
  noUninit_source (h _ hj)

theorem readB (j : BReg) (hj : .b j ∈ i.sources := by simp [Instr.sources]) : NoUninit (s.readB j) :=
  noUninit_source (h _ hj)

theorem readS (j : SReg) (hj : .s j ∈ i.sources := by simp [Instr.sources]) : NoUninit (s.readS j) :=
  noUninit_source (h _ hj)

theorem readF (j : FReg) (hj : .f j ∈ i.sources := by simp [Instr.sources]) : NoUninit (s.readF j) :=
  noUninit_source (h _ hj)

theorem readZ (j : ZReg) (hj : .z j ∈ i.sources := by simp [Instr.sources]) : NoUninit (s.readZ j) :=
  noUninit_source (h _ hj)

end SourcesWritten

/-- R247: past the reads of its sources no command raises `Uninit`. -/
theorem exec_noUninit {i : Instr} (h : SourcesWritten i s) : ∃ body, exec i s = s.complete body ∧ NoUninit body := by
  cases i with
  | rdbit xd bs xp =>
    exact ⟨_, rfl, (h.readB bs).bind fun _ => (h.readX xp).bind fun _ => noUninit_bitIndex.bind fun _ => noUninit_ok _⟩
  | rdbits sd bs => exact ⟨_, rfl, (h.readB bs).bind fun _ => noUninit_fits_then⟩
  | wrbit bd xp xv =>
    exact ⟨_, rfl, (h.readB bd).bind fun _ => (h.readX xp).bind fun _ => (h.readX xv).bind fun _ =>
      NoUninit.check fun _ => noUninit_bitIndex.bind fun _ => noUninit_ok _⟩
  | enc2 sd bs | enc4 sd bs | enc8 sd bs | enc16 sd bs | enc32 sd bs | enc64 sd bs | enc256 sd bs =>
    exact ⟨_, rfl, (h.readB bs).bind fun _ => noUninit_encodeK.bind fun _ => noUninit_fits_then⟩
  | dec2 bd ss | dec4 bd ss | dec8 bd ss | dec16 bd ss | dec32 bd ss | dec64 bd ss | dec256 bd ss =>
    exact ⟨_, rfl, (h.readS ss).bind fun _ => noUninit_decodeK.bind fun _ => noUninit_fits_then⟩
  | eccencNone bd bs | eccencRaw bd bs | eccdecNone bd bs | eccdecRaw bd bs | hamenc bd bs =>
    exact ⟨_, rfl, (h.readB bs).bind fun _ => noUninit_fits_then⟩
  | hamdec bd bs => exact ⟨_, rfl, (h.readB bs).bind fun _ => noUninit_hamDecode.bind fun _ => noUninit_fits_then⟩
  | timearr fd rfs xn =>
    exact ⟨_, rfl, (h.readR rfs).bind fun _ => (h.readX xn).bind fun _ => NoUninit.check fun _ =>
      NoUninit.check fun _ => noUninit_fits.bind fun _ => noUninit_fits_then⟩
  | sps rd rfs rbaud =>
    exact ⟨_, rfl, (h.readR rfs).bind fun _ => (h.readR rbaud).bind fun _ => NoUninit.check fun _ =>
      NoUninit.check fun _ => noUninit_ok _⟩
  | shres fd ft rbaud fv =>
    exact ⟨_, rfl, (h.readF ft).bind fun _ => (h.readR rbaud).bind fun _ => (h.readF fv).bind fun _ =>
      NoUninit.check fun _ => noUninit_fits_then⟩
  | gausswin fd rfs rsigma =>
    exact ⟨_, rfl, (h.readR rfs).bind fun _ => (h.readR rsigma).bind fun _ => NoUninit.check fun _ =>
      NoUninit.check fun _ => noUninit_fits.bind fun _ => noUninit_fits_then⟩
  | lpfir fd rfs rlo rhi =>
    exact ⟨_, rfl, (h.readR rfs).bind fun _ => (h.readR rlo).bind fun _ => (h.readR rhi).bind fun _ =>
      noUninit_lowpass.bind fun _ => noUninit_fits_then⟩
  | lpfira fd rfs rlo rhi ratt =>
    exact ⟨_, rfl, (h.readR rfs).bind fun _ => (h.readR rlo).bind fun _ => (h.readR rhi).bind fun _ =>
      (h.readR ratt).bind fun _ => noUninit_lowpass.bind fun _ => noUninit_fits_then⟩
  | goertz zd fd rfreq rfs =>
    exact ⟨_, rfl, (h.readR rfreq).bind fun _ => (h.readR rfs).bind fun _ => NoUninit.check fun _ =>
      NoUninit.check fun _ => (noUninit_fits.bind fun _ => noUninit_ok _).bind fun _ => noUninit_fits_then⟩
  | avgint rd fa rbegin rend =>
    exact ⟨_, rfl, (h.readF fa).bind fun _ => (h.readR rbegin).bind fun _ => (h.readR rend).bind fun _ =>
      NoUninit.check fun _ => NoUninit.check fun _ => NoUninit.check fun _ => noUninit_ok _⟩
  | conv fd fa fk =>
    exact ⟨_, rfl, (h.readF fa).bind fun _ => (h.readF fk).bind fun _ => NoUninit.check fun _ =>
      noUninit_fits_then⟩
  | cfgask rfs rcar rbaud famp =>
    exact ⟨_, rfl, (h.readR rfs).bind fun _ => (h.readR rcar).bind fun _ => (h.readR rbaud).bind fun _ =>
      (h.readF famp).bind fun _ => noUninit_construct⟩
  | cfgfsk rfs ramp rbaud ffreq =>
    exact ⟨_, rfl, (h.readR rfs).bind fun _ => (h.readR ramp).bind fun _ => (h.readR rbaud).bind fun _ =>
      (h.readF ffreq).bind fun _ => noUninit_construct⟩
  | cfgpsk rfs rcar ramp rbaud fph =>
    exact ⟨_, rfl, (h.readR rfs).bind fun _ => (h.readR rcar).bind fun _ => (h.readR ramp).bind fun _ =>
      (h.readR rbaud).bind fun _ => (h.readF fph).bind fun _ => noUninit_construct⟩
  | cfgqam rfs rcar rbaud zcon =>
    exact ⟨_, rfl, (h.readR rfs).bind fun _ => (h.readR rcar).bind fun _ => (h.readR rbaud).bind fun _ =>
      (h.readZ zcon).bind fun _ => noUninit_construct⟩
  | slice sd fobs =>
    exact ⟨_, rfl, (h.readF fobs).bind fun _ => noUninit_needCfg.bind fun _ => NoUninit.check fun _ =>
      NoUninit.check fun _ => noUninit_sliceInto⟩
  | slicez sd zobs =>
    exact ⟨_, rfl, (h.readZ zobs).bind fun _ => noUninit_needCfg.bind fun _ => NoUninit.check fun _ =>
      noUninit_sliceInto⟩
  | modask fd ss | modfsk fd ss | modpsk fd ss | modqam fd ss =>
    exact ⟨_, rfl, (h.readS ss).bind fun _ => noUninit_needCfg.bind fun _ => noUninit_checkTransmission.bind fun _ =>
      noUninit_fits_then⟩
  | demask sd fx | dempsk sd fx | demqam sd fx =>
    exact ⟨_, rfl, (h.readF fx).bind fun _ => noUninit_needCfg.bind fun _ => noUninit_intervals.bind fun _ =>
      noUninit_lowpass.bind fun _ => noUninit_sliceInto⟩
  | demfsk sd fx =>
    exact ⟨_, rfl, (h.readF fx).bind fun _ => noUninit_needCfg.bind fun _ => noUninit_intervals.bind fun _ =>
      NoUninit.check fun _ => noUninit_sliceInto⟩

/-- R240: no other kind of error has the code of `Uninit`. -/
theorem code_eq_uninit_iff {k : ErrorKind} : k.code = ErrorKind.uninit.code ↔ k = .uninit := by cases k <;> decide

theorem complete_err_ne_uninit {body : Cmd (State × BitVec 4)} (hb : NoUninit body) (h : s.complete body = .next t) :
    t.response.err ≠ ErrorKind.uninit.code := by
  rcases complete_next_iff.1 h with ⟨u, w, -, rfl⟩ | ⟨e, he, rfl⟩
  · exact (code_ne_zero .uninit).symm
  · exact fun hcode => hb e he (code_eq_uninit_iff.1 hcode)

/-- Settles O22: the sources are read first, in field order, and only a read raises `Uninit`. -/
theorem firstEmptySourceRaisesUninit : Obligations.FirstEmptySourceRaisesUninit := by
  refine fun i s => ⟨fun _ ho => exec_uninit ho, fun hw t ht => ?_⟩
  obtain ⟨body, hbody, hno⟩ := exec_noUninit (i := i) hw
  exact complete_err_ne_uninit hno (hbody ▸ ht)

end Sys2Proof.Machine
end

section
/-! SUPPORT. The next state of every step, and the end of a run (spec/70_reset_and_hazards.md R277, R278;
spec/60_exceptions.md R251, R262). -/

namespace Sys2Proof.Machine

variable {s : State}

/-! ## Every step answers a next state -/

/-- R277: a legal word runs its command, and an illegal one has the error entry. -/
theorem issue_next (w : CmdWord) (s : State) : ∃ t, issue w s = .next t := by
  cases hd : decode w with
  | ok i => rw [issue_legal hd]; exact exec_next i s
  | error r => exact ⟨_, issue_illegal hd s⟩

/-- R25: the fault is for a `pc` beyond the program only. -/
theorem step_next (hpc : s.pc ≤ s.program.length) : ∃ t, step s = .next t := by
  cases hf : s.fetch with
  | some w => rw [step_fetched hf]; exact issue_next w s
  | none => exact ⟨s, step_idle hpc hf⟩

/-- Settles O7: a command ends in completion or in the error entry, and the invariant keeps `pc` inside the program. -/
theorem everyCommandAnswersNext : Obligations.EveryCommandAnswersNext :=
  ⟨exec_next, fun _ hs => step_next hs.pcInProgram⟩

/-! ## The end of a run -/

/-- R251, R262: a run that is over has no word to fetch. -/
theorem fetch_of_runOver (h : s.runOver) : s.fetch = none := by
  refine Option.eq_none_iff_forall_ne_some.2 fun w hw => ?_
  rcases h with hrun | hpc
  · obtain ⟨hrunning, -⟩ := fetch_eq_some_iff.1 hw
    exact Bool.false_ne_true (hrun.symm.trans hrunning)
  · exact (pc_lt_of_fetch hw).ne hpc

/-- Settles O6: after the end of a run nothing is fetched; the two host actions set the sequencer afresh. -/
theorem endedRunsStayEnded : Obligations.EndedRunsStayEnded := by
  refine ⟨fun s hpc hover => step_idle hpc (fetch_of_runOver hover), fun s t => ⟨fun h => ?_, fun prog h => ?_⟩⟩
  case refine_1 => cases h; exact ⟨rfl, rfl⟩
  case refine_2 => cases h; exact ⟨rfl, rfl, rfl⟩

end Sys2Proof.Machine
end
